-- ==== Sys2Proof/Word.lean ====
section
/-! DEFINITION. The bytes both serial links carry. -/

namespace Sys2Proof

/-- One byte of a hub frame or a lane frame (R20, R172). -/
abbrev Byte := BitVec 8

/-- A run of bytes: a payload, a serial, an asset tag, a profile's content. -/
abbrev Bytes := List Byte

end Sys2Proof
end

