-- ==== Sys2Proof/Syntax.lean ====
section
/-! DEFINITION. The commands: one constructor for each row of spec/opcode_table.json, in the table's order of families.
A hub request carries its frame's tag and payload (R172, R173; log 3); a sample carries what it reads (log 4); a timer's
expiry carries whose timer it is (log 2). -/

namespace Sys2Proof

/-- Levels of the input pins, as COMMIT_GEOMETRY's inventory samples them; bit n-1 is pin n, set when the pin is high (R8, R9). -/
structure Inputs where
  pres : BitVec 36
  door : BitVec 36
  lpos : BitVec 36
deriving DecidableEq, Repr

/-- A run of bytes at HUB_RX, and the levels of the input pins that a frame it completes may read (R172; logs 3, 4). -/
structure RxRun where
  bytes : Bytes
  inputs : Inputs
deriving DecidableEq, Repr

/-- Why HUB_RX_BYTE_FAULT discards the partial frame (R172). -/
inductive HubByteFault where
  /-- A byte arrived with its stop bit low. -/
  | stopLow
  /-- The second length byte gave a length above 512. -/
  | lengthOver
deriving DecidableEq, Repr

/-- Why ANSWER_BYTE_FAULT ends the attempt (R25, points 2 and 3). -/
inductive LaneByteFault where
  /-- The first byte received is not 0x5A. -/
  | wrongStart
  /-- A byte arrived with its stop bit low. -/
  | stopLow
  /-- The length byte exceeds 64. -/
  | lengthOver
deriving DecidableEq, Repr

/-- Which call a STOP_HANDSHAKE answers (R22). -/
inductive StopCall where
  | pause
  | abort
deriving DecidableEq, Repr

/-- What TSENSE reads: an open sensor, or a reading in °C (R95). -/
inductive TempReading where
  | openSensor
  | celsius (t : Int)
deriving DecidableEq, Repr

/-- The two latch motor drivers (R155). -/
inductive DriverId where
  | a
  | b
deriving DecidableEq, Repr

/-- The commands of the table. -/
inductive Instr where
  -- reset causes (R1)
  | powerOn
  | resetNLow
  | resetNHigh
  -- the hub receiver and the output queue (R172 to R174)
  | hubRxGapTimeout
  | hubFrameCorrupt (run : RxRun)
  | hubRxByteFault (f : HubByteFault)
  | unknownKind (kind tag : Byte) (payload : Bytes)
  | hubFrameSent
  -- hub requests
  | getCart (tag : Byte) (payload : Bytes)
  | getBay (tag : Byte) (payload : Bytes)
  | resetPart (tag : Byte) (payload : Bytes)
  | resetBay (tag : Byte) (payload : Bytes)
  | commitGeometry (tag : Byte) (payload : Bytes) (inputs : Inputs)
  | setBays (tag : Byte) (payload : Bytes)
  | setMode (tag : Byte) (payload : Bytes)
  | renegotiate (tag : Byte) (payload : Bytes)
  | forceContract (tag : Byte) (payload : Bytes)
  | wakeBay (tag : Byte) (payload : Bytes)
  | setLaneFlags (tag : Byte) (payload : Bytes)
  | setBudget (tag : Byte) (payload : Bytes)
  | setThresholds (tag : Byte) (payload : Bytes)
  | setPolicy (tag : Byte) (payload : Bytes)
  | getBudget (tag : Byte) (payload : Bytes)
  | clearFault (tag : Byte) (payload : Bytes)
  | profileBegin (tag : Byte) (payload : Bytes)
  | profileData (tag : Byte) (payload : Bytes)
  | profileEnd (tag : Byte) (payload : Bytes)
  | profileDrop (tag : Byte) (payload : Bytes)
  | getProfiles (tag : Byte) (payload : Bytes)
  | catalogSet (tag : Byte) (payload : Bytes)
  | catalogDrop (tag : Byte) (payload : Bytes)
  | queueJob (tag : Byte) (payload : Bytes)
  | cancelJob (tag : Byte) (payload : Bytes)
  | declineAsk (tag : Byte) (payload : Bytes)
  | setChannels (tag : Byte) (payload : Bytes)
  | getJobs (tag : Byte) (payload : Bytes)
  | rosterPut (tag : Byte) (payload : Bytes)
  | rosterRemove (tag : Byte) (payload : Bytes)
  | rosterGet (tag : Byte) (payload : Bytes)
  | present (tag : Byte) (payload : Bytes)
  | restoreCheckout (tag : Byte) (payload : Bytes)
  | acceptForeign (tag : Byte) (payload : Bytes)
  | clearAlarm (tag : Byte) (payload : Bytes) (lpos : Bool)
  | setCustody (tag : Byte) (payload : Bytes)
  | setNotices (tag : Byte) (payload : Bytes)
  | readEvents (tag : Byte) (payload : Bytes)
  -- the lanes: calls, attempts, the WAKE pattern (R24 to R31)
  | callSent (bay : Nat)
  | clash (bay : Nat)
  | noAnswer (bay : Nat)
  | answerIncomplete (bay : Nat)
  | answerByteFault (bay : Nat) (f : LaneByteFault)
  | badAnswer (bay : Nat) (kind : Byte) (payload : Bytes) (crc : Byte)
  | retry (bay : Nat)
  | wakeAttemptDue (bay : Nat)
  | wakeWindowEnd (bay : Nat)
  | quietEnd (bay : Nat)
  | wakePulseEnd (bay : Nat)
  -- the answers (R20 to R23)
  | ability (bay : Nat) (payload : Bytes)
  | confirmAnswer (bay : Nat) (payload : Bytes)
  | status (bay : Nat) (payload : Bytes)
  | identityChunk (bay : Nat) (payload : Bytes)
  | chunkHandshake (bay : Nat) (payload : Bytes)
  | envelopeHandshake (bay : Nat) (payload : Bytes)
  | stopHandshake (bay : Nat) (call : StopCall) (payload : Bytes)
  | receipt (bay : Nat) (payload : Bytes)
  -- presence and the session timers (R37, R42, R45, R46, R51, R57)
  | presenceChange (bay : Nat) (high : Bool)
  | presenceDebounce (bay : Nat)
  | greetingHoldExpiry (bay : Nat)
  | breakExpiry (bay : Nat)
  | fallbackExpiry (bay : Nat)
  | pollTimer (bay : Nat)
  | refreshExpiry (bay : Nat)
  -- the allocator, the stages and the cart monitor (R65 to R97)
  | scheduledPass
  | periodicTimer
  | rampTick
  | stageSample (bay : Nat) (draw : BitVec 16) (millivolts : Nat)
  | trip (bay : Nat)
  | coolOffExpiry (bay : Nat)
  | tsenseSample (r : TempReading)
  | wsenseSample (w : BitVec 16)
  -- the profile store and the job scheduler (R105 to R125)
  | chunkResendExpiry (bay : Nat)
  | scanTimer
  | settleExpiry (bay : Nat)
  | envelopeResendExpiry (bay : Nat)
  | stallExpiry (bay : Nat)
  | timeLimitExpiry (bay : Nat)
  | drainExpiry (channel : Nat)
  -- the latch controller (R156 to R161)
  | motorPulseEnd (driver : DriverId)
  | positionCheck (driver : DriverId) (high : Bool)
  | retryWaitEnd (driver : DriverId)
  | doorChange (unit : Nat) (high : Bool)
  | doorDebounce (unit : Nat)
  | unlatchWindowExpiry (unit : Nat)
  | ajarLimit (unit : Nat)
deriving DecidableEq, Repr

end Sys2Proof
end

