-- ==== Sys2Proof/Decode.lean ====
section
/-! DEFINITION. The opcode table gives no row bits (every row's "fields" is empty), so no word spells a command (log 25). -/

namespace Sys2Proof

/-- The command a word spells by the table's bits: none, since the table gives none. -/
def decodeTableWord (_nbits _w : Nat) : Option Instr := none

end Sys2Proof
end

