-- ==== Sys2Proof/Config.lean ====
section
/-! DEFINITION. Fixed values of the part, and the free values: what the spec leaves open (log 11). -/

namespace Sys2Proof.Config

/-! ## Timers, in milliseconds -/

/-- Presence debounce (R37). -/
def presenceDebounce : Nat := 200
/-- Greeting hold timer (R42). -/
def greetingHold : Nat := 200
/-- BREAK timer (R45). -/
def breakTime : Nat := 800
/-- Fallback timer (R46). -/
def fallbackTime : Nat := 30000
/-- Poll timer (R51). -/
def pollTime : Nat := 1000
/-- Refresh timer of an asleep session (R57). -/
def refreshTime : Nat := 300000
/-- The WAKE pattern (R31). -/
def wakePulse : Nat := 20
/-- Spacing of the wake plan's attempts (R26). -/
def wakeStep : Nat := 250
/-- The wake window (R26). -/
def wakeWindow : Nat := 2000
/-- QUIET after an answer (R19). -/
def quietAnswer : Nat := 1
/-- QUIET after an abandoned attempt (R27). -/
def quietAbandon : Nat := 15
/-- Answer window: no start bit (R25.1). -/
def noAnswerTime : Nat := 4
/-- Answer window: frame not complete (R25.4). -/
def answerTime : Nat := 15
/-- Spacing of the ordinary plan (R26). -/
def ordinarySpacing : Nat := 20
/-- Spacing of the greeting plan (R26). -/
def greetingSpacing : Nat := 200
/-- Spacing of normal passes (R65). -/
def passSpacing : Nat := 100
/-- Periodic timer (R67). -/
def periodicTime : Nat := 10000
/-- Ramp timer (R85). -/
def rampTime : Nat := 250
/-- Stage sampling (R88). -/
def stageSampleTime : Nat := 100
/-- Trip filter (R89). -/
def tripFilter : Nat := 500
/-- Cool-off of a TRIPPED stage (R90). -/
def coolOff : Nat := 5000
/-- How far back trips count (R90). -/
def tripMemory : Nat := 600000
/-- Temperature sampling (R95). -/
def tempSampleTime : Nat := 1000
/-- Wall-input sampling (R97). -/
def winSampleTime : Nat := 100
/-- Re-send of a CHUNK after HOLD (R105). -/
def chunkResend : Nat := 100
/-- Drain timer of a channel (R117). -/
def drainTime : Nat := 50
/-- Scan timer (R119). -/
def scanTime : Nat := 1000
/-- Settle timer of an OFFERED job (R122). -/
def settleTime : Nat := 50
/-- Re-send of an ENVELOPE after HOLD (R124). -/
def envelopeResend : Nat := 2000
/-- Stall timer (R124). -/
def stallTime : Nat := 30000
/-- A latch motor pulse (R156). -/
def motorPulse : Nat := 300
/-- From the end of a pulse to its position check (R156). -/
def checkWait : Nat := 50
/-- From an unmatched check to the second pulse (R156). -/
def retryWait : Nat := 500
/-- Door debounce (R158). -/
def doorDebounce : Nat := 50
/-- Unlatch window (R160). -/
def unlatchWindow : Nat := 10000

/-! ## Power, in tenths of a watt -/

/-- Latch reserve (section 4.4). -/
def latchReserve : Nat := 120
/-- Job floor (section 4.4). -/
def jobFloor : Nat := 75
/-- Base floor and maintenance level (section 4.4). -/
def baseFloor : Nat := 25
/-- Slack below the target that sets a demand cap, and the headroom the cap leaves (R93). -/
def slackMargin : Nat := 30
/-- Draw this close to the target counts towards clearing the cap (R94). -/
def clearMargin : Nat := 5
/-- A ramp tick's rise (R85). -/
def rampStep : Nat := 30
/-- Stages switched on in one tick (R85). -/
def startsPerTick : Nat := 4

/-! ## Capacities and counts -/

/-- Samples a slack window holds (R93). -/
def windowSize : Nat := 100
/-- Samples that clear a demand cap (R94). -/
def capClearCount : Nat := 20
/-- Samples that make an overrun episode (R97). -/
def overrunCount : Nat := 20
/-- The profile store's capacity in bytes (R98). -/
def storeBytes : Nat := 16384
/-- Longest profile (R99). -/
def profileBytes : Nat := 4096
/-- Most data bytes in one PROFILE_DATA (R100). -/
def dataBytes : Nat := 480
/-- Data bytes of one CHUNK (R104). -/
def chunkBytes : Nat := 48
/-- Consecutive HOLDs that end a serve (R105). -/
def serveHolds : Nat := 10
/-- Catalog entries (R108). -/
def catalogSize : Nat := 16
/-- Jobs the scheduler holds (R112). -/
def jobLimit : Nat := 48
/-- HOLDs to an ENVELOPE that fail the job (R124). -/
def envelopeHolds : Nat := 5
/-- Roster size (R131). -/
def rosterSize : Nat := 256
/-- Entries in one ROSTER_PUT or ROSTER_GET reply, and jobs in one QUEUE reply (R130, R132, R133). -/
def pageSize : Nat := 32

/-! ## Free values

The spec gives GET_BAY's time open two bytes and its removal order four (section 11.4) and says nothing of values that do
not fit; nothing constrains what is sent then. -/

/-- What GET_BAY sends for a time open, in seconds, that two bytes cannot hold (log 11). -/
opaque freeTimeOpen : Nat → BitVec 16

/-- What GET_BAY sends for a removal order that four bytes cannot hold (log 11). -/
opaque freeRemovalOrder : Nat → BitVec 32

end Sys2Proof.Config
end

