-- ==== Sys2Proof/Machine/State.lean ====
section
/-! DEFINITION. What the FZ36 holds: plain data, one field for each piece of state the spec gives the part (INVENTORY.md),
the queue of waiting commands, and the state right after part reset (R1). Times are milliseconds of the clock `now`;
a timer is the time it expires at, absent while it is stopped (log 1, log 2). Powers are tenths of a watt. -/

namespace Sys2Proof.Machine

/-! ## Names the spec gives -/

/-- Power levels a contract, a cap or a forced level may hold (R40). P0 is only the ceiling of OFF. -/
inductive Level where
  | p1 | p2 | p3 | p4 | p5
deriving DecidableEq, Repr

/-- Cart modes (R165). -/
inductive Mode where
  | secure | classMode | night
deriving DecidableEq, Repr

/-- Door topology of a rank (01, section 1.3). -/
inductive Topology where
  | bayDoors | shelfDoor
deriving DecidableEq, Repr

/-- Polarity of a switch input (01, section 1.3). -/
inductive Polarity where
  | activeHigh | activeLow
deriving DecidableEq, Repr

/-- Session states, in the order of R39's table. -/
inductive SessState where
  | off | greeting | confirming | identifying | contracted | asleep | waking | breakWait | fallback
deriving DecidableEq, Repr

/-- Where a contract came from (R17, R43, R46, R48). -/
inductive Source where
  | negotiated | base | forced
deriving DecidableEq, Repr

/-- Charge states of a tablet (R21, R52). -/
inductive Charge where
  | charging | full | idle | fault
deriving DecidableEq, Repr

/-- Kinds of ask (R54). -/
inductive AskKind where
  | profile | job
deriving DecidableEq, Repr

/-- The reply to send to an ask, and the handshakes of R23. -/
inductive Reply where
  | hold | accept | refuse
deriving DecidableEq, Repr

/-- Why an attempt failed (R25, R26). -/
inductive FailKind where
  | noAnswer | short | corrupt | clash | stray
deriving DecidableEq, Repr

/-- What the lane is doing (R19). -/
inductive LaneAct where
  | idle | sending | listening | spacing | wakePulse | quiet
deriving DecidableEq, Repr

/-- Attempt plans (R26). -/
inductive Plan where
  | ordinary | greeting | fallback | wake
deriving DecidableEq, Repr

/-- The nine calls with their fields (R21, R22). -/
inductive Call where
  | hello (cartId bay : Nat)
  | confirm (level : Level) (offered tablet : BitVec 4)
  | poll (reply : Option Reply) (applied jobTag : Nat)
  | identRead (offset : Nat)
  | chunk (id offset : Nat) (last : Bool) (data : Bytes)
  | envelope (tag image version size channel : Nat) (resume : Bool)
  | pause (tag : Nat)
  | abort (tag : Nat)
  | receiptRead (tag : Nat)
deriving DecidableEq, Repr

/-- Stage states (R82). -/
inductive StageState where
  | off | starting | on | tripped | faulted
deriving DecidableEq, Repr

/-- Job states, in the order of the State field of 7.2 (R111). ADMITTING and SUSPENDED begin and end in one event; DONE and FAILED leave the scheduler in it. -/
inductive JobState where
  | queued | waking | admitting | offered | running | suspended | receipt | done | failed
deriving DecidableEq, Repr

/-- Who caused a job (07, section 7.2). -/
inductive Origin where
  | hub | ask | checkin
deriving DecidableEq, Repr

/-- Job reason codes, in the order of their codes (11, section 11.4); `ok` is the reason of DONE. -/
inductive JobReason where
  | ok | cancelled | released | tabletRemoved | laneLost | bayDisabled | bayReset | wakeFailed | noIdentity | wrongModel
  | refused | tabletBusy | stalled | timeout | rejected | corrupt | noSpace
deriving DecidableEq, Repr

/-- States of a profile slot (06, section 6.1). -/
inductive SlotState where
  | empty | loading | ready
deriving DecidableEq, Repr

/-- How a serve ended (06, section 6.4). -/
inductive ServeEnd where
  | complete | heldOut | declined | withdrawn | abandoned
deriving DecidableEq, Repr

/-- Allocation policy (R63). -/
inductive Policy where
  | classed | rotate
deriving DecidableEq, Repr

/-- What asks for a pass: a normal request (R65), or an urgent cause (R66). -/
inductive PassRequest where
  | normal | urgent
deriving DecidableEq, Repr

/-- Kinds of pass (R64); an admission pass names its candidate bay. -/
inductive PassKind where
  | normal | urgent | admission (candidate : Nat)
deriving DecidableEq, Repr

/-- Roles of a credential (08, section 8.1). -/
inductive Role where
  | student | teacher | technician
deriving DecidableEq, Repr

/-- What a presentation asks (R135). -/
inductive Intent where
  | take | returnIt | service
deriving DecidableEq, Repr

/-- Custody states (08, section 8.2). -/
inductive CustState where
  | vacant | stocked | reconciling
deriving DecidableEq, Repr

/-- The latest identity outcome for the tablet in a bay (08, section 8.2). -/
inductive Seen where
  | none | absent | serial (s : Bytes)
deriving DecidableEq, Repr

/-- Kinds of custody note (R134). -/
inductive NoteKind where
  | checkout | returned | returnedElsewhere | unverified | foreign | missing | accepted | restored
deriving DecidableEq, Repr

/-- Alarm kinds, in the order of their bits (R148, 11 section 11.4). -/
inductive Alarm where
  | forced | ajar | missing | foreign | latch
deriving DecidableEq, Repr

/-- How a release group ended (R141). -/
inductive GroupOutcome where
  | cancelled | latchFault | taken | lapsed
deriving DecidableEq, Repr

/-- States of a unit entry of a release group (08, section 8.4). -/
inductive EntryState where
  | pending | opened | closed | failed | withdrawn
deriving DecidableEq, Repr

/-- Latch unit states, in the order of R153's table. -/
inductive UnitState where
  | locked | unlockPending | unlocking | unlatched | opened | lockPending | locking | forced | jammed
deriving DecidableEq, Repr

/-- Kinds of move (R154). -/
inductive MoveKind where
  | lock | unlock
deriving DecidableEq, Repr

/-- Phases of a move a driver holds (R156). -/
inductive MovePhase where
  | pulse | checkWait | retryWait
deriving DecidableEq, Repr

/-- Indicator codes (R164), in the order of the lamp table. -/
inductive Indicator where
  | fault | take | returnHere | working | ready | charging | off
deriving DecidableEq, Repr

/-- Kinds of bay event, in bit order (R175). -/
inductive BayEvent where
  | session | lost | identity | power | ask | profile | job | custody | alarm | latch
deriving DecidableEq, Repr

/-- Kinds of cart event, in bit order (R175). -/
inductive CartEvent where
  | thermal | overrun | queueFull
deriving DecidableEq, Repr

/-! ## Hub link (chapter 11) -/

/-- A frame to the hub: kind, tag, payload. Its wire form is `Frame.wire`. -/
structure Frame where
  kind : Byte
  tag : Byte
  payload : Bytes
deriving DecidableEq, Repr

/-- Which place of the output queue a frame came from (R174). -/
inductive OutClass where
  | reply | busy | notice
deriving DecidableEq, Repr

structure Hub where
  rx : Bytes
  receiverOpen : Bool
  replyPending : Bool
  noticeOutstanding : Bool
  mask : BitVec 13
  sending : Option (OutClass × Frame)
  reply : Option Frame
  busy : Option Frame
  notice : Bool
  resetDue : Bool
deriving DecidableEq, Repr

/-! ## Geometry (chapter 1) -/

structure RankGeo where
  topology : Topology
  maxLevel : Level
  presPol : Polarity
  doorPol : Polarity
  lposPol : Polarity
deriving DecidableEq, Repr

structure Geometry where
  cartId : Nat
  channels : Nat
  ranks : List RankGeo
deriving DecidableEq, Repr

/-! ## Power allocator and cart monitor (chapters 4 and 5) -/

/-- The figures of the latest pass (R81). -/
structure Summary where
  kind : PassKind
  admitted : Bool
  temp : Option Int
  kT : Nat
  hold : Bool
  derated : Nat
  etaEff : Nat
  available : Nat
  empties : Nat
  insertion : Nat
  distributable : Nat
  total : Nat
  classTotals : List Nat
  starved : Nat
  origin : Nat
deriving DecidableEq, Repr

structure Alloc where
  ceiling : Nat
  overhead : Nat
  eta : Nat
  slots : Nat
  policy : Policy
  low : Nat
  ready : Nat
  trim : Nat
  origin : Nat
  scheduled : Option Nat
  lastPass : Option Nat
  periodic : Option Nat
  summary : Option Summary
deriving DecidableEq, Repr

structure Monitor where
  temp : Option Int
  sensorFault : Bool
  hold : Bool
  factor : Nat
  win : BitVec 16
  overruns : Nat
  armed : Bool
  tempDue : Nat
  winDue : Nat
deriving DecidableEq, Repr

/-! ## Profile store (chapter 6) -/

/-- A profile slot; bytes written is the length of `content`. -/
structure Slot where
  num : Nat
  state : SlotState
  id : Nat
  version : Nat
  length : Nat
  content : Bytes
  serves : Nat
deriving DecidableEq, Repr

/-! ## Job scheduler (chapter 7) -/

structure Image where
  id : Nat
  version : Nat
  size : Nat
  minutes : Nat
  models : List Nat
  auto : Bool
deriving DecidableEq, Repr

structure Job where
  tag : Nat
  bay : Nat
  image : Nat
  priority : Nat
  origin : Origin
  state : JobState
  resume : Bool
  channel : Option Nat
  posted : Bool
  holds : Nat
  progress : Nat
  baseline : Option Nat
  settleAt : Option Nat
  resendAt : Option Nat
  stallAt : Option Nat
  limitAt : Option Nat
deriving DecidableEq, Repr

/-- What a channel of the matrix is doing (R117). -/
inductive ChanState where
  | idle
  | assigned (bay tag : Nat)
  | draining (until_ : Nat)
deriving DecidableEq, Repr

structure Channel where
  num : Nat
  enabled : Bool
  state : ChanState
deriving DecidableEq, Repr

structure Sched where
  catalog : List Image
  nextTag : Nat
  queue : List Job
  active : List Job
  channels : List Channel
  scanAt : Option Nat
deriving DecidableEq, Repr

/-! ## Roster and custody (chapter 8) -/

structure Credential where
  num : Nat
  role : Role
  limit : Nat
  assigned : Option Nat
  active : Bool
deriving DecidableEq, Repr

/-- A unit entry of a release group (08, section 8.4). `handedBack` once R162 has returned the unit to service: the entry keeps
what the group's outcome reads, and the unit belongs to the group no longer (log 14). -/
structure UnitEntry where
  unit : Nat
  state : EntryState
  doorOpened : Bool
  lapsed : Bool
  latchFault : Bool
  handedBack : Bool
deriving DecidableEq, Repr

structure Group where
  cred : Nat
  intent : Intent
  remaining : Nat
  selected : List Nat
  entries : List UnitEntry
  cancelled : Bool
  taken : Nat
  inserted : Nat
  missing : Nat
deriving DecidableEq, Repr

structure Note where
  kind : NoteKind
  cred : Option Nat
  serial : Option Bytes
  other : Option Nat
  unattended : Bool
deriving DecidableEq, Repr

structure LastRelease where
  cred : Nat
  intent : Intent
  outcome : GroupOutcome
  taken : Nat
  inserted : Nat
  missing : Nat
deriving DecidableEq, Repr

/-- The taken mark: its removal order and the serial taken (R142). -/
structure TakenMark where
  order : Nat
  serial : Seen
deriving DecidableEq, Repr

/-- The custody part of a bay record (08, section 8.2). -/
structure Cust where
  state : CustState
  borrower : Option Nat
  expected : Option Bytes
  taken : Option TakenMark
  inserted : Bool
  unattended : Bool
  seen : Seen
  alarms : BitVec 5
  note : Option Note
  release : Option LastRelease
deriving DecidableEq, Repr

structure CustodyCart where
  releaseMin : Nat
  ajarLimit : Nat
  removals : Nat
  groups : List Group
deriving DecidableEq, Repr

/-! ## Latch controller (chapter 9) -/

structure LatchUnit where
  num : Nat
  rank : Nat
  bays : List Nat
  state : UnitState
  doorOpen : Bool
  doorAt : Option Nat
  posLocked : Bool
  openedAt : Option Nat
  ajarReported : Bool
  windowAt : Option Nat
deriving DecidableEq, Repr

structure Move where
  unit : Nat
  kind : MoveKind
deriving DecidableEq, Repr

/-- A move held by a driver: its phase, attempt (1 or 2) and the time the phase ends (R156). -/
structure Drive where
  move : Move
  phase : MovePhase
  attempt : Nat
  dueAt : Nat
deriving DecidableEq, Repr

structure Latch where
  units : List LatchUnit
  queue : List Move
  drvA : Option Drive
  drvB : Option Drive
deriving DecidableEq, Repr

/-! ## Bay record (R17) -/

/-- A contract, or a proposal of one (R43, R46, R48). -/
structure Contract where
  level : Level
  source : Source
  offered : BitVec 4
  tablet : Option (BitVec 4)
deriving DecidableEq, Repr

/-- What ABILITY reported (R42): the accepted level mask and the features IDENT (bit 0), PROFILE (1), JOB (2) (log 40). -/
structure Ability where
  mask : BitVec 4
  features : BitVec 3
deriving DecidableEq, Repr

/-- The status record (R52). Attention flags: IDENT_CHANGED, ASK, RECEIPT_READY, RENEGOTIATE, SLEEPING from bit 0. -/
structure Status where
  soc : Option Nat
  charge : Charge
  temp : Int
  attention : BitVec 5
  progress : Nat
deriving DecidableEq, Repr

/-- The tablet's identity record (03, section 3.6). -/
structure Identity where
  serial : Bytes
  model : Nat
  agent : Nat
  image : Nat
  version : Nat
  capacity : Nat
  asset : Option Bytes
  enrolled : Option (Nat × Nat)
deriving DecidableEq, Repr

/-- The identity read buffer (R50): the total length the first answer reported, the bytes held, and the identity held before the
read, with which the outcome is compared at its end. -/
structure ReadBuf where
  total : Option Nat
  bytes : Bytes
  before : Option Identity
deriving DecidableEq, Repr

/-- An outstanding ask (R33, R54); `decided` once its owner or the hub has made the reply to send (log 13). -/
structure Ask where
  kind : AskKind
  id : Nat
  reply : Reply
  decided : Bool
deriving DecidableEq, Repr

structure Session where
  state : SessState
  restarts : Nat
  holds : Nat
  failedWakes : Nat
  wakeFailed : Bool
  hubRestart : Bool
  forced : Option Level
  ability : Option Ability
  proposal : Option Contract
  contract : Option Contract
  status : Option Status
  identity : Option Identity
  readBuf : Option ReadBuf
  ask : Option Ask
  greetAt : Option Nat
  breakAt : Option Nat
  fallAt : Option Nat
  pollAt : Option Nat
  refreshAt : Option Nat
deriving DecidableEq, Repr

structure Flight where
  call : Call
  plan : Plan
deriving DecidableEq, Repr

structure Lane where
  up : Bool
  act : LaneAct
  flight : Option Flight
  attempts : Nat
  lastFail : Option FailKind
  callEnd : Nat
  dueAt : Nat
  wakeAsked : Bool
  wakeAt : Option Nat
  greeting : Option Flight
  stop : Option Call
  job : Option Call
  pollDue : Bool
  ident : Option Call
  serve : Option Call
  hubDefer : Bool
  hubRefuse : Bool
  autoDefer : Bool
deriving DecidableEq, Repr

structure Power where
  cls : Option Nat
  floor : Nat
  ceil : Nat
  target : Nat
  starved : Bool
deriving DecidableEq, Repr

structure Stage where
  state : StageState
  applied : Nat
  volts : Nat
  draw : Nat
  cap : Option Nat
  trips : List Nat
  setpoint : Nat
  tripAt : Option Nat
  coolAt : Option Nat
  window : List Nat
  capCount : Nat
  sampleAt : Nat
deriving DecidableEq, Repr

structure JobOutcome where
  tag : Nat
  image : Nat
  done : Bool
  reason : JobReason
deriving DecidableEq, Repr

structure Serve where
  slot : Nat
  offset : Nat
  remaining : Nat
  holds : Nat
  resendAt : Option Nat
deriving DecidableEq, Repr

structure ServeOutcome where
  id : Nat
  version : Nat
  outcome : ServeEnd
  offset : Nat
deriving DecidableEq, Repr

structure Bay where
  num : Nat
  rank : Nat
  unit : Nat
  enabled : Bool
  cap : Level
  present : Bool
  presAt : Option Nat
  sess : Session
  lane : Lane
  power : Power
  stage : Stage
  lastJob : Option JobOutcome
  serve : Option Serve
  lastServe : Option ServeOutcome
  cust : Cust
  indicator : Indicator
  events : BitVec 10
deriving DecidableEq, Repr

/-- What the current event still owes (log 5): the passes asked for, in the order of their requests (log 6), an admission scan,
and the tags of the jobs suspended in this event (R112). Empty between commands. -/
structure Work where
  passes : List PassRequest
  scan : Bool
  returned : List Nat
deriving DecidableEq, Repr

/-! ## The machine -/

structure State where
  pending : List Instr
  now : Nat
  resetN : Bool
  pins : Inputs
  hub : Hub
  cartEvents : BitVec 3
  geo : Option Geometry
  mode : Mode
  alloc : Alloc
  monitor : Monitor
  store : List Slot
  sched : Sched
  roster : List Credential
  custody : CustodyCart
  latch : Latch
  startQueue : List Nat
  rampAt : Option Nat
  bays : List Bay
  work : Work
deriving DecidableEq, Repr

/-- No command stops the block: a refused request is a reply, a failed attempt is lane state, a jam is unit state
(R173, R26, R157). So there is no fault. -/
inductive Fault
deriving DecidableEq, Repr

/-- Why a command has no meaning. -/
inductive Refusal where
  /-- Raised only by an arm of `exec` whose command has no meaning yet; safe. No arm of this model raises it. -/
  | notModelled (mnemonic : String)
deriving DecidableEq, Repr

/-! ## Values at part reset and at creation -/

/-- The hub link at part reset (11, introduction). -/
def Hub.reset : Hub where
  rx := []
  receiverOpen := true
  replyPending := false
  noticeOutstanding := false
  mask := BitVec.allOnes 13
  sending := none
  reply := none
  busy := none
  notice := false
  resetDue := false

/-- The allocator at part reset: R60's defaults; the fields that exist from commit hold what commit gives them. -/
def Alloc.reset : Alloc where
  ceiling := 3000
  overhead := 150
  eta := 88
  slots := 2
  policy := .classed
  low := 20
  ready := 80
  trim := 0
  origin := 1
  scheduled := none
  lastPass := none
  periodic := none
  summary := none

/-- The cart monitor at part reset (05, section 5.5). -/
def Monitor.reset : Monitor where
  temp := none
  sensorFault := false
  hold := false
  factor := 100
  win := 0#16
  overruns := 0
  armed := true
  tempDue := 0
  winDue := 0

/-- An EMPTY profile slot (R98). Its id, version and length, for which the spec has no value, are 0 (log 23). -/
def Slot.reset (num : Nat) : Slot where
  num := num
  state := .empty
  id := 0
  version := 0
  length := 0
  content := []
  serves := 0

/-- The scheduler at part reset (R108, R112, R113). -/
def Sched.reset : Sched where
  catalog := []
  nextTag := 1
  queue := []
  active := []
  channels := []
  scanAt := none

/-- Cart-wide custody state at part reset (R134, R152). -/
def CustodyCart.reset : CustodyCart where
  releaseMin := 30
  ajarLimit := 120
  removals := 0
  groups := []

/-- The latch controller at part reset (R1, R155). -/
def Latch.reset : Latch where
  units := []
  queue := []
  drvA := none
  drvB := none

/-- Nothing owed. -/
def Work.none : Work where
  passes := []
  scan := false
  returned := []

/-- The machine right after part reset (R1), RESET_N high and every other input low (log 23). -/
def State.reset : State where
  pending := []
  now := 0
  resetN := true
  pins := ⟨0#36, 0#36, 0#36⟩
  hub := Hub.reset
  cartEvents := 0#3
  geo := none
  mode := .secure
  alloc := Alloc.reset
  monitor := Monitor.reset
  store := [Slot.reset 1, Slot.reset 2, Slot.reset 3, Slot.reset 4, Slot.reset 5, Slot.reset 6, Slot.reset 7, Slot.reset 8]
  sched := Sched.reset
  roster := []
  custody := CustodyCart.reset
  latch := Latch.reset
  startQueue := []
  rampAt := none
  bays := []
  work := Work.none

/-- A session at commit or when no tablet is there (R17, R38). -/
def Session.off : Session where
  state := .off
  restarts := 0
  holds := 0
  failedWakes := 0
  wakeFailed := false
  hubRestart := false
  forced := none
  ability := none
  proposal := none
  contract := none
  status := none
  identity := none
  readBuf := none
  ask := none
  greetAt := none
  breakAt := none
  fallAt := none
  pollAt := none
  refreshAt := none

/-- A lane at commit, DOWN (02, section 2.1; log 23). -/
def Lane.down : Lane where
  up := false
  act := .idle
  flight := none
  attempts := 0
  lastFail := none
  callEnd := 0
  dueAt := 0
  wakeAsked := false
  wakeAt := none
  greeting := none
  stop := none
  job := none
  pollDue := false
  ident := none
  serve := none
  hubDefer := false
  hubRefuse := false
  autoDefer := false

/-- The power part at commit (R17). -/
def Power.zero : Power where
  cls := none
  floor := 0
  ceil := 0
  target := 0
  starved := false

/-- A stage at commit (R82), its first sample due at `sampleAt`. -/
def Stage.off (sampleAt : Nat) : Stage where
  state := .off
  applied := 0
  volts := 5
  draw := 0
  cap := none
  trips := []
  setpoint := 0
  tripAt := none
  coolAt := none
  window := []
  capCount := 0
  sampleAt := sampleAt

/-- Custody of a bay at commit (R134) in the state the inventory gives. -/
def Cust.atCommit (st : CustState) : Cust where
  state := st
  borrower := none
  expected := none
  taken := none
  inserted := false
  unattended := false
  seen := .none
  alarms := 0#5
  note := none
  release := none

/-- A bay record as the commit creates it for an EMPTY bay (R8, R17). -/
def Bay.fresh (num rank unit : Nat) (cap : Level) (sampleAt : Nat) : Bay where
  num := num
  rank := rank
  unit := unit
  enabled := true
  cap := cap
  present := false
  presAt := none
  sess := Session.off
  lane := Lane.down
  power := Power.zero
  stage := Stage.off sampleAt
  lastJob := none
  serve := none
  lastServe := none
  cust := Cust.atCommit .vacant
  indicator := .off
  events := 0#10

end Sys2Proof.Machine
end

