-- ==== Sys2Proof/Machine/Bytes.lean ====
section
/-! DEFINITION. Bytes on the two links: little-endian fields, the two CRCs, the codes of the named values (R180), and the
wire forms of hub frames and lane frames (11, section 11.4). -/

namespace Sys2Proof.Machine

/-! ## Fields -/

def byteOf (n : Nat) : Byte := BitVec.ofNat 8 n

/-- A flag sent in a byte of its own: 1 set, 0 clear (log 8). -/
def flagByte (b : Bool) : Byte := if b then 1#8 else 0#8

/-- `k` bytes of `n`, little-endian (00, "Byte order and layouts"). -/
def leBytes : Nat → Nat → Bytes
  | 0, _ => []
  | k + 1, n => byteOf (n % 256) :: leBytes k (n / 256)

def le2 (n : Nat) : Bytes := leBytes 2 n
def le4 (n : Nat) : Bytes := leBytes 4 n

/-- The number little-endian bytes hold. -/
def ofLe : Bytes → Nat
  | [] => 0
  | b :: bs => b.toNat + 256 * ofLe bs

/-- A signed temperature as one byte (R181). -/
def signedByte (t : Int) : Byte := BitVec.ofInt 8 t

/-- A flag set from the list of its members, from bit 0 (R181). -/
def packFlags : List Bool → Nat
  | [] => 0
  | b :: bs => b.toNat + 2 * packFlags bs

/-- A string as a length byte and its characters (R181). -/
def stringBytes (cs : Bytes) : Bytes := byteOf cs.length :: cs

/-- A serial padded with 0x00 to 20 bytes (11, section 11.4). -/
def padSerial (cs : Bytes) : Bytes := (cs ++ List.replicate 20 0#8).take 20

/-- A list in a reply: a count byte, then its items (R181; log 9). -/
def listBytes (items : List Bytes) : Bytes := byteOf items.length :: items.flatten

/-! ## CRCs -/

/-- Eight shifts of an 8-bit register, generator 0x31, most significant bit first (R20). -/
def crc8Shift : Nat → BitVec 8 → BitVec 8
  | 0, r => r
  | k + 1, r => crc8Shift k (if r.msb then (r <<< 1) ^^^ 0x31#8 else r <<< 1)

/-- The lane CRC (R20): register 0xFF at the start, neither reflected nor inverted. -/
def crc8 (bs : Bytes) : Byte := bs.foldl (fun r b => crc8Shift 8 (r ^^^ b)) 0xFF#8

/-- Shifts of a 16-bit register, generator 0x1021, most significant bit first (R172). -/
def crc16Shift : Nat → BitVec 16 → BitVec 16
  | 0, r => r
  | k + 1, r => crc16Shift k (if r.msb then (r <<< 1) ^^^ 0x1021#16 else r <<< 1)

/-- The hub-link CRC (R172): register 0xFFFF at the start, neither reflected nor inverted. -/
def crc16 (bs : Bytes) : BitVec 16 := bs.foldl (fun r b => crc16Shift 8 (r ^^^ BitVec.shiftLeft (b.setWidth 16) 8)) 0xFFFF#16

/-! ## Hub frames (R172) -/

/-- What the hub CRC covers: the length bytes, kind, tag and payload. -/
def Frame.body (f : Frame) : Bytes := le2 f.payload.length ++ [f.kind, f.tag] ++ f.payload

/-- The CRC bytes, high byte first. -/
def crc16Bytes (bs : Bytes) : Bytes :=
  [(crc16 bs).extractLsb' 8 8, (crc16 bs).extractLsb' 0 8]

/-- The bytes of a hub frame as they leave HUB_TX. -/
def Frame.wire (f : Frame) : Bytes := 0xA5#8 :: f.body ++ crc16Bytes f.body

/-- A frame received whole whose CRC does not match: what HUB_FRAME_CORRUPT reports. -/
def wholeFrameCorrupt (bytes : Bytes) : Bool :=
  match bytes with
  | sync :: rest =>
    let p := ofLe (rest.take 2)
    sync == 0xA5#8 && p ≤ 512 && rest.length == p + 6 && rest.drop (p + 4) != crc16Bytes (rest.take (p + 4))
  | [] => false

/-- The frame that collected bytes hold, where their CRC matches. -/
def frameOf (bs : Bytes) : Option Frame :=
  let n := ofLe ((bs.drop 1).take 2)
  if bs.drop (n + 5) = crc16Bytes ((bs.drop 1).take (n + 4)) then
    some ⟨bs.getD 3 0#8, bs.getD 4 0#8, (bs.drop 5).take n⟩
  else none

/-- The receiver takes one byte: the receive buffer, empty while it hunts, and the frame the byte completes (R172). -/
def rxByte (rx : Bytes) (b : Byte) : Bytes × Option Frame :=
  if rx = [] then (if b = 0xA5#8 then [b] else [], none)
  else
    let got := rx ++ [b]
    let n := ofLe ((got.drop 1).take 2)
    if got.length < 3 then (got, none)
    else if 512 < n then ([], none)
    else if got.length < n + 7 then (got, none)
    else ([], frameOf got)

/-- The receiver takes bytes one after another: what is left in the buffer, and the frames it heard. -/
def hear : Bytes → Bytes → Bytes × List Frame
  | rx, [] => (rx, [])
  | rx, b :: bs =>
    let (rx, found) := rxByte rx b
    let (rx, later) := hear rx bs
    (rx, found.toList ++ later)

/-! ## Codes of named values (R180: position in the list of values, from 1; 0 for absent) -/

def Level.num : Level → Nat
  | .p1 => 1 | .p2 => 2 | .p3 => 3 | .p4 => 4 | .p5 => 5

def Mode.code : Mode → Nat
  | .secure => 1 | .classMode => 2 | .night => 3

def Topology.code : Topology → Nat
  | .bayDoors => 1 | .shelfDoor => 2

def Polarity.code : Polarity → Nat
  | .activeHigh => 1 | .activeLow => 2

def SessState.code : SessState → Nat
  | .off => 1 | .greeting => 2 | .confirming => 3 | .identifying => 4 | .contracted => 5 | .asleep => 6 | .waking => 7
  | .breakWait => 8 | .fallback => 9

def Source.code : Source → Nat
  | .negotiated => 1 | .base => 2 | .forced => 3

def Charge.code : Charge → Nat
  | .charging => 1 | .full => 2 | .idle => 3 | .fault => 4

def AskKind.code : AskKind → Nat
  | .profile => 1 | .job => 2

def Reply.code : Reply → Nat
  | .hold => 1 | .accept => 2 | .refuse => 3

def FailKind.code : FailKind → Nat
  | .noAnswer => 1 | .short => 2 | .corrupt => 3 | .clash => 4 | .stray => 5

def StageState.code : StageState → Nat
  | .off => 1 | .starting => 2 | .on => 3 | .tripped => 4 | .faulted => 5

def JobState.code : JobState → Nat
  | .queued => 1 | .waking => 2 | .admitting => 3 | .offered => 4 | .running => 5 | .suspended => 6 | .receipt => 7 | .done => 8
  | .failed => 9

def Origin.code : Origin → Nat
  | .hub => 1 | .ask => 2 | .checkin => 3

/-- Job reason codes (11, section 11.4). -/
def JobReason.code : JobReason → Nat
  | .ok => 0 | .cancelled => 1 | .released => 2 | .tabletRemoved => 3 | .laneLost => 4 | .bayDisabled => 5 | .bayReset => 6
  | .wakeFailed => 7 | .noIdentity => 8 | .wrongModel => 9 | .refused => 10 | .tabletBusy => 11 | .stalled => 12 | .timeout => 13
  | .rejected => 14 | .corrupt => 15 | .noSpace => 16

def SlotState.code : SlotState → Nat
  | .empty => 1 | .loading => 2 | .ready => 3

def ServeEnd.code : ServeEnd → Nat
  | .complete => 1 | .heldOut => 2 | .declined => 3 | .withdrawn => 4 | .abandoned => 5

def Policy.code : Policy → Nat
  | .classed => 1 | .rotate => 2

def PassKind.code : PassKind → Nat
  | .normal => 1 | .urgent => 2 | .admission _ => 3

def Role.code : Role → Nat
  | .student => 1 | .teacher => 2 | .technician => 3

def Intent.code : Intent → Nat
  | .take => 1 | .returnIt => 2 | .service => 3

def CustState.code : CustState → Nat
  | .vacant => 1 | .stocked => 2 | .reconciling => 3

/-- Identity seen, as GET_BAY's byte 98 gives it. -/
def Seen.code : Seen → Nat
  | .none => 1 | .absent => 2 | .serial _ => 3

/-- The serial an identity outcome holds, if any. -/
def Seen.serial? : Seen → Option Bytes
  | .serial s => some s
  | .none => Option.none
  | .absent => Option.none

def NoteKind.code : NoteKind → Nat
  | .checkout => 1 | .returned => 2 | .returnedElsewhere => 3 | .unverified => 4 | .foreign => 5 | .missing => 6 | .accepted => 7
  | .restored => 8

def GroupOutcome.code : GroupOutcome → Nat
  | .cancelled => 1 | .latchFault => 2 | .taken => 3 | .lapsed => 4

def UnitState.code : UnitState → Nat
  | .locked => 1 | .unlockPending => 2 | .unlocking => 3 | .unlatched => 4 | .opened => 5 | .lockPending => 6 | .locking => 7
  | .forced => 8 | .jammed => 9

def MoveKind.code : MoveKind → Nat
  | .lock => 1 | .unlock => 2

/-- Phases of a move a driver holds, as GET_BAY's byte 161 gives them (1 is a queued move). -/
def MovePhase.code : MovePhase → Nat
  | .pulse => 2 | .checkWait => 3 | .retryWait => 4

def Indicator.code : Indicator → Nat
  | .fault => 1 | .take => 2 | .returnHere => 3 | .working => 4 | .ready => 5 | .charging => 6 | .off => 7

def ChanState.code : ChanState → Nat
  | .idle => 1 | .assigned _ _ => 2 | .draining _ => 3

/-- The code of an optional value: 0 when absent (R180). -/
def optCode {α : Type} (f : α → Nat) : Option α → Nat
  | none => 0
  | some a => f a

/-! ## Lane frames (R20 to R22) -/

/-- Call kind bytes (R20). -/
def Call.kind : Call → Byte
  | .hello _ _ => 0x01#8
  | .confirm _ _ _ => 0x02#8
  | .poll _ _ _ => 0x03#8
  | .identRead _ => 0x04#8
  | .chunk _ _ _ _ => 0x05#8
  | .envelope _ _ _ _ _ _ => 0x06#8
  | .pause _ => 0x07#8
  | .abort _ => 0x08#8
  | .receiptRead _ => 0x09#8

/-- An answer's kind is its call's with the top bit set (R20). -/
def Call.answerKind (c : Call) : Byte := c.kind ||| 0x80#8

/-- A level mask in a byte: bit 0 for P2 up to bit 3 for P5 (R180). -/
def maskByte (m : BitVec 4) : Byte := m.setWidth 8

/-- Call payloads, field by field in the order R21 and R22 name them, each at the width its range needs (log 40). The lane version is 2; CONFIRM's ack is always set. -/
def Call.payload : Call → Bytes
  | .hello cartId bay => le4 cartId ++ [byteOf bay, 2#8]
  | .confirm level offered tablet => [byteOf level.num, maskByte offered, maskByte tablet, flagByte true]
  | .poll reply applied tag => byteOf (optCode Reply.code reply) :: (le2 applied ++ le2 tag)
  | .identRead offset => le2 offset
  | .chunk id offset last data => byteOf id :: (le2 offset ++ [flagByte last] ++ data)
  | .envelope tag image version size channel resume =>
    le2 tag ++ le2 image ++ le4 version ++ le4 size ++ [byteOf channel, flagByte resume]
  | .pause tag => le2 tag
  | .abort tag => le2 tag
  | .receiptRead tag => le2 tag

/-- What the lane CRC covers: kind, length and payload (R20). -/
def laneBody (kind : Byte) (payload : Bytes) : Bytes := kind :: byteOf payload.length :: payload

/-- The bytes of a call as they go out on the lane: start byte, body, CRC-8. -/
def Call.wire (c : Call) : Bytes :=
  0x5A#8 :: laneBody c.kind c.payload ++ [crc8 (laneBody c.kind c.payload)]

/-- The answer payload lengths R20 allows for an answer kind: least and most. -/
def answerLengths (kind : Byte) : Nat × Nat :=
  match kind.toNat with
  | 0x81 => (5, 5)
  | 0x82 => (4, 4)
  | 0x83 => (10, 10)
  | 0x84 => (2, 50)
  | 0x85 => (1, 1)
  | 0x86 => (1, 1)
  | 0x87 => (1, 1)
  | 0x88 => (1, 1)
  | 0x89 => (11, 11)
  | _ => (0, 64)

/-! ## Identity records (11, section 11.4) -/

/-- The bytes of an identity record without its check byte. -/
def Identity.body (i : Identity) : Bytes :=
  1#8 :: stringBytes i.serial ++ le2 i.model ++ le2 i.agent ++ le2 i.image ++ le4 i.version ++ le2 i.capacity
    ++ stringBytes (i.asset.getD [])
    ++ (match i.enrolled with
        | none => [0#8]
        | some (id, v) => [1#8, byteOf id] ++ le2 v)

/-- The identity record as laid out, its check byte last. -/
def Identity.record (i : Identity) : Bytes := i.body ++ [crc8 i.body]

end Sys2Proof.Machine
end

