-- ==== Sys2Proof/Machine/Operands.lean ====
section
/-! DEFINITION. Reading operands: the fields of hub request payloads (R181) and of lane answers (R21, R22; log 40), and the named
values their codes stand for (R180). -/

namespace Sys2Proof.Machine

/-! ## Fields of a payload -/

def byteAt (p : Bytes) (i : Nat) : Nat := (p.getD i 0#8).toNat
def wordAt (p : Bytes) (i : Nat) : Nat := ofLe ((p.drop i).take 2)
def longAt (p : Bytes) (i : Nat) : Nat := ofLe ((p.drop i).take 4)
/-- A signed byte (R21's battery temperature). -/
def signedAt (p : Bytes) (i : Nat) : Int := (p.getD i 0#8).toInt
/-- A flag sent alone: bit 0 of its byte (R181 and log 8 for hub payloads, log 39 for the ack on a lane). -/
def flagAt (p : Bytes) (i : Nat) : Bool := (p.getD i 0#8).getLsbD 0

/-! ## Codes read back; none for a code outside the list -/

def Level.ofNum : Nat → Option Level
  | 1 => some .p1 | 2 => some .p2 | 3 => some .p3 | 4 => some .p4 | 5 => some .p5 | _ => none

def Mode.ofCode : Nat → Option Mode
  | 1 => some .secure | 2 => some .classMode | 3 => some .night | _ => none

def Topology.ofCode : Nat → Option Topology
  | 1 => some .bayDoors | 2 => some .shelfDoor | _ => none

def Polarity.ofCode : Nat → Option Polarity
  | 1 => some .activeHigh | 2 => some .activeLow | _ => none

/-- A handshake, listed ACCEPT, HOLD, REFUSE (R23); a code that is none of the three is delivered as REFUSE. -/
def handshakeOf : Nat → Reply
  | 1 => .accept | 2 => .hold | _ => .refuse

def Policy.ofCode : Nat → Option Policy
  | 1 => some .classed | 2 => some .rotate | _ => none

def Role.ofCode : Nat → Option Role
  | 1 => some .student | 2 => some .teacher | 3 => some .technician | _ => none

def Intent.ofCode : Nat → Option Intent
  | 1 => some .take | 2 => some .returnIt | 3 => some .service | _ => none

/-- The kind byte of CLEAR_ALARM, in the order in which section 8.2 and GET_BAY's byte 119 list the kinds (log 8). -/
def Alarm.ofCode : Nat → Option Alarm
  | 1 => some .forced | 2 => some .ajar | 3 => some .missing | 4 => some .foreign | 5 => some .latch | _ => none

def AskKind.ofCode : Nat → Option AskKind
  | 1 => some .profile | 2 => some .job | _ => none

/-- Charge state; an unknown code is recorded as FAULT (R52). -/
def Charge.ofCode : Nat → Charge
  | 1 => .charging | 2 => .full | 3 => .idle | _ => .fault

end Sys2Proof.Machine
end

