-- ==== Sys2Proof/Machine/Flags.lean ====
section
/-! DEFINITION. Flags and masks: event sets (R175), alarm sets (R148), level masks (R43, R180), attention flags (R52), the ask
reply (R33), the power levels (R40), the heat cap (R41) and the SoC class (R52). -/

namespace Sys2Proof.Machine

/-! ## Bits of a set -/

def setBit {w : Nat} (v : BitVec w) (i : Nat) : BitVec w := v ||| BitVec.twoPow w i
def clearBit {w : Nat} (v : BitVec w) (i : Nat) : BitVec w := v &&& ~~~(BitVec.twoPow w i)

/-- Bit of a bay event kind (R175). -/
def BayEvent.bit : BayEvent → Nat
  | .session => 0 | .lost => 1 | .identity => 2 | .power => 3 | .ask => 4 | .profile => 5 | .job => 6 | .custody => 7 | .alarm => 8
  | .latch => 9

/-- Bit of a cart event kind (R175). -/
def CartEvent.bit : CartEvent → Nat
  | .thermal => 0 | .overrun => 1 | .queueFull => 2

/-- Bit of an alarm kind (11, section 11.4). -/
def Alarm.bit : Alarm → Nat
  | .forced => 0 | .ajar => 1 | .missing => 2 | .foreign => 3 | .latch => 4

def Cust.has (c : Cust) (a : Alarm) : Bool := c.alarms.getLsbD a.bit

/-- The bay kinds a notice kind mask enables: bits 0 to 9 (R175). -/
def bayMask (m : BitVec 13) : BitVec 10 := m.extractLsb' 0 10
/-- The cart kinds a notice kind mask enables: bits 10 to 12 (R175). -/
def cartMask (m : BitVec 13) : BitVec 3 := m.extractLsb' 10 3

/-! ## Levels (R40) -/

/-- Power of a level, in tenths of a watt. -/
def Level.power : Level → Nat
  | .p1 => 25 | .p2 => 75 | .p3 => 120 | .p4 => 180 | .p5 => 270

/-- Output voltage a level calls for. -/
def Level.volts : Level → Nat
  | .p1 => 5 | .p2 => 5 | .p3 => 9 | .p4 => 9 | .p5 => 9

def Level.min (a b : Level) : Level := if a.num ≤ b.num then a else b

/-- The levels from P2 up to `l`, as a mask (R43). -/
def Level.maskUpTo : Level → BitVec 4
  | .p1 => 0#4 | .p2 => 1#4 | .p3 => 3#4 | .p4 => 7#4 | .p5 => 15#4

/-- The highest level of a mask; P1 for the empty mask (R43). -/
def highestLevel (m : BitVec 4) : Level :=
  if m.getLsbD 3 then .p5 else if m.getLsbD 2 then .p4 else if m.getLsbD 1 then .p3 else if m.getLsbD 0 then .p2 else .p1

/-- Features of ABILITY (R21), from bit 0 in the order it lists them (log 40). -/
def Ability.hasIdent (a : Ability) : Bool := a.features.getLsbD 0
def Ability.hasProfile (a : Ability) : Bool := a.features.getLsbD 1
def Ability.hasJob (a : Ability) : Bool := a.features.getLsbD 2

/-! ## Status (R41, R52) -/

/-- The heat cap a status sets, in tenths of a watt (R41). -/
def heatCap : Option Status → Option Nat
  | none => none
  | some st => if 60 ≤ st.temp then some 25 else if 45 ≤ st.temp then some 75 else none

/-- A heat cap as a limit, for comparing bands: no cap is above every level (R41). -/
def heatLimit (st : Option Status) : Nat := (heatCap st).getD 270

/-- SoC classes (R52). -/
inductive SocClass where
  | low | mid | high
deriving DecidableEq, Repr

/-- The SoC class of a status; unknown SoC and absent status count as MID (R52). -/
def socClass (low ready : Nat) (st : Option Status) : SocClass :=
  match st.bind (·.soc) with
  | none => .mid
  | some v => if v < low then .low else if v < ready then .mid else .high

/-- SoC as STATUS sends it: 255 unknown, above 100 clamped (R52). -/
def socOf (v : Nat) : Option Nat := if v = 255 then none else some (min v 100)

/-- Attention flags of a STATUS (R21), from bit 0 in the order it lists them (log 40). -/
def Status.identChanged (s : Status) : Bool := s.attention.getLsbD 0
def Status.asks (s : Status) : Bool := s.attention.getLsbD 1
def Status.receiptReady (s : Status) : Bool := s.attention.getLsbD 2
def Status.renegotiate (s : Status) : Bool := s.attention.getLsbD 3
def Status.sleeping (s : Status) : Bool := s.attention.getLsbD 4

/-! ## Asks and the lane flags (R33) -/

/-- The ask reply a POLL carries: none is NONE (R33). -/
def askReply (ask : Option Ask) (hubRefuse hubDefer autoDefer : Bool) : Option Reply :=
  match ask with
  | none => none
  | some a => some (if hubRefuse then .refuse else if hubDefer || autoDefer then .hold else a.reply)

/-- Neither hub flag is set (R34). -/
def Lane.open_ (l : Lane) : Bool := !l.hubDefer && !l.hubRefuse

/-! ## Inputs -/

/-- What an input level means through a polarity (01, section 1.3). -/
def Polarity.active (p : Polarity) (high : Bool) : Bool :=
  match p with
  | .activeHigh => high
  | .activeLow => !high

end Sys2Proof.Machine
end

