-- ==== Sys2Proof/Machine/Ops.lean ====
section
/-! DEFINITION. The named operations every block uses: the clock, records by number, events, requests for passes and scans. -/

namespace Sys2Proof.Machine

namespace State

/-! ## Clock (log 1, log 2) -/

/-- The event of a deadline: the clock stands at the deadline, or later if it is late. -/
def reach (s : State) (d : Nat) : State := { s with now := max s.now d }

/-! ## Geometry -/

def committed (s : State) : Bool := s.geo.isSome

/-- N, the number of bays; 0 before commit (R7). -/
def nBays (s : State) : Nat :=
  match s.geo with
  | none => 0
  | some g => 6 * g.ranks.length

def rankGeo (s : State) (rank : Nat) : Option RankGeo :=
  match s.geo with
  | none => none
  | some g => g.ranks[rank - 1]?

/-- The rank maximum; P1 for a rank that does not exist. -/
def rankMax (s : State) (rank : Nat) : Level :=
  match s.rankGeo rank with
  | none => .p1
  | some r => r.maxLevel

/-! ## Bay records -/

def bay? (s : State) (b : Nat) : Option Bay := s.bays.find? (·.num == b)

/-- The record of bay `b`; a fresh record where there is none. -/
def bay (s : State) (b : Nat) : Bay := (s.bay? b).getD (Bay.fresh b 0 0 .p1 0)

def hasBay (s : State) (b : Nat) : Bool := (s.bay? b).isSome

def updBay (s : State) (b : Nat) (f : Bay → Bay) : State :=
  { s with bays := s.bays.map fun r => if r.num = b then f r else r }

def updSess (s : State) (b : Nat) (f : Session → Session) : State :=
  s.updBay b fun r => { r with sess := f r.sess }

def updLane (s : State) (b : Nat) (f : Lane → Lane) : State :=
  s.updBay b fun r => { r with lane := f r.lane }

def updStage (s : State) (b : Nat) (f : Stage → Stage) : State :=
  s.updBay b fun r => { r with stage := f r.stage }

def updPower (s : State) (b : Nat) (f : Power → Power) : State :=
  s.updBay b fun r => { r with power := f r.power }

def updCust (s : State) (b : Nat) (f : Cust → Cust) : State :=
  s.updBay b fun r => { r with cust := f r.cust }

/-! ## Other records -/

def unit? (s : State) (u : Nat) : Option LatchUnit := s.latch.units.find? (·.num == u)

def updUnit (s : State) (u : Nat) (f : LatchUnit → LatchUnit) : State :=
  { s with latch := { s.latch with units := s.latch.units.map fun r => if r.num = u then f r else r } }

/-- The unit that serves bay `b` (R6). -/
def unitOf (s : State) (b : Nat) : Option LatchUnit := s.unit? (s.bay b).unit

/-- The bays unit `u` serves (R6). -/
def baysOf (s : State) (u : Nat) : List Nat :=
  match s.unit? u with
  | none => []
  | some r => r.bays

def slot? (s : State) (k : Nat) : Option Slot := s.store.find? (·.num == k)

def updSlot (s : State) (k : Nat) (f : Slot → Slot) : State :=
  { s with store := s.store.map fun r => if r.num = k then f r else r }

def cred? (s : State) (c : Nat) : Option Credential := s.roster.find? (·.num == c)

def image? (s : State) (id : Nat) : Option Image := s.sched.catalog.find? (·.id == id)

def chan? (s : State) (c : Nat) : Option Channel := s.sched.channels.find? (·.num == c)

def updChan (s : State) (c : Nat) (f : Channel → Channel) : State :=
  { s with sched := { s.sched with channels := s.sched.channels.map fun r => if r.num = c then f r else r } }

/-- Every job the scheduler holds, on channels and in the queue (R112). -/
def jobs (s : State) : List Job := s.sched.active ++ s.sched.queue

/-- The bay's job: the job reference of R17 and R111. -/
def jobOf (s : State) (b : Nat) : Option Job := s.jobs.find? (·.bay == b)

def jobTagged (s : State) (t : Nat) : Option Job := s.jobs.find? (·.tag == t)

def updJob (s : State) (t : Nat) (f : Job → Job) : State :=
  { s with sched := { s.sched with
      queue := s.sched.queue.map fun j => if j.tag = t then f j else j
      active := s.sched.active.map fun j => if j.tag = t then f j else j } }

/-- Run `f` for each number of a list, in its order. -/
def forEach (s : State) (l : List Nat) (f : State → Nat → State) : State := l.foldl f s

/-! ## Events (R175) -/

/-- Post a bay event. No flag is posted before commit (R3): no bay record exists then. -/
def post (s : State) (b : Nat) (e : BayEvent) : State :=
  s.updBay b fun r => { r with events := setBit r.events e.bit }

/-- Post a cart event; not before commit (R3). -/
def postCart (s : State) (e : CartEvent) : State :=
  if s.committed then { s with cartEvents := setBit s.cartEvents e.bit } else s

/-! ## Requests for passes and scans (R64 to R66, R119; log 5, log 6) -/

/-- Request a normal pass; a request made before commit is not kept (R65). Requests with no urgent cause between them are one. -/
def askNormal (s : State) : State :=
  if s.committed ∧ s.work.passes.getLast? ≠ some .normal then
    { s with work := { s.work with passes := s.work.passes ++ [.normal] } }
  else s

/-- A cause that runs an urgent pass in this event (R66). -/
def askUrgent (s : State) : State :=
  if s.committed then { s with work := { s.work with passes := s.work.passes ++ [.urgent] } } else s

/-- A cause of an admission scan (R119); before commit it starts none. -/
def askScan (s : State) : State :=
  if s.committed then { s with work := { s.work with scan := true } } else s

end State

/-- A job holds a channel: OFFERED, RUNNING or RECEIPT (R117). -/
def JobState.onChannel : JobState → Bool
  | .offered => true
  | .running => true
  | .receipt => true
  | .queued => false
  | .waking => false
  | .admitting => false
  | .suspended => false
  | .done => false
  | .failed => false

/-- The bay has a job in OFFERED, RUNNING or RECEIPT. -/
def State.hasActiveJob (s : State) (b : Nat) : Bool :=
  match s.jobOf b with
  | none => false
  | some j => j.state.onChannel

/-- Sorted insertion, for the few orders the spec names. -/
def insertBy {α : Type} (before : α → α → Bool) (a : α) : List α → List α
  | [] => [a]
  | x :: xs => if before a x then a :: x :: xs else x :: insertBy before a xs

/-- Insertion sort; equal elements keep their order. -/
def sortBy {α : Type} (before : α → α → Bool) (l : List α) : List α :=
  l.foldl (fun acc a => insertBy before a acc) []

/-- Rotation order for an origin (00, "Numbering of bays and ranks"). -/
def rotation (n origin : Nat) : List Nat :=
  (List.range n).map fun i => (origin - 1 + i) % n + 1

end Sys2Proof.Machine
end

