-- ==== Sys2Proof/Machine/Lane.lean ====
section
/-! DEFINITION. The lane controller (chapter 2): slots, attempts, abandonment, the choice of the next call, the WAKE pattern. -/

namespace Sys2Proof.Machine

/-- Attempts before the call fails (R26). -/
def Plan.limit : Plan → Nat
  | .ordinary => 3
  | .greeting => 3
  | .fallback => 1
  | .wake => 8

/-- The session states in which posts are discarded and the slots are emptied (R28). -/
def SessState.dropsPosts : SessState → Bool
  | .off => true
  | .breakWait => true
  | .fallback => true
  | .greeting => false
  | .confirming => false
  | .identifying => false
  | .contracted => false
  | .asleep => false
  | .waking => false

/-- An ENVELOPE or RECEIPT_READ of job `tag` (R28). -/
def Call.isJobCall (tag : Nat) : Call → Bool
  | .envelope t _ _ _ _ _ => t == tag
  | .receiptRead t => t == tag
  | .hello _ _ => false
  | .confirm _ _ _ => false
  | .poll _ _ _ => false
  | .identRead _ => false
  | .chunk _ _ _ _ => false
  | .pause _ => false
  | .abort _ => false

namespace Lane

/-- Withdraw an ENVELOPE or RECEIPT_READ of job `tag` from the Job slot (R28). -/
def withdrawJob (l : Lane) (tag : Nat) : Lane :=
  match l.job with
  | none => l
  | some c => if c.isJobCall tag then { l with job := none } else l

/-- Empty every pending slot (R28). -/
def emptySlots (l : Lane) : Lane :=
  { l with greeting := none, stop := none, job := none, pollDue := false, ident := none, serve := none }

/-- Abandon the call in flight or the WAKE pattern (R27, R31), on an UP lane. A QUIET interval whose end has passed leaves
the line free; with no call in flight a running QUIET is only extended (log 15). -/
def abandon (l : Lane) (now : Nat) : Lane :=
  let l := { l with wakeAsked := false, wakeAt := none }
  match l.flight, l.act with
  | some _, .sending => { l with flight := none, attempts := 0, act := .quiet, dueAt := now + Config.quietAbandon }
  | some _, _ =>
    if now < l.callEnd + Config.quietAbandon then
      { l with flight := none, attempts := 0, act := .quiet, dueAt := l.callEnd + Config.quietAbandon }
    else { l with flight := none, attempts := 0, act := .idle }
  | none, .wakePulse => { l with act := .quiet, dueAt := now + Config.quietAbandon }
  | none, .quiet => { l with dueAt := max l.dueAt (l.callEnd + Config.quietAbandon) }
  | none, _ => l

/-- The lane goes DOWN (R18): nothing is in flight or pending, auto-defer is cleared, the hub flags are kept. -/
def goDown (l : Lane) (now : Nat) : Lane :=
  { (l.abandon now).emptySlots with up := false, act := .idle, autoDefer := false }

/-- The lane goes UP (R18). -/
def goUp (l : Lane) : Lane := { l with up := true, act := .idle, attempts := 0, lastFail := none }

/-- The line is free: the lane is UP and IDLE with no call in flight (R29). -/
def free (l : Lane) : Bool := l.up && l.act == .idle && l.flight.isNone

/-- The attempt of the call in flight begins (R24). -/
def beginAttempt (l : Lane) : Lane := { l with act := .sending }

/-- A call is taken: it is in flight, the count returns to 0, its first attempt begins (R24, R26). -/
def startCall (l : Lane) (c : Call) (p : Plan) : Lane :=
  { l with flight := some ⟨c, p⟩, attempts := 0, act := .sending }

/-- A successful answer ends the call (R23, R25): count 0, last failure cleared, QUIET for 1 ms. -/
def succeed (l : Lane) (now : Nat) : Lane :=
  { l with flight := none, attempts := 0, lastFail := none, act := .quiet, dueAt := now + Config.quietAnswer }

/-- The wake window has ended by `now` (R26). -/
def windowOver (l : Lane) (now : Nat) : Bool :=
  match l.wakeAt with
  | none => true
  | some w => w + Config.wakeWindow ≤ now

/-- The answer window's 15 ms have passed by `now`: a frame that is complete only then is too late (R25, point 4; log 16). -/
def answerLate (l : Lane) (now : Nat) : Bool := l.callEnd + Config.answerTime < now

/-- When the next attempt starts after a failure with the count at `n` (R26). -/
def nextAttempt (l : Lane) (p : Plan) (now n : Nat) : Nat :=
  match p with
  | .ordinary => now + Config.ordinarySpacing
  | .greeting => now + Config.greetingSpacing
  | .fallback => now
  | .wake => max now (l.wakeAt.getD now + Config.wakeStep * n)

/-- The call has no further attempt once the count stands at `n` (R26). -/
def callOver (l : Lane) (p : Plan) (now n : Nat) : Bool :=
  p.limit ≤ n || (p == .wake && l.windowOver now)

end Lane

namespace State

/-! ## Posts (R28) -/

/-- A post is discarded while the session is in OFF, BREAK or FALLBACK. -/
def postLane (s : State) (b : Nat) (f : Lane → Lane) : State :=
  if (s.bay b).sess.state.dropsPosts then s else s.updLane b f

def postGreeting (s : State) (b : Nat) (c : Call) (p : Plan) : State :=
  s.updLane b fun l => { l with greeting := some ⟨c, p⟩ }

/-- Post PAUSE or ABORT of job `tag`; it removes an ENVELOPE or RECEIPT_READ of the same tag (R28). -/
def postStop (s : State) (b tag : Nat) (c : Call) : State :=
  s.postLane b fun l => { (l.withdrawJob tag) with stop := some c }

def postJob (s : State) (b : Nat) (c : Call) : State :=
  s.postLane b fun l => { l with job := some c }

/-- The session engine withdraws its pending greeting call: the session leaves the state that posted it (R28). -/
def withdrawGreeting (s : State) (b : Nat) : State := s.updLane b fun l => { l with greeting := none }

/-- The session engine withdraws its pending identity call: the session leaves IDENTIFYING (R28). -/
def withdrawIdent (s : State) (b : Nat) : State := s.updLane b fun l => { l with ident := none }

def postIdent (s : State) (b offset : Nat) : State :=
  s.postLane b fun l => { l with ident := some (.identRead offset) }

def postServe (s : State) (b : Nat) (c : Call) : State :=
  s.postLane b fun l => { l with serve := some c }

def pollDue (s : State) (b : Nat) : State :=
  s.postLane b fun l => { l with pollDue := true }

/-! ## Building a POLL (R30, R33) -/

/-- The job tag a POLL carries: the bay's job in RUNNING or RECEIPT, else 0 (R30). -/
def pollTag (s : State) (b : Nat) : Nat :=
  match s.jobOf b with
  | none => 0
  | some j => if j.state = .running ∨ j.state = .receipt then j.tag else 0

/-- A POLL as built at this moment (R30). -/
def buildPoll (s : State) (b : Nat) : Call :=
  let r := s.bay b
  .poll (askReply r.sess.ask r.lane.hubRefuse r.lane.hubDefer r.lane.autoDefer) r.stage.applied (s.pollTag b)

/-- The call in flight, its fields rebuilt where the call is a POLL (R26, R30). -/
def rebuild (s : State) (b : Nat) (f : Flight) : Flight :=
  match f.call with
  | .poll _ _ _ => { f with call := s.buildPoll b }
  | .hello _ _ => f
  | .confirm _ _ _ => f
  | .identRead _ => f
  | .chunk _ _ _ _ => f
  | .envelope _ _ _ _ _ _ => f
  | .pause _ => f
  | .abort _ => f
  | .receiptRead _ => f

/-- Start the next attempt of the call in flight (R26). -/
def nextAttempt (s : State) (b : Nat) : State :=
  match (s.bay b).lane.flight with
  | none => s
  | some f => s.updLane b fun l => { l.beginAttempt with flight := some (s.rebuild b f) }

/-! ## Choosing the next call (R29) -/

/-- The first non-empty slot in R29's order, with the lane as the choice leaves it. -/
def chooseCall (s : State) (b : Nat) (l : Lane) : Option Lane :=
  match l.greeting, l.stop, l.job with
  | some f, _, _ => some ({ l with greeting := none }.startCall f.call f.plan)
  | none, some c, _ => some ({ l with stop := none }.startCall c .ordinary)
  | none, none, some c => some ({ l with job := none }.startCall c .ordinary)
  | none, none, none =>
    if l.pollDue then some ({ l with pollDue := false }.startCall (s.buildPoll b) .ordinary)
    else match l.ident, l.serve with
      | some c, _ => some ({ l with ident := none }.startCall c .ordinary)
      | none, some c => some ({ l with serve := none }.startCall c .ordinary)
      | none, none => none

/-- What an idle line does next, by the session state (R28, R29, R31): nothing while OFF or ASLEEP, the WAKE pattern alone
while WAKING, the next call otherwise. -/
def laneNext (s : State) (b : Nat) (st : SessState) (l : Lane) : Option Lane :=
  match st with
  | .off => none
  | .asleep => none
  | .waking =>
    if l.wakeAsked then some { l with wakeAsked := false, act := .wakePulse, dueAt := s.now + Config.wakePulse } else none
  | .greeting => s.chooseCall b l
  | .confirming => s.chooseCall b l
  | .identifying => s.chooseCall b l
  | .contracted => s.chooseCall b l
  | .breakWait => s.chooseCall b l
  | .fallback => s.chooseCall b l

/-- Let one lane act if its line is free (R29). -/
def kickLane (s : State) (r : Bay) : Bay :=
  if r.lane.free then
    match s.laneNext r.num r.sess.state r.lane with
    | none => r
    | some l => { r with lane := l }
  else r

/-- Every free lane starts its next call in this event (R29). -/
def kickLanes (s : State) : State := { s with bays := s.bays.map s.kickLane }

end State

end Sys2Proof.Machine
end

