-- ==== Sys2Proof/Machine/Jobs.lean ====
section
/-! DEFINITION. The job scheduler's operations (chapter 7) but for the admission scan: queue, tags, channels, outcomes,
suspension, currency, JOB asks, check-in. -/

namespace Sys2Proof.Machine

/-! ## Queue order (R112) -/

/-- A job enters at the back of its priority band. -/
def insertBack (j : Job) : List Job → List Job
  | [] => [j]
  | x :: xs => if j.priority ≤ x.priority then x :: insertBack j xs else j :: x :: xs

/-- A job returns from a suspension to the front of its priority band, behind the jobs of lower bays suspended in the same
event (`returned`). -/
def insertFront (returned : List Nat) (j : Job) : List Job → List Job
  | [] => [j]
  | x :: xs =>
    if j.priority < x.priority ∨ (j.priority = x.priority ∧ x.tag ∈ returned ∧ x.bay < j.bay) then
      x :: insertFront returned j xs
    else j :: x :: xs

/-- The tag after `t`, from 65535 to 1 (R113). -/
def tagAfter (t : Nat) : Nat := if 65535 ≤ t then 1 else t + 1

/-- The first tag from `t` on that no job holds (R113); 48 jobs hold at most 48 tags. -/
def pickTag (used : List Nat) : Nat → Nat → Nat
  | 0, t => t
  | k + 1, t => if t ∈ used then pickTag used k (tagAfter t) else t

/-- Every timer of a job stopped (R127, R128). -/
def Job.stopTimers (j : Job) : Job := { j with settleAt := none, resendAt := none, stallAt := none, limitAt := none }

/-- A catalog entry makes a tablet outdated (R110). -/
def Image.outdates (i : Image) (t : Identity) : Bool := i.id == t.image && t.version < i.version && i.models.contains t.model

namespace State

/-! ## Currency (R110) -/

/-- The entry that makes the bay's tablet outdated, if one does. -/
def outdatedBy (s : State) (b : Nat) : Option Image :=
  match (s.bay b).sess.identity with
  | none => none
  | some t => s.sched.catalog.find? (·.outdates t)

/-- Currency as GET_BAY codes it: 0 identity absent, 1 current, 2 outdated. -/
def currency (s : State) (b : Nat) : Nat :=
  match (s.bay b).sess.identity, s.outdatedBy b with
  | none, _ => 0
  | some _, none => 1
  | some _, some _ => 2

/-! ## Channels (R117) -/

/-- Release the channel a job holds: DRAINING for 50 ms, its bay and tag absent. -/
def releaseChannel (s : State) (c : Option Nat) : State :=
  match c with
  | none => s
  | some c => s.updChan c fun r => { r with state := .draining (s.now + Config.drainTime) }

/-! ## Ends of jobs (R128) -/

def dropJob (s : State) (t : Nat) : State :=
  { s with sched := { s.sched with
      queue := s.sched.queue.filter (·.tag != t)
      active := s.sched.active.filter (·.tag != t) } }

/-- A job ends: DONE, or FAILED with a reason. `tellTablet` where R128's tables call for ABORT. -/
def endJob (s : State) (j : Job) (done : Bool) (reason : JobReason) (tellTablet : Bool) : State :=
  let s := s.updLane j.bay fun l => l.withdrawJob j.tag
  let s := if tellTablet then s.postStop j.bay j.tag (.abort j.tag) else s
  let s := s.releaseChannel j.channel
  let s := if j.channel.isSome then s.askNormal else s
  let s := s.dropJob j.tag
  let s := s.updBay j.bay fun r => { r with lastJob := some ⟨j.tag, j.image, done, reason⟩ }
  s.post j.bay .job

/-- Abort the bay's job, in whatever state (R128); ABORT is posted only for a job on a channel. -/
def abortBay (s : State) (b : Nat) (reason : JobReason) (tellTablet : Bool) : State :=
  match s.jobOf b with
  | none => s
  | some j => s.endJob j false reason (tellTablet && j.channel.isSome)

/-! ## Suspension (R127) -/

/-- Suspend a job on a channel: back to the front of its band as QUEUED, with its resume flag set. -/
def suspendJob (s : State) (j : Job) : State :=
  let s := s.updLane j.bay fun l => l.withdrawJob j.tag
  let s := if j.posted then s.postStop j.bay j.tag (.pause j.tag) else s
  let s := s.releaseChannel j.channel
  let back := { j.stopTimers with state := .queued, channel := none, resume := true, posted := false, holds := 0 }
  let s := s.dropJob j.tag
  let s := { s with
    sched := { s.sched with queue := insertFront s.work.returned back s.sched.queue }
    work := { s.work with returned := j.tag :: s.work.returned } }
  (s.post j.bay .job).askNormal

/-- A cause of suspension reaches a bay; it has no effect on a job that is not on a channel (R127). -/
def suspendBay (s : State) (b : Nat) : State :=
  match s.jobOf b with
  | none => s
  | some j => if j.state.onChannel then s.suspendJob j else s

/-! ## New jobs (R111, R113, R114) -/

/-- The tag the next job takes. -/
def newTag (s : State) : Nat := pickTag (s.jobs.map (·.tag)) 49 s.sched.nextTag

/-- Create a QUEUED job at the back of its band; a job queued is a cause of a scan (R119). -/
def createJob (s : State) (b image priority : Nat) (origin : Origin) : State :=
  let t := s.newTag
  let j : Job := {
    tag := t, bay := b, image := image, priority := priority, origin := origin, state := .queued, resume := false
    channel := none, posted := false, holds := 0, progress := 0, baseline := none
    settleAt := none, resendAt := none, stallAt := none, limitAt := none }
  { s with sched := { s.sched with queue := insertBack j s.sched.queue, nextTag := tagAfter t } }.askScan

/-- The scheduler holds as many jobs as it can (R112). -/
def jobsFull (s : State) : Bool := Config.jobLimit ≤ s.jobs.length

/-- The end of an identity read with identity present: queue an automatic job for an outdated tablet (R111). -/
def checkIn (s : State) (b : Nat) : State :=
  match s.outdatedBy b with
  | none => s
  | some e =>
    if (s.bay b).enabled && (s.jobOf b).isNone && e.auto then
      if s.jobsFull then s.postCart .queueFull else s.createJob b e.id 1 .checkin
    else s

/-! ## JOB asks (R115) -/

/-- Write the reply to send of the bay's ask, as its owner's or the hub's decision. -/
def replyAsk (s : State) (b : Nat) (r : Reply) : State :=
  s.updSess b fun x => { x with ask := x.ask.map fun a => { a with reply := r, decided := true } }

/-- The scheduler does not accept the ask itself: HOLD, auto-defer set, ASK posted (R115, R36). -/
def deferAsk (s : State) (b : Nat) : State :=
  ((s.replyAsk b .hold).updLane b fun l => { l with autoDefer := true }).post b .ask

/-- The bay's identity is present and its model is not in the entry's list (R114, R115). -/
def wrongModel (s : State) (b : Nat) (e : Image) : Bool :=
  match (s.bay b).sess.identity with
  | none => false
  | some t => !e.models.contains t.model

/-- The scheduler decides a JOB ask for image `id` (R115). -/
def decideJobAsk (s : State) (b id : Nat) : State :=
  match s.jobOf b, s.image? id with
  | some j, _ => if j.image = id then s.replyAsk b .accept else s.deferAsk b
  | none, none => s.deferAsk b
  | none, some e =>
    if !e.auto || s.wrongModel b e then s.deferAsk b
    else if s.jobsFull then (s.deferAsk b).postCart .queueFull
    else (s.replyAsk b .accept).createJob b id 1 .ask

/-! ## Ends of wakes (R123) -/

/-- A WAKING job goes back to QUEUED at its place: the wake succeeded, or the session left WAKING otherwise. -/
def wakeOver (s : State) (b : Nat) : State :=
  match s.jobOf b with
  | none => s
  | some j => if j.state = .waking then s.updJob j.tag fun j => { j with state := .queued } else s

/-- The wake a job asked for failed (R123). -/
def wakeFailedJob (s : State) (b : Nat) : State :=
  match s.jobOf b with
  | none => s
  | some j => if j.state = .waking then s.endJob j false .wakeFailed false else s

/-! ## Envelope, progress, receipt (R124 to R126) -/

/-- Post ENVELOPE for a job, built from the catalog entry as it stands (R124). -/
def postEnvelope (s : State) (j : Job) : State :=
  match s.image? j.image with
  | none => s
  | some e =>
    (s.postJob j.bay (.envelope j.tag j.image e.version e.size (j.channel.getD 0) j.resume)).updJob j.tag fun j =>
      { j with posted := true }

/-- The ENVELOPE answer's handshake, for the tag of the call it answers (R124); a job that leaves OFFERED takes a waiting
ENVELOPE with it (R28). -/
def envelopeAnswer (s : State) (b tag : Nat) (h : Reply) : State :=
  match s.jobOf b with
  | none => s
  | some j =>
    if j.tag = tag ∧ j.state = .offered then
      match h with
      | .accept =>
        let minutes := ((s.image? j.image).map (·.minutes)).getD 0
        (s.updJob tag fun j => { j with
          state := .running, baseline := none, stallAt := some (s.now + Config.stallTime)
          limitAt := some (s.now + minutes * 60000), settleAt := none, resendAt := none }).updLane b fun l => l.withdrawJob tag
      | .hold =>
        if Config.envelopeHolds ≤ j.holds + 1 then s.endJob { j with holds := j.holds + 1 } false .tabletBusy true
        else s.updJob tag fun j => { j with holds := j.holds + 1, resendAt := some (s.now + Config.envelopeResend) }
      | .refuse => s.endJob j false .refused false
    else s

/-- A STATUS hands its progress over: recorded only while RUNNING; a rise restarts the stall timer (R125). -/
def takeProgress (s : State) (b progress : Nat) : State :=
  match s.jobOf b with
  | none => s
  | some j =>
    if j.state = .running then
      let rises := match j.baseline with
        | none => true
        | some base => base < progress
      s.updJob j.tag fun j =>
        if rises then { j with progress := progress, baseline := some progress, stallAt := some (s.now + Config.stallTime) }
        else { j with progress := progress }
    else s

/-- RECEIPT_READY moves a RUNNING job to RECEIPT and posts RECEIPT_READ (R126). -/
def receiptReady (s : State) (b : Nat) : State :=
  match s.jobOf b with
  | none => s
  | some j =>
    if j.state = .running then
      (s.updJob j.tag fun j => { j with state := .receipt, stallAt := none, limitAt := none }).postJob b (.receiptRead j.tag)
    else s

/-- The installed version goes into the identity, if there is one, and IDENTITY is posted (R50). -/
def installVersion (s : State) (b version : Nat) : State :=
  match (s.bay b).sess.identity with
  | none => s
  | some _ => (s.updSess b fun x => { x with identity := x.identity.map fun i => { i with version := version } }).post b .identity

/-- The Receipt answer for the tag of the call it answers (R126). -/
def receiptAnswer (s : State) (b callTag : Nat) (tag result version : Nat) : State :=
  match s.jobOf b with
  | none => s
  | some j =>
    if j.tag = callTag ∧ j.state = .receipt then
      if tag ≠ j.tag then s.endJob j false .rejected false
      else match result with
        | 1 => (s.endJob j true .ok false).installVersion b version
        | 2 => s.endJob j false .corrupt false
        | 3 => s.endJob j false .noSpace false
        | _ => s.endJob j false .rejected false
    else s

end State

end Sys2Proof.Machine
end

