-- ==== Sys2Proof/Machine/Custody.lean ====
section
/-! DEFINITION. The custody controller's operations (chapter 8): alarms, release groups, open periods, reconciliation. -/

namespace Sys2Proof.Machine

/-- An entry of a group that has finished (R141). -/
def EntryState.ended : EntryState → Bool
  | .pending => false
  | .opened => false
  | .closed => true
  | .failed => true
  | .withdrawn => true

/-- The group outcome: the first that applies (R141). -/
def Group.outcome (g : Group) : GroupOutcome :=
  if g.cancelled then .cancelled
  else if g.entries.any (·.latchFault) then .latchFault
  else if g.entries.any (·.doorOpened) then .taken
  else .lapsed

/-- The entry stands for unit `u`, which R162 has not taken out of the group. -/
def UnitEntry.stands (e : UnitEntry) (u : Nat) : Bool := e.unit == u && !e.handedBack

def Group.hasUnit (g : Group) (u : Nat) : Bool := g.entries.any (·.stands u)

namespace State

/-! ## Alarms (R148) -/

/-- Add an alarm kind; a kind that was not set posts ALARM. -/
def addAlarm (s : State) (b : Nat) (a : Alarm) : State :=
  if (s.bay b).cust.has a then s
  else (s.updCust b fun c => { c with alarms := setBit c.alarms a.bit }).post b .alarm

/-- Remove an alarm kind; it posts no event. -/
def removeAlarm (s : State) (b : Nat) (a : Alarm) : State :=
  s.updCust b fun c => { c with alarms := clearBit c.alarms a.bit }

/-- Add a kind on every bay of a unit. -/
def alarmUnit (s : State) (u : Nat) (a : Alarm) : State := s.forEach (s.baysOf u) fun s b => s.addAlarm b a

/-- Remove a kind from every bay of a unit. -/
def quietUnit (s : State) (u : Nat) (a : Alarm) : State := s.forEach (s.baysOf u) fun s b => s.removeAlarm b a

/-! ## Checkouts and groups -/

/-- A credential's checkouts: the bays that name it as borrower (08, section 8.1). -/
def checkouts (s : State) (c : Nat) : Nat := (s.bays.filter fun r => r.cust.borrower == some c).length

def groupOfCred (s : State) (c : Nat) : Option Group := s.custody.groups.find? (·.cred == c)

/-- The release group a unit belongs to: none once R162 has handed it back (R141; log 14). -/
def groupOfUnit (s : State) (u : Nat) : Option Group := s.custody.groups.find? (·.hasUnit u)

/-- The unit's entry in its group. -/
def entryOf (s : State) (u : Nat) : Option UnitEntry :=
  match s.groupOfUnit u with
  | none => none
  | some g => g.entries.find? (·.stands u)

/-- An open period of the unit is running (R141). -/
def inOpenPeriod (s : State) (u : Nat) : Bool :=
  match s.entryOf u with
  | none => false
  | some e => e.state == .opened

/-- What a credential's active group may still turn into checkouts (R132, R151). -/
def pendingAllowance (s : State) (c : Nat) : Nat :=
  match s.groupOfCred c with
  | none => 0
  | some g => g.remaining

def updGroup (s : State) (c : Nat) (f : Group → Group) : State :=
  { s with custody := { s.custody with groups := s.custody.groups.map fun g => if g.cred = c then f g else g } }

/-- Change the unit's entry in the group it belongs to. -/
def updEntry (s : State) (u : Nat) (f : UnitEntry → UnitEntry) : State :=
  { s with custody := { s.custody with groups := s.custody.groups.map fun g =>
      { g with entries := g.entries.map fun e => if e.stands u then f e else e } } }

/-- A unit returned to service belongs to no release group (R162). -/
def handBack (s : State) (u : Nat) : State := s.updEntry u fun e => { e with handedBack := true }

/-- End a credential's group if its last entry has ended (R141): write the last release of its units' bays, post CUSTODY,
remove the group. -/
def endGroup (s : State) (c : Nat) : State :=
  match s.groupOfCred c with
  | none => s
  | some g =>
    if g.entries.all (·.state.ended) then
      let rel : LastRelease := ⟨g.cred, g.intent, g.outcome, g.taken, g.inserted, g.missing⟩
      let bays := (g.entries.map fun e => s.baysOf e.unit).flatten
      let s := { s with custody := { s.custody with groups := s.custody.groups.filter (·.cred != c) } }
      s.forEach bays fun s b => (s.updCust b fun x => { x with release := some rel }).post b .custody
    else s

/-- End the unit's group if it is done. -/
def endGroupOfUnit (s : State) (u : Nat) : State :=
  match s.groupOfUnit u with
  | none => s
  | some g => s.endGroup g.cred

/-! ## Reconciliation (R146, R147) -/

/-- The lowest-numbered other bay whose checkout expects the serial. -/
def otherCheckout (s : State) (b : Nat) (serial : Bytes) : Option Nat :=
  (s.bays.find? fun r => r.num != b && r.cust.borrower.isSome && r.cust.expected == some serial).map (·.num)

/-- Close bay `c`'s checkout with a note (R146). -/
def closeCheckout (s : State) (c : Nat) (n : Note) : State :=
  (s.updCust c fun x => { x with borrower := none, expected := none, note := some n }).post c .custody

/-- Bay `c`'s checkout closes because its tablet was found in bay `b` (R146, second row). -/
def returnElsewhere (s : State) (c b : Nat) (serial : Bytes) : State :=
  s.closeCheckout c ⟨.returnedElsewhere, (s.bay c).cust.borrower, some serial, some b, false⟩

/-- Bay `b` is STOCKED with a note that carries the unattended flag, which is then cleared (R146). -/
def stock (s : State) (b : Nat) (keep : Bool) (kind : NoteKind) (cred : Option Nat) (serial : Option Bytes)
    (other : Option Nat) : State :=
  (s.updCust b fun x => { x with
    state := .stocked, unattended := false, note := some ⟨kind, cred, serial, other, x.unattended⟩
    borrower := if keep then x.borrower else none, expected := if keep then x.expected else none }).post b .custody

/-- Reconcile a RECONCILING bay with an identity outcome (R146). The RETURNED_ELSEWHERE note of `b` itself holds no serial, as
R146's second row says; the table of section 10.2 shows one there (log 20). -/
def reconcile (s : State) (b : Nat) (outcome : Seen) : State :=
  let c := (s.bay b).cust
  match outcome with
  | .none => s
  | .serial ser =>
    if c.borrower.isSome ∧ c.expected = some ser then s.stock b false .returned c.borrower (some ser) none
    else match s.otherCheckout b ser with
      | some other =>
        let s := s.returnElsewhere other b ser
        if c.borrower.isSome then (s.addAlarm b .foreign).stock b true .foreign none none (some other)
        else s.stock b true .returnedElsewhere none none (some other)
      | none =>
        if c.borrower.isSome ∧ c.expected.isNone then s.stock b false .unverified c.borrower (some ser) none
        else (s.addAlarm b .foreign).stock b true .foreign none (some ser) none
  | .absent => s.stock b false .unverified c.borrower none none

/-- A STOCKED bay's tablet turns out to be another bay's borrowed tablet (R147); the note of `b` holds no serial (log 20). -/
def matchStocked (s : State) (b : Nat) (outcome : Seen) : State :=
  match outcome with
  | .none => s
  | .absent => s
  | .serial ser =>
    match s.otherCheckout b ser with
    | none => s
    | some other =>
      ((s.returnElsewhere other b ser).updCust b fun x =>
        { x with note := some ⟨.returnedElsewhere, none, none, some other, false⟩ }).post b .custody

/-- The session engine reports an identity outcome (R147). -/
def identityReport (s : State) (b : Nat) (outcome : Seen) : State :=
  let s := s.updCust b fun c => { c with seen := outcome }
  match (s.bay b).cust.state with
  | .reconciling => s.reconcile b outcome
  | .vacant => s
  | .stocked => s.matchStocked b outcome

/-! ## Removals and insertions (R142, R144) -/

/-- A removal during an open period (R142). -/
def removalInPeriod (s : State) (b : Nat) : State :=
  let c := (s.bay b).cust
  match c.state with
  | .stocked =>
    let n := s.custody.removals + 1
    let s := { s with custody := { s.custody with removals := n } }
    (s.updCust b fun c => { c with state := .vacant, taken := some ⟨n, c.seen⟩, seen := .none }).post b .custody
  | .reconciling => (s.updCust b fun c => { c with state := .vacant, unattended := false, seen := .none }).post b .custody
  | .vacant => s.updCust b fun c => { c with inserted := false, seen := .none }

/-- An insertion during an open period (R142). -/
def insertionInPeriod (s : State) (b : Nat) : State :=
  let c := (s.bay b).cust
  match c.state, c.taken with
  | .vacant, some _ => (s.updCust b fun c => { c with state := .stocked, taken := none, seen := .none }).post b .custody
  | .vacant, none => s.updCust b fun c => { c with inserted := true, seen := .none }
  | .stocked, _ => s.updCust b fun c => { c with seen := .none }
  | .reconciling, _ => s.updCust b fun c => { c with seen := .none }

/-- A removal outside an open period: MISSING (R144). -/
def removalOutside (s : State) (b : Nat) : State :=
  let s := s.addAlarm b .missing
  (s.updCust b fun c => { c with
    state := .vacant, unattended := false, inserted := false, seen := .none
    note := some ⟨.missing, none, c.seen.serial?, none, false⟩ }).post b .custody

/-- An insertion outside an open period: RECONCILING, unattended (R144). -/
def insertionOutside (s : State) (b : Nat) : State :=
  (s.updCust b fun c => { c with state := .reconciling, unattended := true, seen := .none }).post b .custody

def custodyRemoval (s : State) (b : Nat) : State :=
  if s.inOpenPeriod (s.bay b).unit then s.removalInPeriod b else s.removalOutside b

def custodyInsertion (s : State) (b : Nat) : State :=
  if s.inOpenPeriod (s.bay b).unit then s.insertionInPeriod b else s.insertionOutside b

/-! ## Close of an open period (R143) -/

/-- Settle one taken bay at the close: a checkout while the allowance lasts, else MISSING. -/
def settleTaken (s : State) (cred b : Nat) : State :=
  let c := (s.bay b).cust
  match c.taken with
  | none => s
  | some m =>
    if c.borrower.isNone ∧ 1 ≤ s.pendingAllowance cred then
      let s := s.updGroup cred fun g => { g with remaining := g.remaining - 1, taken := g.taken + 1 }
      (s.updCust b fun c => { c with
        borrower := some cred, expected := m.serial.serial?, taken := none
        note := some ⟨.checkout, some cred, m.serial.serial?, none, false⟩ }).post b .custody
    else
      let s := s.updGroup cred fun g => { g with missing := g.missing + 1 }
      ((s.addAlarm b .missing).updCust b fun c => { c with
        taken := none, note := some ⟨.missing, none, m.serial.serial?, none, false⟩ }).post b .custody

/-- Settle one inserted bay at the close: RECONCILING, and reconciled at once if its outcome is at hand. -/
def settleInserted (s : State) (cred b : Nat) : State :=
  if (s.bay b).cust.inserted then
    let s := s.updGroup cred fun g => { g with inserted := g.inserted + 1 }
    let s := (s.updCust b fun c => { c with state := .reconciling, inserted := false }).post b .custody
    s.reconcile b (s.bay b).cust.seen
  else s

/-- The taken bays of a unit in ascending removal order. -/
def takenInOrder (s : State) (u : Nat) : List Nat :=
  let marked := (s.baysOf u).filterMap fun b => ((s.bay b).cust.taken).map fun m => (m.order, b)
  (sortBy (fun x y => x.1 < y.1) marked).map (·.2)

/-- Close the unit's open period (R143), its entry CLOSED, with LATCH_FAULT after a jam (R141). -/
def closePeriod (s : State) (u : Nat) (fault : Bool) : State :=
  match s.groupOfUnit u with
  | none => s
  | some g =>
    let s := s.forEach (s.takenInOrder u) fun s b => s.settleTaken g.cred b
    let s := s.forEach (s.baysOf u) fun s b => s.settleInserted g.cred b
    let s := s.updEntry u fun e => { e with state := .closed, latchFault := e.latchFault || fault }
    s.endGroup g.cred

/-! ## Reports of the latch controller (R141) -/

/-- The UNLOCK move completed: the open period begins. -/
def reportUnlocked (s : State) (u : Nat) : State :=
  s.updEntry u fun e => if e.state = .pending then { e with state := .opened } else e

/-- The unit could not complete its release: LATCH_FAULT. -/
def reportReleaseFailed (s : State) (u : Nat) : State :=
  let s := s.updEntry u fun e => if e.state = .pending then { e with state := .failed, latchFault := true } else e
  s.endGroupOfUnit u

/-- The door opened within the open period. -/
def reportDoorOpened (s : State) (u : Nat) : State :=
  s.updEntry u fun e => if e.state = .opened then { e with doorOpened := true } else e

/-- The unlatch window lapsed. -/
def reportLapsed (s : State) (u : Nat) : State :=
  s.updEntry u fun e => if e.state = .opened then { e with lapsed := true } else e

/-- The LOCK move completed, or jammed: the open period closes if one is running. -/
def reportRelocked (s : State) (u : Nat) (jam : Bool) : State :=
  if s.inOpenPeriod u then s.closePeriod u jam else s

end State

end Sys2Proof.Machine
end

