-- ==== Sys2Proof/Machine/Profile.lean ====
section
/-! DEFINITION. The profile store's operations (chapter 6): asks, serves, chunks; and the consultation of an ask's owner
(R34). -/

namespace Sys2Proof.Machine

/-- Bytes the hub has delivered into a slot (06, section 6.1). -/
def Slot.written (k : Slot) : Nat := k.content.length

/-- A slot that is LOADING or READY counts its declared length (06, section 6.1). -/
def Slot.size (k : Slot) : Nat :=
  match k.state with
  | .empty => 0
  | .loading => k.length
  | .ready => k.length

/-- How many data bytes the chunk at a serve's offset carries (R104). -/
def Serve.chunkLen (v : Serve) : Nat := min Config.chunkBytes v.remaining

namespace State

/-- The store total (06, section 6.1). -/
def storeTotal (s : State) : Nat := (s.store.map Slot.size).sum

/-! ## The ask (R36, R54) -/

/-- The bay's ask becomes absent; auto-defer is cleared with it (R36). -/
def clearAsk (s : State) (b : Nat) : State :=
  (s.updSess b fun x => { x with ask := none }).updLane b fun l => { l with autoDefer := false }

/-! ## Serves (R104 to R107) -/

/-- The CHUNK of a bay's serve, posted to the Serve slot (R104). -/
def postChunk (s : State) (b : Nat) : State :=
  match (s.bay b).serve with
  | none => s
  | some v =>
    match s.slot? v.slot with
    | none => s
    | some k =>
      s.postServe b (.chunk k.id v.offset (v.remaining ≤ Config.chunkBytes) ((k.content.drop v.offset).take v.chunkLen))

/-- A serve of a slot starts (R104). -/
def startServe (s : State) (b : Nat) (k : Slot) : State :=
  let s := s.updBay b fun r => { r with serve := some ⟨k.num, 0, k.length, 0, none⟩ }
  let s := s.updSlot k.num fun k => { k with serves := k.serves + 1 }
  s.postChunk b

/-- Settle the ask by a serve's outcome (R107, step 5): fulfilled, refused, or held until the session is CONTRACTED again.
WITHDRAWN and ABANDONED otherwise leave it to the event that ended the serve. -/
def settleAsk (s : State) (b : Nat) (o : ServeEnd) (toIdentifying : Bool) : State :=
  match o with
  | .complete => s.clearAsk b
  | .heldOut => s.replyAsk b .refuse
  | .declined => s.replyAsk b .refuse
  | .withdrawn => s
  | .abandoned =>
    if toIdentifying then s.updSess b fun x => { x with ask := x.ask.map fun a => { a with reply := .hold, decided := false } }
    else s

/-- A serve ends (R107). -/
def endServe (s : State) (b : Nat) (o : ServeEnd) (toIdentifying : Bool) : State :=
  match (s.bay b).serve with
  | none => s
  | some v =>
    let k := (s.slot? v.slot).getD (Slot.reset v.slot)
    let s := s.updLane b fun l => { l with serve := none }
    let s := s.updSlot v.slot fun k => { k with serves := k.serves - 1 }
    let s := s.updBay b fun r => { r with serve := none, lastServe := some ⟨k.id, k.version, o, v.offset⟩ }
    (s.post b .profile).settleAsk b o toIdentifying

/-- A serve ends because its cause takes the bay's session or use away (R106): ABANDONED. -/
def abandonServe (s : State) (b : Nat) : State := s.endServe b .abandoned false

/-- A CHUNK answer, for the id and offset of the call it answers (R105). -/
def chunkAnswer (s : State) (b id offset : Nat) (h : Reply) : State :=
  match (s.bay b).serve with
  | none => s
  | some v =>
    match s.slot? v.slot with
    | none => s
    | some k =>
      if k.id = id ∧ v.offset = offset then
        match h with
        | .accept =>
          let n := v.chunkLen
          let s := s.updBay b fun r => { r with serve := some { v with
            offset := v.offset + n, remaining := v.remaining - n, holds := 0, resendAt := none } }
          if v.remaining - n = 0 then s.endServe b .complete false else s.postChunk b
        | .hold =>
          let s := s.updBay b fun r => { r with serve := some { v with
            holds := v.holds + 1, resendAt := some (s.now + Config.chunkResend) } }
          if Config.serveHolds ≤ v.holds + 1 then s.endServe b .heldOut false else s
        | .refuse => s.endServe b .declined false
      else s

/-! ## PROFILE asks (R103) -/

/-- The READY slot that holds a profile id (R103); ids are unique among slots that are not EMPTY (R98). -/
def readySlot (s : State) (id : Nat) : Option Slot := s.store.find? fun k => k.state == .ready && k.id == id

/-- The tablet's feature set has PROFILE. -/
def hasProfileFeature (s : State) (b : Nat) : Bool :=
  match (s.bay b).sess.ability with
  | none => false
  | some a => a.hasProfile

/-- The profile store decides a PROFILE ask, by the first row that applies (R103). -/
def decideProfileAsk (s : State) (b id : Nat) : State :=
  let r := s.bay b
  if r.sess.state ≠ .contracted then s
  else if !r.enabled || r.stage.state == .faulted then s.replyAsk b .refuse
  else if !s.hasProfileFeature b then s.replyAsk b .refuse
  else match s.readySlot id with
    | none => s.replyAsk b .refuse
    | some k => (s.replyAsk b .accept).startServe b k

/-- The owner of an ask is consulted (R34). -/
def consultOwner (s : State) (b : Nat) (a : Ask) : State :=
  match a.kind with
  | .profile => s.decideProfileAsk b a.id
  | .job => s.decideJobAsk b a.id

/-- An undecided ask whose bay has no hub flag set goes to its owner (R34). -/
def consultUndecided (s : State) (b : Nat) : State :=
  match (s.bay b).sess.ask with
  | none => s
  | some a => if !a.decided && (s.bay b).lane.open_ then s.consultOwner b a else s

/-- On an entry to CONTRACTED the store is consulted again for a PROFILE ask whose reply to send is HOLD (R103). -/
def consultProfile (s : State) (b : Nat) : State :=
  match (s.bay b).sess.ask with
  | none => s
  | some a => if a.kind == .profile && a.reply == .hold && (s.bay b).lane.open_ then s.consultOwner b a else s

/-! ## A STATUS's ask (R54) -/

/-- A new ask is recorded: the earlier one is replaced, its serve WITHDRAWN and auto-defer cleared; then the owner is
consulted, or ASK is posted while a hub flag is set (R34, R54, R106). -/
def recordAsk (s : State) (b : Nat) (kind : AskKind) (id : Nat) : State :=
  let a : Ask := ⟨kind, id, .hold, false⟩
  let s := (s.endServe b .withdrawn false).clearAsk b
  let s := s.updSess b fun x => { x with ask := some a }
  if (s.bay b).lane.open_ then s.consultOwner b a else s.post b .ask

/-- The tablet withdraws its ask (R54, R106). -/
def withdrawAsk (s : State) (b : Nat) : State := (s.endServe b .withdrawn false).clearAsk b

/-- What a STATUS says about an ask: none is a STATUS without ASK, or with an unknown ask kind (R54). -/
def takeAsk (s : State) (b : Nat) (asked : Option (AskKind × Nat)) : State :=
  match asked, (s.bay b).sess.ask with
  | none, none => s
  | none, some _ => s.withdrawAsk b
  | some (k, id), none => s.recordAsk b k id
  | some (k, id), some a => if a.kind = k ∧ a.id = id then s else s.recordAsk b k id

end State

end Sys2Proof.Machine
end

