-- ==== Sys2Proof/Machine/Stage.lean ====
section
/-! DEFINITION. The stage interface's operations (chapter 5): targets, setpoints, voltage, demand cap, ramp, samples, trips. The
current limit is sent at the end of the event (`sendLimits`), so these operations leave the last setpoint as it is (R87). -/

namespace Sys2Proof.Machine

/-- The current limit for an applied grant at an output voltage (R86). -/
def setpointOf (applied volts : Nat) : Nat := applied * 100 / volts / 10 * 10

namespace Stage

/-- Leaving ON cancels the trip filter and empties the slack window; the applied grant is 0 when not ON (R82, R83). -/
def leaveOn (st : Stage) (next : StageState) : Stage :=
  { st with state := next, applied := 0, tripAt := none, window := [] }

/-- How a stage takes a new target (R83). -/
def takeTarget (st : Stage) (target : Nat) : Stage :=
  match st.state with
  | .off => if target = 0 then st else { st with state := .starting }
  | .starting => if target = 0 then { st with state := .off } else st
  | .on =>
    if target = 0 then st.leaveOn .off
    else if target < st.applied then { st with applied := target }
    else st
  | .tripped => st
  | .faulted => st

/-- The session engine tells the output voltage the bay needs (R87). -/
def setVolts (st : Stage) (v : Nat) : Stage :=
  if st.volts = v then st
  else if st.state = .on then { st with volts := v, tripAt := none }
  else { st with volts := v }

/-- Make the demand cap absent: the slack window is emptied with it (R94). -/
def dropCap (st : Stage) : Stage := { st with cap := none, window := [], capCount := 0 }

/-- Raise an ON stage below its target by at most 3.0 W (R85, step 1). -/
def rampUp (st : Stage) (target : Nat) : Stage :=
  if st.state = .on ∧ st.applied < target then
    { st with applied := st.applied + min Config.rampStep (target - st.applied) }
  else st

/-- Switch a STARTING stage on at 2.5 W (R85, step 2). -/
def switchOn (st : Stage) : Stage := { st with state := .on, applied := Config.baseFloor }

/-- The trip filter's threshold in mV: 80 % of the nominal voltage (R89). -/
def tripThreshold (st : Stage) : Nat := st.volts * 800

/-- The trip filter on an ON sample (R89). -/
def filter (st : Stage) (now mv : Nat) : Stage :=
  if mv < st.tripThreshold then
    match st.tripAt with
    | none => { st with tripAt := some (now + Config.tripFilter) }
    | some _ => st
  else { st with tripAt := none }

/-- Add a draw sample to the slack window; it is taken only at the target, and the oldest of 101 is dropped (R93). -/
def addSample (st : Stage) (target draw : Nat) : Stage :=
  if st.applied = target then
    let w := st.window ++ [draw]
    { st with window := w.drop (w.length - Config.windowSize) }
  else st

/-- The average of a full slack window, in tenths (R93). -/
def average (st : Stage) : Nat := st.window.sum / Config.windowSize

/-- The slack check that follows a sample added to a full window sets a demand cap (R93). -/
def slackFound (st : Stage) (target : Nat) (cls : Option Nat) : Bool :=
  st.applied = target && st.window.length = Config.windowSize && cls != some 0 && st.average + Config.slackMargin < target

/-- Set the demand cap from the full window (R93). -/
def setCap (st : Stage) : Stage :=
  { st with cap := some (max Config.baseFloor (st.average + Config.slackMargin)), window := [], capCount := 0 }

/-- The cap-clearing count after an ON sample, while a cap is set (R94). -/
def countClear (st : Stage) (target draw : Nat) : Stage :=
  match st.cap with
  | none => st
  | some _ => { st with capCount := if target ≤ draw + Config.clearMargin then st.capCount + 1 else 0 }

/-- Enter a trip in the history (R90): the third within 600 s faults the stage, else it trips for its cool-off. -/
def enterTrip (st : Stage) (now : Nat) : Stage :=
  let recent := st.trips.filter fun t => now ≤ t + Config.tripMemory
  if 2 ≤ recent.length then { (st.leaveOn .faulted) with trips := [], coolAt := none }
  else { (st.leaveOn .tripped) with trips := recent ++ [now], coolAt := some (now + Config.coolOff) }

/-- RESET_BAY's effects on a stage: history emptied, FAULTED or TRIPPED to OFF, cool-off cancelled (R16). -/
def resetFaults (st : Stage) : Stage :=
  if st.state = .tripped ∨ st.state = .faulted then { st with state := .off, trips := [], coolAt := none }
  else { st with trips := [] }

/-- An ON stage holds the current limit of its applied grant at its voltage; one that is not ON is sent none, and keeps the
last one sent (R86, R87). -/
def sendLimit (st : Stage) : Stage :=
  if st.state = .on then { st with setpoint := setpointOf st.applied st.volts } else st

end Stage

namespace State

/-- The stages are sent their limits from the applied grants and voltages as the event leaves them (R87). -/
def sendLimits (s : State) : State := { s with bays := s.bays.map fun r => { r with stage := r.stage.sendLimit } }

/-- Hand a bay's new target to its stage (R83), with its place in the start queue (R84). -/
def handTarget (s : State) (b target : Nat) : State :=
  let st := (s.bay b).stage.state
  let s := s.updBay b fun r => { r with power := { r.power with target := target }, stage := r.stage.takeTarget target }
  if target = 0 then { s with startQueue := s.startQueue.filter (· != b) }
  else if st = .off then { s with startQueue := s.startQueue ++ [b] }
  else s

/-- Clear a demand cap; an absent one changes nothing and requests no pass (R94). -/
def clearCap (s : State) (b : Nat) : State :=
  match (s.bay b).stage.cap with
  | none => s
  | some _ => (s.updStage b Stage.dropCap).askNormal

/-- The contract in force has become absent or another level or source: the slack window is emptied and the demand cap
cleared (R93, R94). -/
def contractChanged (s : State) (b : Nat) : State :=
  (s.updStage b fun st => { st with window := [] }).clearCap b

/-- One ramp tick (R85): raise, then switch on up to four bays from the head of the start queue. -/
def rampTick (s : State) : State :=
  let s := { s with bays := s.bays.map fun (r : Bay) => { r with stage := r.stage.rampUp r.power.target } }
  let starts := s.startQueue.take Config.startsPerTick
  let s := { s with startQueue := s.startQueue.drop Config.startsPerTick }
  s.forEach starts fun s b => s.updStage b Stage.switchOn

/-- One sample of a bay's stage (R88): the trip filter, the slack window and the cap-clearing count, in that order. -/
def stageSample (s : State) (b draw mv : Nat) : State :=
  let r := s.bay b
  if r.stage.state = .on then
    let target := r.power.target
    let st := ((({ r.stage with draw := draw }).filter s.now mv).addSample target draw)
    let found := st.slackFound target r.power.cls
    let st := (if found then st.setCap else st).countClear target draw
    let s := s.updStage b fun _ => st
    let s := if found then s.askNormal else s
    if st.capCount = Config.capClearCount then s.clearCap b else s
  else s.updStage b fun st => { st with draw := 0 }

/-- The trip of a bay's stage (R89): the target goes to 0, an urgent pass runs, POWER is posted. -/
def tripStage (s : State) (b : Nat) : State :=
  let s := s.updBay b fun r => { r with stage := r.stage.enterTrip s.now, power := { r.power with target := 0 } }
  (s.post b .power).askUrgent

end State

end Sys2Proof.Machine
end

