-- ==== Sys2Proof/Machine/Session.lean ====
section
/-! DEFINITION. The session engine's operations (chapter 3): ceilings, restarts, BREAK and FALLBACK, identity reads, STATUS,
sleep and wake, insertion and removal; and the judging and delivery of lane attempts (R23 to R27). -/

namespace Sys2Proof.Machine

/-! ## Ceiling, voltage and contract of a session -/

/-- Power of the ceiling in force (R39). -/
def Session.ceiling (x : Session) : Nat :=
  let contract := match x.contract with
    | none => Level.p1.power
    | some c => c.level.power
  match x.state with
  | .off => 0
  | .greeting => Level.p1.power
  | .confirming => Level.p1.power
  | .identifying => contract
  | .contracted => contract
  | .asleep => contract
  | .waking => contract
  | .breakWait => Level.p1.power
  | .fallback => contract

/-- The output voltage the bay needs (R40). -/
def Session.volts (x : Session) : Nat :=
  let contract := match x.contract with
    | none => 5
    | some c => c.level.volts
  match x.state with
  | .off => 5
  | .greeting => 5
  | .confirming => 5
  | .identifying => contract
  | .contracted => contract
  | .asleep => contract
  | .waking => contract
  | .breakWait => 5
  | .fallback => 5

/-- The contract in force has changed: it became absent, or its level or source differs (R94). -/
def contractReplaced (old new : Option Contract) : Bool :=
  match old, new with
  | none, _ => false
  | some _, none => true
  | some c, some d => c.level != d.level || c.source != d.source

/-! ## Identity records (R49) -/

/-- A character of a serial or an asset tag. -/
def isTagChar (c : Byte) : Bool := 0x21 ≤ c.toNat && c.toNat ≤ 0x7E

/-- A checked identity record; none if it is not well formed (R49). -/
def parseIdentity (bs : Bytes) : Option Identity :=
  let n := byteAt bs 1
  let base := 2 + n
  let m := byteAt bs (base + 12)
  let serial := (bs.drop 2).take n
  let asset := (bs.drop (base + 13)).take m
  let at_ := base + 13 + m
  let flag := byteAt bs at_
  let total := at_ + 2 + (if flag = 1 then 3 else 0)
  if byteAt bs 0 = 1 ∧ 1 ≤ n ∧ n ≤ 20 ∧ serial.all isTagChar ∧ m ≤ 16 ∧ asset.all isTagChar ∧ flag ≤ 1
      ∧ bs.length = total ∧ bs.getLast? = some (crc8 bs.dropLast) then
    some {
      serial := serial
      model := wordAt bs base
      agent := wordAt bs (base + 2)
      image := wordAt bs (base + 4)
      version := longAt bs (base + 6)
      capacity := wordAt bs (base + 10)
      asset := if m = 0 then none else some asset
      enrolled := if flag = 1 then some (byteAt bs (at_ + 1), wordAt bs (at_ + 2)) else none }
  else none

namespace State

/-- A fall asks for an urgent pass, a rise for a normal one (R39, R41). -/
def passFor (s : State) (before after : Nat) : State :=
  if after < before then s.askUrgent else if before < after then s.askNormal else s

/-- What follows from a session's change: the output voltage (R40, R87), the demand cap (R94), and unless the change comes
with a removal, a disable or RESET_BAY (`quiet`), the passes for the ceiling and the heat cap (R39, R41). -/
def sessionMoved (s : State) (b : Nat) (before : Session) (quiet : Bool) : State :=
  let x := (s.bay b).sess
  let s := s.updStage b fun st => st.setVolts x.volts
  let s := if contractReplaced before.contract x.contract then s.contractChanged b else s
  if quiet then s
  else (s.passFor before.ceiling x.ceiling).passFor (heatLimit before.status) (heatLimit x.status)

/-! ## Start and end of a session (R38, R59, R13) -/

def hello (s : State) (b : Nat) : Call := .hello ((s.geo.map (·.cartId)).getD 0) b

/-- A new session: GREETING, the lane UP, the first HELLO posted (R38, R18). -/
def startSession (s : State) (b : Nat) : State :=
  let before := (s.bay b).sess
  let s := s.updSess b fun x => { Session.off with state := .greeting, forced := x.forced }
  let s := s.updLane b Lane.goUp
  (s.postGreeting b (s.hello b) .greeting).sessionMoved b before false

/-- The session goes to OFF: everything of it but the forced level goes, the lane goes DOWN, the demand cap is cleared
(R59, R13, R94). -/
def endSession (s : State) (b : Nat) : State :=
  let before := (s.bay b).sess
  let s := s.updSess b fun x => { Session.off with forced := x.forced }
  let s := s.updLane b fun l => l.goDown s.now
  (s.sessionMoved b before true).clearCap b

/-! ## BREAK, FALLBACK, restarts (R45, R46, R55) -/

/-- The session enters BREAK (R45). -/
def enterBreak (s : State) (b : Nat) (quiet : Bool) : State :=
  let before := (s.bay b).sess
  let s := (s.wakeOver b).abandonServe b
  let s := s.updSess b fun x => { x with
    state := .breakWait, contract := none, proposal := none, readBuf := none, holds := 0, hubRestart := false
    greetAt := none, fallAt := none, pollAt := none, refreshAt := none, breakAt := some (s.now + Config.breakTime) }
  let s := (s.clearAsk b).updLane b fun l => (l.abandon s.now).emptySlots
  s.sessionMoved b before quiet

/-- The fallback contract (R46). -/
def fallbackContract (forced : Option Level) : Contract :=
  match forced with
  | none => ⟨.p1, .base, 0#4, none⟩
  | some l => ⟨l, .forced, 0#4, none⟩

/-- The session enters FALLBACK (R46). -/
def enterFallback (s : State) (b : Nat) : State :=
  let before := (s.bay b).sess
  let s := (s.wakeOver b).abandonServe b
  let s := s.updSess b fun x => { x with
    state := .fallback, contract := some (fallbackContract x.forced), proposal := none, readBuf := none, status := none
    greetAt := none, breakAt := none, pollAt := none, refreshAt := none, fallAt := some (s.now + Config.fallbackTime) }
  let s := (s.clearAsk b).updLane b fun l => (l.abandon s.now).emptySlots
  let s := if (s.bay b).sess.identity.isNone then s.identityReport b .absent else s
  (s.post b .session).sessionMoved b before false

/-- A counted restart: FALLBACK once the count stands at 3, else BREAK (R45). -/
def countedRestart (s : State) (b : Nat) : State :=
  let n := min 3 ((s.bay b).sess.restarts + 1)
  let s := s.updSess b fun x => { x with restarts := n }
  if n = 3 then s.enterFallback b else s.enterBreak b false

/-- A lost session (R55). -/
def lostSession (s : State) (b : Nat) : State :=
  (((s.post b .lost).abortBay b .laneLost false).abandonServe b).countedRestart b

/-! ## Identity (R50) -/

/-- The session enters CONTRACTED (R51): from WAKING without Poll due, since a STATUS has just arrived. -/
def enterContracted (s : State) (b : Nat) (fromWaking : Bool) : State :=
  let s := s.updSess b fun x => { x with
    state := .contracted, restarts := 0, readBuf := none, pollAt := some (s.now + Config.pollTime) }
  let s := if fromWaking then s else s.pollDue b
  ((s.post b .session).askScan).consultProfile b

/-- An identity read ends, or is not made: the session enters CONTRACTED, scheduler and custody get the outcome, IDENTITY is
posted if the outcome differs from the identity held before the read, whatever a receipt wrote into it since (R50). -/
def endRead (s : State) (b : Nat) (before outcome : Option Identity) : State :=
  let s := s.updSess b fun x => { x with identity := outcome, readBuf := none }
  let s := (s.withdrawIdent b).enterContracted b false
  let s := if before = outcome then s else s.post b .identity
  match outcome with
  | none => s.identityReport b .absent
  | some i => (s.checkIn b).identityReport b (.serial i.serial)

/-- The session enters IDENTIFYING with its contract in force (R50); a greeting call still pending is withdrawn (R28). -/
def enterIdentifying (s : State) (b : Nat) : State :=
  let s := (s.withdrawGreeting b).updSess b fun x => { x with
    state := .identifying, proposal := none, greetAt := none, fallAt := none, pollAt := none }
  let reads := match (s.bay b).sess.ability with
    | none => false
    | some a => a.hasIdent
  if reads then (s.updSess b fun x => { x with readBuf := some ⟨none, [], x.identity⟩ }).postIdent b 0
  else s.endRead b (s.bay b).sess.identity none

/-- An identity answer, for the offset of the call it answers (R50): the total length, then the record bytes (log 40). -/
def identityAnswer (s : State) (b offset : Nat) (p : Bytes) : State :=
  let x := (s.bay b).sess
  match x.state, x.readBuf with
  | .identifying, some rb =>
    let total := wordAt p 0
    let data := p.drop 2
    if offset ≠ rb.bytes.length then s
    else if 18 ≤ total ∧ total ≤ 56 ∧ rb.total.getD total = total ∧ data.length = min 48 (total - offset) then
      let held := rb.bytes ++ data
      if held.length < total then
        (s.updSess b fun x => { x with readBuf := some ⟨some total, held, rb.before⟩ }).postIdent b held.length
      else s.endRead b rb.before (parseIdentity held)
    else s.endRead b rb.before none
  | _, _ => s

/-! ## Greeting and negotiation (R42 to R44, R48) -/

/-- The levels the bay may offer: P2 up to the lower of rank maximum and host cap (R43). -/
def bayLevels (s : State) (b : Nat) : Level := (s.rankMax (s.bay b).rank).min (s.bay b).cap

/-- The proposal for a tablet mask (R43). -/
def propose (s : State) (b : Nat) (tablet : BitVec 4) : Contract :=
  let offered := (s.bayLevels b).maskUpTo &&& tablet
  ⟨highestLevel offered, if offered = 0#4 then .base else .negotiated, offered, some tablet⟩

/-- ABILITY with ACCEPT: the forced path (R48), or CONFIRMING with a proposal (R43). -/
def proceed (s : State) (b : Nat) (a : Ability) : State :=
  let before := (s.bay b).sess
  let s := s.updSess b fun x => { x with ability := some a, holds := 0, greetAt := none, fallAt := none }
  match before.forced with
  | some l =>
    let s := s.updSess b fun x => { x with contract := some ⟨l, .forced, 0#4, some a.mask⟩ }
    (s.enterIdentifying b).sessionMoved b before false
  | none =>
    let p := s.propose b a.mask
    let s := s.updSess b fun x => { x with state := .confirming, proposal := some p, contract := none }
    (s.postGreeting b (.confirm p.level p.offered a.mask) .ordinary).sessionMoved b before false

/-- ABILITY with HOLD in GREETING (R42). -/
def greetingHeld (s : State) (b : Nat) : State :=
  let n := (s.bay b).sess.holds + 1
  let s := s.updSess b fun x => { x with holds := n }
  if n < 3 then s.updSess b fun x => { x with greetAt := some (s.now + Config.greetingHold) } else s.enterFallback b

/-- The ABILITY answer (R42, R46); flags outside the lists are ignored (R21). The order and the bits of its fields: log 40. -/
def abilityAnswer (s : State) (b : Nat) (p : Bytes) : State :=
  let a : Ability := ⟨BitVec.ofNat 4 (byteAt p 3), BitVec.ofNat 3 (byteAt p 4)⟩
  match (s.bay b).sess.state, handshakeOf (byteAt p 0) with
  | .greeting, .accept => s.proceed b a
  | .greeting, .hold => s.greetingHeld b
  | .greeting, .refuse => s.enterFallback b
  | .fallback, .accept => s.proceed b a
  | _, _ => s

/-- The four conditions of a confirming answer (R44), its fields in R21's order (log 40). Of the tablet mask byte the bits of P2 to P5 are compared (log 35).
The ack counts as set where bit 0 of its byte is 1, whatever the other bits are (log 39). -/
def confirms (c : Contract) (p : Bytes) : Bool :=
  handshakeOf (byteAt p 0) == .accept && byteAt p 1 == c.level.num && some (BitVec.ofNat 4 (byteAt p 2)) == c.tablet && flagAt p 3

/-- The CONFIRM answer (R44). -/
def confirmAnswer (s : State) (b : Nat) (p : Bytes) : State :=
  let before := (s.bay b).sess
  match before.state, before.proposal with
  | .confirming, some c =>
    if confirms c p then
      let s := s.updSess b fun x => { x with contract := some c }
      (s.enterIdentifying b).sessionMoved b before false
    else s.countedRestart b
  | _, _ => s

/-! ## STATUS (R52, R53), sleep and wake (R57, R58) -/

/-- The status record a STATUS answer gives (R52). The order of its fields and the bits of the attention flags: log 40. -/
def statusOf (p : Bytes) : Status where
  soc := socOf (byteAt p 1)
  charge := Charge.ofCode (byteAt p 2)
  temp := signedAt p 3
  attention := BitVec.ofNat 5 (byteAt p 4)
  progress := min 1000 (wordAt p 8)

/-- The ask a STATUS answer reports: none without ASK or with an unknown kind (R54). -/
def askOf (p : Bytes) : Option (AskKind × Nat) :=
  if (statusOf p).asks then (AskKind.ofCode (byteAt p 5)).map fun k => (k, wordAt p 6) else none

/-- The charge state differs from the one held before; an absent status is no change (R52; 03, section 3.10). -/
def chargeDiffers (old : Option Status) (new : Status) : Bool :=
  match old with
  | none => false
  | some o => o.charge != new.charge

/-- Write the status record (R52): a change of SoC class or charge state requests a normal pass, the heat cap its own passes
(R41), and the progress goes to the scheduler (R125). Both classes are formed with the thresholds in force now (log 37). -/
def writeStatus (s : State) (b : Nat) (st : Status) : State :=
  let old := (s.bay b).sess.status
  let s := s.updSess b fun x => { x with status := some st }
  let s := s.passFor (heatLimit old) (heatLimit (some st))
  let moved := socClass s.alloc.low s.alloc.ready old != socClass s.alloc.low s.alloc.ready (some st) || chargeDiffers old st
  (if moved then s.askNormal else s).takeProgress b st.progress

/-- The session enters ASLEEP (R57). -/
def enterAsleep (s : State) (b : Nat) : State :=
  let s := s.updSess b fun x => { x with
    state := .asleep, pollAt := none, refreshAt := if x.wakeFailed then none else some (s.now + Config.refreshTime) }
  s.updLane b fun l => { l with pollDue := false }

/-- IDENT_CHANGED: to IDENTIFYING with the contract kept; a serve is ABANDONED and its ask held (R53, R106, R107). -/
def identAgain (s : State) (b : Nat) : State :=
  let s := s.endServe b .abandoned true
  (s.updLane b fun l => { l with pollDue := false }).enterIdentifying b

/-- Act on the attention flags of a STATUS, in R53's order. -/
def actOnFlags (s : State) (b : Nat) (p : Bytes) : State :=
  let st := statusOf p
  let s := s.takeAsk b (askOf p)
  let s := if st.receiptReady then s.receiptReady b else s
  if st.renegotiate then s.countedRestart b
  else if st.identChanged then s.identAgain b
  else if st.sleeping ∧ !s.hasActiveJob b ∧ (s.bay b).serve.isNone then s.enterAsleep b
  else s

/-- The STATUS answer (R52, R53); in WAKING it ends the wake with success (R58). -/
def statusAnswer (s : State) (b : Nat) (p : Bytes) : State :=
  let x := (s.bay b).sess
  match x.state with
  | .contracted => (s.writeStatus b (statusOf p)).actOnFlags b p
  | .waking =>
    let s := s.updSess b fun x => { x with failedWakes := 0, wakeFailed := false }
    let s := s.updLane b fun l => { l with wakeAt := none }
    if x.hubRestart then (s.writeStatus b (statusOf p)).enterBreak b false
    else (((s.wakeOver b).enterContracted b true).writeStatus b (statusOf p)).actOnFlags b p
  | .off => s
  | .greeting => s
  | .confirming => s
  | .identifying => s
  | .asleep => s
  | .breakWait => s
  | .fallback => s

/-- An ASLEEP session enters WAKING and asks the lane for the WAKE pattern (R57, R31). -/
def beginWake (s : State) (b : Nat) : State :=
  (s.updSess b fun x => { x with state := .waking, refreshAt := none }).updLane b fun l => { l with wakeAsked := true }

/-- The wake ends with failure (R58). -/
def wakeFails (s : State) (b : Nat) : State :=
  let n := min 3 ((s.bay b).sess.failedWakes + 1)
  let s := s.updLane b fun l => { l with wakeAsked := false, wakeAt := none }
  let s := s.updSess b fun x => { x with
    state := .asleep, failedWakes := n, wakeFailed := x.wakeFailed || n == 3
    refreshAt := if n = 3 then none else some (s.now + Config.refreshTime) }
  let s := if n = 3 then s.post b .session else s
  s.wakeFailedJob b

/-! ## Attempts (R25, R26) -/

/-- A call has failed: what it does to the session (R42, R46, R55, R58). -/
def callFailed (s : State) (b : Nat) : State :=
  match (s.bay b).sess.state with
  | .greeting => s.enterFallback b
  | .confirming => s.lostSession b
  | .identifying => s.lostSession b
  | .contracted => s.lostSession b
  | .waking => if (s.bay b).lane.windowOver s.now then s.wakeFails b else s
  | .off => s
  | .asleep => s
  | .breakWait => s
  | .fallback => s

/-- An attempt fails (R26): the retry is spaced, or the call has failed. A wake attempt already due starts at once. -/
def failAttempt (s : State) (b : Nat) (k : FailKind) : State :=
  let l := (s.bay b).lane
  match l.flight with
  | none => s
  | some f =>
    let n := l.attempts + 1
    let due := l.nextAttempt f.plan s.now n
    let s := s.updLane b fun l => { l with attempts := n, lastFail := some k }
    if l.callOver f.plan s.now n then
      (s.updLane b fun l => { l with flight := none, act := .idle }).callFailed b
    else if f.plan = .wake ∧ due ≤ s.now then s.nextAttempt b
    else s.updLane b fun l => { l with act := .spacing, dueAt := due }

/-- A successful answer is handed to the owner of its call (R23). A Receipt's tag, result and version stand in R22's order
(log 40). -/
def deliver (s : State) (b : Nat) (c : Call) (p : Bytes) : State :=
  match c with
  | .hello _ _ => s.abilityAnswer b p
  | .confirm _ _ _ => s.confirmAnswer b p
  | .poll _ _ _ => s.statusAnswer b p
  | .identRead offset => s.identityAnswer b offset p
  | .chunk id offset _ _ => s.chunkAnswer b id offset (handshakeOf (byteAt p 0))
  | .envelope tag _ _ _ _ _ => s.envelopeAnswer b tag (handshakeOf (byteAt p 0))
  | .pause _ => s
  | .abort _ => s
  | .receiptRead tag => s.receiptAnswer b tag (wordAt p 0) (byteAt p 2) (longAt p 3)

/-- Judge a complete answer frame whose CRC matches (R25, points 4, 6 and 7), in LISTENING; elsewhere its bytes are discarded
(R19). -/
def judgeAnswer (s : State) (b : Nat) (kind : Byte) (p : Bytes) : State :=
  let l := (s.bay b).lane
  match l.act, l.flight with
  | .listening, some f =>
    if l.answerLate s.now then s.failAttempt b .short
    else if kind ≠ f.call.answerKind then s.failAttempt b .stray
    else if p.length < (answerLengths kind).1 ∨ (answerLengths kind).2 < p.length then s.failAttempt b .short
    else (s.updLane b fun l => l.succeed s.now).deliver b f.call p
  | _, _ => s

/-! ## Presence and enable (R37, R59, R13, R14) -/

/-- A debounced removal (R59). -/
def removal (s : State) (b : Nat) : State :=
  let s := s.updBay b fun r => { r with present := false }
  let s := (s.abortBay b .tabletRemoved false).abandonServe b
  let s := (s.endSession b).handTarget b 0
  let s := s.updStage b fun st => { st with trips := [] }
  ((s.custodyRemoval b).post b .session).askNormal

/-- A debounced insertion (R37, R38). -/
def insertion (s : State) (b : Nat) : State :=
  let s := s.updBay b fun r => { r with present := true }
  let s := if (s.bay b).enabled then s.startSession b else s
  (s.custodyInsertion b).askNormal

/-- A bay is disabled (R13). -/
def disable (s : State) (b : Nat) : State :=
  let s := s.updBay b fun r => { r with enabled := false }
  let s := (s.abortBay b .bayDisabled false).abandonServe b
  let s := (s.endSession b).handTarget b 0
  (s.updPower b fun p => { p with starved := false }).askNormal

/-- A bay is enabled (R14). -/
def enable (s : State) (b : Nat) : State :=
  let s := s.updBay b fun r => { r with enabled := true }
  (if (s.bay b).present then s.startSession b else s).askNormal

/-- RESET_BAY's effects, but for the last (R16). -/
def resetBay (s : State) (b : Nat) : State :=
  let s := (s.abortBay b .bayReset false).abandonServe b
  let s := s.updStage b Stage.resetFaults
  let s := if (s.bay b).enabled && (s.bay b).present then s.enterBreak b true else s.endSession b
  let s := s.updSess b fun x => { x with
    forced := none, status := none, identity := none, restarts := 0, failedWakes := 0, wakeFailed := false }
  let s := s.updLane b fun l => { l with hubDefer := false, hubRefuse := false, autoDefer := false }
  (s.clearCap b).askUrgent

end State

end Sys2Proof.Machine
end

