-- ==== Sys2Proof/Machine/Budget.lean ====
section
/-! DEFINITION. Allocation passes (chapter 4): the budget's figures, demand and classes, the floor walk, the top-up, the commit
of a pass, and the taking of normal requests. Powers are tenths of a watt. -/

namespace Sys2Proof.Machine

/-- The derate factor k_T (R69); 100 before the first valid sample (log 7). -/
def derate (hold : Bool) (temp : Option Int) : Nat :=
  if hold then 0
  else match temp with
    | none => 100
    | some t => if t ≤ 40 then 100 else 100 - 4 * (t - 40).toNat

/-- A bay with demand, as stage 4 places it (R72, R73). -/
structure Demand where
  bay : Nat
  cls : Nat
  floor : Nat
  ceil : Nat
deriving DecidableEq, Repr

/-- What the floor walk and the top-up give a bay with demand. -/
structure Grant where
  dem : Demand
  served : Bool
  extra : Nat
deriving DecidableEq, Repr

/-- The target grant: floor and top-up, 0 where the floor was not covered (R76). -/
def Grant.target (g : Grant) : Nat := if g.served then g.dem.floor + g.extra else 0

def Demand.headroom (d : Demand) : Nat := d.ceil - d.floor

/-- Stage 5 for the bays of one class: what remains, and who was served (R75). -/
def floorWalk : Nat → List Demand → Nat × List Grant
  | rem, [] => (rem, [])
  | rem, d :: ds =>
    if d.floor ≤ rem then
      let (left, gs) := floorWalk (rem - d.floor) ds
      (left, ⟨d, true, 0⟩ :: gs)
    else
      let (left, gs) := floorWalk rem ds
      (left, ⟨d, false, 0⟩ :: gs)

/-- The sum of min(h, x) (R76). -/
def sumUpTo (x : Nat) (hs : List Nat) : Nat := (hs.map (min · x)).sum

/-- The largest x, from `k` down, whose sum of min(h, x) is at most `u` (R76). -/
def fillLevel (u : Nat) (hs : List Nat) : Nat → Nat
  | 0 => 0
  | k + 1 => if sumUpTo (k + 1) hs ≤ u then k + 1 else fillLevel u hs k

/-- Hand one more tenth each to the first `l` served bays with headroom above `x` (R76). -/
def spareTenths (x : Nat) : Nat → List Grant → List Grant
  | 0, gs => gs
  | _, [] => []
  | l + 1, g :: gs =>
    if g.served ∧ x < g.dem.headroom then { g with extra := g.extra + 1 } :: spareTenths x l gs
    else g :: spareTenths x (l + 1) gs

/-- Headrooms of the bays that received their floor. -/
def headrooms (gs : List Grant) : List Nat := (gs.filter (·.served)).map (·.dem.headroom)

/-- Stage 6 for one class (R76). -/
def topUp (u : Nat) (gs : List Grant) : List Grant :=
  let hs := headrooms gs
  if hs.sum ≤ u then gs.map fun g => if g.served then { g with extra := g.dem.headroom } else g
  else
    let x := fillLevel u hs (hs.foldl max 0)
    spareTenths x (u - sumUpTo x hs) (gs.map fun g => if g.served then { g with extra := min g.dem.headroom x } else g)

/-- What a class received in its top-up. -/
def extras (gs : List Grant) : Nat := (gs.map (·.extra)).sum

/-- The top-up of classes 0 to 3 in turn; class 4 is not topped up (R76). -/
def topUpAll : Nat → List (List Grant) → List (List Grant)
  | _, [] => []
  | _, [last] => [last]
  | u, gs :: rest =>
    let gs := topUp u gs
    gs :: topUpAll (u - extras gs) rest

/-- The floor walk of several classes in turn. -/
def walkClasses (ds : List Demand) : Nat → List Nat → Nat × List (List Grant)
  | rem, [] => (rem, [])
  | rem, c :: cs =>
    let (left, gs) := floorWalk rem (ds.filter (·.cls == c))
    let (last, more) := walkClasses ds left cs
    (last, gs :: more)

namespace State

/-! ## Stages 1 to 3 (R69 to R71) -/

def kT (s : State) : Nat := derate s.monitor.hold s.monitor.temp

/-- The derated ceiling E (R69). -/
def derated (s : State) : Nat := s.alloc.ceiling * s.kT / 100

/-- The effective efficiency (R70). -/
def etaEff (s : State) : Nat := max 70 (s.alloc.eta - s.alloc.trim)

/-- The available budget A (R70). -/
def available (s : State) : Nat :=
  if s.alloc.overhead < s.derated then (s.derated - s.alloc.overhead) * s.etaEff / 100 else 0

/-- Enabled bays whose presence is EMPTY (R71). -/
def empties (s : State) : Nat := (s.bays.filter fun r => r.enabled && !r.present).length

/-- The insertion reserve (R71). -/
def insertionReserve (s : State) : Nat := 25 * min s.alloc.slots s.empties

/-- The distributable budget D (R71). -/
def distributable (s : State) : Nat := s.available - s.insertionReserve - Config.latchReserve

/-! ## Stage 4 (R72 to R74) -/

def hasDemand (s : State) (r : Bay) : Bool :=
  r.enabled && r.present && r.sess.state != .off && r.stage.state != .tripped && r.stage.state != .faulted && !s.monitor.hold

end State

/-- The raw ceiling c0 (R72). -/
def Bay.rawCeiling (r : Bay) : Nat := min (min r.sess.ceiling r.cap.power) (heatLimit r.sess.status)

/-- The demand-capped ceiling (R73). -/
def Bay.cappedCeiling (r : Bay) : Nat := max 25 (min r.rawCeiling (r.stage.cap.getD r.rawCeiling))

/-- The class a bay's status gives (R73). -/
def statusClass (low ready : Nat) (st : Option Status) : Nat :=
  let full : Bool := match st with
    | none => false
    | some x => x.charge == .full
  if full then 4
  else match socClass low ready st with
    | .low => 1
    | .mid => 2
    | .high => 3

/-- Under ROTATE classes 1 to 3 merge into class 2 (R74). -/
def mergeClass (p : Policy) (c : Nat) : Nat :=
  match p with
  | .classed => c
  | .rotate => if c = 1 ∨ c = 3 then 2 else c

namespace State

/-- A bay's demand by its status, as though it had no job (R73). -/
def statusDemand (s : State) (r : Bay) : Demand :=
  let c := statusClass s.alloc.low s.alloc.ready r.sess.status
  ⟨r.num, mergeClass s.alloc.policy c, Config.baseFloor, if c = 4 then Config.baseFloor else r.cappedCeiling⟩

/-- The bay's job counts for class 0: on a channel, or the candidate of this pass (R73, R80). -/
def jobCounts (s : State) (kind : PassKind) (b : Nat) : Bool := kind == .admission b || s.hasActiveJob b

/-- Stage 4 for one bay: none without demand. -/
def demandOf (s : State) (kind : PassKind) (r : Bay) : Option Demand :=
  if !s.hasDemand r then none
  else if s.jobCounts kind r.num && Config.jobFloor ≤ r.rawCeiling then some ⟨r.num, 0, Config.jobFloor, r.rawCeiling⟩
  else some (s.statusDemand r)

/-- The bays with demand, in rotation order from the origin (R75). -/
def demands (s : State) (kind : PassKind) : List Demand :=
  (rotation s.nBays s.alloc.origin).filterMap fun b => (s.bay? b).bind (s.demandOf kind)

/-! ## Stages 5 and 6 (R75, R76, R80) -/

/-- The candidate a floor walk of class 0 could not cover (R80). -/
def unservedCandidate (kind : PassKind) (gs : List Grant) : Option Nat :=
  match kind with
  | .normal => none
  | .urgent => none
  | .admission b => if gs.any fun g => g.dem.bay == b && !g.served then some b else none

/-- Move the uncovered candidate to the class its status gives (R80). -/
def demote (s : State) (b : Nat) (ds : List Demand) : List Demand :=
  ds.map fun d => if d.bay = b then s.statusDemand (s.bay b) else d

/-- The grants of a pass, class by class and in rotation order within each. -/
def grants (s : State) (kind : PassKind) : List (List Grant) :=
  let ds := s.demands kind
  let (left, first) := floorWalk s.distributable (ds.filter (·.cls == 0))
  let (first, ds) := match unservedCandidate kind first with
    | none => (first, ds)
    | some b => (first.filter (·.dem.bay != b), s.demote b ds)
  let (left, later) := walkClasses ds left [1, 2, 3, 4]
  topUpAll left (first :: later)

/-- The admission succeeds: the candidate received its job floor (R80). -/
def admits (kind : PassKind) (gs : List (List Grant)) : Bool :=
  match kind with
  | .normal => false
  | .urgent => false
  | .admission b => (gs.headD []).any fun g => g.dem.bay == b && g.served

/-! ## Stage 7 (R77 to R79, R81) -/

/-- Write one bay's results; STARVED newly set posts POWER (R78). -/
def writeGrant (s : State) (g : Grant) : State :=
  let b := g.dem.bay
  let was := (s.bay b).power.starved
  let s := s.updPower b fun p => { p with cls := some g.dem.cls, floor := g.dem.floor, ceil := g.dem.ceil, starved := !g.served }
  let s := s.handTarget b g.target
  if !g.served && !was then s.post b .power else s

/-- A bay with no demand (R72). -/
def writeNoDemand (s : State) (b : Nat) : State :=
  (s.updPower b fun p => { p with cls := none, floor := 0, ceil := 0, starved := false }).handTarget b 0

/-- The figures of a pass (R81). -/
def summaryOf (s : State) (kind : PassKind) (gs : List (List Grant)) : Summary where
  kind := kind
  admitted := admits kind gs
  temp := s.monitor.temp
  kT := s.kT
  hold := s.monitor.hold
  derated := s.derated
  etaEff := s.etaEff
  available := s.available
  empties := s.empties
  insertion := s.insertionReserve
  distributable := s.distributable
  total := (gs.map fun l => (l.map (·.target)).sum).sum
  classTotals := gs.map fun l => (l.map (·.target)).sum
  starved := (gs.flatten.filter fun g => !g.served).length
  origin := s.alloc.origin

/-- The pass's effect on the allocator: schedule, times, summary, origin (R64, R67, R79, R81). -/
def recordPass (s : State) (sum : Summary) : State :=
  { s with alloc := { s.alloc with
      scheduled := none
      lastPass := some s.now
      periodic := some (s.now + Config.periodicTime)
      summary := some sum
      origin := s.alloc.origin % s.nBays + 1 } }

/-- Report the jobs on channels whose bay's new target is below the job floor, in bay order (R78). -/
def suspendUnpowered (s : State) : State :=
  s.forEach (s.bays.map (·.num)) fun s b => if (s.bay b).power.target < Config.jobFloor then s.suspendBay b else s

/-- A normal request that the pass's own suspensions raise (R127) is spaced from the pass (R65). -/
def spaceRaised (s : State) : State :=
  if s.work.passes = [] then s
  else { s with
    work := { s.work with passes := [] }
    alloc := { s.alloc with scheduled := some (s.now + Config.passSpacing) } }

/-- One pass (R64): it writes its targets, suspends jobs, and reports its completion. -/
def runPass (s : State) (kind : PassKind) : State :=
  if !s.committed then s
  else
    let gs := s.grants kind
    let sum := s.summaryOf kind gs
    let walked := gs.flatten
    let idle := (s.bays.map (·.num)).filter fun b => !walked.any fun g => g.dem.bay == b
    let s := walked.foldl writeGrant s
    let s := s.forEach idle writeNoDemand
    let s := (s.recordPass sum).suspendUnpowered.spaceRaised
    match kind with
    | .normal => s.askScan
    | .urgent => s.askScan
    | .admission _ => s

/-- The latest pass was an admission that succeeded. -/
def lastAdmitted (s : State) : Bool :=
  match s.alloc.summary with
  | none => false
  | some m => m.admitted

/-! ## Requests (R65, R66) -/

/-- Take a normal request (R65): merge, schedule, or run now. -/
def takeNormal (s : State) : State :=
  match s.alloc.scheduled, s.alloc.lastPass with
  | some _, _ => s
  | none, none => s.runPass .normal
  | none, some t =>
    if t + Config.passSpacing ≤ s.now then s.runPass .normal
    else { s with alloc := { s.alloc with scheduled := some (t + Config.passSpacing) } }

/-- Serve one request for a pass. -/
def servePass (s : State) (r : PassRequest) : State :=
  match r with
  | .normal => s.takeNormal
  | .urgent => s.runPass .urgent

/-- Serve the event's requests in the order they were made, an urgent pass for each urgent cause (R65, R66). -/
def servePasses (s : State) : State :=
  s.work.passes.foldl servePass { s with work := { s.work with passes := [] } }

end State

end Sys2Proof.Machine
end

