-- ==== Sys2Proof/Machine/Latch.lean ====
section
/-! DEFINITION. The latch controller's operations (chapter 9): unit states, moves, drivers, doors, the unlatch window, the ajar
clock, the return to service, and a cancelled group's units. -/

namespace Sys2Proof.Machine

/-- The driver's fixed place (R155). -/
def Latch.driver (l : Latch) : DriverId → Option Drive
  | .a => l.drvA
  | .b => l.drvB

def Latch.setDriver (l : Latch) (d : DriverId) (v : Option Drive) : Latch :=
  match d with
  | .a => { l with drvA := v }
  | .b => { l with drvB := v }

/-- The move the drivers take next: the first LOCK queued, else the first move (R155). -/
def nextMove (q : List Move) : Option Move :=
  match q.find? (·.kind == .lock) with
  | some m => some m
  | none => q.head?

/-- A unit state a queued move gives (R154), and the one a driven move gives (R155). -/
def MoveKind.pendingState : MoveKind → UnitState
  | .lock => .lockPending
  | .unlock => .unlockPending

def MoveKind.drivenState : MoveKind → UnitState
  | .lock => .locking
  | .unlock => .unlocking

/-- The fields of a unit that a change of its state writes: the ajar clock runs while it is OPEN, the unlatch window while it
is UNLATCHED (R160, R161). -/
def LatchUnit.become (r : LatchUnit) (st : UnitState) (now : Nat) : LatchUnit :=
  { r with
    state := st
    openedAt := if st = .opened then some now else none
    ajarReported := false
    windowAt := if st = .unlatched then some (now + Config.unlatchWindow) else none }

/-- When an OPEN unit's time open reaches the ajar limit; none once it has been reported (R161). -/
def LatchUnit.ajarDue (r : LatchUnit) (limit : Nat) : Option Nat :=
  match r.state, r.openedAt, r.ajarReported with
  | .opened, some t, false => some (t + limit * 1000)
  | _, _, _ => none

namespace State

/-- Suspend the jobs of a unit's bays (R127). -/
def suspendUnit (s : State) (u : Nat) : State := s.forEach (s.baysOf u) fun s b => s.suspendBay b

/-- A unit changes state: LATCH on its bays (R153); its leaving LOCKED suspends their jobs (R127), its becoming LOCKED is a
cause of the admission scan (R119). -/
def setUnit (s : State) (u : Nat) (st : UnitState) : State :=
  match s.unit? u with
  | none => s
  | some r =>
    if r.state = st then s
    else
      let s := s.updUnit u fun r => r.become st s.now
      let s := s.forEach r.bays fun s b => s.post b .latch
      let s := if r.state = .locked then s.suspendUnit u else s
      if st = .locked then s.askScan else s

/-- A move joins the latch queue (R154). -/
def queueMove (s : State) (u : Nat) (k : MoveKind) : State :=
  let s := s.setUnit u k.pendingState
  { s with latch := { s.latch with queue := s.latch.queue ++ [⟨u, k⟩] } }

/-- A unit's move leaves the queue from its place (R154). -/
def dropMove (s : State) (u : Nat) : State :=
  { s with latch := { s.latch with queue := s.latch.queue.filter (·.unit != u) } }

/-- A driver of unit `u` stops at once (R158). -/
def stopDrive (s : State) (u : Nat) : State :=
  let stop (d : Option Drive) : Option Drive := d.filter (·.move.unit != u)
  { s with latch := { s.latch with drvA := stop s.latch.drvA, drvB := stop s.latch.drvB } }

/-- An IDLE driver takes the next move and begins its pulse (R155, R156). -/
def driverTakes (s : State) (d : DriverId) : State :=
  match s.latch.driver d, nextMove s.latch.queue with
  | none, some m =>
    let s := s.dropMove m.unit
    let s := { s with latch := s.latch.setDriver d (some ⟨m, .pulse, 1, s.now + Config.motorPulse⟩) }
    s.setUnit m.unit m.kind.drivenState
  | none, none => s
  | some _, _ => s

/-- Both drivers take what they can, A before B (R155). -/
def driversTake (s : State) : State := (s.driverTakes .a).driverTakes .b

/-! ## Ends of moves (R156, R157) -/

/-- The unit's group is cancelled. -/
def releaseCancelled (s : State) (u : Nat) : Bool :=
  match s.groupOfUnit u with
  | none => false
  | some g => g.cancelled

/-- A move completes (R156). -/
def completeMove (s : State) (m : Move) : State :=
  match m.kind with
  | .lock => (s.setUnit m.unit .locked).reportRelocked m.unit false
  | .unlock =>
    let s := s.reportUnlocked m.unit
    if s.releaseCancelled m.unit then s.queueMove m.unit .lock else s.setUnit m.unit .unlatched

/-- A move jams (R157). -/
def jamMove (s : State) (m : Move) : State :=
  let s := (s.setUnit m.unit .jammed).alarmUnit m.unit .latch
  match m.kind with
  | .lock => s.reportRelocked m.unit true
  | .unlock => s.reportReleaseFailed m.unit

/-- The position check of a driven move reads `locked` (R156, R157). -/
def positionRead (s : State) (d : DriverId) (v : Drive) (locked : Bool) : State :=
  let s := s.updUnit v.move.unit fun r => { r with posLocked := locked }
  if locked = (v.move.kind == .lock) then
    ({ s with latch := s.latch.setDriver d none }).completeMove v.move
  else if v.attempt = 1 then
    { s with latch := s.latch.setDriver d (some { v with phase := .retryWait, dueAt := s.now + Config.retryWait }) }
  else ({ s with latch := s.latch.setDriver d none }).jamMove v.move

/-! ## Doors (R158, R159) -/

/-- The door was opened while latched: FORCED (R158). -/
def forceUnit (s : State) (u : Nat) : State := (s.setUnit u .forced).alarmUnit u .forced

/-- A debounced door opening acts on its unit (R158); every opening is reported to the scheduler. -/
def doorOpening (s : State) (u : Nat) (st : UnitState) : State :=
  let s := s.suspendUnit u
  match st with
  | .locked => s.forceUnit u
  | .unlockPending => ((s.dropMove u).forceUnit u).reportReleaseFailed u
  | .unlocking => ((s.stopDrive u).forceUnit u).reportReleaseFailed u
  | .unlatched => (s.setUnit u .opened).reportDoorOpened u
  | .lockPending => ((s.dropMove u).setUnit u .opened).reportDoorOpened u
  | .locking => ((s.stopDrive u).setUnit u .opened).reportDoorOpened u
  | .opened => s
  | .forced => s
  | .jammed => s

/-- A debounced door closing acts on its unit (R159). -/
def doorClosing (s : State) (u : Nat) (st : UnitState) : State :=
  match st with
  | .opened => (s.queueMove u .lock).quietUnit u .ajar
  | .locked => s
  | .unlockPending => s
  | .unlocking => s
  | .unlatched => s
  | .lockPending => s
  | .locking => s
  | .forced => s
  | .jammed => s

/-- The debounced door value changes (R158, R159). -/
def doorChanged (s : State) (u : Nat) : State :=
  match s.unit? u with
  | none => s
  | some r =>
    let s := s.updUnit u fun r => { r with doorOpen := !r.doorOpen, doorAt := none }
    if r.doorOpen then s.doorClosing u r.state else s.doorOpening u r.state

/-! ## Window and ajar clock (R160, R161) -/

/-- The unlatch window expires (R160). -/
def windowLapses (s : State) (u : Nat) : State := (s.queueMove u .lock).reportLapsed u

/-- The door of an OPEN unit is reported ajar (R161). -/
def reportAjar (s : State) (u : Nat) : State :=
  (s.updUnit u fun r => { r with ajarReported := true }).alarmUnit u .ajar

/-- Report every OPEN unit whose time open has reached the limit in force (R152, R161). -/
def reportOverdue (s : State) : State :=
  s.forEach (s.latch.units.map (·.num)) fun s u =>
    match s.unit? u with
    | none => s
    | some r =>
      match r.ajarDue s.custody.ajarLimit with
      | none => s
      | some d => if d ≤ s.now then s.reportAjar u else s

/-! ## Return to service (R162) -/

/-- A FORCED unit is handed back, out of its group: its latch position is read in the event (R162; log 24). -/
def forcedCleared (s : State) (u : Nat) (locked : Bool) : State :=
  let s := s.handBack u
  if locked then s.setUnit u .locked else s.queueMove u .lock

/-- A JAMMED unit is handed back, out of its group, by its debounced door (R162). -/
def latchCleared (s : State) (u : Nat) : State :=
  match s.unit? u with
  | none => s
  | some r =>
    if r.state = .jammed then
      let s := s.handBack u
      if r.doorOpen then s.setUnit u .opened else s.queueMove u .lock
    else s

/-! ## Cancelled groups (R145, R163) -/

/-- What the cancellation of its group does to a unit (R163), and to its entry (R145). -/
def cancelUnit (s : State) (u : Nat) : State :=
  match s.unit? u with
  | none => s
  | some r =>
    match r.state with
    | .unlockPending =>
      let s := (s.dropMove u).setUnit u .locked
      let s := s.updEntry u fun e => if e.state = .pending then { e with state := .withdrawn } else e
      s.endGroupOfUnit u
    | .unlatched => s.queueMove u .lock
    | .locked => s
    | .unlocking => s
    | .opened => s
    | .lockPending => s
    | .locking => s
    | .forced => s
    | .jammed => s

/-! ## Indicators (R164) -/

/-- A selected bay of a TAKE group whose unit is UNLATCHED or OPEN. -/
def showsTake (s : State) (r : Bay) : Bool :=
  let ajar := match s.unit? r.unit with
    | none => false
    | some u => u.state == .unlatched || u.state == .opened
  ajar && s.custody.groups.any fun g => g.intent == .take && g.selected.contains r.num && g.hasUnit r.unit

/-- The selected bay of a RETURN group. -/
def showsReturn (s : State) (r : Bay) : Bool :=
  s.custody.groups.any fun g => g.intent == .returnIt && g.selected.contains r.num

/-- STOCKED, with a known SoC at or above the release minimum. -/
def showsReady (s : State) (r : Bay) : Bool :=
  match r.sess.status.bind (·.soc) with
  | none => false
  | some v => r.cust.state == .stocked && s.custody.releaseMin ≤ v

/-- The code of a bay: the first row of R164 that applies. -/
def indicatorOf (s : State) (r : Bay) : Indicator :=
  if r.cust.alarms ≠ 0#5 ∨ r.stage.state = .faulted then .fault
  else if s.showsTake r then .take
  else if s.showsReturn r then .returnHere
  else if s.hasActiveJob r.num then .working
  else if s.showsReady r then .ready
  else if r.stage.state = .starting ∨ r.stage.state = .on then .charging
  else .off

/-- Every bay shows the code its record gives. -/
def lightLamps (s : State) : State :=
  { s with bays := s.bays.map fun r => { r with indicator := s.indicatorOf r } }

end State

end Sys2Proof.Machine
end

