-- ==== Sys2Proof/Machine/Admission.lean ====
section
/-! DEFINITION. The admission scan (R119 to R122). -/

namespace Sys2Proof.Machine

/-- The cart mode allows a priority (R120, 10 section 10.1). -/
def Mode.permits (m : Mode) (priority : Nat) : Bool :=
  match m with
  | .secure => false
  | .classMode => priority == 3
  | .night => true

namespace State

/-- The lowest-numbered channel that is enabled and IDLE (R122). -/
def freeChannel (s : State) : Option Channel := s.sched.channels.find? fun c => c.enabled && c.state == .idle

/-- The bay's latch unit is LOCKED with its door closed (R121). -/
def unitSecure (s : State) (r : Bay) : Bool :=
  match s.unit? r.unit with
  | none => false
  | some u => u.state == .locked && !u.doorOpen

/-- The contract in force is of level P2 or higher (R121). -/
def contractHigh (x : Session) : Bool :=
  match x.contract with
  | none => false
  | some c => 2 ≤ c.level.num

/-- The eligibility of a permitted QUEUED job whose session is CONTRACTED (R121). -/
def eligible (s : State) (r : Bay) : Bool :=
  s.freeChannel.isSome && r.enabled && r.present && contractHigh r.sess && Config.jobFloor ≤ r.rawCeiling
    && r.stage.state != .tripped && r.stage.state != .faulted && s.unitSecure r && !s.monitor.hold

/-- The admitted job takes its channel and is OFFERED (R122, R117). -/
def takeChannel (s : State) (j : Job) (c : Channel) : State :=
  let s := s.dropJob j.tag
  let offered := { j with
    state := .offered, channel := some c.num, posted := false, holds := 0, baseline := none
    settleAt := some (s.now + Config.settleTime) }
  let s := { s with sched := { s.sched with active := s.sched.active ++ [offered] } }
  (s.updChan c.num fun r => { r with state := .assigned j.bay j.tag }).post j.bay .job

/-- The admission pass of an eligible job, and what its result does (R122). -/
def tryAdmit (s : State) (j : Job) : State :=
  let s := s.runPass (.admission j.bay)
  match s.lastAdmitted, s.freeChannel with
  | true, some c => s.takeChannel j c
  | true, none => s
  | false, _ => s

/-- The tablet's feature set has JOB. -/
def hasJobFeature (s : State) (b : Nat) : Bool :=
  match (s.bay b).sess.ability with
  | none => false
  | some a => a.hasJob

/-- The bay's identity does not name a model the job's entry lists (R120). -/
def jobWrongModel (s : State) (j : Job) : Bool :=
  match s.image? j.image with
  | none => false
  | some e => s.wrongModel j.bay e

/-- One job of the walk, by the first row of R120 that applies; the flag says that the scan ends. -/
def scanJob (s : State) (j : Job) : State × Bool :=
  let r := s.bay j.bay
  if j.state = .waking ∨ !s.mode.permits j.priority then (s, false)
  else match r.sess.state with
    | .asleep =>
      if r.sess.wakeFailed then (s.endJob j false .wakeFailed false, false)
      else ((s.beginWake j.bay).updJob j.tag (fun j => { j with state := .waking }), false)
    | .contracted =>
      if r.sess.identity.isNone then (s.endJob j false .noIdentity false, false)
      else if s.jobWrongModel j then (s.endJob j false .wrongModel false, false)
      else if !s.hasJobFeature j.bay then (s.endJob j false .refused false, false)
      else if s.eligible r then (s.tryAdmit j, true)
      else (s, false)
    | .off => (s, false)
    | .greeting => (s, false)
    | .confirming => (s, false)
    | .identifying => (s, false)
    | .waking => (s, false)
    | .breakWait => (s, false)
    | .fallback => (s, false)

/-- The walk of the queue from its front (R120). -/
def scanWalk : List Job → State → State
  | [], s => s
  | j :: js, s =>
    let (s, ended) := s.scanJob j
    if ended then s else scanWalk js s

/-- One admission scan (R119). -/
def runScan (s : State) : State := scanWalk s.sched.queue s

end State

end Sys2Proof.Machine
end

