-- ==== Sys2Proof/Machine/Event.lean ====
section
/-! DEFINITION. The end of an event (log 5): passes, the scan, the drivers, the lanes, the lamps, the current limits, the notice
and the output queue (R174, R176); and the forms of an event. -/

namespace Sys2Proof.Machine

/-- What a command answers: always a next state (R173). -/
abbrev Answer := Host.Outcome State Fault Refusal

namespace State

/-- What the event still owes is paid in log 5's order: the passes, the scan, and a request that the scan raised. -/
def payWork (s : State) : State :=
  let s := s.servePasses
  let s := if s.work.scan then s.runScan else s
  s.servePasses

/-- The blocks that act on their own at the end of an event (R155, R29, R164, R87); nothing is owed after it. -/
def settle (s : State) : State := { s.payWork.driversTake.kickLanes.lightLamps.sendLimits with work := Work.none }

/-! ## Notices (R176) -/

/-- The cart flags set and enabled. -/
def enabledCart (s : State) : BitVec 3 := s.cartEvents &&& cartMask s.hub.mask

/-- The bay has an enabled flag set. -/
def Bay.enabledFlags (mask : BitVec 13) (r : Bay) : Bool := r.events &&& bayMask mask != 0#10

/-- At least one enabled flag is set in any event set. -/
def anyEnabled (s : State) : Bool := s.enabledCart != 0#3 || s.bays.any (Bay.enabledFlags s.hub.mask)

/-- Queue a notice where R176's three conditions hold, after commit. -/
def queueNotice (s : State) : State :=
  if s.committed && !s.hub.noticeOutstanding && !s.hub.notice && s.anyEnabled then
    { s with hub := { s.hub with notice := true, noticeOutstanding := true } }
  else s

/-- The bay bitmap of a notice: bay b is bit b − 1 (11, section 11.4). -/
def noticeBits (s : State) : BitVec 40 :=
  s.bays.foldl (fun v r => if Bay.enabledFlags s.hub.mask r then setBit v (r.num - 1) else v) 0#40

/-- An EVENTS_PENDING notice with the flags and the mask as they stand (R176). -/
def noticeFrame (s : State) : Frame :=
  ⟨0x7E#8, 0x00#8, s.enabledCart.setWidth 8 :: leBytes 5 s.noticeBits.toNat⟩

/-! ## Output queue (R174) -/

/-- The idle line takes the next frame: the ordinary reply, then the BUSY reply, then the notice, which is dropped if no
enabled flag is set any more (R176). -/
def startOutput (s : State) : State :=
  match s.hub.sending, s.hub.reply, s.hub.busy with
  | some _, _, _ => s
  | none, some f, _ => { s with hub := { s.hub with sending := some (.reply, f), reply := none } }
  | none, none, some f => { s with hub := { s.hub with sending := some (.busy, f), busy := none } }
  | none, none, none =>
    if s.hub.notice then
      if s.anyEnabled then { s with hub := { s.hub with sending := some (.notice, s.noticeFrame), notice := false } }
      else { s with hub := { s.hub with notice := false, noticeOutstanding := false } }
    else s

/-- The hub link's part of the end of an event. -/
def announce (s : State) : State := s.queueNotice.startOutput

/-- The end of an event. -/
def conclude (s : State) : State := s.settle.announce

/-- The state after a part reset (R1): everything at its reset value but the queue and the pins, which are outside the part. -/
def partReset (s : State) : State := { State.reset with pending := s.pending, resetN := s.resetN, pins := s.pins }

end State

/-! ## Forms of an event -/

/-- While RESET_N is low the part stays in reset, and nothing else happens (R1). -/
def whenLive (s : State) (f : State → State) : Answer := .next (if s.resetN then f s else s)

/-- An event whose effect is `f`. -/
def event (s : State) (f : State → State) : Answer := whenLive s fun s => (f s).conclude

/-- The expiry of a timer that ends at `due`; a timer that is not running does not expire (log 2). -/
def timerEvent (s : State) (due : Option Nat) (f : State → State) : Answer :=
  match due with
  | none => .next s
  | some d => event s fun s => f (s.reach d)

end Sys2Proof.Machine
end

