-- ==== Sys2Proof/Machine/Hub.lean ====
section
/-! DEFINITION. Requests and replies (R173, R174): result and reason codes, the request kinds, and how a
complete request is taken. -/

namespace Sys2Proof.Machine

/-- Result codes (11, section 11.4). -/
inductive Result where
  | ok | busy | unknownKind | badLength | badValue | notReady | alreadySet | noSuchBay | bayDisabled | inUse | full | notFound
  | state | refused | clamped
deriving DecidableEq, Repr

def Result.byte : Result → Byte
  | .ok => 0x00#8 | .busy => 0x01#8 | .unknownKind => 0x02#8 | .badLength => 0x03#8 | .badValue => 0x04#8 | .notReady => 0x05#8
  | .alreadySet => 0x06#8 | .noSuchBay => 0x07#8 | .bayDisabled => 0x08#8 | .inUse => 0x09#8 | .full => 0x0A#8
  | .notFound => 0x0B#8 | .state => 0x0C#8 | .refused => 0x0D#8 | .clamped => 0x0E#8

/-- Reasons after REFUSED (11, section 11.4). -/
inductive Reason where
  | unknown | suspended | closed | releasePending | notPermitted | limit | noneReady | nothingOut | noRoom | jobActive
  | unitBusy | wrongModel
deriving DecidableEq, Repr

def Reason.byte : Reason → Byte
  | .unknown => 0x01#8 | .suspended => 0x02#8 | .closed => 0x03#8 | .releasePending => 0x04#8 | .notPermitted => 0x05#8
  | .limit => 0x06#8 | .noneReady => 0x07#8 | .nothingOut => 0x08#8 | .noRoom => 0x09#8 | .jobActive => 0x0A#8
  | .unitBusy => 0x0B#8 | .wrongModel => 0x0C#8

/-- The 38 request kinds (11, section 11.4). -/
inductive ReqKind where
  | getCart | getBay | resetPart | resetBay | commitGeometry | setBays | setMode
  | renegotiate | forceContract | wakeBay | setLaneFlags
  | setBudget | setThresholds | setPolicy | getBudget | clearFault
  | profileBegin | profileData | profileEnd | profileDrop | getProfiles
  | catalogSet | catalogDrop | queueJob | cancelJob | declineAsk | setChannels | getJobs
  | rosterPut | rosterRemove | rosterGet | present | restoreCheckout | acceptForeign | clearAlarm | setCustody
  | setNotices | readEvents
deriving DecidableEq, Repr

/-- The kind byte of a request, counting up within each row of the kind table. -/
def ReqKind.byte : ReqKind → Byte
  | .getCart => 0x01#8 | .getBay => 0x02#8 | .resetPart => 0x03#8 | .resetBay => 0x04#8 | .commitGeometry => 0x05#8
  | .setBays => 0x06#8 | .setMode => 0x07#8
  | .renegotiate => 0x10#8 | .forceContract => 0x11#8 | .wakeBay => 0x12#8 | .setLaneFlags => 0x13#8
  | .setBudget => 0x20#8 | .setThresholds => 0x21#8 | .setPolicy => 0x22#8 | .getBudget => 0x23#8 | .clearFault => 0x24#8
  | .profileBegin => 0x30#8 | .profileData => 0x31#8 | .profileEnd => 0x32#8 | .profileDrop => 0x33#8 | .getProfiles => 0x34#8
  | .catalogSet => 0x40#8 | .catalogDrop => 0x41#8 | .queueJob => 0x42#8 | .cancelJob => 0x43#8 | .declineAsk => 0x44#8
  | .setChannels => 0x45#8 | .getJobs => 0x46#8
  | .rosterPut => 0x50#8 | .rosterRemove => 0x51#8 | .rosterGet => 0x52#8 | .present => 0x53#8 | .restoreCheckout => 0x54#8
  | .acceptForeign => 0x55#8 | .clearAlarm => 0x56#8 | .setCustody => 0x57#8
  | .setNotices => 0x60#8 | .readEvents => 0x61#8

/-- Every request kind, in the order of the kind table. -/
def ReqKind.all : List ReqKind :=
  [.getCart, .getBay, .resetPart, .resetBay, .commitGeometry, .setBays, .setMode]
    ++ [.renegotiate, .forceContract, .wakeBay, .setLaneFlags]
    ++ [.setBudget, .setThresholds, .setPolicy, .getBudget, .clearFault]
    ++ [.profileBegin, .profileData, .profileEnd, .profileDrop, .getProfiles]
    ++ [.catalogSet, .catalogDrop, .queueJob, .cancelJob, .declineAsk, .setChannels, .getJobs]
    ++ [.rosterPut, .rosterRemove, .rosterGet, .present, .restoreCheckout, .acceptForeign, .clearAlarm, .setCustody]
    ++ [.setNotices, .readEvents]

/-- The request kind a byte stands for, if any (R173, point 2). -/
def ReqKind.ofByte (kind : Byte) : Option ReqKind := ReqKind.all.find? (·.byte == kind)

/-- A byte is one of the request kinds (R173, point 2). -/
def isRequestKind (kind : Byte) : Bool := (ReqKind.ofByte kind).isSome

/-- Accepted before commit (R4). -/
def ReqKind.early : ReqKind → Bool
  | .getCart => true | .getBay => false | .resetPart => true | .resetBay => false | .commitGeometry => true
  | .setBays => false | .setMode => true
  | .renegotiate => false | .forceContract => false | .wakeBay => false | .setLaneFlags => false
  | .setBudget => true | .setThresholds => true | .setPolicy => true | .getBudget => false | .clearFault => false
  | .profileBegin => true | .profileData => true | .profileEnd => true | .profileDrop => true | .getProfiles => true
  | .catalogSet => true | .catalogDrop => true | .queueJob => false | .cancelJob => false | .declineAsk => false
  | .setChannels => false | .getJobs => false
  | .rosterPut => true | .rosterRemove => true | .rosterGet => true | .present => false | .restoreCheckout => false
  | .acceptForeign => false | .clearAlarm => false | .setCustody => true
  | .setNotices => true | .readEvents => false

/-- The input levels that the rule of a request may read in the event that takes its frame: the inventory's, and a unit's latch
position (R8, R9, R162; log 4). -/
structure Levels where
  inputs : Inputs
  lpos : Nat → Bool

/-- The levels of a set of input pins. -/
def Levels.ofInputs (i : Inputs) : Levels := ⟨i, fun u => i.lpos.getLsbD (u - 1)⟩

/-- What a request's own rule decides: the state it leaves and the reply's payload. -/
abbrev Decision := State × Bytes

/-- The kind byte of a reply: the request's plus 0x80, modulo 256 (R173). -/
def replyKind (kind : Byte) : Byte := kind + 0x80#8

namespace State

/-- A refused request changes nothing. -/
def deny (s : State) (r : Result) : Decision := (s, [r.byte])

/-- REFUSED with its reason byte. -/
def refuse (s : State) (r : Reason) : Decision := (s, [Result.refused.byte, r.byte])

/-- OK to a request that only reads. -/
def report (s : State) (body : Bytes) : Decision := (s, Result.ok.byte :: body)

/-- OK to an accepted request, whose event ends here. -/
def accept (s : State) (body : Bytes) : Decision := (s.settle, Result.ok.byte :: body)

/-- OK, or CLAMPED with the values in force. -/
def acceptClamped (s : State) (clamped : Bool) (values : Bytes) : Decision :=
  (s.settle, if clamped then Result.clamped.byte :: values else [Result.ok.byte])

/-- The length check, then the request's own rule. -/
def sized (s : State) (right : Bool) (f : State → Decision) : Decision := if right then f s else s.deny .badLength

/-- The bay check of R10. -/
def onBay (s : State) (b : Nat) (f : State → Decision) : Decision :=
  if 1 ≤ b ∧ b ≤ s.nBays then f s else s.deny .noSuchBay

/-- The bay check of a request that gives bay 0 a meaning (R10). -/
def onBayOrZero (s : State) (b : Nat) (f : State → Decision) : Decision :=
  if b ≤ s.nBays then f s else s.deny .noSuchBay

/-- The BUSY reply to a request that arrives while a reply is pending; dropped if one already waits (R174). -/
def busyReply (s : State) (kind tag : Byte) : State :=
  match s.hub.busy with
  | some _ => s
  | none => { s with hub := { s.hub with busy := some ⟨replyKind kind, tag, [Result.busy.byte]⟩ } }

/-- The ordinary reply joins the output queue (R173). -/
def queueReply (s : State) (kind tag : Byte) (body : Bytes) : State :=
  { s with hub := { s.hub with reply := some ⟨replyKind kind, tag, body⟩ } }

/-- A complete request is taken (R173): BUSY while a reply is pending, else decided and answered. -/
def takeFrame (s : State) (f : Frame) (rule : State → Decision) : State :=
  if s.hub.replyPending then (s.busyReply f.kind f.tag).startOutput
  else
    let d := rule { s with hub := { s.hub with replyPending := true } }
    (d.1.queueReply f.kind f.tag d.2).announce

end State

end Sys2Proof.Machine
end

