-- ==== Sys2Proof/Machine/JobEvents.lean ====
section
/-! DEFINITION. The timers of serves, of the scheduler, of jobs and of channels (R105, R117, R119, R122, R124, R125). -/

namespace Sys2Proof.Machine

/-- CHUNK_RESEND_EXPIRY: the same chunk is posted again (R105). -/
def execChunkResendExpiry (b : Nat) (s : State) : Answer :=
  timerEvent s ((s.bay b).serve.bind (·.resendAt)) fun s =>
    (s.updBay b fun r => { r with serve := r.serve.map fun v => { v with resendAt := none } }).postChunk b

/-- SCAN_TIMER (R119). -/
def execScanTimer (s : State) : Answer :=
  timerEvent s s.sched.scanAt fun s =>
    ({ s with sched := { s.sched with scanAt := some (s.now + Config.scanTime) } }).askScan

/-- The expiry of one of the timers of the bay's job (log 29): `due` picks the timer, `f` acts on the job. -/
def jobTimer (s : State) (b : Nat) (due : Job → Option Nat) (f : State → Job → State) : Answer :=
  match s.jobOf b with
  | none => .next s
  | some j => timerEvent s (due j) fun s => f s j

/-- SETTLE_EXPIRY: ENVELOPE is posted (R124). -/
def execSettleExpiry (b : Nat) (s : State) : Answer :=
  jobTimer s b Job.settleAt fun s j => (s.updJob j.tag fun j => { j with settleAt := none }).postEnvelope j

/-- ENVELOPE_RESEND_EXPIRY: ENVELOPE is posted again, built afresh (R124). -/
def execEnvelopeResendExpiry (b : Nat) (s : State) : Answer :=
  jobTimer s b Job.resendAt fun s j => (s.updJob j.tag fun j => { j with resendAt := none }).postEnvelope j

/-- STALL_EXPIRY: STALLED (R125). -/
def execStallExpiry (b : Nat) (s : State) : Answer :=
  jobTimer s b Job.stallAt fun s j => s.endJob j false .stalled true

/-- TIME_LIMIT_EXPIRY: TIMEOUT (R125). -/
def execTimeLimitExpiry (b : Nat) (s : State) : Answer :=
  jobTimer s b Job.limitAt fun s j => s.endJob j false .timeout true

/-- The drain deadline of a channel that is DRAINING (R117). -/
def Channel.drainAt (c : Channel) : Option Nat :=
  match c.state with
  | .draining d => some d
  | .idle => none
  | .assigned _ _ => none

/-- The channel becomes IDLE; enabled, it is a cause of a scan (R117). -/
def State.drained (s : State) (c : Nat) : State :=
  let s := s.updChan c fun r => { r with state := .idle }
  match s.chan? c with
  | none => s
  | some r => if r.enabled then s.askScan else s

/-- DRAIN_EXPIRY (R117). -/
def execDrainExpiry (c : Nat) (s : State) : Answer :=
  timerEvent s ((s.chan? c).bind Channel.drainAt) fun s => s.drained c

end Sys2Proof.Machine
end

