-- ==== Sys2Proof/Machine/LaneEvents.lean ====
section
/-! DEFINITION. What happens on the lanes (R24 to R31) and the answers (R20 to R23). An event the lane's activity rules out changes
nothing (R19). -/

namespace Sys2Proof.Machine

/-- An event on bay `b`'s lane, taken only while the lane is UP with the line activity `act`. -/
def laneEvent (s : State) (b : Nat) (act : LaneAct) (f : State → State) : Answer :=
  if (s.bay b).lane.up && (s.bay b).lane.act == act then event s f else .next s

/-- The call in flight follows the wake plan. -/
def Lane.onWakePlan (l : Lane) : Bool :=
  match l.flight with
  | none => false
  | some f => f.plan == .wake

/-! ## Attempts (R24 to R26) -/

/-- CALL_SENT: the last stop bit has gone, and the answer window opens (R24). -/
def execCallSent (b : Nat) (s : State) : Answer :=
  laneEvent s b .sending fun s => s.updLane b fun l => { l with act := .listening, callEnd := s.now }

/-- CLASH while sending: the bay stops at once, and the attempt fails (R24). -/
def execClash (b : Nat) (s : State) : Answer :=
  laneEvent s b .sending fun s => (s.updLane b fun l => { l with callEnd := s.now }).failAttempt b .clash

/-- NO_ANSWER, 4 ms after the end of the call (R25, point 1). -/
def execNoAnswer (b : Nat) (s : State) : Answer :=
  laneEvent s b .listening fun s => (s.reach ((s.bay b).lane.callEnd + Config.noAnswerTime)).failAttempt b .noAnswer

/-- ANSWER_INCOMPLETE, 15 ms after the end of the call (R25, point 4). -/
def execAnswerIncomplete (b : Nat) (s : State) : Answer :=
  laneEvent s b .listening fun s => (s.reach ((s.bay b).lane.callEnd + Config.answerTime)).failAttempt b .short

/-- How a byte fault fails the attempt (R25, points 2 and 3). -/
def byteFaultFails : LaneByteFault → FailKind
  | .wrongStart => .corrupt
  | .stopLow => .corrupt
  | .lengthOver => .short

/-- ANSWER_BYTE_FAULT (R25, points 2 and 3); after the window's 15 ms point 4 has come first. -/
def execAnswerByteFault (b : Nat) (f : LaneByteFault) (s : State) : Answer :=
  laneEvent s b .listening fun s =>
    s.failAttempt b (if (s.bay b).lane.answerLate s.now then .short else byteFaultFails f)

/-- A complete frame passes the checks of kind and length for the call in flight (R25, points 6 and 7). -/
def State.answersCall (s : State) (b : Nat) (kind : Byte) (p : Bytes) : Bool :=
  match (s.bay b).lane.flight with
  | none => false
  | some f => kind == f.call.answerKind && (answerLengths kind).1 ≤ p.length && p.length ≤ (answerLengths kind).2

/-- BAD_ANSWER: a complete frame that fails its CRC, its kind or its length (R25, points 5 to 7), after the window's 15 ms
point 4. A frame that fails none of points 5 to 7 has its own row. -/
def execBadAnswer (b : Nat) (kind : Byte) (p : Bytes) (crc : Byte) (s : State) : Answer :=
  if crc = crc8 (laneBody kind p) ∧ s.answersCall b kind p then .next s
  else laneEvent s b .listening fun s =>
    if (s.bay b).lane.answerLate s.now then s.failAttempt b .short
    else if crc ≠ crc8 (laneBody kind p) then s.failAttempt b .corrupt
    else s.judgeAnswer b kind p

/-- RETRY: the spacing of a failed attempt ends (R26). -/
def execRetry (b : Nat) (s : State) : Answer :=
  if (s.bay b).lane.onWakePlan then .next s
  else laneEvent s b .spacing fun s => (s.reach (s.bay b).lane.dueAt).nextAttempt b

/-- The next attempt of the wake plan starts, unless the wake window has ended (R26). -/
def State.wakeAttempt (s : State) (b : Nat) : State := if (s.bay b).lane.windowOver s.now then s else s.nextAttempt b

/-- WAKE_ATTEMPT_DUE: the time of the wake plan's next attempt comes (R26). -/
def execWakeAttemptDue (b : Nat) (s : State) : Answer :=
  if (s.bay b).lane.onWakePlan then laneEvent s b .spacing fun s => (s.reach (s.bay b).lane.dueAt).wakeAttempt b
  else .next s

/-! ## The WAKE pattern and its window (R31, R26, R58) -/

/-- The end of the wake window of a WAKING session. -/
def State.wakeEnd (s : State) (b : Nat) : Option Nat :=
  if (s.bay b).sess.state = .waking then (s.bay b).lane.wakeAt.map (· + Config.wakeWindow) else none

/-- The window closes: an attempt in progress is still judged, a waiting one does not start (R26; log 17). -/
def State.closeWindow (s : State) (b : Nat) : State :=
  match (s.bay b).lane.flight, (s.bay b).lane.act with
  | some _, .sending => s
  | some _, .listening => s
  | some _, _ => (s.updLane b fun l => { l with flight := none, act := .idle }).wakeFails b
  | none, _ => s.wakeFails b

/-- WAKE_WINDOW_END (R58). -/
def execWakeWindowEnd (b : Nat) (s : State) : Answer := timerEvent s (s.wakeEnd b) fun s => s.closeWindow b

/-- QUIET_END: the line is free (R19). -/
def execQuietEnd (b : Nat) (s : State) : Answer :=
  laneEvent s b .quiet fun s => (s.reach (s.bay b).lane.dueAt).updLane b fun l => { l with act := .idle }

/-- The line is released: the wake window opens and the POLL of the wake plan is taken at once (R31). -/
def State.releasePulse (s : State) (b : Nat) : State :=
  s.updLane b fun l => { l with wakeAt := some s.now }.startCall (s.buildPoll b) .wake

/-- WAKE_PULSE_END (R31). -/
def execWakePulseEnd (b : Nat) (s : State) : Answer :=
  laneEvent s b .wakePulse fun s => (s.reach (s.bay b).lane.dueAt).releasePulse b

/-! ## Answers (R20 to R23): complete frames whose CRC matches -/

/-- ABILITY (R42). -/
def execAbility (b : Nat) (p : Bytes) (s : State) : Answer := laneEvent s b .listening fun s => s.judgeAnswer b 0x81#8 p

/-- CONFIRM answer (R44). -/
def execConfirmAnswer (b : Nat) (p : Bytes) (s : State) : Answer := laneEvent s b .listening fun s => s.judgeAnswer b 0x82#8 p

/-- STATUS (R52). -/
def execStatus (b : Nat) (p : Bytes) (s : State) : Answer := laneEvent s b .listening fun s => s.judgeAnswer b 0x83#8 p

/-- Identity chunk (R50). -/
def execIdentityChunk (b : Nat) (p : Bytes) (s : State) : Answer := laneEvent s b .listening fun s => s.judgeAnswer b 0x84#8 p

/-- CHUNK handshake (R105). -/
def execChunkHandshake (b : Nat) (p : Bytes) (s : State) : Answer := laneEvent s b .listening fun s => s.judgeAnswer b 0x85#8 p

/-- ENVELOPE handshake (R124). -/
def execEnvelopeHandshake (b : Nat) (p : Bytes) (s : State) : Answer := laneEvent s b .listening fun s => s.judgeAnswer b 0x86#8 p

/-- The answer kind of PAUSE and ABORT (R20). -/
def stopAnswerKind : StopCall → Byte
  | .pause => 0x87#8
  | .abort => 0x88#8

/-- PAUSE or ABORT handshake: read and discarded (R22). -/
def execStopHandshake (b : Nat) (c : StopCall) (p : Bytes) (s : State) : Answer :=
  laneEvent s b .listening fun s => s.judgeAnswer b (stopAnswerKind c) p

/-- Receipt (R126). -/
def execReceipt (b : Nat) (p : Bytes) (s : State) : Answer := laneEvent s b .listening fun s => s.judgeAnswer b 0x89#8 p

end Sys2Proof.Machine
end

