-- ==== Sys2Proof/Machine/CustodyRequests.lean ====
section
/-! DEFINITION. The hub requests of roster and custody (chapter 8). -/

namespace Sys2Proof.Machine

/-! ## ROSTER_PUT, ROSTER_REMOVE (R132, R133) -/

/-- One entry of eight bytes: credential, role, limit, assigned bay, state; its limit lowered to the role's range (R132,
checks 1 and 2). None if a value is out of range. -/
def parseCredential (p : Bytes) : Option Credential :=
  let num := longAt p 0
  let assigned := byteAt p 6
  let st := byteAt p 7
  match Role.ofCode (byteAt p 4) with
  | none => none
  | some role =>
    let top := if role = .student then 4 else 36
    if num = 0 ∨ 36 < assigned ∨ (st ≠ 1 ∧ st ≠ 2) then none
    else some ⟨num, role, min top (byteAt p 5), if assigned = 0 then none else some assigned, st == 1⟩

/-- The checks of the entries in the order carried: the credentials to write, or the first failure with its position
(R132). `seen` holds the credentials already met, `added` counts the new ones among them. -/
def State.checkEntries (s : State) : Nat → Nat → List Nat → Nat → Bytes → Except (Result × Nat) (List Credential)
  | 0, _, _, _, _ => .ok []
  | k + 1, pos, seen, added, p =>
    match parseCredential (p.take 8) with
    | none => .error (.badValue, pos)
    | some c =>
      if c.num ∈ seen then .error (.badValue, pos)
      else
        let known := (s.cred? c.num).isSome
        if known && c.limit < s.checkouts c.num + s.pendingAllowance c.num then .error (.inUse, pos)
        else if !known && Config.rosterSize < s.roster.length + added + 1 then .error (.full, pos)
        else
          match s.checkEntries k (pos + 1) (c.num :: seen) (if known then added else added + 1) (p.drop 8) with
          | .error e => .error e
          | .ok cs => .ok (c :: cs)

/-- The roster with a credential added or replaced, in ascending number (R131). -/
def putCredential (l : List Credential) (c : Credential) : List Credential :=
  insertBy (fun a b => a.num < b.num) c (l.filter (·.num != c.num))

/-- The limits as the request carries them. -/
def carriedLimits : Nat → Bytes → List Nat
  | 0, _ => []
  | k + 1, p => byteAt p 5 :: carriedLimits k (p.drop 8)

/-- ROSTER_PUT (R132). -/
def decideRosterPut (p : Bytes) (s : State) : Decision :=
  let k := p.length / 8
  s.sized (p.length % 8 == 0 && 1 ≤ k && k ≤ Config.pageSize) fun s =>
    match s.checkEntries k 1 [] 0 p with
    | .error (r, pos) => (s, [r.byte, byteOf pos])
    | .ok cs =>
      ({ s with roster := cs.foldl putCredential s.roster }).acceptClamped (cs.map Credential.limit != carriedLimits k p)
        (listBytes (cs.map fun (c : Credential) => [byteOf c.limit]))

/-- ROSTER_REMOVE (R133). -/
def decideRosterRemove (p : Bytes) (s : State) : Decision :=
  s.sized (p.length == 4) fun s =>
    let c := longAt p 0
    if (s.cred? c).isNone then s.deny .notFound
    else if 0 < s.checkouts c ∨ (s.groupOfCred c).isSome then s.deny .inUse
    else ({ s with roster := s.roster.filter (·.num != c) }).accept []

/-! ## PRESENT (R135 to R140) -/

/-- What a selection chose, and its warning (0 none, 1 PARTIAL, 2 RELEASED_LOW); or the reason it failed. -/
abbrev Selection := Except Reason (List Nat × Nat)

/-- The cart mode admits a role (R135, check 3). -/
def Mode.admits (m : Mode) (r : Role) : Bool :=
  match m, r with
  | .secure, .technician => true
  | .secure, .student => false
  | .secure, .teacher => false
  | .night, .student => false
  | .night, .teacher => true
  | .night, .technician => true
  | .classMode, _ => true

/-- The role permits the request (R135, check 5). -/
def roleAllows (r : Role) (i : Intent) (count bay : Nat) (override : Bool) : Bool :=
  match r, i with
  | .technician, _ => true
  | .student, .take => count == 1 && bay == 0 && !override
  | .student, .returnIt => !override
  | .student, .service => false
  | .teacher, .take => !override
  | .teacher, .returnIt => !override
  | .teacher, .service => false

/-- The bay's unit is LOCKED and in no release group. -/
def State.unitFree (s : State) (r : Bay) : Bool :=
  match s.unit? r.unit with
  | none => false
  | some u => u.state == .locked && (s.groupOfUnit r.unit).isNone

/-- The SoC of a status at or above the release minimum, if it is known (R136). -/
def State.releasableSoc (s : State) (r : Bay) : Option Nat :=
  (r.sess.status.bind (·.soc)).filter (s.custody.releaseMin ≤ ·)

/-- A candidate of R136. -/
def State.isCandidate (s : State) (r : Bay) : Bool :=
  r.enabled && r.cust.state == .stocked && r.cust.borrower.isNone && r.cust.alarms == 0#5 && r.stage.state != .faulted
    && s.unitFree r && (s.releasableSoc r).isSome && !s.hasActiveJob r.num

/-- The tier of a candidate: A is 0, B is 1, C is 2 (R136). -/
def State.tier (s : State) (r : Bay) : Nat :=
  match s.jobOf r.num with
  | some _ => 1
  | none => if s.currency r.num = 1 then 0 else 2

/-- The rank order of candidates: tier, then SoC from the highest, then bay number (R136). -/
def State.ranksBefore (s : State) (a b : Bay) : Bool :=
  let soc (r : Bay) := (s.releasableSoc r).getD 0
  s.tier a < s.tier b || (s.tier a == s.tier b && (soc b < soc a || (soc a == soc b && a.num < b.num)))

/-- A TAKE that names no bay, by a credential with no assigned bay (R136). -/
def State.selectRanked (s : State) (allowance : Nat) : Selection :=
  let ranked := sortBy s.ranksBefore (s.bays.filter s.isCandidate)
  if ranked.isEmpty then .error .noneReady
  else .ok ((ranked.take allowance).map (·.num), if ranked.length < allowance then 1 else 0)

/-- A TAKE of one bay, named or assigned (R137). -/
def State.selectOne (s : State) (b : Nat) (override : Bool) : Selection :=
  match s.bay? b with
  | none => .error .noneReady
  | some r =>
    if !r.enabled || r.cust.state != .stocked || r.cust.borrower.isSome || r.cust.alarms != 0#5 then .error .noneReady
    else if !s.unitFree r then .error .unitBusy
    else if s.hasActiveJob b && !override then .error .jobActive
    else .ok ([b], if (s.releasableSoc r).isSome then 0 else 2)

/-- A RETURN: the own bay, or the fallback (R138). -/
def State.selectReturn (s : State) (c : Nat) : Selection :=
  match s.bays.find? (·.cust.borrower == some c) with
  | none => .error .nothingOut
  | some own =>
    if own.enabled && own.cust.state == .vacant then
      if s.unitFree own then .ok ([own.num], 0) else .error .unitBusy
    else
      match s.bays.find? fun r => r.enabled && r.cust.state == .vacant && r.cust.borrower.isNone && s.unitFree r with
      | none => .error .noRoom
      | some r => .ok ([r.num], 0)

/-- A SERVICE of the named bay (R139). -/
def State.selectService (s : State) (b : Nat) (override : Bool) : Selection :=
  if !(s.bay b).enabled then .error .noneReady
  else if !s.unitFree (s.bay b) then .error .unitBusy
  else if s.hasActiveJob b && !override then .error .jobActive
  else .ok ([b], 0)

/-- The selection for the intent (R135, check 7). -/
def State.select (s : State) (c : Credential) (i : Intent) (bay allowance : Nat) (override : Bool) : Selection :=
  match i with
  | .returnIt => s.selectReturn c.num
  | .service => s.selectService bay override
  | .take =>
    if bay ≠ 0 then s.selectOne bay override
    else match c.assigned with
      | some b => s.selectOne b override
      | none => s.selectRanked allowance

/-- The allowance of a request that passes (R135). -/
def allowanceOf (i : Intent) (count room : Nat) : Nat :=
  match i with
  | .take => min count room
  | .service => room
  | .returnIt => 0

/-- The units that serve the selected bays, in ascending number, each once (R140). -/
def State.unitsOf (s : State) (bays : List Nat) : List Nat :=
  sortBy (· < ·) (bays.map fun b => (s.bay b).unit).eraseDups

/-- Abort the jobs an accepted presentation cancels (R140, step 1). -/
def State.abortForRelease (s : State) (i : Intent) (bays units : List Nat) (override : Bool) : State :=
  let s := if i = .take then
      s.forEach bays fun s b => if s.hasActiveJob b then s else s.abortBay b .cancelled false
    else s
  if override then
    s.forEach (units.map s.baysOf).flatten fun s b => if s.hasActiveJob b then s.abortBay b .released true else s
  else s

/-- An accepted presentation (R140). -/
def State.release (s : State) (c : Nat) (i : Intent) (bays : List Nat) (allowance : Nat) (override : Bool) : State :=
  let units := s.unitsOf bays
  let s := s.abortForRelease i bays units override
  let g : Group := ⟨c, i, allowance, bays, units.map fun u => ⟨u, .pending, false, false, false, false⟩, false, 0, 0, 0⟩
  let s := { s with custody := { s.custody with groups := s.custody.groups ++ [g] } }
  s.forEach units fun s u => s.queueMove u .unlock

/-- The checks of R135 in their order: the selected bays in ascending order, the allowance and the warning, or the first
reason that fails. -/
def State.decidePresentation (s : State) (num : Nat) (i : Intent) (count bay : Nat) (override : Bool) :
    Except Reason (List Nat × Nat × Nat) :=
  match s.cred? num with
  | none => .error .unknown
  | some c =>
    let room := c.limit - s.checkouts num
    if !c.active then .error .suspended
    else if !s.mode.admits c.role then .error .closed
    else if (s.groupOfCred num).isSome then .error .releasePending
    else if !roleAllows c.role i count bay override then .error .notPermitted
    else if i = .take ∧ room = 0 then .error .limit
    else
      let allowance := allowanceOf i count room
      match s.select c i bay allowance override with
      | .error r => .error r
      | .ok (bays, warning) => .ok (sortBy (· < ·) bays, allowance, warning)

/-- The fields of a PRESENT lie in their ranges (R135). -/
def presentFields (num : Nat) (i : Intent) (count bay : Nat) : Bool :=
  num != 0 && 1 ≤ count && count ≤ 36 &&
    (match i with
      | .returnIt => bay == 0
      | .service => bay != 0
      | .take => true)

/-- PRESENT (R135). -/
def decidePresent (p : Bytes) (s : State) : Decision :=
  s.sized (p.length == 8) fun s =>
    let num := longAt p 0
    let count := byteAt p 5
    let bay := byteAt p 6
    let override := flagAt p 7
    match Intent.ofCode (byteAt p 4) with
    | none => s.deny .badValue
    | some i =>
      if !presentFields num i count bay then s.deny .badValue
      else s.onBayOrZero bay fun s =>
        match s.decidePresentation num i count bay override with
        | .error r => s.refuse r
        | .ok (bays, allowance, warning) =>
          (s.release num i bays allowance override).accept
            ([1#8] ++ listBytes (bays.map fun b => [byteOf b]) ++ [byteOf allowance, byteOf warning])

/-! ## RESTORE_CHECKOUT, ACCEPT_FOREIGN (R150, R151) -/

/-- The serial is the expected serial of another bay's checkout (R151, check 3). -/
def State.serialOut (s : State) (b : Nat) (serial : Bytes) : Bool := !serial.isEmpty && (s.otherCheckout b serial).isSome

/-- The checkout is entered again (R151); no CUSTODY event. -/
def State.restore (s : State) (b c : Nat) (serial : Bytes) : State :=
  let known := if serial.isEmpty then none else some serial
  s.updCust b fun x => { x with
    borrower := some c, expected := known, note := some ⟨.restored, some c, known, none, false⟩ }

/-- RESTORE_CHECKOUT (R151). -/
def decideRestoreCheckout (p : Bytes) (s : State) : Decision :=
  s.sized (6 ≤ p.length && p.length == 6 + byteAt p 5) fun s =>
    let b := byteAt p 0
    let c := longAt p 1
    let serial := p.drop 6
    if 20 < byteAt p 5 ∨ !serial.all isTagChar ∨ c = 0 then s.deny .badValue
    else s.onBay b fun s =>
      let x := (s.bay b).cust
      match s.cred? c with
      | none => s.deny .notFound
      | some cr =>
        if x.state ≠ .vacant ∨ x.borrower.isSome ∨ x.taken.isSome ∨ x.inserted then s.deny .state
        else if s.serialOut b serial then s.deny .inUse
        else if cr.limit ≤ s.checkouts c + s.pendingAllowance c then s.refuse .limit
        else (s.restore b c serial).accept []

/-- The custody state of a bay whose foreign tablet is accepted: a tablet that custody holds in the bay is in stock (R150; log 36). -/
def CustState.accepted : CustState → CustState
  | .vacant => .vacant
  | .stocked => .stocked
  | .reconciling => .stocked

/-- The tablet now in the bay is taken into stock as it is (R150): a RECONCILING bay becomes STOCKED, its reconciliation over, and
a VACANT one, which holds no tablet for custody to stock, stays VACANT (log 36). -/
def State.acceptForeign (s : State) (b : Nat) : State :=
  ((s.removeAlarm b .foreign).updCust b fun x => { x with
    state := x.state.accepted, unattended := false
    borrower := none, expected := none, note := some ⟨.accepted, x.borrower, none, none, false⟩ }).post b .custody

/-- ACCEPT_FOREIGN (R150). -/
def decideAcceptForeign (p : Bytes) (s : State) : Decision :=
  s.sized (p.length == 1) fun s =>
    let b := byteAt p 0
    s.onBay b fun s => if (s.bay b).cust.has .foreign then (s.acceptForeign b).accept [] else s.deny .state

/-! ## CLEAR_ALARM (R149, R162) -/

/-- The debounced door of the bay's unit reads open (log 24). -/
def State.doorReadsOpen (s : State) (u : Nat) : Bool :=
  match s.unit? u with
  | none => false
  | some r => r.doorOpen

/-- The level of the unit's latch position input means locked (R162). -/
def State.lposLocked (s : State) (u : Nat) (high : Bool) : Bool :=
  match s.unit? u with
  | none => false
  | some r =>
    match s.rankGeo r.rank with
    | none => false
    | some g => g.lposPol.active high

def setPin (v : BitVec 36) (n : Nat) (high : Bool) : BitVec 36 := if high then setBit v (n - 1) else clearBit v (n - 1)

/-- The latch position input of unit `u` is read at level `high`. -/
def State.readLpos (s : State) (u : Nat) (high : Bool) : State :=
  { s with pins := { s.pins with lpos := setPin s.pins.lpos u high } }

/-- CLEAR_ALARM (R149); `high` gives the level of a unit's latch position input, read when a FORCED alarm is cleared. -/
def decideClearAlarm (p : Bytes) (high : Nat → Bool) (s : State) : Decision :=
  s.sized (p.length == 2) fun s =>
    let b := byteAt p 0
    s.onBay b fun s =>
      let u := (s.bay b).unit
      match Alarm.ofCode (byteAt p 1) with
      | none => s.deny .badValue
      | some a =>
        if !(s.bay b).cust.has a then s.deny .state
        else match a with
          | .ajar => s.deny .state
          | .forced =>
            if s.doorReadsOpen u then s.deny .state
            else (((s.readLpos u (high u)).quietUnit u .forced).forcedCleared u (s.lposLocked u (high u))).accept []
          | .latch => ((s.quietUnit u .latch).latchCleared u).accept []
          | .missing => (s.removeAlarm b .missing).accept []
          | .foreign => (s.removeAlarm b .foreign).accept []

/-! ## SET_CUSTODY (R152) -/

/-- The ajar limit takes its value; units already OPEN that long are reported (R152, R161). -/
def State.setAjarLimit (s : State) (limit : Nat) : State :=
  ({ s with custody := { s.custody with ajarLimit := limit } }).reportOverdue

/-- SET_CUSTODY (R152). -/
def decideSetCustody (p : Bytes) (s : State) : Decision :=
  s.sized (p.length == 2) fun s =>
    let limit := max 30 (min 600 (wordAt p 0))
    (s.setAjarLimit limit).acceptClamped (limit != wordAt p 0) (le2 limit)

end Sys2Proof.Machine
end

