-- ==== Sys2Proof/Machine/LatchEvents.lean ====
section
/-! DEFINITION. The drivers' phases, the doors, the unlatch window and the ajar clock (R156 to R161). -/

namespace Sys2Proof.Machine

/-- The end of a driver's phase; a driver in another phase, or IDLE, has none. -/
def State.phaseEnd (s : State) (d : DriverId) (ph : MovePhase) : Option Drive :=
  (s.latch.driver d).filter (·.phase == ph)

/-- The expiry of a driver's phase. -/
def driveEvent (s : State) (d : DriverId) (ph : MovePhase) (f : State → Drive → State) : Answer :=
  match s.phaseEnd d ph with
  | none => .next s
  | some v => timerEvent s (some v.dueAt) fun s => f s v

/-- MOTOR_PULSE_END: the position check follows in 50 ms (R156). -/
def execMotorPulseEnd (d : DriverId) (s : State) : Answer :=
  driveEvent s d .pulse fun s v =>
    { s with latch := s.latch.setDriver d (some { v with phase := .checkWait, dueAt := s.now + Config.checkWait }) }

/-- POSITION_CHECK: the unit's latch position input stands at level `high` (R156, R157). -/
def execPositionCheck (d : DriverId) (high : Bool) (s : State) : Answer :=
  driveEvent s d .checkWait fun s v =>
    (s.readLpos v.move.unit high).positionRead d v (s.lposLocked v.move.unit high)

/-- RETRY_WAIT_END: the second pulse (R156). -/
def execRetryWaitEnd (d : DriverId) (s : State) : Answer :=
  driveEvent s d .retryWait fun s v =>
    { s with latch := s.latch.setDriver d (some { v with phase := .pulse, attempt := 2, dueAt := s.now + Config.motorPulse }) }

/-- The input level of unit `u` means its door is open; none for a unit that does not exist. -/
def State.doorMeans (s : State) (u : Nat) (high : Bool) : Option Bool :=
  match s.unit? u with
  | none => none
  | some r => (s.rankGeo r.rank).map fun g => g.doorPol.active high

/-- The level changes: it differs from the debounced door value and the timer runs, or it matches and the timer is
cancelled (R158). -/
def State.doorLevel (s : State) (u : Nat) (high level : Bool) : State :=
  ({ s with pins := { s.pins with door := setPin s.pins.door u high } }).updUnit u fun r =>
    if level = r.doorOpen then { r with doorAt := none }
    else { r with doorAt := some (r.doorAt.getD (s.now + Config.doorDebounce)) }

/-- DOOR_CHANGE (R158). -/
def execDoorChange (u : Nat) (high : Bool) (s : State) : Answer :=
  match s.doorMeans u high with
  | none => .next s
  | some level => event s fun s => s.doorLevel u high level

/-- DOOR_DEBOUNCE (R158, R159). -/
def execDoorDebounce (u : Nat) (s : State) : Answer :=
  timerEvent s ((s.unit? u).bind (·.doorAt)) fun s => s.doorChanged u

/-- UNLATCH_WINDOW_EXPIRY (R160). -/
def execUnlatchWindowExpiry (u : Nat) (s : State) : Answer :=
  timerEvent s ((s.unit? u).bind (·.windowAt)) fun s => s.windowLapses u

/-- AJAR_LIMIT (R161). -/
def execAjarLimit (u : Nat) (s : State) : Answer :=
  timerEvent s ((s.unit? u).bind (LatchUnit.ajarDue · s.custody.ajarLimit)) fun s => s.reportAjar u

end Sys2Proof.Machine
end

