-- ==== Sys2Proof/Machine/PowerEvents.lean ====
section
/-! DEFINITION. The allocator's timers, the stages' timers and samples, and the cart monitor's samples (R65, R67, R85 to R97). -/

namespace Sys2Proof.Machine

/-! ## Allocator (R65, R67) -/

/-- SCHEDULED_PASS (R65). -/
def execScheduledPass (s : State) : Answer := timerEvent s s.alloc.scheduled fun s => s.runPass .normal

/-- PERIODIC_TIMER requests a normal pass (R67). -/
def execPeriodicTimer (s : State) : Answer :=
  timerEvent s s.alloc.periodic fun s => ({ s with alloc := { s.alloc with periodic := none } }).askNormal

/-! ## Stages (R85 to R91) -/

/-- RAMP_TICK (R85). -/
def execRampTick (s : State) : Answer :=
  timerEvent s s.rampAt fun s => ({ s with rampAt := some (s.now + Config.rampTime) }).rampTick

/-- STAGE_SAMPLE (R88): the draw in tenths of a watt and the output voltage in mV, which only an ON stage reads. -/
def execStageSample (b : Nat) (draw : BitVec 16) (mv : Nat) (s : State) : Answer :=
  timerEvent s ((s.bay? b).map (·.stage.sampleAt)) fun s =>
    (s.updStage b fun st => { st with sampleAt := s.now + Config.stageSampleTime }).stageSample b draw.toNat mv

/-- TRIP: the trip filter's timer expires (R89). -/
def execTrip (b : Nat) (s : State) : Answer := timerEvent s (s.bay b).stage.tripAt fun s => s.tripStage b

/-- COOL_OFF_EXPIRY (R91). -/
def execCoolOffExpiry (b : Nat) (s : State) : Answer :=
  timerEvent s (s.bay b).stage.coolAt fun s => (s.updStage b fun st => { st with state := .off, coolAt := none }).askNormal

/-! ## Cart monitor (R95 to R97) -/

/-- A valid reading: −20 to 100 °C (R95). -/
def validReading : TempReading → Option Int
  | .openSensor => none
  | .celsius t => if -20 ≤ t ∧ t ≤ 100 then some t else none

/-- The thermal hold flag after a sample (R68); none is a faulty one. -/
def holdAfter (hold : Bool) : Option Int → Bool
  | none => true
  | some t => if 55 ≤ t then true else if t ≤ 50 then false else hold

/-- The monitor's fields after a temperature sample (R95); entry to hold re-arms the overrun count (R97). -/
def Monitor.sampled (m : Monitor) (v : Option Int) (due : Nat) : Monitor :=
  let hold := holdAfter m.hold v
  let temp := if v.isSome then v else m.temp
  let entered := hold && !m.hold
  { m with
    temp := temp, sensorFault := v.isNone, hold := hold, factor := derate hold temp, tempDue := due
    overruns := if entered then 0 else m.overruns, armed := entered || m.armed }

/-- A temperature sample, with its passes, its event and the suspensions of an entry to hold (R95, R96). -/
def State.tempSample (s : State) (v : Option Int) : State :=
  let old := s.monitor
  let s := { s with monitor := s.monitor.sampled v (s.now + Config.tempSampleTime) }
  let s := if s.monitor.hold && !old.hold then s.forEach (s.bays.map (·.num)) suspendBay else s
  let s := if s.monitor.hold != old.hold then s.postCart .thermal else s
  s.passFor old.factor s.monitor.factor

/-- TSENSE_SAMPLE (R95). -/
def execTsenseSample (r : TempReading) (s : State) : Answer :=
  timerEvent s (some s.monitor.tempDue) fun s => s.tempSample (validReading r)

/-- The overrun count and the episode flag after a sample that is compared with E (R97). -/
def Monitor.compared (m : Monitor) (above : Bool) : Monitor :=
  if above then { m with overruns := min Config.overrunCount (m.overruns + 1) } else { m with overruns := 0, armed := true }

/-- An overrun episode begins (R97). -/
def State.beginEpisode (s : State) : State :=
  let s := { s with
    alloc := { s.alloc with trim := min 10 (s.alloc.trim + 1) }
    monitor := { s.monitor with armed := false } }
  (s.postCart .overrun).askUrgent

/-- A wall-input sample (R97). -/
def State.wallSample (s : State) (w : BitVec 16) : State :=
  let s := { s with monitor := { s.monitor with win := w, winDue := s.now + Config.winSampleTime } }
  match s.alloc.summary with
  | none => s
  | some m =>
    if !s.committed || s.monitor.hold then s
    else
      let s := { s with monitor := s.monitor.compared (m.derated < w.toNat) }
      if s.monitor.overruns = Config.overrunCount ∧ s.monitor.armed then s.beginEpisode else s

/-- WSENSE_SAMPLE (R97), in tenths of a watt. -/
def execWsenseSample (w : BitVec 16) (s : State) : Answer :=
  timerEvent s (some s.monitor.winDue) fun s => s.wallSample w

end Sys2Proof.Machine
end

