-- ==== Sys2Proof/Machine/BudgetRequests.lean ====
section
/-! DEFINITION. The hub requests of the power budget and the stages: SET_BUDGET, SET_THRESHOLDS, SET_POLICY, CLEAR_FAULT (chapters 4
and 5). -/

namespace Sys2Proof.Machine

/-- A value brought to the nearer end of its range (R61). -/
def clampTo (lo hi v : Nat) : Nat := max lo (min hi v)

/-! ## SET_BUDGET (R61) -/

/-- The four settings in force after SET_BUDGET, and trim 0. -/
def State.writeBudget (s : State) (c o eta slots : Nat) : State :=
  { s with alloc := { s.alloc with ceiling := c, overhead := o, eta := eta, slots := slots, trim := 0 } }

/-- A decrease of D below the summary's runs an urgent pass, anything else requests a normal one (R61). -/
def State.budgetPass (s : State) : State :=
  match s.alloc.summary with
  | none => s.askNormal
  | some m => if s.distributable < m.distributable then s.askUrgent else s.askNormal

/-- SET_BUDGET (R61). -/
def decideSetBudget (p : Bytes) (s : State) : Decision :=
  s.sized (p.length == 6) fun s =>
    let c := clampTo 1000 20000 (wordAt p 0)
    let o := clampTo 0 600 (wordAt p 2)
    let eta := clampTo 70 98 (byteAt p 4)
    let slots := clampTo 0 4 (byteAt p 5)
    let clamped := c ≠ wordAt p 0 ∨ o ≠ wordAt p 2 ∨ eta ≠ byteAt p 4 ∨ slots ≠ byteAt p 5
    ((s.writeBudget c o eta slots).budgetPass).acceptClamped clamped (le2 c ++ le2 o ++ [byteOf eta, byteOf slots])

/-! ## SET_THRESHOLDS (R62) -/

/-- The thresholds take their values; a change of low or ready requests a normal pass (R62). -/
def State.setThresholds (s : State) (low ready rel : Nat) : State :=
  let changed := s.alloc.low ≠ low ∨ s.alloc.ready ≠ ready
  let s := { s with
    alloc := { s.alloc with low := low, ready := ready }
    custody := { s.custody with releaseMin := rel } }
  if changed then s.askNormal else s

/-- SET_THRESHOLDS (R62). -/
def decideSetThresholds (p : Bytes) (s : State) : Decision :=
  s.sized (p.length == 3) fun s =>
    let low := min 100 (byteAt p 0)
    let ready := max low (min 100 (byteAt p 1))
    let rel := min 100 (byteAt p 2)
    let clamped := low ≠ byteAt p 0 ∨ ready ≠ byteAt p 1 ∨ rel ≠ byteAt p 2
    (s.setThresholds low ready rel).acceptClamped clamped [byteOf low, byteOf ready, byteOf rel]

/-! ## SET_POLICY (R63) -/

/-- The policy takes its value; a change requests a normal pass (R63). -/
def State.setPolicy (s : State) (v : Policy) : State :=
  if s.alloc.policy = v then s else { s with alloc := { s.alloc with policy := v } }.askNormal

/-- SET_POLICY (R63). -/
def decideSetPolicy (p : Bytes) (s : State) : Decision :=
  s.sized (p.length == 1) fun s =>
    match Policy.ofCode (byteAt p 0) with
    | none => s.deny .badValue
    | some v => (s.setPolicy v).accept []

/-! ## CLEAR_FAULT (R92) -/

/-- CLEAR_FAULT (R92). -/
def decideClearFault (p : Bytes) (s : State) : Decision :=
  s.sized (p.length == 1) fun s =>
    let b := byteAt p 0
    s.onBay b fun s =>
      if (s.bay b).stage.state = .faulted then
        ((s.updStage b fun st => { st with state := .off, trips := [] }).askNormal).accept []
      else s.deny .state

end Sys2Proof.Machine
end

