-- ==== Sys2Proof/Machine/JobRequests.lean ====
section
/-! DEFINITION. The hub requests of the job scheduler (R108, R109, R114, R116, R118, R129). -/

namespace Sys2Proof.Machine

/-! ## The catalog (R108, R109) -/

/-- `k` model codes of two bytes each. -/
def parseModels : Nat → Bytes → List Nat
  | 0, _ => []
  | k + 1, p => wordAt p 0 :: parseModels k (p.drop 2)

/-- The entry a CATALOG_SET carries; the model list fills what the other fields leave (R181). -/
def parseImage (p : Bytes) : Image :=
  let models := (p.length - 12) / 2
  ⟨wordAt p 0, longAt p 2, longAt p 6, byteAt p 10, parseModels models (p.drop 11), flagAt p (p.length - 1)⟩

/-- A payload with a model list of 1 to 4 codes (R108). -/
def imageSized (p : Bytes) : Bool := p.length == 14 || p.length == 16 || p.length == 18 || p.length == 20

/-- A job on image `id` is in OFFERED, RUNNING or RECEIPT. -/
def State.imageActive (s : State) (id : Nat) : Bool := s.jobs.any fun j => j.image == id && j.state.onChannel

/-- The catalog with an entry added or replaced, in ascending image id (R108). -/
def putImage (i : Image) (l : List Image) : List Image :=
  insertBy (fun a b => a.id < b.id) i (l.filter (·.id != i.id))

/-- CATALOG_SET (R108). -/
def decideCatalogSet (p : Bytes) (s : State) : Decision :=
  s.sized (imageSized p) fun s =>
    let i := parseImage p
    if i.id = 0 ∨ i.size = 0 ∨ i.minutes = 0 ∨ 240 < i.minutes then s.deny .badValue
    else
      let put (s : State) : State := { s with sched := { s.sched with catalog := putImage i s.sched.catalog } }
      match s.image? i.id with
      | some _ => if s.imageActive i.id then s.deny .inUse else (put s).accept []
      | none => if Config.catalogSize ≤ s.sched.catalog.length then s.deny .full else (put s).accept []

/-- CATALOG_DROP (R109). -/
def decideCatalogDrop (p : Bytes) (s : State) : Decision :=
  s.sized (p.length == 2) fun s =>
    let id := wordAt p 0
    match s.image? id with
    | none => s.deny .notFound
    | some _ =>
      if s.jobs.any fun j => j.image == id then s.deny .inUse
      else ({ s with sched := { s.sched with catalog := s.sched.catalog.filter (·.id != id) } }).accept []

/-! ## Jobs (R114, R116, R129) -/

/-- The hub's decision of the bay's JOB ask; none outstanding is left alone (R114, R116). -/
def State.hubReply (s : State) (b : Nat) (r : Reply) : State :=
  match (s.bay b).sess.ask with
  | none => s
  | some a =>
    match a.kind with
    | .profile => s
    | .job => (s.replyAsk b r).updLane b fun l => { l with autoDefer := false }

/-- QUEUE_JOB (R114). -/
def decideQueueJob (p : Bytes) (s : State) : Decision :=
  s.sized (p.length == 4) fun s =>
    let b := byteAt p 0
    let id := wordAt p 1
    let pr := byteAt p 3
    s.onBay b fun s =>
      if 3 < pr then s.deny .badValue
      else if !(s.bay b).enabled then s.deny .bayDisabled
      else if !(s.bay b).present then s.deny .state
      else match s.image? id with
        | none => s.deny .notFound
        | some e =>
          if (s.jobOf b).isSome then s.deny .inUse
          else if s.wrongModel b e then s.refuse .wrongModel
          else if s.jobsFull then s.deny .full
          else ((s.createJob b id pr .hub).hubReply b .accept).accept (le2 s.newTag)

/-- CANCEL_JOB (R129). -/
def decideCancelJob (p : Bytes) (s : State) : Decision :=
  s.sized (p.length == 2) fun s =>
    match s.jobTagged (wordAt p 0) with
    | none => s.deny .notFound
    | some j => (s.endJob j false .cancelled j.channel.isSome).accept []

/-- DECLINE_ASK (R116). -/
def decideDeclineAsk (p : Bytes) (s : State) : Decision :=
  s.sized (p.length == 1) fun s =>
    let b := byteAt p 0
    s.onBay b fun s =>
      match (s.bay b).sess.ask with
      | none => s.deny .state
      | some a =>
        match a.kind with
        | .profile => s.deny .state
        | .job => (s.hubReply b .refuse).accept []

/-! ## Channels (R118) -/

/-- A channel disabled while ASSIGNED has its job suspended; one enabled while IDLE is a cause of a scan (R118). -/
def State.channelSwitched (s : State) (c : Channel) (on : Bool) : State :=
  if c.enabled = on then s
  else match c.state with
    | .idle => if on then s.askScan else s
    | .assigned b _ => if on then s else s.suspendBay b
    | .draining _ => s

/-- Every existing channel's flag takes its value (R118). -/
def State.setChannels (s : State) (mask : BitVec 8) : State :=
  let old := s.sched.channels
  let s := { s with sched := { s.sched with
    channels := old.map fun (c : Channel) => { c with enabled := mask.getLsbD (c.num - 1) } } }
  old.foldl (fun s c => s.channelSwitched c (mask.getLsbD (c.num - 1))) s

/-- SET_CHANNELS (R118). -/
def decideSetChannels (p : Bytes) (s : State) : Decision :=
  s.sized (p.length == 1) fun s =>
    let mask := p.headD 0#8
    if mask >>> s.sched.channels.length ≠ 0#8 then s.deny .badValue else (s.setChannels mask).accept []

end Sys2Proof.Machine
end

