-- ==== Sys2Proof/Machine/LaneRequests.lean ====
section
/-! DEFINITION. The hub requests that act on sessions and lanes: RENEGOTIATE, FORCE_CONTRACT, WAKE_BAY, SET_LANE_FLAGS (chapters 2
and 3). -/

namespace Sys2Proof.Machine

/-! ## A restart the hub asks for (R45, R47, R56) -/

/-- The hub's uncounted restart, by the session's state (R47, R56): now, at the next entry to CONTRACTED, or not at all. -/
def State.hubRestart (s : State) (b : Nat) : State :=
  match (s.bay b).sess.state with
  | .confirming => s.enterBreak b false
  | .identifying => s.enterBreak b false
  | .contracted => s.enterBreak b false
  | .fallback => s.enterBreak b false
  | .asleep => s.updSess b fun x => { x with hubRestart := true }
  | .waking => s.updSess b fun x => { x with hubRestart := true }
  | .off => s
  | .greeting => s
  | .breakWait => s

/-- RENEGOTIATE (R56). -/
def decideRenegotiate (p : Bytes) (s : State) : Decision :=
  s.sized (p.length == 1) fun s =>
    let b := byteAt p 0
    s.onBay b fun s =>
      if !(s.bay b).enabled then s.deny .bayDisabled
      else if (s.bay b).sess.state = .off then s.deny .state
      else (s.hubRestart b).accept []

/-- The level FORCE_CONTRACT puts in force: at most the lower of rank maximum and host cap (R47). -/
def State.forcedFor (s : State) (b : Nat) (asked : Option Level) : Option Level :=
  asked.map fun l => l.min (s.bayLevels b)

/-- The forced level takes its value; a change restarts the session (R47). -/
def State.forceContract (s : State) (b : Nat) (l : Option Level) : State :=
  if (s.bay b).sess.forced = l then s
  else (s.updSess b fun x => { x with forced := l }).hubRestart b

/-- FORCE_CONTRACT (R47). -/
def decideForceContract (p : Bytes) (s : State) : Decision :=
  s.sized (p.length == 2) fun s =>
    let b := byteAt p 0
    s.onBay b fun s =>
      if 5 < byteAt p 1 then s.deny .badValue
      else
        let asked := Level.ofNum (byteAt p 1)
        let l := s.forcedFor b asked
        (s.forceContract b l).acceptClamped (l != asked) [byteOf (optCode Level.num l)]

/-- WAKE_BAY (R57). -/
def decideWakeBay (p : Bytes) (s : State) : Decision :=
  s.sized (p.length == 1) fun s =>
    let b := byteAt p 0
    s.onBay b fun s =>
      if !(s.bay b).enabled then s.deny .bayDisabled
      else match (s.bay b).sess.state with
        | .asleep => (s.beginWake b).accept []
        | .waking => s.report []
        | .off => s.deny .state
        | .greeting => s.deny .state
        | .confirming => s.deny .state
        | .identifying => s.deny .state
        | .contracted => s.deny .state
        | .breakWait => s.deny .state
        | .fallback => s.deny .state

/-! ## SET_LANE_FLAGS (R34, R35) -/

/-- Write a bay's hub flags; where that clears the last set one, an undecided ask goes to its owner (R34). -/
def State.setLaneFlags (s : State) (b : Nat) (defer refuse : Bool) : State :=
  let wasOpen := (s.bay b).lane.open_
  let s := s.updLane b fun l => { l with hubDefer := defer, hubRefuse := refuse }
  if !wasOpen && (s.bay b).lane.open_ then s.consultUndecided b else s

/-- The bays SET_LANE_FLAGS means: one, or with 0 every enabled one, in ascending number (R35). -/
def State.flagBays (s : State) (b : Nat) : List Nat :=
  if b = 0 then (s.bays.filter (·.enabled)).map (·.num) else [b]

/-- SET_LANE_FLAGS (R35). -/
def decideSetLaneFlags (p : Bytes) (s : State) : Decision :=
  s.sized (p.length == 3) fun s =>
    let b := byteAt p 0
    if 1 < byteAt p 1 ∨ 1 < byteAt p 2 then s.deny .badValue
    else s.onBayOrZero b fun s =>
      (s.forEach (s.flagBays b) fun s b => s.setLaneFlags b (flagAt p 1) (flagAt p 2)).accept []

end Sys2Proof.Machine
end

