-- ==== Sys2Proof/Machine/ProfileRequests.lean ====
section
/-! DEFINITION. The hub requests of the profile store (R99 to R101). -/

namespace Sys2Proof.Machine

/-- Another slot that is not EMPTY holds the id (R99, check 3). -/
def State.idElsewhere (s : State) (k id : Nat) : Bool :=
  s.store.any fun r => r.num != k && r.state != .empty && r.id == id

/-- The store total with slot `k` at length `n` (R99, check 4). -/
def State.totalWith (s : State) (k n : Nat) : Nat :=
  s.storeTotal - ((s.slot? k).map Slot.size).getD 0 + n

def slotNumber (k : Nat) : Bool := 1 ≤ k && k ≤ 8

/-- PROFILE_BEGIN (R99). -/
def decideProfileBegin (p : Bytes) (s : State) : Decision :=
  s.sized (p.length == 6) fun s =>
    let k := byteAt p 0
    let id := byteAt p 1
    let n := wordAt p 4
    if !slotNumber k || id == 0 || n == 0 || Config.profileBytes < n then s.deny .badValue
    else match s.slot? k with
      | none => s.deny .badValue
      | some r =>
        if 0 < r.serves then s.deny .inUse
        else if s.idElsewhere k id then s.deny .inUse
        else if Config.storeBytes < s.totalWith k n then s.deny .full
        else (s.updSlot k fun r => { r with
          state := .loading, id := id, version := wordAt p 2, length := n, content := [] }).accept []

/-- PROFILE_DATA (R100). -/
def decideProfileData (p : Bytes) (s : State) : Decision :=
  s.sized (4 ≤ p.length && p.length ≤ 3 + Config.dataBytes) fun s =>
    let k := byteAt p 0
    let data := p.drop 3
    if !slotNumber k then s.deny .badValue
    else match s.slot? k with
      | none => s.deny .badValue
      | some r =>
        if r.state ≠ .loading then s.deny .state
        else if wordAt p 1 ≠ r.written ∨ r.length - r.written < data.length then s.deny .badValue
        else (s.updSlot k fun r => { r with content := r.content ++ data }).accept []

/-- PROFILE_END (R101). -/
def decideProfileEnd (p : Bytes) (s : State) : Decision :=
  s.sized (p.length == 1) fun s =>
    let k := byteAt p 0
    if !slotNumber k then s.deny .badValue
    else match s.slot? k with
      | none => s.deny .badValue
      | some r =>
        if r.state = .loading ∧ r.written = r.length then (s.updSlot k fun r => { r with state := .ready }).accept []
        else s.deny .state

/-- The slot holds nothing (R98, R101). -/
def State.emptySlot (s : State) (k : Nat) : State := s.updSlot k fun _ => Slot.reset k

/-- PROFILE_DROP (R101). -/
def decideProfileDrop (p : Bytes) (s : State) : Decision :=
  s.sized (p.length == 1) fun s =>
    let k := byteAt p 0
    if !slotNumber k then s.deny .badValue
    else match s.slot? k with
      | none => s.deny .badValue
      | some r => if 0 < r.serves then s.deny .inUse else (s.emptySlot k).accept []

end Sys2Proof.Machine
end

