-- ==== Sys2Proof/Machine/Readout.lean ====
section
/-! DEFINITION. Readout and notices: GET_CART, GET_BAY, GET_BUDGET, GET_PROFILES, GET_JOBS, ROSTER_GET, SET_NOTICES, READ_EVENTS
(chapter 11; R81, R102, R130, R133). Layouts of R181 follow logs 8 to 10. -/

namespace Sys2Proof.Machine

/-- The last temperature, 0x80 when absent (R178). -/
def tempByte (t : Option Int) : Byte :=
  match t with
  | none => 0x80#8
  | some v => signedByte v

def countBays (s : State) (f : Bay → Bool) : Byte := byteOf (s.bays.filter f).length

/-! ## GET_CART (R178) -/

def rankBytes (r : RankGeo) : Bytes :=
  [byteOf r.topology.code, byteOf r.maxLevel.num, byteOf r.presPol.code, byteOf r.doorPol.code, byteOf r.lposPol.code]

def geometryBytes (g : Option Geometry) : Bytes :=
  match g with
  | none => [flagByte false]
  | some g => flagByte true :: le4 g.cartId ++ [byteOf g.ranks.length, byteOf g.channels] ++ listBytes (g.ranks.map rankBytes)

/-- The body of a GET_CART reply; the number of credentials takes two bytes (log 9). -/
def State.cartBytes (s : State) : Bytes :=
  le2 0xF036 ++ [0x01#8] ++ geometryBytes s.geo
    ++ [byteOf s.mode.code, flagByte s.monitor.hold, flagByte s.monitor.sensorFault, tempByte s.monitor.temp]
    ++ le2 s.monitor.win.toNat ++ le2 s.hub.mask.toNat ++ [s.cartEvents.setWidth 8]
    ++ [countBays s (·.enabled), countBays s (·.present), countBays s (·.stage.state == .on), byteOf s.jobs.length]
    ++ le2 s.roster.length
    ++ [byteOf s.custody.groups.length, byteOf (s.store.filter (·.state == .ready)).length]

/-- GET_CART (R178). -/
def decideGetCart (p : Bytes) (s : State) : Decision :=
  s.sized p.isEmpty fun s => s.report s.cartBytes

/-! ## GET_BAY (R179, 11 section 11.4) -/

/-- Bytes 4 to 6: the three flag bytes. -/
def bayFlagBytes (s : State) (r : Bay) : Bytes :=
  let noteFlag := match r.cust.note with
    | none => false
    | some n => n.unattended
  [byteOf (packFlags [r.enabled, r.present, r.lane.up, r.lane.hubDefer, r.lane.hubRefuse, r.lane.autoDefer, r.power.starved,
      r.sess.wakeFailed]),
   byteOf (packFlags [r.sess.contract.isSome, r.sess.status.isSome, r.sess.identity.isSome, r.sess.ask.isSome, r.serve.isSome,
      (s.jobOf r.num).isSome, r.lastJob.isSome, r.lastServe.isSome]),
   byteOf (packFlags [r.stage.cap.isSome, r.sess.hubRestart, r.cust.inserted, r.cust.unattended, r.cust.note.isSome,
      r.cust.release.isSome, noteFlag])]

/-- Bytes 7 to 15: levels, session, lane. -/
def baySessionBytes (r : Bay) : Bytes :=
  [byteOf r.cap.num, byteOf (optCode Level.num r.sess.forced), byteOf r.sess.state.code, byteOf r.sess.restarts,
   byteOf r.sess.holds, byteOf r.sess.failedWakes]
  ++ [match r.lane.flight with
      | none => 0#8
      | some f => f.call.kind]
  ++ [byteOf r.lane.attempts, byteOf (optCode FailKind.code r.lane.lastFail)]

/-- Bytes 16 to 19. -/
def contractBytes (c : Option Contract) : Bytes :=
  match c with
  | none => [0#8, 0#8, 0#8, 0#8]
  | some c => [byteOf c.level.num, byteOf c.source.code, maskByte c.offered, (c.tablet.map maskByte).getD 0xFF#8]

/-- Bytes 20 to 25. The attention flags have the bits of a STATUS (log 40). -/
def statusBytes (st : Option Status) : Bytes :=
  match st with
  | none => [0#8, 0#8, 0#8, 0#8, 0#8, 0#8]
  | some x => [byteOf (x.soc.getD 255), byteOf x.charge.code, signedByte x.temp, x.attention.setWidth 8] ++ le2 x.progress

/-- Bytes 26 to 29. -/
def askBytes (a : Option Ask) : Bytes :=
  match a with
  | none => [0#8, 0#8, 0#8, 0#8]
  | some x => [byteOf x.kind.code] ++ le2 x.id ++ [byteOf x.reply.code]

/-- Bytes 30 to 47: power and stage. -/
def powerBytes (r : Bay) : Bytes :=
  [byteOf (r.power.cls.getD 0xFF)] ++ le2 r.power.floor ++ le2 r.power.ceil ++ le2 r.power.target ++ [byteOf r.stage.state.code]
    ++ le2 r.stage.applied ++ [byteOf r.stage.volts] ++ le2 r.stage.draw ++ le2 (r.stage.cap.getD 0)
    ++ [byteOf r.stage.trips.length] ++ le2 r.stage.setpoint

/-- Bytes 48 to 56: job tag, currency, last job outcome. -/
def bayJobBytes (s : State) (r : Bay) : Bytes :=
  le2 (((s.jobOf r.num).map (·.tag)).getD 0) ++ [byteOf (s.currency r.num)]
    ++ (match r.lastJob with
      | none => [0#8, 0#8, 0#8, 0#8, 0#8, 0#8]
      | some o => le2 o.tag ++ le2 o.image ++ [if o.done then 1#8 else 2#8, byteOf o.reason.code])

/-- Bytes 57 to 68: serve and last serve outcome. -/
def serveBytes (r : Bay) : Bytes :=
  (match r.serve with
    | none => [0#8, 0#8, 0#8, 0#8, 0#8, 0#8]
    | some v => [byteOf v.slot] ++ le2 v.offset ++ le2 v.remaining ++ [byteOf v.holds])
  ++ (match r.lastServe with
    | none => [0#8, 0#8, 0#8, 0#8, 0#8, 0#8]
    | some o => [byteOf o.id] ++ le2 o.version ++ [byteOf o.outcome.code] ++ le2 o.offset)

/-- A removal order in four bytes (log 11). -/
def orderBytes (n : Nat) : Bytes := if n < 4294967296 then le4 n else le4 (Config.freeRemovalOrder n).toNat

def serialBytes (s : Option Bytes) : Bytes := padSerial (s.getD [])

/-- Bytes 69 to 119: custody state, borrower, expected serial, taken mark, identity seen, alarms. -/
def custodyBytes (c : Cust) : Bytes :=
  [byteOf c.state.code] ++ le4 (c.borrower.getD 0) ++ serialBytes c.expected
    ++ (match c.taken with
      | none => le4 0
      | some m => orderBytes m.order)
    ++ [byteOf c.seen.code] ++ serialBytes c.seen.serial? ++ [c.alarms.setWidth 8]

/-- Bytes 120 to 145: the last custody note. -/
def noteBytes (n : Option Note) : Bytes :=
  match n with
  | none => List.replicate 26 0#8
  | some x => [byteOf x.kind.code] ++ le4 (x.cred.getD 0) ++ serialBytes x.serial ++ [byteOf (x.other.getD 0)]

/-- Bytes 146 to 154: the last release. -/
def releaseBytes (r : Option LastRelease) : Bytes :=
  match r with
  | none => List.replicate 9 0#8
  | some x =>
    le4 x.cred ++ [byteOf x.intent.code, byteOf x.outcome.code, byteOf x.taken, byteOf x.inserted, byteOf x.missing]

/-- A unit's time open in whole seconds, rounded down (log 38), in two bytes (log 11). -/
def timeOpenBytes (s : State) (u : LatchUnit) : Bytes :=
  match u.openedAt with
  | none => le2 0
  | some t =>
    let sec := (s.now - t) / 1000
    if sec < 65536 then le2 sec else le2 (Config.freeTimeOpen sec).toNat

/-- The drive a driver holds for unit `u`. -/
def State.driveOf (s : State) (u : Nat) : Option Drive :=
  match s.latch.drvA.filter (·.move.unit == u) with
  | some d => some d
  | none => s.latch.drvB.filter (·.move.unit == u)

/-- Bytes 160 to 162: the unit's move, its phase and attempt; attempt 0 while it is queued (log 9). -/
def moveBytes (s : State) (u : Nat) : Bytes :=
  match s.driveOf u, s.latch.queue.find? (·.unit == u) with
  | some d, _ => [byteOf d.move.kind.code, byteOf d.phase.code, byteOf d.attempt]
  | none, some m => [byteOf m.kind.code, 1#8, 0#8]
  | none, none => [0#8, 0#8, 0#8]

/-- Bytes 155 to 162: the bay's unit. -/
def unitBytes (s : State) (u : Option LatchUnit) : Bytes :=
  match u with
  | none => List.replicate 8 0#8
  | some u =>
    [byteOf u.state.code, if u.doorOpen then 1#8 else 2#8, if u.posLocked then 1#8 else 2#8] ++ timeOpenBytes s u ++ moveBytes s u.num

/-- Bytes 166 on: the identity record with its length, 0 when absent. -/
def identityBytes (i : Option Identity) : Bytes :=
  match i with
  | none => [0#8]
  | some x => byteOf x.record.length :: x.record

/-- The bay summary, after the result code. -/
def State.bayBytes (s : State) (r : Bay) : Bytes :=
  [byteOf r.num, byteOf r.rank, byteOf r.unit] ++ bayFlagBytes s r ++ baySessionBytes r ++ contractBytes r.sess.contract
    ++ statusBytes r.sess.status ++ askBytes r.sess.ask ++ powerBytes r ++ bayJobBytes s r ++ serveBytes r ++ custodyBytes r.cust
    ++ noteBytes r.cust.note ++ releaseBytes r.cust.release ++ unitBytes s (s.unit? r.unit) ++ [byteOf r.indicator.code]
    ++ leBytes 2 r.events.toNat ++ identityBytes r.sess.identity

/-- GET_BAY (R179). -/
def decideGetBay (p : Bytes) (s : State) : Decision :=
  s.sized (p.length == 1) fun s => s.onBay (byteAt p 0) fun s => s.report (s.bayBytes (s.bay (byteAt p 0)))

/-! ## GET_BUDGET (R81; log 10) -/

/-- The pass kind, and for an admission pass its candidate and its result as a flag: 1 admitted, 0 not (R81; log 10). -/
def passKindBytes (m : Summary) : Bytes :=
  match m.kind with
  | .normal => [byteOf PassKind.normal.code]
  | .urgent => [byteOf PassKind.urgent.code]
  | .admission b => [byteOf m.kind.code, byteOf b, flagByte m.admitted]

def summaryBytes (m : Option Summary) : Bytes :=
  match m with
  | none => [flagByte false]
  | some m =>
    [flagByte true] ++ passKindBytes m ++ [tempByte m.temp, byteOf m.kT, flagByte m.hold] ++ le2 m.derated ++ [byteOf m.etaEff]
      ++ le2 m.available ++ [byteOf m.empties] ++ le2 m.insertion ++ le2 m.distributable ++ le2 m.total
      ++ listBytes (m.classTotals.map le2) ++ [byteOf m.starved, byteOf m.origin]

/-- The time since the latest pass in ms, held at 65,535 (R81). -/
def State.sincePass (s : State) : Nat :=
  match s.alloc.lastPass with
  | none => 65535
  | some t => min 65535 (s.now - t)

def State.budgetBytes (s : State) : Bytes :=
  let a := s.alloc
  le2 a.ceiling ++ le2 a.overhead ++ [byteOf a.eta, byteOf a.slots, byteOf a.policy.code, byteOf a.low, byteOf a.ready]
    ++ [byteOf s.custody.releaseMin, byteOf a.trim, flagByte s.monitor.hold, tempByte s.monitor.temp]
    ++ [flagByte a.scheduled.isSome, byteOf a.origin] ++ le2 s.sincePass ++ summaryBytes a.summary

/-- GET_BUDGET (R81). -/
def decideGetBudget (p : Bytes) (s : State) : Decision :=
  s.sized p.isEmpty fun s => s.report s.budgetBytes

/-! ## GET_PROFILES (R102) -/

def slotBytes (k : Slot) : Bytes :=
  byteOf k.state.code ::
    (if k.state = .empty then [] else [byteOf k.id] ++ le2 k.version ++ le2 k.length ++ le2 k.written ++ [byteOf k.serves])

def State.profileBytes (s : State) : Bytes :=
  le2 s.storeTotal ++ le2 (Config.storeBytes - s.storeTotal) ++ listBytes (s.store.map slotBytes)

/-- GET_PROFILES (R102). -/
def decideGetProfiles (p : Bytes) (s : State) : Decision :=
  s.sized p.isEmpty fun s => s.report s.profileBytes

/-! ## GET_JOBS (R130) -/

def imageBytes (s : State) (i : Image) : Bytes :=
  le2 i.id ++ le4 i.version ++ le4 i.size ++ [byteOf i.minutes] ++ listBytes (i.models.map le2)
    ++ [flagByte i.auto, byteOf (s.jobs.filter (·.image == i.id)).length]

def channelBytes (c : Channel) : Bytes :=
  [byteOf c.num, flagByte c.enabled, byteOf c.state.code]
    ++ (match c.state with
      | .idle => []
      | .assigned b t => byteOf b :: le2 t
      | .draining _ => [])

def activeJobBytes (j : Job) : Bytes :=
  le2 j.tag ++ [byteOf j.bay] ++ le2 j.image
    ++ [byteOf j.priority, byteOf j.origin.code, byteOf j.state.code, byteOf (j.channel.getD 0), flagByte j.resume, byteOf j.holds]
    ++ le2 j.progress

def queuedJobBytes (j : Job) : Bytes :=
  le2 j.tag ++ [byteOf j.bay] ++ le2 j.image ++ [byteOf j.priority, byteOf j.origin.code, byteOf j.state.code, flagByte j.resume]
    ++ le2 j.progress

/-- The jobs on channels, in channel order. -/
def State.channelJobs (s : State) : List Job :=
  s.sched.channels.filterMap fun c => s.sched.active.find? (·.channel == some c.num)

/-- The part of GET_JOBS named by its code: CATALOG, CHANNELS, QUEUE. -/
def State.jobsPart (s : State) (part start : Nat) : Option Bytes :=
  match part with
  | 1 => some (listBytes (s.sched.catalog.map (imageBytes s)))
  | 2 => some (listBytes (s.sched.channels.map channelBytes) ++ listBytes (s.channelJobs.map activeJobBytes))
  | 3 => some (byteOf s.sched.queue.length ::
      listBytes (((s.sched.queue.drop start).take Config.pageSize).map queuedJobBytes))
  | _ => none

/-- GET_JOBS (R130). -/
def decideGetJobs (p : Bytes) (s : State) : Decision :=
  s.sized (p.length == 2) fun s =>
    if 47 < byteAt p 1 then s.deny .badValue
    else match s.jobsPart (byteAt p 0) (byteAt p 1) with
      | none => s.deny .badValue
      | some part => s.report (le2 s.sched.nextTag ++ [byteOf s.jobs.length] ++ part)

/-! ## ROSTER_GET (R133) -/

def credentialBytes (s : State) (c : Credential) : Bytes :=
  le4 c.num ++ [byteOf c.role.code, byteOf c.limit, byteOf (c.assigned.getD 0), if c.active then 1#8 else 2#8,
    byteOf (s.checkouts c.num), flagByte (s.groupOfCred c.num).isSome]

def State.rosterBytes (s : State) (start : Nat) : Bytes :=
  le2 s.roster.length
    ++ listBytes (((s.roster.filter (start ≤ ·.num)).take Config.pageSize).map (credentialBytes s))

/-- ROSTER_GET (R133). -/
def decideRosterGet (p : Bytes) (s : State) : Decision :=
  s.sized (p.length == 4) fun s => s.report (s.rosterBytes (longAt p 0))

/-! ## SET_NOTICES, READ_EVENTS (R175, R177) -/

/-- SET_NOTICES (R175). -/
def decideSetNotices (p : Bytes) (s : State) : Decision :=
  s.sized (p.length == 2) fun s =>
    if 8192 ≤ wordAt p 0 then s.deny .badValue
    else ({ s with hub := { s.hub with mask := BitVec.ofNat 13 (wordAt p 0) } }).accept []

/-- READ_EVENTS clears the notice-outstanding flag and withdraws a waiting notice (R177). -/
def State.eventsRead (s : State) : State := { s with hub := { s.hub with noticeOutstanding := false, notice := false } }

/-- The flags of the named set, and the state with them cleared (R177). -/
def State.readSet (s : State) (b : Nat) : Decision :=
  if b = 0 then ({ s with cartEvents := 0#3 }).eventsRead.report [s.cartEvents.setWidth 8]
  else (s.updBay b fun r => { r with events := 0#10 }).eventsRead.report (leBytes 2 (s.bay b).events.toNat)

/-- READ_EVENTS (R177). -/
def decideReadEvents (p : Bytes) (s : State) : Decision :=
  s.sized (p.length == 1) fun s => s.onBayOrZero (byteAt p 0) fun s => s.readSet (byteAt p 0)

end Sys2Proof.Machine
end

