-- ==== Sys2Proof/Machine/Resets.lean ====
section
/-! DEFINITION. The reset causes (R1) and what else happens on the hub link: gaps, byte faults, the end of a frame sent (R172 to
R174). -/

namespace Sys2Proof.Machine

/-- POWER_ON (R1). -/
def execPowerOn (s : State) : Answer := .next s.partReset

/-- RESET_N_LOW: the part is held in reset (R1). -/
def execResetNLow (s : State) : Answer := .next { s.partReset with resetN := false }

/-- RESET_N_HIGH: the part starts from the reset state (R1). -/
def execResetNHigh (s : State) : Answer := .next (if s.resetN then s else { s.partReset with resetN := true })

/-- The receiver returns to hunting and the partial frame is gone (R172). -/
def State.discardPartial (s : State) : State := { s with hub := { s.hub with rx := [] } }

/-- HUB_RX_GAP_TIMEOUT (R172). -/
def execHubRxGapTimeout (s : State) : Answer := whenLive s State.discardPartial

/-- HUB_RX_BYTE_FAULT: both faults discard the partial frame (R172). -/
def execHubRxByteFault (_f : HubByteFault) (s : State) : Answer := whenLive s State.discardPartial

/-- The last byte of the frame being sent has left HUB_TX (R173, R174, R2). -/
def State.frameSent (s : State) : State :=
  match s.hub.sending with
  | none => s
  | some (c, _) =>
    let s := { s with hub := { s.hub with sending := none } }
    match c with
    | .reply =>
      if s.hub.resetDue then s.partReset
      else ({ s with hub := { s.hub with replyPending := false } }).startOutput
    | .busy => s.startOutput
    | .notice => s.startOutput

/-- HUB_FRAME_SENT (R174). -/
def execHubFrameSent (s : State) : Answer := whenLive s State.frameSent

end Sys2Proof.Machine
end

