-- ==== Sys2Proof/Machine/Setup.lean ====
section
/-! DEFINITION. Part reset by request, bay reset, commit and inventory, SET_BAYS, SET_MODE (chapters 1 and 10). -/

namespace Sys2Proof.Machine

/-! ## RESET_PART (R2) -/

/-- The receiver closes, so that bytes behind the request are dropped; a waiting notice is discarded, and the reset waits for the
reply to leave. -/
def State.armReset (s : State) : State :=
  { s with hub := { s.hub with receiverOpen := false, rx := [], notice := false, resetDue := true } }

/-- RESET_PART (R2). -/
def decideResetPart (p : Bytes) (s : State) : Decision :=
  s.sized p.isEmpty fun s => s.armReset.report []

/-! ## RESET_BAY (R16) -/

/-- The flags of a bay's event set are cleared. -/
def State.clearEvents (s : State) (b : Nat) : State := s.updBay b fun r => { r with events := 0#10 }

/-- RESET_BAY (R16): the events are cleared last of all. -/
def decideResetBay (p : Bytes) (s : State) : Decision :=
  s.sized (p.length == 1) fun s =>
    s.onBay (byteAt p 0) fun s => ((s.resetBay (byteAt p 0)).settle.clearEvents (byteAt p 0)).report []

/-! ## COMMIT_GEOMETRY (R5 to R11) -/

/-- A rank entry: topology, maximum level P3 to P5, three polarities (01, section 1.3); none if a field is out of range. -/
def parseRank (p : Bytes) : Option RankGeo :=
  match Topology.ofCode (byteAt p 0), Level.ofNum (byteAt p 1), Polarity.ofCode (byteAt p 2), Polarity.ofCode (byteAt p 3),
    Polarity.ofCode (byteAt p 4) with
  | some t, some l, some a, some d, some q => if 3 ≤ l.num then some ⟨t, l, a, d, q⟩ else none
  | _, _, _, _, _ => none

/-- `k` rank entries of five bytes each. -/
def parseRanks : Nat → Bytes → Option (List RankGeo)
  | 0, _ => some []
  | k + 1, p =>
    match parseRank (p.take 5), parseRanks k (p.drop 5) with
    | some r, some rs => some (r :: rs)
    | _, _ => none

/-- Check 2 of R5: the length, by the ranks field, or by whole entries when that field is out of range. -/
def geometrySized (p : Bytes) : Bool :=
  let ranks := byteAt p 4
  if 2 ≤ ranks ∧ ranks ≤ 6 then p.length == 6 + 5 * ranks else 6 ≤ p.length && (p.length - 6) % 5 == 0

/-- Check 3 of R5: the geometry, if every field lies in its range. -/
def parseGeometry (p : Bytes) : Option Geometry :=
  let ranks := byteAt p 4
  let channels := byteAt p 5
  if 2 ≤ ranks ∧ ranks ≤ 6 ∧ 1 ≤ channels ∧ channels ≤ 4 then
    (parseRanks ranks (p.drop 6)).map fun rs => ⟨longAt p 0, channels, rs⟩
  else none

/-- The unit that serves bay `b` of rank `k` (R6). -/
def servingUnit (t : Topology) (k b : Nat) : Nat :=
  match t with
  | .bayDoors => b
  | .shelfDoor => 6 * k - 5

/-- Bays of rank `k` (00, "Numbering of bays and ranks"). -/
def rankBays (k : Nat) : List Nat := (List.range 6).map fun i => 6 * k - 5 + i

/-- A bay record as the inventory leaves it, but for its session (R8, R17). -/
def newBay (now : Nat) (inp : Inputs) (g : RankGeo) (k b : Nat) : Bay :=
  let r := Bay.fresh b k (servingUnit g.topology k b) g.maxLevel (now + Config.stageSampleTime)
  if g.presPol.active (inp.pres.getLsbD (b - 1)) then
    { r with present := true, cust := Cust.atCommit .stocked }
  else r

/-- A latch unit as the inventory finds it (R9). -/
def newUnit (now : Nat) (inp : Inputs) (g : RankGeo) (k u : Nat) (bays : List Nat) : LatchUnit :=
  let opened := g.doorPol.active (inp.door.getLsbD (u - 1))
  let locked := g.lposPol.active (inp.lpos.getLsbD (u - 1))
  { num := u, rank := k, bays := bays
    state := if opened then .opened else if locked then .locked else .lockPending
    doorOpen := opened, doorAt := none, posLocked := locked
    openedAt := if opened then some now else none, ajarReported := false, windowAt := none }

/-- The units of rank `k` (R6). -/
def rankUnits (now : Nat) (inp : Inputs) (g : RankGeo) (k : Nat) : List LatchUnit :=
  match g.topology with
  | .bayDoors => (rankBays k).map fun b => newUnit now inp g k b [b]
  | .shelfDoor => [newUnit now inp g k (6 * k - 5) (rankBays k)]

/-- The working state the commit creates (R7, R8, R9, R82, R85, R119, R134). -/
def State.commit (s : State) (g : Geometry) (inp : Inputs) : State :=
  let ranks := g.ranks.zipIdx 1
  let units : List LatchUnit := (ranks.map fun (r, k) => rankUnits s.now inp r k).flatten
  { s with
    geo := some g
    pins := inp
    cartEvents := 0#3
    bays := (ranks.map fun (r, k) => (rankBays k).map (newBay s.now inp r k)).flatten
    latch := ⟨units, (units.filter (·.state == .lockPending)).map fun u => ⟨u.num, .lock⟩, none, none⟩
    alloc := { s.alloc with origin := 1, scheduled := none, lastPass := none, periodic := none, summary := none }
    sched := { s.sched with
      queue := [], active := [], scanAt := some (s.now + Config.scanTime)
      channels := (List.range g.channels).map fun i => ⟨i + 1, true, .idle⟩ }
    custody := { s.custody with removals := 0, groups := [] }
    startQueue := []
    rampAt := some (s.now + Config.rampTime) }

/-- The sessions of the bays found PRESENT start (R8, R38). -/
def State.startFound (s : State) : State :=
  s.forEach ((s.bays.filter (·.present)).map (·.num)) fun s b => s.startSession b

/-- COMMIT_GEOMETRY (R5). -/
def decideCommit (p : Bytes) (inp : Inputs) (s : State) : Decision :=
  if s.committed then s.deny .alreadySet
  else s.sized (geometrySized p) fun s =>
    match parseGeometry p with
    | none => s.deny .badValue
    | some g => ((s.commit g inp).startFound.askNormal).accept []

/-! ## SET_BAYS (R12 to R15) -/

/-- The enable mask of SET_BAYS: bit b − 1 is bay b (R12, R181). -/
def enableMask (p : Bytes) : BitVec 40 := BitVec.ofNat 40 (ofLe (p.take 5))

/-- Every cap a level from P1 to P5; none if one is not. -/
def parseCaps : Bytes → Option (List Level)
  | [] => some []
  | c :: cs =>
    match Level.ofNum c.toNat, parseCaps cs with
    | some l, some ls => some (l :: ls)
    | _, _ => none

/-- The cap in force for bay `b`: at most its rank maximum (R12). -/
def State.capFor (s : State) (caps : List Level) (r : Bay) : Level :=
  (caps.getD (r.num - 1) r.cap).min (s.rankMax r.rank)

/-- One bay's enable flag takes its new value (R13, R14). -/
def State.setEnable (s : State) (mask : BitVec 40) (b : Nat) : State :=
  let on := mask.getLsbD (b - 1)
  if (s.bay b).enabled = on then s else if on then s.enable b else s.disable b

/-- The passes that changes of cap ask for, in `old` the bays before them (R15): one urgent pass, however many caps fall below their
bay's target; and a normal one for the changes that lower no target (log 32). -/
def State.askForCaps (s : State) (old : List Bay) : State :=
  let below (r : Bay) : Bool :=
    decide ((s.bay r.num).cap.num < r.cap.num) && decide ((s.bay r.num).cap.power < (s.bay r.num).power.target)
  let s := if old.any below then s.askUrgent else s
  if old.any fun r => (s.bay r.num).cap != r.cap && !below r then s.askNormal else s

/-- Every enable flag and cap takes its value; the caps' passes follow (R12, R15). -/
def State.setBays (s : State) (mask : BitVec 40) (caps : List Level) : State :=
  let t := { s with bays := s.bays.map fun (r : Bay) => { r with cap := s.capFor caps r } }
  (t.forEach (t.bays.map (·.num)) fun s b => s.setEnable mask b).askForCaps s.bays

/-- SET_BAYS (R12). -/
def decideSetBays (p : Bytes) (s : State) : Decision :=
  s.sized (p.length == 5 + s.nBays) fun s =>
    let mask := enableMask p
    match parseCaps (p.drop 5) with
    | none => s.deny .badValue
    | some caps =>
      if mask >>> s.nBays ≠ 0#40 then s.deny .badValue
      else
        let inForce := s.bays.map (s.capFor caps)
        let clamped := s.bays.any fun r => (s.rankMax r.rank).num < (caps.getD (r.num - 1) r.cap).num
        (s.setBays mask caps).acceptClamped clamped (listBytes (inForce.map fun l => [byteOf l.num]))

/-! ## SET_MODE (R165 to R168) -/

/-- Entering `m` cancels a group of a credential with role `r` (R166). -/
def Mode.cancels (m : Mode) (r : Role) : Bool :=
  match m, r with
  | .secure, .student => true
  | .secure, .teacher => true
  | .secure, .technician => false
  | .night, .student => true
  | .night, .teacher => false
  | .night, .technician => false
  | .classMode, _ => false

/-- The groups a change into `m` cancels (R166). -/
def State.toCancel (s : State) (m : Mode) : List Group :=
  s.custody.groups.filter fun g =>
    !g.cancelled && (match s.cred? g.cred with
      | none => false
      | some c => m.cancels c.role)

/-- Cancel groups in one event (R145, R167): flags by credential, then the units in them in ascending number. -/
def State.cancelGroups (s : State) (gs : List Group) : State :=
  let s := s.forEach (gs.map (·.cred)) fun s c => s.updGroup c fun g => { g with cancelled := true }
  let units := (gs.map fun g => (g.entries.filter (!·.handedBack)).map (·.unit)).flatten
  s.forEach (sortBy (· < ·) units) fun s u => s.cancelUnit u

/-- The mode changes, with its cancellations and its scan (R165, R168). -/
def State.changeMode (s : State) (m : Mode) : State :=
  (({ s with mode := m }).cancelGroups (s.toCancel m)).askScan

/-- SET_MODE (R165). -/
def decideSetMode (p : Bytes) (s : State) : Decision :=
  s.sized (p.length == 1) fun s =>
    match Mode.ofCode (byteAt p 0) with
    | none => s.deny .badValue
    | some m =>
      if s.mode = m then s.report [byteOf m.code, 0#8]
      else (s.changeMode m).accept [byteOf m.code, byteOf (s.toCancel m).length]

end Sys2Proof.Machine
end

