-- ==== Sys2Proof/Machine/Requests.lean ====
section
/-! DEFINITION. What arrives at HUB_RX (R172, R173; log 3): bytes, the frames they complete, the one form every hub request is
taken in, and the meanings of the requests, of UNKNOWN_KIND and of HUB_FRAME_CORRUPT. -/

namespace Sys2Proof.Machine

/-- The rule a request of kind `k` is decided by, at the input levels `l`. -/
def decideKind (k : ReqKind) (p : Bytes) (l : Levels) (s : State) : Decision :=
  match k with
  | .getCart => decideGetCart p s
  | .getBay => decideGetBay p s
  | .resetPart => decideResetPart p s
  | .resetBay => decideResetBay p s
  | .commitGeometry => decideCommit p l.inputs s
  | .setBays => decideSetBays p s
  | .setMode => decideSetMode p s
  | .renegotiate => decideRenegotiate p s
  | .forceContract => decideForceContract p s
  | .wakeBay => decideWakeBay p s
  | .setLaneFlags => decideSetLaneFlags p s
  | .setBudget => decideSetBudget p s
  | .setThresholds => decideSetThresholds p s
  | .setPolicy => decideSetPolicy p s
  | .getBudget => decideGetBudget p s
  | .clearFault => decideClearFault p s
  | .profileBegin => decideProfileBegin p s
  | .profileData => decideProfileData p s
  | .profileEnd => decideProfileEnd p s
  | .profileDrop => decideProfileDrop p s
  | .getProfiles => decideGetProfiles p s
  | .catalogSet => decideCatalogSet p s
  | .catalogDrop => decideCatalogDrop p s
  | .queueJob => decideQueueJob p s
  | .cancelJob => decideCancelJob p s
  | .declineAsk => decideDeclineAsk p s
  | .setChannels => decideSetChannels p s
  | .getJobs => decideGetJobs p s
  | .rosterPut => decideRosterPut p s
  | .rosterRemove => decideRosterRemove p s
  | .rosterGet => decideRosterGet p s
  | .present => decidePresent p s
  | .restoreCheckout => decideRestoreCheckout p s
  | .acceptForeign => decideAcceptForeign p s
  | .clearAlarm => decideClearAlarm p l.lpos s
  | .setCustody => decideSetCustody p s
  | .setNotices => decideSetNotices p s
  | .readEvents => decideReadEvents p s

/-- Points 2 to 4 of R173: an unknown kind, a kind R4 does not accept yet, or the kind's own rule. -/
def decideFrame (f : Frame) (l : Levels) (s : State) : Decision :=
  match ReqKind.ofByte f.kind with
  | none => s.deny .unknownKind
  | some k => if !k.early && !s.committed then s.deny .notReady else decideKind k f.payload l s

namespace State

/-- A frame whose last byte has arrived is taken, unless RESET_PART has closed the receiver (R2, R172). -/
def takeHeard (l : Levels) (s : State) (f : Frame) : State :=
  if s.hub.receiverOpen then s.takeFrame f (decideFrame f l) else s

/-- Bytes arrive at the receiver one after another: the open one collects them behind what it holds, and every frame that they
complete is taken in its turn (R172). -/
def hearBytes (s : State) (l : Levels) (bytes : Bytes) : State :=
  if !s.hub.receiverOpen then s
  else
    let (rx, heard) := hear s.hub.rx bytes
    heard.foldl (takeHeard l) { s with hub := { s.hub with rx := rx } }

end State

/-- The bytes of a hub request's frame arrive. -/
def request (s : State) (k : ReqKind) (tag : Byte) (p : Bytes) (l : Levels) : Answer :=
  whenLive s fun s => s.hearBytes l (Frame.wire ⟨k.byte, tag, p⟩)

/-- HUB_FRAME_CORRUPT: bytes that are no whole frame arrive, with the input pins at the run's levels; a frame that they
complete with the bytes before them is taken (R172; log 3). -/
def execHubFrameCorrupt (run : RxRun) (s : State) : Answer :=
  whenLive s fun s => s.hearBytes (.ofInputs run.inputs) run.bytes

/-- UNKNOWN_KIND (R173, point 2). A kind of the kind table has its own row. -/
def execUnknownKind (kind tag : Byte) (p : Bytes) (s : State) : Answer :=
  whenLive s fun s => if isRequestKind kind then s else s.hearBytes (.ofInputs s.pins) (Frame.wire ⟨kind, tag, p⟩)

/-- GET_CART (R178). -/
def execGetCart (tag : Byte) (p : Bytes) (s : State) : Answer := request s .getCart tag p (.ofInputs s.pins)

/-- GET_BAY (R179). -/
def execGetBay (tag : Byte) (p : Bytes) (s : State) : Answer := request s .getBay tag p (.ofInputs s.pins)

/-- RESET_PART (R2). -/
def execResetPart (tag : Byte) (p : Bytes) (s : State) : Answer := request s .resetPart tag p (.ofInputs s.pins)

/-- RESET_BAY (R16): the events are cleared last of all. -/
def execResetBay (tag : Byte) (p : Bytes) (s : State) : Answer := request s .resetBay tag p (.ofInputs s.pins)

/-- COMMIT_GEOMETRY (R5). -/
def execCommitGeometry (tag : Byte) (p : Bytes) (inp : Inputs) (s : State) : Answer :=
  request s .commitGeometry tag p (.ofInputs inp)

/-- SET_BAYS (R12). -/
def execSetBays (tag : Byte) (p : Bytes) (s : State) : Answer := request s .setBays tag p (.ofInputs s.pins)

/-- SET_MODE (R165). -/
def execSetMode (tag : Byte) (p : Bytes) (s : State) : Answer := request s .setMode tag p (.ofInputs s.pins)

/-- RENEGOTIATE (R56). -/
def execRenegotiate (tag : Byte) (p : Bytes) (s : State) : Answer := request s .renegotiate tag p (.ofInputs s.pins)

/-- FORCE_CONTRACT (R47). -/
def execForceContract (tag : Byte) (p : Bytes) (s : State) : Answer := request s .forceContract tag p (.ofInputs s.pins)

/-- WAKE_BAY (R57). -/
def execWakeBay (tag : Byte) (p : Bytes) (s : State) : Answer := request s .wakeBay tag p (.ofInputs s.pins)

/-- SET_LANE_FLAGS (R35). -/
def execSetLaneFlags (tag : Byte) (p : Bytes) (s : State) : Answer := request s .setLaneFlags tag p (.ofInputs s.pins)

/-- SET_BUDGET (R61). -/
def execSetBudget (tag : Byte) (p : Bytes) (s : State) : Answer := request s .setBudget tag p (.ofInputs s.pins)

/-- SET_THRESHOLDS (R62). -/
def execSetThresholds (tag : Byte) (p : Bytes) (s : State) : Answer := request s .setThresholds tag p (.ofInputs s.pins)

/-- SET_POLICY (R63). -/
def execSetPolicy (tag : Byte) (p : Bytes) (s : State) : Answer := request s .setPolicy tag p (.ofInputs s.pins)

/-- GET_BUDGET (R81). -/
def execGetBudget (tag : Byte) (p : Bytes) (s : State) : Answer := request s .getBudget tag p (.ofInputs s.pins)

/-- CLEAR_FAULT (R92). -/
def execClearFault (tag : Byte) (p : Bytes) (s : State) : Answer := request s .clearFault tag p (.ofInputs s.pins)

/-- PROFILE_BEGIN (R99). -/
def execProfileBegin (tag : Byte) (p : Bytes) (s : State) : Answer := request s .profileBegin tag p (.ofInputs s.pins)

/-- PROFILE_DATA (R100). -/
def execProfileData (tag : Byte) (p : Bytes) (s : State) : Answer := request s .profileData tag p (.ofInputs s.pins)

/-- PROFILE_END (R101). -/
def execProfileEnd (tag : Byte) (p : Bytes) (s : State) : Answer := request s .profileEnd tag p (.ofInputs s.pins)

/-- PROFILE_DROP (R101). -/
def execProfileDrop (tag : Byte) (p : Bytes) (s : State) : Answer := request s .profileDrop tag p (.ofInputs s.pins)

/-- GET_PROFILES (R102). -/
def execGetProfiles (tag : Byte) (p : Bytes) (s : State) : Answer := request s .getProfiles tag p (.ofInputs s.pins)

/-- CATALOG_SET (R108). -/
def execCatalogSet (tag : Byte) (p : Bytes) (s : State) : Answer := request s .catalogSet tag p (.ofInputs s.pins)

/-- CATALOG_DROP (R109). -/
def execCatalogDrop (tag : Byte) (p : Bytes) (s : State) : Answer := request s .catalogDrop tag p (.ofInputs s.pins)

/-- QUEUE_JOB (R114). -/
def execQueueJob (tag : Byte) (p : Bytes) (s : State) : Answer := request s .queueJob tag p (.ofInputs s.pins)

/-- CANCEL_JOB (R129). -/
def execCancelJob (tag : Byte) (p : Bytes) (s : State) : Answer := request s .cancelJob tag p (.ofInputs s.pins)

/-- DECLINE_ASK (R116). -/
def execDeclineAsk (tag : Byte) (p : Bytes) (s : State) : Answer := request s .declineAsk tag p (.ofInputs s.pins)

/-- SET_CHANNELS (R118). -/
def execSetChannels (tag : Byte) (p : Bytes) (s : State) : Answer := request s .setChannels tag p (.ofInputs s.pins)

/-- GET_JOBS (R130). -/
def execGetJobs (tag : Byte) (p : Bytes) (s : State) : Answer := request s .getJobs tag p (.ofInputs s.pins)

/-- ROSTER_PUT (R132). -/
def execRosterPut (tag : Byte) (p : Bytes) (s : State) : Answer := request s .rosterPut tag p (.ofInputs s.pins)

/-- ROSTER_REMOVE (R133). -/
def execRosterRemove (tag : Byte) (p : Bytes) (s : State) : Answer := request s .rosterRemove tag p (.ofInputs s.pins)

/-- ROSTER_GET (R133). -/
def execRosterGet (tag : Byte) (p : Bytes) (s : State) : Answer := request s .rosterGet tag p (.ofInputs s.pins)

/-- PRESENT (R135). -/
def execPresent (tag : Byte) (p : Bytes) (s : State) : Answer := request s .present tag p (.ofInputs s.pins)

/-- RESTORE_CHECKOUT (R151). -/
def execRestoreCheckout (tag : Byte) (p : Bytes) (s : State) : Answer := request s .restoreCheckout tag p (.ofInputs s.pins)

/-- ACCEPT_FOREIGN (R150). -/
def execAcceptForeign (tag : Byte) (p : Bytes) (s : State) : Answer := request s .acceptForeign tag p (.ofInputs s.pins)

/-- CLEAR_ALARM (R149); `high` is the level of the unit's latch position input. -/
def execClearAlarm (tag : Byte) (p : Bytes) (high : Bool) (s : State) : Answer :=
  request s .clearAlarm tag p ⟨s.pins, fun _ => high⟩

/-- SET_CUSTODY (R152). -/
def execSetCustody (tag : Byte) (p : Bytes) (s : State) : Answer := request s .setCustody tag p (.ofInputs s.pins)

/-- SET_NOTICES (R175). -/
def execSetNotices (tag : Byte) (p : Bytes) (s : State) : Answer := request s .setNotices tag p (.ofInputs s.pins)

/-- READ_EVENTS (R177). -/
def execReadEvents (tag : Byte) (p : Bytes) (s : State) : Answer := request s .readEvents tag p (.ofInputs s.pins)

end Sys2Proof.Machine
end

