-- ==== Sys2Proof/Machine/SessionEvents.lean ====
section
/-! DEFINITION. Presence and the session timers (R37, R42, R45, R46, R51, R57). -/

namespace Sys2Proof.Machine

/-! ## Presence (R37) -/

/-- The input level of bay `b` means a tablet is present, through its rank's polarity; none for a bay that does not exist. -/
def State.presMeans (s : State) (b : Nat) (high : Bool) : Option Bool :=
  match s.bay? b with
  | none => none
  | some r => (s.rankGeo r.rank).map fun g => g.presPol.active high

/-- The level changes: it differs from the debounced presence and the timer runs, or it matches and the timer is cancelled. -/
def State.presenceLevel (s : State) (b : Nat) (high level : Bool) : State :=
  ({ s with pins := { s.pins with pres := setPin s.pins.pres b high } }).updBay b fun r =>
    if level = r.present then { r with presAt := none }
    else { r with presAt := some (r.presAt.getD (s.now + Config.presenceDebounce)) }

/-- PRESENCE_CHANGE (R37). -/
def execPresenceChange (b : Nat) (high : Bool) (s : State) : Answer :=
  match s.presMeans b high with
  | none => .next s
  | some level => event s fun s => s.presenceLevel b high level

/-- The debounced change is taken: a removal or an insertion (R37). -/
def State.presenceTaken (s : State) (b : Nat) : State :=
  let s := s.updBay b fun r => { r with presAt := none }
  if (s.bay b).present then s.removal b else s.insertion b

/-- PRESENCE_DEBOUNCE (R37). -/
def execPresenceDebounce (b : Nat) (s : State) : Answer := timerEvent s (s.bay b).presAt fun s => s.presenceTaken b

/-! ## Session timers -/

/-- GREETING_HOLD_EXPIRY: a new HELLO (R42). -/
def execGreetingHoldExpiry (b : Nat) (s : State) : Answer :=
  timerEvent s (s.bay b).sess.greetAt fun s =>
    (s.updSess b fun x => { x with greetAt := none }).postGreeting b (s.hello b) .greeting

/-- BREAK_EXPIRY: the session greets again (R45). -/
def execBreakExpiry (b : Nat) (s : State) : Answer :=
  timerEvent s (s.bay b).sess.breakAt fun s =>
    (s.updSess b fun x => { x with state := .greeting, breakAt := none }).postGreeting b (s.hello b) .greeting

/-- FALLBACK_EXPIRY: one HELLO under the fallback plan, and the timer again (R46). -/
def execFallbackExpiry (b : Nat) (s : State) : Answer :=
  timerEvent s (s.bay b).sess.fallAt fun s =>
    (s.updSess b fun x => { x with fallAt := some (s.now + Config.fallbackTime) }).postGreeting b (s.hello b) .fallback

/-- POLL_TIMER: a POLL is due (R30, R51). -/
def execPollTimer (b : Nat) (s : State) : Answer :=
  timerEvent s (s.bay b).sess.pollAt fun s =>
    (s.updSess b fun x => { x with pollAt := some (s.now + Config.pollTime) }).pollDue b

/-- REFRESH_EXPIRY: the asleep session enters WAKING (R57). -/
def execRefreshExpiry (b : Nat) (s : State) : Answer :=
  timerEvent s (s.bay b).sess.refreshAt fun s => s.beginWake b

end Sys2Proof.Machine
end

