-- ==== Sys2Proof/Machine/Dispatch.lean ====
section
/-! DEFINITION. What each command does to everything but the queue: one arm per constructor, one direct call each. -/

namespace Sys2Proof.Machine

def exec (i : Instr) (s : State) : Host.Outcome State Fault Refusal :=
  match i with
  -- reset causes (R1)
  | .powerOn => Sys2Proof.Machine.execPowerOn s
  | .resetNLow => Sys2Proof.Machine.execResetNLow s
  | .resetNHigh => Sys2Proof.Machine.execResetNHigh s
  -- hub receiver and output queue (R172 to R174)
  | .hubRxGapTimeout => Sys2Proof.Machine.execHubRxGapTimeout s
  | .hubFrameCorrupt run => Sys2Proof.Machine.execHubFrameCorrupt run s
  | .hubRxByteFault f => Sys2Proof.Machine.execHubRxByteFault f s
  | .unknownKind kind tag p => Sys2Proof.Machine.execUnknownKind kind tag p s
  | .hubFrameSent => Sys2Proof.Machine.execHubFrameSent s
  -- hub requests
  | .getCart tag p => Sys2Proof.Machine.execGetCart tag p s
  | .getBay tag p => Sys2Proof.Machine.execGetBay tag p s
  | .resetPart tag p => Sys2Proof.Machine.execResetPart tag p s
  | .resetBay tag p => Sys2Proof.Machine.execResetBay tag p s
  | .commitGeometry tag p inp => Sys2Proof.Machine.execCommitGeometry tag p inp s
  | .setBays tag p => Sys2Proof.Machine.execSetBays tag p s
  | .setMode tag p => Sys2Proof.Machine.execSetMode tag p s
  | .renegotiate tag p => Sys2Proof.Machine.execRenegotiate tag p s
  | .forceContract tag p => Sys2Proof.Machine.execForceContract tag p s
  | .wakeBay tag p => Sys2Proof.Machine.execWakeBay tag p s
  | .setLaneFlags tag p => Sys2Proof.Machine.execSetLaneFlags tag p s
  | .setBudget tag p => Sys2Proof.Machine.execSetBudget tag p s
  | .setThresholds tag p => Sys2Proof.Machine.execSetThresholds tag p s
  | .setPolicy tag p => Sys2Proof.Machine.execSetPolicy tag p s
  | .getBudget tag p => Sys2Proof.Machine.execGetBudget tag p s
  | .clearFault tag p => Sys2Proof.Machine.execClearFault tag p s
  | .profileBegin tag p => Sys2Proof.Machine.execProfileBegin tag p s
  | .profileData tag p => Sys2Proof.Machine.execProfileData tag p s
  | .profileEnd tag p => Sys2Proof.Machine.execProfileEnd tag p s
  | .profileDrop tag p => Sys2Proof.Machine.execProfileDrop tag p s
  | .getProfiles tag p => Sys2Proof.Machine.execGetProfiles tag p s
  | .catalogSet tag p => Sys2Proof.Machine.execCatalogSet tag p s
  | .catalogDrop tag p => Sys2Proof.Machine.execCatalogDrop tag p s
  | .queueJob tag p => Sys2Proof.Machine.execQueueJob tag p s
  | .cancelJob tag p => Sys2Proof.Machine.execCancelJob tag p s
  | .declineAsk tag p => Sys2Proof.Machine.execDeclineAsk tag p s
  | .setChannels tag p => Sys2Proof.Machine.execSetChannels tag p s
  | .getJobs tag p => Sys2Proof.Machine.execGetJobs tag p s
  | .rosterPut tag p => Sys2Proof.Machine.execRosterPut tag p s
  | .rosterRemove tag p => Sys2Proof.Machine.execRosterRemove tag p s
  | .rosterGet tag p => Sys2Proof.Machine.execRosterGet tag p s
  | .present tag p => Sys2Proof.Machine.execPresent tag p s
  | .restoreCheckout tag p => Sys2Proof.Machine.execRestoreCheckout tag p s
  | .acceptForeign tag p => Sys2Proof.Machine.execAcceptForeign tag p s
  | .clearAlarm tag p lpos => Sys2Proof.Machine.execClearAlarm tag p lpos s
  | .setCustody tag p => Sys2Proof.Machine.execSetCustody tag p s
  | .setNotices tag p => Sys2Proof.Machine.execSetNotices tag p s
  | .readEvents tag p => Sys2Proof.Machine.execReadEvents tag p s
  -- lanes (R24 to R31)
  | .callSent b => Sys2Proof.Machine.execCallSent b s
  | .clash b => Sys2Proof.Machine.execClash b s
  | .noAnswer b => Sys2Proof.Machine.execNoAnswer b s
  | .answerIncomplete b => Sys2Proof.Machine.execAnswerIncomplete b s
  | .answerByteFault b f => Sys2Proof.Machine.execAnswerByteFault b f s
  | .badAnswer b kind p crc => Sys2Proof.Machine.execBadAnswer b kind p crc s
  | .retry b => Sys2Proof.Machine.execRetry b s
  | .wakeAttemptDue b => Sys2Proof.Machine.execWakeAttemptDue b s
  | .wakeWindowEnd b => Sys2Proof.Machine.execWakeWindowEnd b s
  | .quietEnd b => Sys2Proof.Machine.execQuietEnd b s
  | .wakePulseEnd b => Sys2Proof.Machine.execWakePulseEnd b s
  -- answers (R20 to R23)
  | .ability b p => Sys2Proof.Machine.execAbility b p s
  | .confirmAnswer b p => Sys2Proof.Machine.execConfirmAnswer b p s
  | .status b p => Sys2Proof.Machine.execStatus b p s
  | .identityChunk b p => Sys2Proof.Machine.execIdentityChunk b p s
  | .chunkHandshake b p => Sys2Proof.Machine.execChunkHandshake b p s
  | .envelopeHandshake b p => Sys2Proof.Machine.execEnvelopeHandshake b p s
  | .stopHandshake b call p => Sys2Proof.Machine.execStopHandshake b call p s
  | .receipt b p => Sys2Proof.Machine.execReceipt b p s
  -- presence and session timers
  | .presenceChange b h => Sys2Proof.Machine.execPresenceChange b h s
  | .presenceDebounce b => Sys2Proof.Machine.execPresenceDebounce b s
  | .greetingHoldExpiry b => Sys2Proof.Machine.execGreetingHoldExpiry b s
  | .breakExpiry b => Sys2Proof.Machine.execBreakExpiry b s
  | .fallbackExpiry b => Sys2Proof.Machine.execFallbackExpiry b s
  | .pollTimer b => Sys2Proof.Machine.execPollTimer b s
  | .refreshExpiry b => Sys2Proof.Machine.execRefreshExpiry b s
  -- allocator, stages, cart monitor
  | .scheduledPass => Sys2Proof.Machine.execScheduledPass s
  | .periodicTimer => Sys2Proof.Machine.execPeriodicTimer s
  | .rampTick => Sys2Proof.Machine.execRampTick s
  | .stageSample b draw millivolts => Sys2Proof.Machine.execStageSample b draw millivolts s
  | .trip b => Sys2Proof.Machine.execTrip b s
  | .coolOffExpiry b => Sys2Proof.Machine.execCoolOffExpiry b s
  | .tsenseSample r => Sys2Proof.Machine.execTsenseSample r s
  | .wsenseSample w => Sys2Proof.Machine.execWsenseSample w s
  -- profile store and job scheduler
  | .chunkResendExpiry b => Sys2Proof.Machine.execChunkResendExpiry b s
  | .scanTimer => Sys2Proof.Machine.execScanTimer s
  | .settleExpiry b => Sys2Proof.Machine.execSettleExpiry b s
  | .envelopeResendExpiry b => Sys2Proof.Machine.execEnvelopeResendExpiry b s
  | .stallExpiry b => Sys2Proof.Machine.execStallExpiry b s
  | .timeLimitExpiry b => Sys2Proof.Machine.execTimeLimitExpiry b s
  | .drainExpiry c => Sys2Proof.Machine.execDrainExpiry c s
  -- latch controller
  | .motorPulseEnd d => Sys2Proof.Machine.execMotorPulseEnd d s
  | .positionCheck d h => Sys2Proof.Machine.execPositionCheck d h s
  | .retryWaitEnd d => Sys2Proof.Machine.execRetryWaitEnd d s
  | .doorChange u h => Sys2Proof.Machine.execDoorChange u h s
  | .doorDebounce u => Sys2Proof.Machine.execDoorDebounce u s
  | .unlatchWindowExpiry u => Sys2Proof.Machine.execUnlatchWindowExpiry u s
  | .ajarLimit u => Sys2Proof.Machine.execAjarLimit u s

end Sys2Proof.Machine
end

