-- ==== Sys2Proof/Safety.lean ====
section
/-! DEFINITION. What counts as a safe run: a quiet state, what stands before commit, the frame every event leaves in place, and
what it is for a request to be answered. -/

namespace Sys2Proof

/-- The kind byte, the tag and the payload of a command that is a whole hub frame (R172, R173). -/
def Instr.frame? : Instr → Option (Byte × Byte × Bytes)
  | .unknownKind k t p => some (k, t, p)
  | .getCart t p => some (0x01#8, t, p)
  | .getBay t p => some (0x02#8, t, p)
  | .resetPart t p => some (0x03#8, t, p)
  | .resetBay t p => some (0x04#8, t, p)
  | .commitGeometry t p _ => some (0x05#8, t, p)
  | .setBays t p => some (0x06#8, t, p)
  | .setMode t p => some (0x07#8, t, p)
  | .renegotiate t p => some (0x10#8, t, p)
  | .forceContract t p => some (0x11#8, t, p)
  | .wakeBay t p => some (0x12#8, t, p)
  | .setLaneFlags t p => some (0x13#8, t, p)
  | .setBudget t p => some (0x20#8, t, p)
  | .setThresholds t p => some (0x21#8, t, p)
  | .setPolicy t p => some (0x22#8, t, p)
  | .getBudget t p => some (0x23#8, t, p)
  | .clearFault t p => some (0x24#8, t, p)
  | .profileBegin t p => some (0x30#8, t, p)
  | .profileData t p => some (0x31#8, t, p)
  | .profileEnd t p => some (0x32#8, t, p)
  | .profileDrop t p => some (0x33#8, t, p)
  | .getProfiles t p => some (0x34#8, t, p)
  | .catalogSet t p => some (0x40#8, t, p)
  | .catalogDrop t p => some (0x41#8, t, p)
  | .queueJob t p => some (0x42#8, t, p)
  | .cancelJob t p => some (0x43#8, t, p)
  | .declineAsk t p => some (0x44#8, t, p)
  | .setChannels t p => some (0x45#8, t, p)
  | .getJobs t p => some (0x46#8, t, p)
  | .rosterPut t p => some (0x50#8, t, p)
  | .rosterRemove t p => some (0x51#8, t, p)
  | .rosterGet t p => some (0x52#8, t, p)
  | .present t p => some (0x53#8, t, p)
  | .restoreCheckout t p => some (0x54#8, t, p)
  | .acceptForeign t p => some (0x55#8, t, p)
  | .clearAlarm t p _ => some (0x56#8, t, p)
  | .setCustody t p => some (0x57#8, t, p)
  | .setNotices t p => some (0x60#8, t, p)
  | .readEvents t p => some (0x61#8, t, p)
  | _ => none

/-- The command reads the input levels `inp` where its rule reads any, decided in `s` (log 4). -/
def Instr.levelsAre (inp : Inputs) (s : Machine.State) : Instr → Prop
  | .commitGeometry _ _ i => i = inp
  | .clearAlarm _ p high => high = inp.lpos.getLsbD ((s.bay (Machine.byteAt p 0)).unit - 1)
  | _ => True

namespace Machine

namespace State

/-! ## A quiet state: nothing that acts on its own has anything left to do -/

/-- An idle driver has no move to take (R155). -/
def driversQuiet (s : State) : Bool := s.latch.queue.isEmpty || (s.latch.drvA.isSome && s.latch.drvB.isSome)

/-- No free line has a call or a WAKE pattern to start (R29, R31). -/
def lanesQuiet (s : State) : Bool :=
  s.bays.all fun r => !(r.lane.free && (s.laneNext r.num r.sess.state r.lane).isSome)

/-- Every bay shows the code its record gives (R164). -/
def lampsRight (s : State) : Bool := s.bays.all fun r => r.indicator == s.indicatorOf r

/-- Every ON stage holds the current limit of its applied grant at its voltage (R86, R87). -/
def limitsRight (s : State) : Bool :=
  s.bays.all fun r => r.stage.state != .on || r.stage.setpoint == setpointOf r.stage.applied r.stage.volts

/-- No notice is owed: R176's conditions do not hold together; and a waiting notice is outstanding. -/
def noticeQuiet (s : State) : Bool :=
  !(s.committed && !s.hub.noticeOutstanding && !s.hub.notice && s.anyEnabled) && (!s.hub.notice || s.hub.noticeOutstanding)

/-- The line to the hub is busy, or nothing waits for it (R174). -/
def outputQuiet (s : State) : Bool :=
  s.hub.sending.isSome || (s.hub.reply.isNone && s.hub.busy.isNone && !s.hub.notice)

/-- The frame being sent is an ordinary reply. -/
def sendingReply (s : State) : Bool :=
  match s.hub.sending with
  | none => false
  | some (c, _) => c == .reply

/-- Reply-pending stands exactly while one ordinary reply waits or is being sent, never two (R173, R174). -/
def replyRight (s : State) : Bool :=
  s.hub.replyPending == (s.hub.reply.isSome || s.sendingReply) && !(s.hub.reply.isSome && s.sendingReply)

/-- Nothing is owed inside an event, and nothing outside waits for this part to act. -/
def quiet (s : State) : Bool :=
  s.work == Work.none && s.driversQuiet && s.lanesQuiet && s.lampsRight && s.limitsRight && s.noticeQuiet && s.outputQuiet
    && s.replyRight

/-! ## Before commit (R3) -/

/-- While the geometry is uncommitted, nothing that belongs to bays exists, and no event flag is set. -/
def bare (s : State) : Bool :=
  s.committed ||
    (s.bays.isEmpty && s.latch.units.isEmpty && s.latch.queue.isEmpty && s.latch.drvA.isNone && s.latch.drvB.isNone
      && s.sched.queue.isEmpty && s.sched.active.isEmpty && s.sched.channels.isEmpty && s.sched.scanAt.isNone
      && s.startQueue.isEmpty && s.rampAt.isNone && s.custody.groups.isEmpty && s.cartEvents == 0#3
      && s.alloc.scheduled.isNone && s.alloc.periodic.isNone && s.alloc.lastPass.isNone && s.alloc.summary.isNone)

/-! ## Requests -/

/-- The receiver hunts for the next frame: not in reset, open, and no partial frame held (R1, R2, R172). -/
def hunting (s : State) : Bool := s.resetN && s.hub.receiverOpen && s.hub.rx.isEmpty

/-- The hub link takes a complete frame and decides it: its receiver hunts, and no reply is pending (R172, R173). -/
def listening (s : State) : Bool := s.hunting && !s.hub.replyPending

/-- The reply to a request of kind `kind` and tag `tag` waits or is being sent, with payload `body` (R173). -/
def answers (t : State) (kind tag : Byte) (body : Bytes) : Prop :=
  t.hub.replyPending = true
    ∧ (t.hub.reply = some ⟨replyKind kind, tag, body⟩ ∨ t.hub.sending = some (.reply, ⟨replyKind kind, tag, body⟩))

/-- `t` is `u` but for the hub link. -/
def sameButLink (t u : State) : Prop := { t with hub := u.hub } = u

/-- `t` is `u` but for what the hub link sends and has waiting: the receiver and the notice kind mask are `u`'s. -/
def sameButOutput (t u : State) : Prop :=
  { t with
    hub := { t.hub with
      replyPending := u.hub.replyPending, noticeOutstanding := u.hub.noticeOutstanding, sending := u.hub.sending
      reply := u.hub.reply, busy := u.hub.busy, notice := u.hub.notice } } = u

end State

/-! ## The frame of an event: what passes, scans, drivers, lanes and lamps leave as it is -/

/-- A session is left as it is, or a scan has asked an asleep one to wake (R120). -/
def SameSession (x x' : Session) : Prop :=
  x' = x ∨ (x.state = .asleep ∧ x' = { x with state := .waking, refreshAt := none })

/-- A lane keeps its power, its flags and its past; a busy one keeps its call (R29). -/
structure SameLane (l l' : Lane) : Prop where
  up : l'.up = l.up
  hubDefer : l'.hubDefer = l.hubDefer
  hubRefuse : l'.hubRefuse = l.hubRefuse
  autoDefer : l'.autoDefer = l.autoDefer
  callEnd : l'.callEnd = l.callEnd
  wakeAt : l'.wakeAt = l.wakeAt
  lastFail : l'.lastFail = l.lastFail
  busy : l.free = false →
    l'.act = l.act ∧ l'.flight = l.flight ∧ l'.attempts = l.attempts ∧ l'.dueAt = l.dueAt ∧ l'.greeting = l.greeting
      ∧ l'.pollDue = l.pollDue ∧ l'.ident = l.ident ∧ l'.serve = l.serve

/-- A stage keeps what no pass writes; a pass may leave it as it is, or take one that is not TRIPPED or FAULTED to OFF or
STARTING (R83). -/
structure SameStage (x x' : Stage) : Prop where
  volts : x'.volts = x.volts
  draw : x'.draw = x.draw
  cap : x'.cap = x.cap
  capCount : x'.capCount = x.capCount
  trips : x'.trips = x.trips
  coolAt : x'.coolAt = x.coolAt
  sampleAt : x'.sampleAt = x.sampleAt
  state : x'.state = x.state
    ∨ (x.state ≠ .tripped ∧ x.state ≠ .faulted ∧ (x'.state = .off ∨ x'.state = .starting))

/-- A bay record keeps its fixed, config, presence, serve and custody parts, its session, and every flag already set. -/
structure SameBay (r r' : Bay) : Prop where
  num : r'.num = r.num
  rank : r'.rank = r.rank
  unit : r'.unit = r.unit
  enabled : r'.enabled = r.enabled
  cap : r'.cap = r.cap
  present : r'.present = r.present
  presAt : r'.presAt = r.presAt
  serve : r'.serve = r.serve
  lastServe : r'.lastServe = r.lastServe
  cust : r'.cust = r.cust
  sess : SameSession r.sess r'.sess
  lane : SameLane r.lane r'.lane
  stage : SameStage r.stage r'.stage
  events : r.events &&& r'.events = r.events

/-- The fixed part and the door of every latch unit. -/
def State.unitParts (s : State) : List (Nat × Nat × List Nat × Bool × Option Nat × Bool) :=
  s.latch.units.map fun u => (u.num, u.rank, u.bays, u.doorOpen, u.doorAt, u.posLocked)

/-- The channels that exist and their enable flags. -/
def State.channelFlags (s : State) : List (Nat × Bool) := s.sched.channels.map fun c => (c.num, c.enabled)

/-- The settings of the allocator (R60) and the trim. -/
def State.settings (s : State) : Nat × Nat × Nat × Nat × Policy × Nat × Nat × Nat :=
  (s.alloc.ceiling, s.alloc.overhead, s.alloc.eta, s.alloc.slots, s.alloc.policy, s.alloc.low, s.alloc.ready, s.alloc.trim)

/-- The cart-wide state that passes, scans, drivers, lanes, lamps and the hub's output leave as it is. -/
structure SameCart (s t : State) : Prop where
  pending : t.pending = s.pending
  now : t.now = s.now
  resetN : t.resetN = s.resetN
  pins : t.pins = s.pins
  cartEvents : t.cartEvents = s.cartEvents
  geo : t.geo = s.geo
  mode : t.mode = s.mode
  monitor : t.monitor = s.monitor
  store : t.store = s.store
  roster : t.roster = s.roster
  custody : t.custody = s.custody
  rampAt : t.rampAt = s.rampAt
  settings : t.settings = s.settings
  catalog : t.sched.catalog = s.sched.catalog
  nextTag : t.sched.nextTag = s.sched.nextTag
  scanAt : t.sched.scanAt = s.sched.scanAt
  channels : t.channelFlags = s.channelFlags
  units : t.unitParts = s.unitParts
  nums : t.bays.map (·.num) = s.bays.map (·.num)
  mask : t.hub.mask = s.hub.mask
  receiver : t.hub.rx = s.hub.rx ∧ t.hub.receiverOpen = s.hub.receiverOpen ∧ t.hub.resetDue = s.hub.resetDue

/-- `t` is `s` but for the hub's output and for what passes, scans, drivers, lanes and lamps write. -/
structure SameBut (s t : State) : Prop where
  cart : SameCart s t
  bays : ∀ b, SameBay (s.bay b) (t.bay b)
  jobless : ∀ b, s.jobOf b = none → t.jobOf b = none ∧ (t.bay b).lastJob = (s.bay b).lastJob

/-! ## What a command answers -/

/-- The request is taken: the reply with `body` joins the output queue, and the state is `u` but for the output. -/
def Replies (c : Instr) (s : State) (kind tag : Byte) (body : Bytes) (u : State) : Prop :=
  ∃ t, exec c s = .next t ∧ t.answers kind tag body ∧ t.sameButOutput u

/-- The command is taken, and the state is `u` but for the output. -/
def Leaves (c : Instr) (s u : State) : Prop := ∃ t, exec c s = .next t ∧ t.sameButOutput u

/-- The kinds a part with no geometry refuses: the right-hand column of R4. -/
def lateKinds : List Byte :=
  [0x02#8, 0x04#8, 0x06#8, 0x10#8, 0x11#8, 0x12#8, 0x13#8, 0x23#8, 0x24#8] ++ [0x42#8, 0x43#8, 0x44#8, 0x45#8, 0x46#8]
    ++ [0x53#8, 0x54#8, 0x55#8, 0x56#8, 0x61#8]

/-- The payload length of the kinds that have one length: R181's widths of the fields their rules name. -/
def fixedLength (kind : Byte) : Option Nat :=
  match kind.toNat with
  | 0x01 => some 0 | 0x02 => some 1 | 0x03 => some 0 | 0x04 => some 1 | 0x07 => some 1
  | 0x10 => some 1 | 0x11 => some 2 | 0x12 => some 1 | 0x13 => some 3
  | 0x20 => some 6 | 0x21 => some 3 | 0x22 => some 1 | 0x23 => some 0 | 0x24 => some 1
  | 0x30 => some 6 | 0x32 => some 1 | 0x33 => some 1 | 0x34 => some 0
  | 0x41 => some 2 | 0x42 => some 4 | 0x43 => some 2 | 0x44 => some 1 | 0x45 => some 1 | 0x46 => some 2
  | 0x51 => some 4 | 0x52 => some 4 | 0x53 => some 8 | 0x55 => some 1 | 0x56 => some 2 | 0x57 => some 2
  | 0x60 => some 2 | 0x61 => some 1
  | _ => none

/-- The kinds of one length whose first byte is a bay from 1 to N (R10). -/
def bayKinds : List Byte :=
  [0x02#8, 0x04#8, 0x10#8, 0x11#8, 0x12#8, 0x24#8, 0x42#8, 0x44#8, 0x55#8, 0x56#8]

namespace State

/-- Bay `b` is a bay of the committed cart. -/
def names (s : State) (b : Nat) : Bool := 1 ≤ b && b ≤ s.nBays && s.hasBay b

/-- Bay `b`'s lane is UP with the line activity `act`, and the part is not held in reset. -/
def laneIs (s : State) (b : Nat) (act : LaneAct) : Bool :=
  s.resetN && s.hasBay b && (s.bay b).lane.up && (s.bay b).lane.act == act

/-! ## The roster (R131) -/

/-- At most 256 credentials in ascending order, none twice; every borrower and every group's credential is one of them. -/
def rosterSound (s : State) : Prop :=
  s.roster.length ≤ 256 ∧ (s.roster.map (·.num)).Pairwise (· < ·)
    ∧ (∀ r ∈ s.bays, ∀ c, r.cust.borrower = some c → (s.cred? c).isSome)
    ∧ (∀ g ∈ s.custody.groups, (s.cred? g.cred).isSome)

/-! ## Passes (R65, R66) -/

/-- The rotation origin after `k` passes in a cart of `n` bays (R79). -/
def originAfter (n : Nat) : Nat → Nat → Nat
  | 0, origin => origin
  | k + 1, origin => originAfter n k (origin % n + 1)

/-- The summary of the latest pass is over the settings, the sensors and the presences of `t`, and the origin stands one bay past
its own (R79, R81). -/
def summed (t : State) : Prop :=
  ∃ m, t.alloc.summary = some m ∧ t.alloc.origin = m.origin % t.nBays + 1 ∧ m.temp = t.monitor.temp ∧ m.hold = t.monitor.hold
    ∧ m.kT = t.kT ∧ m.derated = t.derated ∧ m.etaEff = t.etaEff ∧ m.available = t.available ∧ m.empties = t.empties
    ∧ m.distributable = t.distributable

/-- At least one pass has run in the event that takes `s` to `t` (R64, R66): the rotation origin has gone on once for each of
them, fewer than twelve, the smallest cart's bays, so that it has not come round; the latest is of this event, and the summary
is its. -/
def passedTo (s t : State) : Prop :=
  t.alloc.lastPass = some t.now ∧ t.summed
    ∧ ∃ k, 1 ≤ k ∧ k < 12 ∧ t.alloc.origin = originAfter s.nBays k s.alloc.origin

/-- A normal request made in `s` has been taken in `t`: merged, scheduled, or run at once (R65). -/
def normalTaken (s t : State) : Prop :=
  match s.alloc.scheduled, s.alloc.lastPass with
  | some d, p => t.alloc.scheduled = some d ∧ t.alloc.lastPass = p
  | none, some p =>
    if t.now < p + 100 then t.alloc.scheduled = some (p + 100) ∧ t.alloc.lastPass = some p else s.passedTo t
  | none, none => s.passedTo t

/-! ## Lanes and sessions -/

/-- The lane after R23's success: the call has left flight and the line is QUIET for 1 ms. -/
def callDone (s : State) (b : Nat) : State :=
  s.updLane b fun l => { l with flight := none, attempts := 0, lastFail := none, act := .quiet, dueAt := s.now + 1 }

/-- The lane after a failed call has left flight, the count at `n` (R26). -/
def callGone (s : State) (b n : Nat) (k : FailKind) : State :=
  s.updLane b fun l => { l with flight := none, attempts := n, lastFail := some k, act := .idle }

/-- The answer window of bay `b` is open: LISTENING, at most 15 ms after the end of the call (R25). -/
def hears (s : State) (b : Nat) : Bool := s.laneIs b .listening && s.now ≤ (s.bay b).lane.callEnd + 15

/-- An answer of bay `b` that is complete only after the window's 15 ms fails the attempt as SHORT (R25, point 4). -/
def late? (s : State) (b : Nat) : Option (Nat × FailKind × State) :=
  if s.laneIs b .listening && !s.hears b then some (b, .short, s) else none

/-- The attempts judged as failed: the bay, the failure kind, and the state at the judgement (R24, R25). -/
def judged? (s : State) : Instr → Option (Nat × FailKind × State)
  | .clash b =>
    if s.laneIs b .sending then some (b, .clash, s.updLane b fun l => { l with callEnd := s.now }) else none
  | .noAnswer b =>
    if s.laneIs b .listening then some (b, .noAnswer, s.reach ((s.bay b).lane.callEnd + 4)) else none
  | .answerIncomplete b =>
    if s.laneIs b .listening then some (b, .short, s.reach ((s.bay b).lane.callEnd + 15)) else none
  | .answerByteFault b f =>
    if s.hears b then some (b, if f = .lengthOver then .short else .corrupt, s) else s.late? b
  | .badAnswer b kind p crc =>
    match (s.bay b).lane.flight with
    | none => none
    | some f =>
      let sound := crc = crc8 (laneBody kind p)
      let fits := (answerLengths kind).1 ≤ p.length ∧ p.length ≤ (answerLengths kind).2
      if sound ∧ kind = f.call.answerKind ∧ fits then none
      else if !s.hears b then s.late? b
      else some (b, if ¬ sound then .corrupt else if kind ≠ f.call.answerKind then .stray else .short, s)
  | .ability b _ => s.late? b
  | .confirmAnswer b _ => s.late? b
  | .status b _ => s.late? b
  | .identityChunk b _ => s.late? b
  | .chunkHandshake b _ => s.late? b
  | .envelopeHandshake b _ => s.late? b
  | .stopHandshake b _ _ => s.late? b
  | .receipt b _ => s.late? b
  | _ => none

end State

/-- Nothing is in flight or pending and no wake runs; auto-defer is clear and the hub flags are kept; a call stopped while
sending leaves 15 ms of QUIET (R27, R28, R36). -/
structure LaneEmptied (now : Nat) (l l' : Lane) : Prop where
  up : l'.up = l.up
  flight : l'.flight = none
  slots : l'.greeting = none ∧ l'.stop = none ∧ l'.job = none ∧ l'.pollDue = false ∧ l'.ident = none ∧ l'.serve = none
  wake : l'.wakeAsked = false ∧ l'.wakeAt = none
  flags : l'.hubDefer = l.hubDefer ∧ l'.hubRefuse = l.hubRefuse ∧ l'.autoDefer = false
  stopped : l.flight.isSome = true → l.act = .sending → l'.act = .quiet ∧ l'.dueAt = now + 15

/-- In the event that takes `s` to `t`, custody has the identity outcome of bay `b`'s tablet, its serial or none (R146, R147): a
RECONCILING bay is reconciled by the first row that applies, a STOCKED bay's serial closes the checkout that expects it, and
the outcome is the bay's identity seen. Only R146's note on the bay itself carries the unattended flag (log 20). The bays stand
in ascending order. -/
def CustodyFollows (s t : State) (b : Nat) (serial : Option Bytes) : Prop :=
  (s.bays.map (·.num)).Pairwise (· < ·) →
  let x := (s.bay b).cust
  let seen : Seen := match serial with
    | none => .absent
    | some v => .serial v
  let out (v : Bytes) (c : Nat) : Prop :=
    c ≠ b ∧ s.hasBay c = true ∧ (s.bay c).cust.borrower ≠ none ∧ (s.bay c).cust.expected = some v
  let lowest (v : Bytes) (c : Nat) : Prop := out v c ∧ ∀ d, out v d → c ≤ d
  let stocked (keep foreign : Bool) (kind : NoteKind) (cred : Option Nat) (serial : Option Bytes) (other : Option Nat) : Cust :=
    { x with
      state := .stocked, unattended := false, seen := seen, note := some ⟨kind, cred, serial, other, x.unattended⟩
      borrower := if keep then x.borrower else none, expected := if keep then x.expected else none
      alarms := if foreign then x.alarms ||| 8#5 else x.alarms }
  let told (y : Cust) : Prop := (t.bay b).cust = y ∧ (t.bay b).events.getLsbD 7 = true
  let alone : Prop := ∀ c, c ≠ b → (t.bay c).cust = (s.bay c).cust
  let closed (v : Bytes) (c : Nat) : Prop :=
    (t.bay c).cust = { (s.bay c).cust with
      borrower := none, expected := none
      note := some ⟨.returnedElsewhere, (s.bay c).cust.borrower, some v, some b, false⟩ }
    ∧ (t.bay c).events.getLsbD 7 = true ∧ ∀ d, d ≠ b → d ≠ c → (t.bay d).cust = (s.bay d).cust
  match x.state, serial with
  | .vacant, _ => (t.bay b).cust = { x with seen := seen } ∧ alone
  | .stocked, none => (t.bay b).cust = { x with seen := seen } ∧ alone
  | .stocked, some v =>
    ((∀ c, ¬ out v c) → (t.bay b).cust = { x with seen := seen } ∧ alone)
    ∧ ∀ c, lowest v c → closed v c
      ∧ told { x with seen := seen, note := some ⟨.returnedElsewhere, none, none, some c, false⟩ }
  | .reconciling, none => told (stocked false false .unverified x.borrower none none) ∧ alone
  | .reconciling, some v =>
    if x.borrower ≠ none ∧ x.expected = some v then told (stocked false false .returned x.borrower (some v) none) ∧ alone
    else
      (∀ c, lowest v c → closed v c
        ∧ (x.borrower ≠ none → told (stocked true true .foreign none none (some c)))
        ∧ (x.borrower = none → told (stocked true false .returnedElsewhere none none (some c))))
      ∧ ((∀ c, ¬ out v c) → alone
        ∧ (x.borrower ≠ none → x.expected = none → told (stocked false false .unverified x.borrower (some v) none))
        ∧ (x.borrower = none ∨ x.expected ≠ none → told (stocked true true .foreign none (some v) none)))

/-- In the event that takes `s` to `t`, custody reconciles the bays of the list one after another, each with the outcome at hand,
its serial or none (R143, R146); nothing else of custody changes, and no event flag is lost. -/
def CustodyFollowsAll : List (Nat × Option Bytes) → State → State → Prop
  | [], s, t => ∀ b, (t.bay b).cust = (s.bay b).cust ∧ (s.bay b).events &&& (t.bay b).events = (s.bay b).events
  | (b, serial) :: rest, s, t =>
    ∃ v : State, v.bays.map (·.num) = s.bays.map (·.num) ∧ CustodyFollows s v b serial ∧ CustodyFollowsAll rest v t

/-! ## Release groups (R141) -/

namespace State

/-- Every credential has one group, and a unit stands in one entry of one group (R135, R141). -/
def groupsSound (s : State) : Prop :=
  (s.custody.groups.map (·.cred)).Nodup
    ∧ ((s.custody.groups.map fun g => (g.entries.filter (!·.handedBack)).map (·.unit)).flatten).Nodup

/-- Group `h` has ended in `t` (R141): it is gone, and its outcome is the last release of its units' bays. -/
def groupEnded (s t : State) (h : Group) (outcome : GroupOutcome) : Prop :=
  t.groupOfCred h.cred = none ∧ ∀ x ∈ h.entries, ∀ b ∈ s.baysOf x.unit, s.hasBay b = true →
    (t.bay b).cust.release = some ⟨h.cred, h.intent, outcome, h.taken, h.inserted, h.missing⟩
      ∧ (t.bay b).events.getLsbD 7 = true

/-- Unit `n`, whose entry is PENDING, has failed its release (R141): the entry is FAILED with LATCH_FAULT, and the group ends with
its last entry. -/
def releaseFailed (s t : State) (n : Nat) : Prop :=
  ∀ h e, s.groupOfUnit n = some h → s.entryOf n = some e → e.state = .pending → s.groupsSound →
    (h.entries.map (·.unit)).Nodup →
    let last : Prop := ∀ x ∈ h.entries, x.unit ≠ n → x.state = .closed ∨ x.state = .failed ∨ x.state = .withdrawn
    (¬ last → t.entryOf n = some { e with state := .failed, latchFault := true })
    ∧ (last → s.groupEnded t h (if h.cancelled then .cancelled else .latchFault))

end State

/-! ## Ends of serves (R106, R107) -/

namespace State

/-- The serve of bay `b`, if it has one, has ended with outcome `o`: the record gone, the slot's count lowered, the outcome
written with the slot's id and version, PROFILE posted, a waiting CHUNK withdrawn (R107, R28). -/
def serveOver (s : State) (b : Nat) (o : ServeEnd) : State :=
  match (s.bay b).serve with
  | none => s
  | some v =>
    let k := (s.slot? v.slot).getD (Slot.reset v.slot)
    (s.updSlot v.slot fun q => { q with serves := q.serves - 1 }).updBay b fun r => { r with
      serve := none, lastServe := some ⟨k.id, k.version, o, v.offset⟩, events := r.events ||| 0x20#10
      lane := { r.lane with serve := none } }

end State

/-- In the event that takes `s` to `t`, bay `b`'s serve, if it had one, has ended as ABANDONED (R106, R107). -/
structure ServeAbandoned (s t : State) (b : Nat) : Prop where
  gone : (t.bay b).serve = none
  last : (t.bay b).lastServe = ((s.serveOver b .abandoned).bay b).lastServe

/-! ## Restarts and ends of sessions (R13, R38, R45, R46, R59) -/

/-- In the event that takes `s` to `t`, bay `b`'s session has entered BREAK (R45). -/
structure BreakEntered (s t : State) (b : Nat) : Prop where
  sess : (t.bay b).sess = { (s.bay b).sess with
    state := .breakWait, contract := none, proposal := none, readBuf := none, ask := none, holds := 0, hubRestart := false
    greetAt := none, fallAt := none, pollAt := none, refreshAt := none, breakAt := some (s.now + 800) }
  lane : LaneEmptied s.now (s.bay b).lane (t.bay b).lane
  volts : (t.bay b).stage.volts = 5
  cap : (s.bay b).sess.contract.isSome = true → (t.bay b).stage.cap = none
  serve : ServeAbandoned s t b
  store : t.store = (s.serveOver b .abandoned).store
  profile : (s.bay b).serve.isSome = true → s.hasBay b = true → (t.bay b).events.getLsbD 5 = true
  pass : 25 < (s.bay b).sess.ceiling → s.passedTo t
  others : ∀ c, c ≠ b → SameBay (s.bay c) (t.bay c)
  cart : SameCart { s with store := t.store } t

/-- In the event that takes `s` to `t`, bay `b`'s session has entered FALLBACK (R46). -/
structure FallbackEntered (s t : State) (b : Nat) : Prop where
  sess : (t.bay b).sess = { (s.bay b).sess with
    state := .fallback, proposal := none, readBuf := none, status := none, ask := none
    contract := some (match (s.bay b).sess.forced with
      | none => ⟨.p1, .base, 0#4, none⟩
      | some l => ⟨l, .forced, 0#4, none⟩)
    greetAt := none, breakAt := none, pollAt := none, refreshAt := none, fallAt := some (s.now + 30000) }
  lane : LaneEmptied s.now (s.bay b).lane (t.bay b).lane
  volts : (t.bay b).stage.volts = 5
  serve : ServeAbandoned s t b
  store : t.store = (s.serveOver b .abandoned).store
  profile : (s.bay b).serve.isSome = true → s.hasBay b = true → (t.bay b).events.getLsbD 5 = true
  event : (t.bay b).events.getLsbD 0 = true
  custody : if (s.bay b).sess.identity = none then CustodyFollows s t b none else (t.bay b).cust = (s.bay b).cust
  pass : (t.bay b).sess.ceiling < (s.bay b).sess.ceiling → s.passedTo t
  others : ∀ c, c ≠ b → SameBay (s.bay c) (t.bay c)
  cart : SameCart { s with store := t.store } t

/-- Bay `b` has started a new session: GREETING, the lane UP, the first HELLO being sent (R38, R18). -/
structure SessionStarted (s t : State) (b : Nat) : Prop where
  sess : (t.bay b).sess = { Session.off with state := .greeting, forced := (s.bay b).sess.forced }
  up : (t.bay b).lane.up = true
  act : (t.bay b).lane.act = .sending
  hello : (t.bay b).lane.flight = some ⟨.hello ((t.geo.map (·.cartId)).getD 0) b, .greeting⟩

/-- In the event that takes `s` to `t`, bay `b`'s session has ended: the session is OFF and the lane DOWN, the forced level and the
hub flags are kept (R59, R13, R18); the serve is ABANDONED (R106); the output is switched off, the bay is out of the start queue
and without a demand cap, and a TRIPPED or FAULTED stage stays so (R83). -/
structure SessionEnded (s t : State) (b : Nat) : Prop where
  sess : (t.bay b).sess = { Session.off with forced := (s.bay b).sess.forced }
  up : (t.bay b).lane.up = false
  flight : (t.bay b).lane.flight = none
  slots : (t.bay b).lane.greeting = none ∧ (t.bay b).lane.stop = none ∧ (t.bay b).lane.job = none
    ∧ (t.bay b).lane.pollDue = false ∧ (t.bay b).lane.ident = none ∧ (t.bay b).lane.serve = none
  flags : (t.bay b).lane.hubDefer = (s.bay b).lane.hubDefer ∧ (t.bay b).lane.hubRefuse = (s.bay b).lane.hubRefuse
    ∧ (t.bay b).lane.autoDefer = false
  target : (t.bay b).power.target = 0
  serve : ServeAbandoned s t b
  profile : (s.bay b).serve.isSome = true → s.hasBay b = true → (t.bay b).events.getLsbD 5 = true
  latched : (s.bay b).stage.state = .tripped ∨ (s.bay b).stage.state = .faulted →
    (t.bay b).stage.state = (s.bay b).stage.state ∧ (t.bay b).stage.coolAt = (s.bay b).stage.coolAt
  output : (s.bay b).stage.state ≠ .tripped → (s.bay b).stage.state ≠ .faulted → (t.bay b).stage.state = .off
  applied : (s.bay b).stage.state = .on ∨ (s.bay b).stage.applied = 0 → (t.bay b).stage.applied = 0
  queue : b ∉ t.startQueue
  cap : (t.bay b).stage.cap = none

/-! ## Jobs -/

namespace State

/-- The job is its bay's only job and its tag's only job (R112, R113). -/
def onlyJob (s : State) (j : Job) : Prop := j ∈ s.jobs ∧ ∀ x ∈ s.jobs, x.bay = j.bay ∨ x.tag = j.tag → x = j

/-- The state after R128's steps for job `j`: out of the scheduler, its channel DRAINING, its outcome written, JOB posted, an
ENVELOPE or RECEIPT_READ of its tag withdrawn, and ABORT posted where `tell` asks for it and the session takes posts. -/
def jobGone (s : State) (j : Job) (done : Bool) (reason : JobReason) (tell : Bool) : State :=
  { s with
    sched := { s.sched with
      queue := s.sched.queue.filter (·.tag != j.tag)
      active := s.sched.active.filter (·.tag != j.tag)
      channels := s.sched.channels.map fun (c : Channel) =>
        if j.channel = some c.num then { c with state := .draining (s.now + 50) } else c }
    bays := s.bays.map fun (r : Bay) =>
      if r.num = j.bay then
        { r with
          lastJob := some ⟨j.tag, j.image, done, reason⟩
          events := r.events ||| 0x40#10
          lane := { r.lane with
            job := if r.lane.job.any (·.isJobCall j.tag) then none else r.lane.job
            stop := if tell && !r.sess.state.dropsPosts then some (.abort j.tag) else r.lane.stop } }
      else r }

end State

/-- The call in bay `r`'s Stop slot goes out in this event: the line is free, no greeting call goes first, and the session lets
calls start (R28, R29). -/
def Bay.sendsStop (r : Bay) : Bool :=
  r.lane.free && r.lane.greeting.isNone && r.sess.state != .off && r.sess.state != .asleep && r.sess.state != .waking

/-- In the event that takes `s` to `t`, call `c` of job `j` is posted to its bay's Stop slot, where the session takes posts: it
waits there, or has started on a free line. An ENVELOPE or RECEIPT_READ of the job waits no longer, nor starts (R28). -/
structure StopPosted (s t : State) (j : Job) (c : Option Call) : Prop where
  stop : ∀ call, c = some call → s.hasBay j.bay = true → (s.bay j.bay).sess.state.dropsPosts = false →
    if (s.bay j.bay).sendsStop then
      (t.bay j.bay).lane.stop = none ∧ (t.bay j.bay).lane.flight = some ⟨call, .ordinary⟩
    else (t.bay j.bay).lane.stop = some call
  silent : c = none → (t.bay j.bay).lane.stop = (s.bay j.bay).lane.stop
    ∨ ((s.bay j.bay).sendsStop = true ∧ (t.bay j.bay).lane.stop = none)
  withdrawn : ∀ call, call.isJobCall j.tag = true → (t.bay j.bay).lane.job ≠ some call
    ∧ ((t.bay j.bay).lane.flight.map (·.call) = some call → (s.bay j.bay).lane.flight.map (·.call) = some call)

/-- In the event that takes `s` to `t`, job `j` has left the scheduler (R128): ABORT goes to the tablet where `tell` asks for
it; a job end requests a normal pass where the job held a channel, and where no pass runs in the event the scheduler is as R128
leaves it. -/
structure JobEnded (s t : State) (j : Job) (done : Bool) (reason : JobReason) (tell : Bool) : Prop where
  rest : SameBut (s.jobGone j done reason tell) t
  gone : s.onlyJob j → t.jobOf j.bay = none
  calls : s.onlyJob j → StopPosted s t j (if tell then some (.abort j.tag) else none)
  pass : j.channel.isSome = true → s.normalTaken t
  sched : j.channel = none ∨ s.alloc.scheduled.isSome = true → t.sched = (s.jobGone j done reason tell).sched

/-- The job as a suspension returns it to the queue (R127). -/
def Job.suspended (j : Job) : Job :=
  { j with
    state := .queued, channel := none, resume := true, posted := false, holds := 0
    settleAt := none, resendAt := none, stallAt := none, limitAt := none }

/-- A scan leaves bay `r`'s QUEUED job alone (R120): its priority is not permitted, its session is neither CONTRACTED nor ASLEEP,
or it is CONTRACTED with nothing to fail the job for, and the job is not eligible for another reason. -/
def State.scanPasses (s : State) (j : Job) (ineligible : Prop) : Prop :=
  let x := (s.bay j.bay).sess
  (s.mode = .secure ∨ (s.mode = .classMode ∧ j.priority ≠ 3))
    ∨ (x.state ≠ .contracted ∧ x.state ≠ .asleep)
    ∨ (x.state = .contracted ∧ x.identity.isSome = true
      ∧ (∀ e i, s.image? j.image = some e → x.identity = some i → i.model ∈ e.models)
      ∧ (x.ability.any fun a => a.features.getLsbD 2) = true ∧ ineligible)

/-- In the event that takes `s` to `t`, job `j`, which was on a channel, has been suspended (R127): it stands QUEUED again where
the scan of the event leaves it alone, its channel drains, PAUSE goes to a tablet that has its envelope, and JOB is posted. -/
structure JobSuspended (s t : State) (j : Job) (ineligible : Prop) : Prop where
  back : s.scanPasses j ineligible → t.jobOf j.bay = some j.suspended
  calls : StopPosted s t j (if j.posted then some (.pause j.tag) else none)
  drains : ∀ n c, j.channel = some n → s.chan? n = some c →
    (t.chan? n).map (·.state) = some (.draining (t.now + 50))
  event : s.hasBay j.bay = true → (t.bay j.bay).events.getLsbD 6 = true

/-- What the scheduler holds: queued jobs wait without a channel, active ones have one (R111, R112, R117); at most 48, no two of
one bay or one tag (R112, R113); and the tag counter is in its range. -/
def State.jobsSound (s : State) : Prop :=
  (∀ j ∈ s.sched.queue, (j.state = .queued ∨ j.state = .waking) ∧ j.channel = none)
    ∧ (∀ j ∈ s.sched.active, (j.state = .offered ∨ j.state = .running ∨ j.state = .receipt) ∧ j.channel.isSome = true)
    ∧ s.jobs.length ≤ 48 ∧ (s.jobs.map (·.bay)).Nodup ∧ (s.jobs.map (·.tag)).Nodup
    ∧ 1 ≤ s.sched.nextTag ∧ s.sched.nextTag ≤ 65535

/-! ## Moves of the latches -/

namespace State

/-- A move of kind `k` for unit `u` waits in the latch queue, or a driver has taken it and drives its first pulse (R154 to
R156). -/
def moving (t : State) (u : Nat) (k : MoveKind) : Prop :=
  ∃ r, t.unit? u = some r
    ∧ ((r.state = k.pendingState ∧ (⟨u, k⟩ : Move) ∈ t.latch.queue)
      ∨ (r.state = k.drivenState ∧ ∃ d v, t.latch.driver d = some v ∧ v.move = ⟨u, k⟩ ∧ v.phase = .pulse ∧ v.attempt = 1))

/-- No move of unit `u` waits in the latch queue. -/
def noMove (s : State) (u : Nat) : Prop := ∀ m ∈ s.latch.queue, m.unit ≠ u

end State

/-! ## Bays and their sessions (R37, R38, R39, R18) -/

/-- Nothing of a session but its forced level is there, and the lane is DOWN with nothing in flight or pending. -/
structure OffBay (r : Bay) : Prop where
  sess : r.sess = { Session.off with forced := r.sess.forced }
  up : r.lane.up = false
  act : r.lane.act = .idle
  flight : r.lane.flight = none
  slots : r.lane.greeting = none ∧ r.lane.stop = none ∧ r.lane.job = none ∧ r.lane.pollDue = false ∧ r.lane.ident = none
    ∧ r.lane.serve = none
  wake : r.lane.wakeAsked = false ∧ r.lane.wakeAt = none
  autoDefer : r.lane.autoDefer = false

/-- The bays are 1 to N; an enabled bay that is PRESENT has a session on an UP lane, and every other bay is off. -/
def State.baysSound (s : State) : Prop :=
  s.bays.map (·.num) = (List.range s.nBays).map (· + 1)
    ∧ ∀ r ∈ s.bays, (r.enabled = true → r.present = true → r.sess.state ≠ .off ∧ r.lane.up = true)
      ∧ (r.enabled = false ∨ r.present = false → OffBay r)

/-! ## New jobs, and the owners of asks (R54, R103 to R107, R111 to R115) -/

/-- A job as it is queued (R114): QUEUED, its resume flag clear, its progress 0. -/
def newJob (tag bay image priority : Nat) (origin : Origin) : Job where
  tag := tag
  bay := bay
  image := image
  priority := priority
  origin := origin
  state := .queued
  resume := false
  channel := none
  posted := false
  holds := 0
  progress := 0
  baseline := none
  settleAt := none
  resendAt := none
  stallAt := none
  limitAt := none

namespace State

/-- The state after call `c` of plan `pl` is posted to bay `b`'s lane: a free line starts it, a busy one keeps it in the slot
that `slot` fills (R28, R29). -/
def posted (s : State) (b : Nat) (c : Call) (pl : Plan) (slot : Lane → Lane) : State :=
  s.updLane b fun l => if l.free then { l with flight := some ⟨c, pl⟩, attempts := 0, act := .sending } else slot l

/-- No job holds the tag, which the counter's range holds (R113). -/
def freshTag (s : State) (tag : Nat) : Prop :=
  (∀ j ∈ s.jobs, j.tag ≠ tag) ∧ (1 ≤ s.sched.nextTag → s.sched.nextTag ≤ 65535 → 1 ≤ tag ∧ tag ≤ 65535)

/-- The job at the back of its priority band, the tag counter past its tag (R112, R113). -/
def enqueued (s : State) (j : Job) : State :=
  { s with sched := { s.sched with
      queue := s.sched.queue.takeWhile (fun (x : Job) => decide (j.priority ≤ x.priority)) ++ [j]
        ++ s.sched.queue.dropWhile (fun (x : Job) => decide (j.priority ≤ x.priority))
      nextTag := if 65535 ≤ j.tag then 1 else j.tag + 1 } }

/-- The owner of bay `b`'s ask, or the hub, has made its reply to send. -/
def replied (s : State) (b : Nat) (reply : Reply) : State :=
  s.updSess b fun x => { x with ask := x.ask.map fun a => { a with reply := reply, decided := true } }

/-- A PROFILE ask for `id` is accepted on a CONTRACTED session (R103): the bay enabled, its stage not FAULTED, the tablet with the
PROFILE feature, and a READY slot with the id. -/
def servable (s : State) (b id : Nat) : Bool :=
  (s.bay b).enabled && (s.bay b).stage.state != .faulted && ((s.bay b).sess.ability.any fun a => a.features.getLsbD 1)
    && s.store.any fun k => k.state == .ready && k.id == id

/-- The first chunk of a serve of slot `k` (R104). -/
def firstChunk (k : Slot) : Call := .chunk k.id 0 (decide (k.length ≤ 48)) (k.content.take (min 48 k.length))

/-- The ask accepted and the serve of slot `k` begun on bay `b`: its record and the slot's count (R103, R104). -/
def serveBegun (s : State) (b : Nat) (k : Slot) : State :=
  ((s.replied b .accept).updSlot k.num fun q => { q with serves := q.serves + 1 }).updBay b fun r => { r with
    serve := some ⟨k.num, 0, k.length, 0, none⟩ }

/-- The serve of slot `k` begun on bay `b`, its first CHUNK posted (R104). -/
def served (s : State) (b : Nat) (k : Slot) : State :=
  (s.serveBegun b k).posted b (firstChunk k) .ordinary fun l => { l with serve := some (firstChunk k) }

/-- The serve of slot `k` begun on bay `b`, its first CHUNK in the Serve slot, from where the lane takes it in R29's order. -/
def serveWaits (s : State) (b : Nat) (k : Slot) : State :=
  (s.serveBegun b k).updLane b fun l => { l with serve := some (firstChunk k) }

/-- A JOB ask for `id` on a bay without a job finds an entry the scheduler queues by itself (R115, rows 3 to 5). -/
def autoQueues (s : State) (b id : Nat) : Prop :=
  ∃ e, s.image? id = some e ∧ e.auto = true ∧ ∀ i, (s.bay b).sess.identity = some i → i.model ∈ e.models

/-- The JOB ask is held for the hub: HOLD, auto-defer set, ASK posted (R115, R36). -/
def heldForHub (s : State) (b : Nat) : State :=
  (s.replied b .hold).updBay b fun r => { r with lane := { r.lane with autoDefer := true }, events := r.events ||| 0x10#10 }

end State

/-- In an event that ends in `t`, the owner of the ask `a` that bay `b` holds in `s` is consulted, and what it decides leads to a
state with `P`: the profile store by R103's table, which may start a serve (R104), the scheduler by R115's. -/
structure AskLeads (P : State → Prop) (s t : State) (b : Nat) (a : Ask) : Prop where
  waits : a.kind = .profile → (s.bay b).sess.state ≠ .contracted → P s
  refused : a.kind = .profile → (s.bay b).sess.state = .contracted → s.servable b a.id = false → P (s.replied b .refuse)
  serves : ∀ k, a.kind = .profile → (s.bay b).sess.state = .contracted → s.servable b a.id = true →
    (s.store.find? fun k => k.state == .ready && k.id == a.id) = some k → P (s.serveWaits b k)
  stands : ∀ j, a.kind = .job → s.jobOf b = some j → j.image = a.id → P (s.replied b .accept)
  held : a.kind = .job → (∃ j, s.jobOf b = some j ∧ j.image ≠ a.id) ∨ (s.jobOf b = none ∧ ¬ s.autoQueues b a.id) →
    P (s.heldForHub b)
  full : a.kind = .job → s.jobOf b = none → s.autoQueues b a.id → 48 ≤ s.jobs.length →
    P { s.heldForHub b with cartEvents := s.cartEvents ||| 4#3 }
  queued : a.kind = .job → s.jobOf b = none → s.autoQueues b a.id → s.jobs.length < 48 →
    ∃ tag, s.freshTag tag ∧ P ((s.replied b .accept).enqueued (newJob tag b a.id 1 .ask))
      ∧ (s.mode ≠ .night → t.jobOf b = some (newJob tag b a.id 1 .ask))

/-- In the event that takes `s`, where bay `b` holds the ask `a`, to `t`, the owner of the ask has been consulted, and of nobody
else: a serve's first CHUNK has started on a free line (R103, R104, R115). -/
structure AskDecided (s t : State) (b : Nat) (a : Ask) : Prop where
  leads : AskLeads (fun v => SameBut v t) s t b a
  served : ∀ k, a.kind = .profile → (s.bay b).sess.state = .contracted → s.servable b a.id = true →
    (s.store.find? fun k => k.state == .ready && k.id == a.id) = some k → SameBut (s.served b k) t

/-- In the event that takes `s` to `t`, the owners of the asks of the list, each with its bay, have been consulted one after
another. A CHUNK in a Serve slot waits there, or is in flight. -/
def AsksDecided : List (Nat × Ask) → State → State → Prop
  | [], s, t => SameBut s t ∧ ∀ b c, (s.bay b).lane.serve = some c →
      (t.bay b).lane.serve = some c ∨ (t.bay b).lane.flight.map (·.call) = some c
  | (b, a) :: rest, s, t => AskLeads (fun v => AsksDecided rest v t) s t b a

/-! ## Ends of wakes and of identity reads -/

/-- The state after a failed wake (R58), but for its job. -/
def State.wakeLost (s : State) (b : Nat) : State :=
  let n := min 3 ((s.bay b).sess.failedWakes + 1)
  s.updBay b fun r => { r with
    sess := { r.sess with
      state := .asleep, failedWakes := n, wakeFailed := r.sess.wakeFailed || n == 3
      refreshAt := if n = 3 then none else some (s.now + 300000) }
    lane := { r.lane with wakeAsked := false, wakeAt := none }
    events := if n = 3 then r.events ||| 0x01#10 else r.events }

/-- The command fails bay `b`'s wake at `u` (R58): a WAKING job fails with WAKE_FAILED (R123), any other is left alone. -/
def WakeLost (c : Instr) (s u : State) (b : Nat) : Prop :=
  ((∀ j, s.jobOf b = some j → j.state ≠ .waking) → Leaves c s (u.wakeLost b))
    ∧ ∀ j, s.jobOf b = some j → j.state = .waking →
      ∃ t, exec c s = .next t ∧ JobEnded (u.wakeLost b) t j false .wakeFailed false

/-- In the event that takes `s` to `t`, bay `b`'s session has entered IDENTIFYING and IDENT_READ with offset 0 is posted to its
lane, whose line is still QUIET (R50); a greeting call still pending is withdrawn (R28). -/
structure IdentityAsked (s t : State) (b : Nat) : Prop where
  sess : (t.bay b).sess = { (s.bay b).sess with
    state := .identifying, proposal := none, greetAt := none, fallAt := none, pollAt := none, readBuf := some ⟨none, [], (s.bay b).sess.identity⟩ }
  lane : SameLane { (s.bay b).lane with greeting := none, ident := some (.identRead 0) } (t.bay b).lane
  others : ∀ c, c ≠ b → SameBay (s.bay c) (t.bay c)
  cart : SameCart s t

/-- The PROFILE ask with reply HOLD that an entry to CONTRACTED brings before the store again, where no hub flag is set (R103). -/
def State.askAgain (s : State) (b : Nat) : Option Ask :=
  (s.bay b).sess.ask.filter fun a =>
    a.kind == .profile && a.reply == .hold && !(s.bay b).lane.hubDefer && !(s.bay b).lane.hubRefuse

/-- In the event that takes `s` to `t`, bay `b`'s session has entered CONTRACTED with the outcome of an identity read, or with
none made, the identity held before it being `before` (R50, R51): SESSION is posted, IDENTITY exactly where the outcome differs, a POLL is due, custody has the outcome, a pending IDENT_READ is withdrawn (R28), a held
PROFILE ask is decided (R103), and an outdated tablet's job is queued (R111). -/
structure SessionContracted (s t : State) (b : Nat) (before found : Option Identity) : Prop where
  sess : (t.bay b).sess = { (s.bay b).sess with
    state := .contracted, restarts := 0, identity := found, readBuf := none, pollAt := some (s.now + 1000)
    ask := match s.askAgain b with
      | none => (s.bay b).sess.ask
      | some a => some { a with reply := if s.servable b a.id then .accept else .refuse, decided := true } }
  poll : (t.bay b).lane.pollDue = true
  ident : (t.bay b).lane.ident = none
  events : (t.bay b).events.getLsbD 0 = true
  identity : (t.bay b).events.getLsbD 2 = ((s.bay b).events.getLsbD 2 || before != found)
  custody : CustodyFollows s t b (found.map (·.serial))
  serve : match (s.askAgain b).filter fun a => s.servable b a.id with
    | none => (t.bay b).serve = (s.bay b).serve ∧ t.store = s.store
    | some a => ∀ k, (s.store.find? fun k => k.state == .ready && k.id == a.id) = some k →
      (t.bay b).serve = some ⟨k.num, 0, k.length, 0, none⟩ ∧ (t.bay b).lane.serve = some (State.firstChunk k)
        ∧ t.store = (s.updSlot k.num fun q => { q with serves := q.serves + 1 }).store
  alone : found = none → (∀ c, c ≠ b → SameBay (s.bay c) (t.bay c)) ∧ SameCart { s with store := t.store } t
  checkIn : ∀ i e, found = some i → s.committed = true → s.mode ≠ .night → (s.bay b).enabled = true → s.jobOf b = none →
    (s.sched.catalog.find? fun e => e.id == i.image && decide (i.version < e.version) && e.models.contains i.model) = some e →
    (e.auto = false → t.jobOf b = none)
    ∧ (e.auto = true → 48 ≤ s.jobs.length → t.jobOf b = none ∧ t.cartEvents = s.cartEvents ||| 4#3)
    ∧ (e.auto = true → s.jobs.length < 48 → ∃ tag, s.freshTag tag ∧ t.jobOf b = some (newJob tag b e.id 1 .checkin))
  noCheckIn : s.jobOf b = none → (∀ i, found = some i → s.sched.catalog.all (fun e => !(e.id == i.image
    && decide (i.version < e.version) && e.models.contains i.model)) = true ∨ (s.bay b).enabled = false) → t.jobOf b = none

end Machine

end Sys2Proof
end

