-- ==== Sys2Proof/WellFormed.lean ====
section
/-! DEFINITION. When a command is one the outside can send: payloads within the link's limits, numbers of bays, units and channels
that the largest cart has, corrupt bytes that hold no whole frame of their own. The machine takes ill-formed commands too and never stops on
them. -/

namespace Sys2Proof

/-- A hub payload: at most 512 bytes (R172). -/
def hubPayload (p : Bytes) : Bool := p.length ≤ 512

/-- A lane payload: at most 64 bytes (R20). -/
def lanePayload (p : Bytes) : Bool := p.length ≤ 64

/-- A bay or unit number of the largest cart (00, "Numbering of bays and ranks"; R6). -/
def cartNumber (b : Nat) : Bool := 1 ≤ b && b ≤ 36

/-- A channel number (01, section 1.3). -/
def channelNumber (c : Nat) : Bool := 1 ≤ c && c ≤ 4

/-- An answer's bay and payload. -/
def answerOk (b : Nat) (p : Bytes) : Bool := cartNumber b && lanePayload p

/-- The check a command passes. -/
def Instr.wf : Instr → Bool
  | .powerOn => true
  | .resetNLow => true
  | .resetNHigh => true
  | .hubRxGapTimeout => true
  | .hubFrameCorrupt run => (Machine.hear [] run.bytes).2.isEmpty
  | .hubRxByteFault _ => true
  | .unknownKind kind _ p => !Machine.isRequestKind kind && hubPayload p
  | .hubFrameSent => true
  | .getCart _ p => hubPayload p
  | .getBay _ p => hubPayload p
  | .resetPart _ p => hubPayload p
  | .resetBay _ p => hubPayload p
  | .commitGeometry _ p _ => hubPayload p
  | .setBays _ p => hubPayload p
  | .setMode _ p => hubPayload p
  | .renegotiate _ p => hubPayload p
  | .forceContract _ p => hubPayload p
  | .wakeBay _ p => hubPayload p
  | .setLaneFlags _ p => hubPayload p
  | .setBudget _ p => hubPayload p
  | .setThresholds _ p => hubPayload p
  | .setPolicy _ p => hubPayload p
  | .getBudget _ p => hubPayload p
  | .clearFault _ p => hubPayload p
  | .profileBegin _ p => hubPayload p
  | .profileData _ p => hubPayload p
  | .profileEnd _ p => hubPayload p
  | .profileDrop _ p => hubPayload p
  | .getProfiles _ p => hubPayload p
  | .catalogSet _ p => hubPayload p
  | .catalogDrop _ p => hubPayload p
  | .queueJob _ p => hubPayload p
  | .cancelJob _ p => hubPayload p
  | .declineAsk _ p => hubPayload p
  | .setChannels _ p => hubPayload p
  | .getJobs _ p => hubPayload p
  | .rosterPut _ p => hubPayload p
  | .rosterRemove _ p => hubPayload p
  | .rosterGet _ p => hubPayload p
  | .present _ p => hubPayload p
  | .restoreCheckout _ p => hubPayload p
  | .acceptForeign _ p => hubPayload p
  | .clearAlarm _ p _ => hubPayload p
  | .setCustody _ p => hubPayload p
  | .setNotices _ p => hubPayload p
  | .readEvents _ p => hubPayload p
  | .callSent b => cartNumber b
  | .clash b => cartNumber b
  | .noAnswer b => cartNumber b
  | .answerIncomplete b => cartNumber b
  | .answerByteFault b _ => cartNumber b
  | .badAnswer b _ p _ => answerOk b p
  | .retry b => cartNumber b
  | .wakeAttemptDue b => cartNumber b
  | .wakeWindowEnd b => cartNumber b
  | .quietEnd b => cartNumber b
  | .wakePulseEnd b => cartNumber b
  | .ability b p => answerOk b p
  | .confirmAnswer b p => answerOk b p
  | .status b p => answerOk b p
  | .identityChunk b p => answerOk b p
  | .chunkHandshake b p => answerOk b p
  | .envelopeHandshake b p => answerOk b p
  | .stopHandshake b _ p => answerOk b p
  | .receipt b p => answerOk b p
  | .presenceChange b _ => cartNumber b
  | .presenceDebounce b => cartNumber b
  | .greetingHoldExpiry b => cartNumber b
  | .breakExpiry b => cartNumber b
  | .fallbackExpiry b => cartNumber b
  | .pollTimer b => cartNumber b
  | .refreshExpiry b => cartNumber b
  | .scheduledPass => true
  | .periodicTimer => true
  | .rampTick => true
  | .stageSample b _ _ => cartNumber b
  | .trip b => cartNumber b
  | .coolOffExpiry b => cartNumber b
  | .tsenseSample _ => true
  | .wsenseSample _ => true
  | .chunkResendExpiry b => cartNumber b
  | .scanTimer => true
  | .settleExpiry b => cartNumber b
  | .envelopeResendExpiry b => cartNumber b
  | .stallExpiry b => cartNumber b
  | .timeLimitExpiry b => cartNumber b
  | .drainExpiry c => channelNumber c
  | .motorPulseEnd _ => true
  | .positionCheck _ _ => true
  | .retryWaitEnd _ => true
  | .doorChange u _ => cartNumber u
  | .doorDebounce u => cartNumber u
  | .unlatchWindowExpiry u => cartNumber u
  | .ajarLimit u => cartNumber u

end Sys2Proof
end

