-- ==== Sys2Proof/Certificates/Slice0/Obligations.lean ====
section
/-! DEFINITION. The statements for the provers, from the spec's numbered rules. A request's statement says which reply joins the
output queue and which state follows; `sameButOutput` leaves only the link's output open, `SameBut` also what the end of an
event writes: passes, the admission scan, latch drivers, lanes and lamps (log 5). Where a timer's expiry is taken, the clock moves up
to the time it was set for (`reach`, log 2); byte codes and reply layouts the spec leaves open are logs 8, 9 and 10. -/

open Sys2Proof Sys2Proof.Machine

/-! ## The machine as a whole -/

/-- One step with a command at the front of the queue is that command on the state with the queue's rest. -/
def Obligations.StepRunsFrontCommand : Prop :=
  ∀ (c : Instr) (rest : List Instr) (s : State),
    step { s with pending := c :: rest } = exec c { s with pending := rest }

/-- Every command answers a next state, and none touches the queue of commands; a step on an empty queue is one millisecond of
the clock and nothing else, which is the model's choice (log 1). -/
def Obligations.EveryCommandAnswers : Prop :=
  (∀ (c : Instr) (s : State), ∃ t, exec c s = .next t ∧ t.pending = s.pending)
    ∧ ∀ s : State, s.pending = [] → step s = .next { s with now := s.now + 1 }

/-- What part reset leaves: the reset values the spec states, in a quiet state with nothing that belongs to bays. -/
def Obligations.ResetStateIsSound : Prop :=
  State.reset.quiet = true ∧ State.reset.bare = true ∧ State.reset.rosterSound ∧ State.reset.baysSound
    ∧ State.reset.geo = none ∧ State.reset.mode = .secure ∧ State.reset.bays = [] ∧ State.reset.roster = []
    ∧ State.reset.alloc.ceiling = 3000 ∧ State.reset.alloc.overhead = 150 ∧ State.reset.alloc.eta = 88
    ∧ State.reset.alloc.slots = 2 ∧ State.reset.alloc.policy = .classed ∧ State.reset.alloc.low = 20
    ∧ State.reset.alloc.ready = 80 ∧ State.reset.alloc.trim = 0
    ∧ State.reset.custody.releaseMin = 30 ∧ State.reset.custody.ajarLimit = 120
    ∧ State.reset.monitor.temp = none ∧ State.reset.monitor.sensorFault = false ∧ State.reset.monitor.factor = 100
    ∧ State.reset.monitor.win = 0#16
    ∧ State.reset.monitor.hold = false ∧ State.reset.monitor.overruns = 0 ∧ State.reset.monitor.armed = true
    ∧ State.reset.store.map (·.num) = [1, 2, 3, 4, 5, 6, 7, 8]
    ∧ (∀ k ∈ State.reset.store, k.state = .empty ∧ k.serves = 0 ∧ k.content = [])
    ∧ State.reset.sched.catalog = [] ∧ State.reset.sched.nextTag = 1 ∧ State.reset.jobs = []
    ∧ State.reset.jobsSound ∧ State.reset.hub.rx = []
    ∧ State.reset.hub.mask = BitVec.allOnes 13 ∧ State.reset.hub.replyPending = false
    ∧ State.reset.hub.noticeOutstanding = false ∧ State.reset.hub.receiverOpen = true
    ∧ State.reset.hub.sending = none ∧ State.reset.hub.reply = none ∧ State.reset.hub.busy = none
    ∧ State.reset.hub.notice = false ∧ State.reset.cartEvents = 0#3

/-- After every step nothing is owed inside an event and every block has acted: free drivers hold no waiting move, free lanes no
waiting call, every lamp shows its row of R164, an owed notice is queued, and reply-pending stands exactly while one ordinary
reply waits or is being sent. -/
def Obligations.QuietIsKept : Prop := ∀ s t : State, s.quiet = true → step s = .next t → t.quiet = true

/-- While the geometry is uncommitted no step makes anything that belongs to bays, sets an event flag or runs a pass. -/
def Obligations.BareIsKept : Prop := ∀ s t : State, s.bare = true → step s = .next t → t.bare = true

/-- Every step keeps the roster ascending, without duplicates, of at most 256, and every borrower in it. -/
def Obligations.RosterSoundIsKept : Prop := ∀ s t : State, s.rosterSound → step s = .next t → t.rosterSound

/-- The reset causes put the part into its reset state; while RESET_N is low nothing else has an effect. The queue of commands,
RESET_N itself and the input pins are outside the part. The model's choices in it: logs 23 and 31. -/
def Obligations.ResetCausesReset : Prop :=
  ∀ s : State,
    exec .powerOn s = .next { State.reset with pending := s.pending, resetN := s.resetN, pins := s.pins }
    ∧ exec .resetNLow s = .next { State.reset with pending := s.pending, resetN := false, pins := s.pins }
    ∧ (s.resetN = false →
        exec .resetNHigh s = .next { State.reset with pending := s.pending, resetN := true, pins := s.pins })
    ∧ (s.resetN = true → exec .resetNHigh s = .next s)
    ∧ (∀ c : Instr, s.resetN = false → c ≠ .powerOn → c ≠ .resetNLow → c ≠ .resetNHigh → exec c s = .next s)

/-! ## The hub link -/

/-- A gap and a byte fault drop the partial frame and nothing else. Bytes that complete no frame change the receive buffer alone,
without a reply: a hunting receiver discards every byte before a sync byte, collects what follows one, and is hunting again after
a whole frame whose CRC does not match, or a length above 512; a closed one discards them. The bytes that complete a frame have it
taken, as the command of that frame takes it. A whole frame of at most 512 bytes of payload is heard as that frame; a request with
a longer one is not taken. The model's choices in it: logs 3 and 4. -/
def Obligations.ReceiverFaultsDiscard : Prop :=
  (∀ (s : State) (bytes : Bytes) (inp : Inputs) (f : HubByteFault), s.resetN = true →
    exec .hubRxGapTimeout s = .next { s with hub := { s.hub with rx := [] } }
    ∧ exec (.hubRxByteFault f) s = .next { s with hub := { s.hub with rx := [] } }
    ∧ (s.hub.receiverOpen = false → exec (.hubFrameCorrupt ⟨bytes, inp⟩) s = .next s)
    ∧ (s.hub.receiverOpen = true →
      let holds (rx : Bytes) : Prop := exec (.hubFrameCorrupt ⟨bytes, inp⟩) s = .next { s with hub := { s.hub with rx := rx } }
      (s.hub.rx = [] → 0xA5#8 ∉ bytes → holds [])
      ∧ (s.hub.rx = [] → wholeFrameCorrupt bytes = true → holds [])
      ∧ (∀ noise begun, s.hub.rx = [] → bytes = noise ++ 0xA5#8 :: begun → 0xA5#8 ∉ noise →
        (begun.length < 2 → holds (0xA5#8 :: begun))
        ∧ (∀ n, 2 ≤ begun.length → wordAt begun 0 = n → n ≤ 512 → begun.length < n + 6 → holds (0xA5#8 :: begun))
        ∧ (∀ l h rest, begun = l :: h :: rest → 512 < wordAt begun 0 → 0xA5#8 ∉ rest → holds []))
      ∧ (s.hub.rx ≠ [] → s.hub.rx.length + bytes.length < 3 → holds (s.hub.rx ++ bytes))
      ∧ (∀ n, 3 ≤ s.hub.rx.length → wordAt s.hub.rx 1 = n → n ≤ 512 →
        (s.hub.rx.length + bytes.length < n + 7 → holds (s.hub.rx ++ bytes))
        ∧ (s.hub.rx.length < n + 7 → s.hub.rx.length + bytes.length = n + 7 →
          let got := s.hub.rx ++ bytes
          let sound : Prop := got.drop (n + 5) = crc16Bytes ((got.drop 1).take (n + 4))
          (¬ sound → holds [])
          ∧ (sound → ∀ c : Instr, c.wf = true → c.frame? = some (got.getD 3 0#8, got.getD 4 0#8, (got.drop 5).take n) →
            c.levelsAre inp s → exec (.hubFrameCorrupt ⟨bytes, inp⟩) s = exec c { s with hub := { s.hub with rx := [] } })))))
  ∧ (∀ f : Frame, f.payload.length ≤ 512 → hear [] f.wire = ([], [f]))
  ∧ ∀ (s : State) (c : Instr) (k tag : Byte) (p : Bytes), s.hunting = true → c.frame? = some (k, tag, p) → 512 < p.length →
    p.length < 65536 → 0xA5#8 ∉ k :: tag :: p ++ crc16Bytes (Frame.mk k tag p).body → exec c s = .next s

/-- A frame that arrives while a reply is pending is answered BUSY, once, and changes nothing else. -/
def Obligations.FrameWhilePendingIsBusy : Prop :=
  ∀ (s : State) (c : Instr) (k tag : Byte) (p : Bytes),
    s.quiet = true → s.hunting = true → s.hub.replyPending = true → c.wf = true → c.frame? = some (k, tag, p) →
    exec c s = .next { s with hub := { s.hub with busy := some (s.hub.busy.getD ⟨k + 0x80#8, tag, [0x01#8]⟩) } }

/-- RESET_PART closes the receiver, drops a waiting notice and is answered OK; with the receiver closed every frame is dropped.
-/
def Obligations.ResetPartClosesReceiver : Prop :=
  ∀ (s : State) (tag : Byte),
    (s.quiet = true → s.listening = true → ∃ t, exec (.resetPart tag []) s = .next t
      ∧ t.answers 0x03#8 tag [0x00#8] ∧ t.hub.notice = false
      ∧ t.sameButOutput { s with hub := { s.hub with receiverOpen := false, notice := false, resetDue := true } })
    ∧ (∀ (c : Instr) (f : Byte × Byte × Bytes), s.hub.receiverOpen = false → c.frame? = some f → exec c s = .next s)

/-- When a frame has gone, the next one starts: the ordinary reply, then the BUSY reply, then the notice, which is dropped if no
enabled flag is set any more; the reply's last byte clears reply-pending, or carries out a RESET_PART. The model's choices in
it: log 26. -/
def Obligations.SentFrameFreesLine : Prop :=
  ∀ (s : State), s.resetN = true →
    (s.hub.sending = none → exec .hubFrameSent s = .next s)
    ∧ (∀ f, s.hub.sending = some (.reply, f) → s.hub.resetDue = true →
        exec .hubFrameSent s = .next { State.reset with pending := s.pending, resetN := s.resetN, pins := s.pins })
    ∧ (∀ k f, s.hub.sending = some (k, f) → (k = .reply → s.hub.resetDue = false) →
        let h : Hub := { s.hub with sending := none, replyPending := s.hub.replyPending && !(k == .reply) }
        exec .hubFrameSent s = .next { s with hub :=
          match h.reply, h.busy with
          | some g, _ => { h with sending := some (.reply, g), reply := none }
          | none, some g => { h with sending := some (.busy, g), busy := none }
          | none, none =>
            if h.notice then
              if s.anyEnabled then { h with sending := some (.notice, s.noticeFrame), notice := false }
              else { h with notice := false, noticeOutstanding := false }
            else h })

/-! ## Before a request's own rule -/

/-- Before commit every request of the right-hand column of R4 is refused with NOT_READY, whatever its payload. -/
def Obligations.LateRequestsWaitForCommit : Prop :=
  ∀ (s : State) (c : Instr) (k tag : Byte) (p : Bytes),
    s.listening = true → s.committed = false → c.wf = true → c.frame? = some (k, tag, p) → k ∈ lateKinds →
    Replies c s k tag [0x05#8] s

/-- A frame whose kind is no request kind is answered UNKNOWN_KIND, a payload whose length is not the one its kind has
BAD_LENGTH, and a bay number outside 1 to N NO_SUCH_BAY, where READ_EVENTS alone of these takes 0; nothing changes. The model's
choices in it: log 12. -/
def Obligations.MalformedRequestsAreRefused : Prop :=
  (∀ (s : State) (kind tag : Byte) (p : Bytes), s.listening = true → p.length ≤ 512 → isRequestKind kind = false →
    Replies (.unknownKind kind tag p) s kind tag [0x02#8] s)
  ∧ ∀ (s : State) (c : Instr) (k tag : Byte) (p : Bytes), s.listening = true → c.wf = true → c.frame? = some (k, tag, p) →
    (∀ n, (s.committed = true ∨ k ∉ lateKinds) → fixedLength k = some n → p.length ≠ n → Replies c s k tag [0x03#8] s)
    ∧ (s.committed = true → fixedLength k = some p.length →
      (k ∈ bayKinds ∧ byteAt p 0 = 0) ∨ ((k ∈ bayKinds ∨ k = 0x61#8) ∧ s.nBays < byteAt p 0) →
      Replies c s k tag [0x07#8] s)

/-- The requests that only read answer OK with what they read, and change nothing: the fields each rule names, in its order, each
of the width its range needs. The model's choices in it: logs 8 to 10; GET_BAY's bytes are those of section 11.4. -/
def Obligations.ReadRequestsReport : Prop :=
  ∀ (s : State) (tag : Byte), s.listening = true →
    let flag (b : Bool) : Byte := if b then 1#8 else 0#8
    let temp (v : Option Int) : Byte := match v with
      | none => 0x80#8
      | some v => BitVec.ofInt 8 v
    let list (l : List Bytes) : Bytes := byteOf l.length :: l.flatten
    let bays (f : Bay → Bool) : Byte := byteOf (s.bays.filter f).length
    let a := s.alloc
    let total := (s.store.map fun k => if k.state = .empty then 0 else k.length).sum
    Replies (.getCart tag []) s 0x01#8 tag
      ([0x00#8, 0x36#8, 0xF0#8, 0x01#8]
        ++ (match s.geo with
          | none => [0x00#8]
          | some g => [0x01#8] ++ le4 g.cartId ++ [byteOf g.ranks.length, byteOf g.channels]
            ++ list (g.ranks.map fun r => [byteOf r.topology.code, byteOf r.maxLevel.num, byteOf r.presPol.code,
              byteOf r.doorPol.code, byteOf r.lposPol.code]))
        ++ [byteOf s.mode.code, flag s.monitor.hold, flag s.monitor.sensorFault, temp s.monitor.temp]
        ++ le2 s.monitor.win.toNat ++ le2 s.hub.mask.toNat ++ [s.cartEvents.setWidth 8]
        ++ [bays (·.enabled), bays (·.present), bays fun r => r.stage.state == .on, byteOf s.jobs.length]
        ++ le2 s.roster.length
        ++ [byteOf s.custody.groups.length, byteOf (s.store.filter fun k => k.state == .ready).length]) s
    ∧ Replies (.getProfiles tag []) s 0x34#8 tag
      ([0x00#8] ++ le2 total ++ le2 (16384 - total)
        ++ list (s.store.map fun k =>
          if k.state = .empty then [byteOf k.state.code]
          else [byteOf k.state.code, byteOf k.id] ++ le2 k.version ++ le2 k.length ++ le2 k.content.length
            ++ [byteOf k.serves])) s
    ∧ (∀ p, p.length = 4 → Replies (.rosterGet tag p) s 0x52#8 tag
      ([0x00#8] ++ le2 s.roster.length
        ++ list (((s.roster.filter fun c => decide (longAt p 0 ≤ c.num)).take 32).map fun c =>
          le4 c.num ++ [byteOf c.role.code, byteOf c.limit, byteOf (c.assigned.getD 0), if c.active then 1#8 else 2#8,
            byteOf (s.checkouts c.num), flag (s.groupOfCred c.num).isSome])) s)
    ∧ (s.committed = true →
        Replies (.getBudget tag []) s 0x23#8 tag
          ([0x00#8] ++ le2 a.ceiling ++ le2 a.overhead
            ++ [byteOf a.eta, byteOf a.slots, byteOf a.policy.code, byteOf a.low, byteOf a.ready, byteOf s.custody.releaseMin]
            ++ [byteOf a.trim, flag s.monitor.hold, temp s.monitor.temp, flag a.scheduled.isSome, byteOf a.origin]
            ++ le2 (match a.lastPass with
              | none => 65535
              | some t => min 65535 (s.now - t))
            ++ (match a.summary with
              | none => [0x00#8]
              | some m => [0x01#8]
                ++ (match m.kind with
                  | .normal => [0x01#8]
                  | .urgent => [0x02#8]
                  | .admission b => [0x03#8, byteOf b, flag m.admitted])
                ++ [temp m.temp, byteOf m.kT, flag m.hold] ++ le2 m.derated ++ [byteOf m.etaEff] ++ le2 m.available
                ++ [byteOf m.empties] ++ le2 m.insertion ++ le2 m.distributable ++ le2 m.total
                ++ list (m.classTotals.map le2) ++ [byteOf m.starved, byteOf m.origin])) s
        ∧ (∀ p, p.length = 1 → 1 ≤ byteAt p 0 → byteAt p 0 ≤ s.nBays →
            Replies (.getBay tag p) s 0x02#8 tag (0x00#8 :: s.bayBytes (s.bay (byteAt p 0))) s)
        ∧ (∀ p, p.length = 2 →
          let job (j : Job) : Bytes := le2 j.tag ++ [byteOf j.bay] ++ le2 j.image
            ++ [byteOf j.priority, byteOf j.origin.code, byteOf j.state.code]
          let head : Bytes := [0x00#8] ++ le2 s.sched.nextTag ++ [byteOf s.jobs.length]
          let part (body : Bytes) : Prop := Replies (.getJobs tag p) s 0x46#8 tag (head ++ body) s
          (byteAt p 0 = 0 ∨ 3 < byteAt p 0 ∨ 47 < byteAt p 1 → Replies (.getJobs tag p) s 0x46#8 tag [0x04#8] s)
          ∧ (byteAt p 1 ≤ 47 →
            (byteAt p 0 = 1 → part (list (s.sched.catalog.map fun i => le2 i.id ++ le4 i.version ++ le4 i.size
              ++ [byteOf i.minutes] ++ list (i.models.map le2)
              ++ [flag i.auto, byteOf (s.jobs.filter fun j => j.image == i.id).length])))
            ∧ (byteAt p 0 = 2 → part (
              list (s.sched.channels.map fun c => [byteOf c.num, flag c.enabled] ++ (match c.state with
                | .idle => [0x01#8]
                | .assigned b t => [0x02#8, byteOf b] ++ le2 t
                | .draining _ => [0x03#8]))
              ++ list ((s.sched.channels.filterMap fun c => s.sched.active.find? fun j => j.channel == some c.num).map fun j =>
                job j ++ [byteOf (j.channel.getD 0), flag j.resume, byteOf j.holds] ++ le2 j.progress)))
            ∧ (byteAt p 0 = 3 → part ([byteOf s.sched.queue.length]
              ++ list (((s.sched.queue.drop (byteAt p 1)).take 32).map fun j => job j ++ [flag j.resume] ++ le2 j.progress))))))

/-- GET_BAY's bytes stand where section 11.4 puts them. The model's choices in it: log 8 (the latch position's code), log 9 (attempt
0 for a queued move), log 11 (a time open or a removal order that its bytes cannot hold is not stated), log 38 (the time open is in
whole seconds, rounded down) and log 40 (the bits of the attention flags). -/
def Obligations.BaySummaryLayout : Prop :=
  ∀ (s : State) (r : Bay),
    let p : Bytes := 0x00#8 :: s.bayBytes r
    let has (i : Nat) (bs : Bytes) : Prop := (p.drop i).take bs.length = bs
    has 1 [byteOf r.num, byteOf r.rank, byteOf r.unit]
    ∧ (p.getD 4 0#8).getLsbD 0 = r.enabled ∧ (p.getD 4 0#8).getLsbD 1 = r.present ∧ (p.getD 4 0#8).getLsbD 2 = r.lane.up
    ∧ (p.getD 4 0#8).getLsbD 3 = r.lane.hubDefer ∧ (p.getD 4 0#8).getLsbD 4 = r.lane.hubRefuse
    ∧ (p.getD 4 0#8).getLsbD 5 = r.lane.autoDefer ∧ (p.getD 4 0#8).getLsbD 6 = r.power.starved
    ∧ (p.getD 4 0#8).getLsbD 7 = r.sess.wakeFailed
    ∧ (p.getD 5 0#8).getLsbD 0 = r.sess.contract.isSome ∧ (p.getD 5 0#8).getLsbD 1 = r.sess.status.isSome
    ∧ (p.getD 5 0#8).getLsbD 2 = r.sess.identity.isSome ∧ (p.getD 5 0#8).getLsbD 3 = r.sess.ask.isSome
    ∧ (p.getD 5 0#8).getLsbD 4 = r.serve.isSome ∧ (p.getD 5 0#8).getLsbD 5 = (s.jobOf r.num).isSome
    ∧ (p.getD 5 0#8).getLsbD 6 = r.lastJob.isSome ∧ (p.getD 5 0#8).getLsbD 7 = r.lastServe.isSome
    ∧ (p.getD 6 0#8).getLsbD 0 = r.stage.cap.isSome ∧ (p.getD 6 0#8).getLsbD 1 = r.sess.hubRestart
    ∧ (p.getD 6 0#8).getLsbD 2 = r.cust.inserted ∧ (p.getD 6 0#8).getLsbD 3 = r.cust.unattended
    ∧ (p.getD 6 0#8).getLsbD 4 = r.cust.note.isSome ∧ (p.getD 6 0#8).getLsbD 5 = r.cust.release.isSome
    ∧ (p.getD 6 0#8).getLsbD 6 = (r.cust.note.any fun n => n.unattended)
    ∧ has 7 [byteOf r.cap.num, byteOf ((r.sess.forced.map Level.num).getD 0), byteOf r.sess.state.code,
        byteOf r.sess.restarts, byteOf r.sess.holds, byteOf r.sess.failedWakes]
    ∧ has 13 [(r.lane.flight.map (·.call.kind)).getD 0#8, byteOf r.lane.attempts,
        byteOf ((r.lane.lastFail.map FailKind.code).getD 0)]
    ∧ (∀ c, r.sess.contract = some c →
        has 16 [byteOf c.level.num, byteOf c.source.code, maskByte c.offered, (c.tablet.map maskByte).getD 0xFF#8])
    ∧ (∀ x, r.sess.status = some x →
        has 20 ([byteOf (x.soc.getD 255), byteOf x.charge.code, signedByte x.temp, x.attention.setWidth 8] ++ le2 x.progress))
    ∧ (∀ a, r.sess.ask = some a → has 26 ([byteOf a.kind.code] ++ le2 a.id ++ [byteOf a.reply.code]))
    ∧ has 30 (byteOf (r.power.cls.getD 255) :: (le2 r.power.floor ++ le2 r.power.ceil ++ le2 r.power.target))
    ∧ has 37 (byteOf r.stage.state.code :: (le2 r.stage.applied ++ [byteOf r.stage.volts] ++ le2 r.stage.draw
        ++ le2 (r.stage.cap.getD 0) ++ [byteOf r.stage.trips.length] ++ le2 r.stage.setpoint))
    ∧ has 48 (le2 (((s.jobOf r.num).map (·.tag)).getD 0) ++ [byteOf (s.currency r.num)])
    ∧ (∀ o, r.lastJob = some o →
        has 51 (le2 o.tag ++ le2 o.image ++ [if o.done then 1#8 else 2#8, byteOf o.reason.code]))
    ∧ (∀ v, r.serve = some v → has 57 ([byteOf v.slot] ++ le2 v.offset ++ le2 v.remaining ++ [byteOf v.holds]))
    ∧ (∀ o, r.lastServe = some o → has 63 ([byteOf o.id] ++ le2 o.version ++ [byteOf o.outcome.code] ++ le2 o.offset))
    ∧ has 69 (byteOf r.cust.state.code :: (le4 (r.cust.borrower.getD 0) ++ padSerial (r.cust.expected.getD [])))
    ∧ (∀ m, r.cust.taken = some m → m.order < 4294967296 → has 94 (le4 m.order)) ∧ (r.cust.taken = none → has 94 (le4 0))
    ∧ has 98 (byteOf r.cust.seen.code :: (padSerial (r.cust.seen.serial?.getD []) ++ [r.cust.alarms.setWidth 8]))
    ∧ (∀ n, r.cust.note = some n → has 120 (byteOf n.kind.code :: (le4 (n.cred.getD 0) ++ padSerial (n.serial.getD [])
        ++ [byteOf (n.other.getD 0)])))
    ∧ (∀ n, r.cust.release = some n → has 146 (le4 n.cred ++ [byteOf n.intent.code, byteOf n.outcome.code, byteOf n.taken,
        byteOf n.inserted, byteOf n.missing]))
    ∧ (∀ u, s.unit? r.unit = some u →
        has 155 [byteOf u.state.code, if u.doorOpen then 1#8 else 2#8, if u.posLocked then 1#8 else 2#8]
        ∧ (u.openedAt = none → has 158 (le2 0))
        ∧ (∀ a, u.openedAt = some a → (s.now - a) / 1000 < 65536 → has 158 (le2 ((s.now - a) / 1000)))
        ∧ (let drives (v : Option Drive) : Prop := ∃ x, v = some x ∧ x.move.unit = u.num
          let move (k : MoveKind) (phase attempt : Byte) : Prop := has 160 [if k = .lock then 1#8 else 2#8, phase, attempt]
          (∀ q v, s.latch.driver q = some v → v.move.unit = u.num → (q = .a ∨ ¬ drives s.latch.drvA) →
            move v.move.kind (match v.phase with
              | .pulse => 2#8
              | .checkWait => 3#8
              | .retryWait => 4#8) (byteOf v.attempt))
          ∧ (¬ drives s.latch.drvA → ¬ drives s.latch.drvB →
            match s.latch.queue.find? fun m => m.unit == u.num with
            | none => has 160 [0#8, 0#8, 0#8]
            | some m => move m.kind 1#8 0#8)))
    ∧ has 163 (byteOf r.indicator.code :: leBytes 2 r.events.toNat)
    ∧ (r.sess.identity = none → p.length = 167 ∧ has 166 [0#8])
    ∧ (∀ i, r.sess.identity = some i → has 166 (byteOf i.record.length :: i.record))

/-! ## Modes, sessions and lane flags -/

/-- SET_MODE writes the mode and answers with it and the number of groups it cancels: those, not cancelled before, whose
credential's role R166 names. Their units go back: from UNLOCK_PENDING to LOCKED, the move gone and the PENDING entry WITHDRAWN, from
UNLATCHED to a LOCK move; in every other state they are left alone, and a group whose entries have all ended ends CANCELLED; that end
is the last release of its bays where no other group's entry is of them (one may be: a unit handed back, log 14). Every other group
and unit is left alone, and without release groups the mode is all that the request writes. -/
def Obligations.SetModeCancelsGroups : Prop :=
  ∀ (s : State) (tag : Byte), s.quiet = true → s.listening = true →
    (∀ p, p.length = 1 → ¬ (1 ≤ byteAt p 0 ∧ byteAt p 0 ≤ 3) → Replies (.setMode tag p) s 0x07#8 tag [0x04#8] s)
    ∧ ∀ m : Mode,
      let ended (r : Role) : Bool := (m == .secure && r != .technician) || (m == .night && r == .student)
      let hit (g : Group) : Bool := !g.cancelled && (s.cred? g.cred).any fun c => ended c.role
      let unitIs (u : Nat) (st : UnitState) : Bool := (s.unit? u).any fun r => r.state == st
      let after (e : UnitEntry) : UnitEntry :=
        if e.handedBack = false ∧ e.state = .pending ∧ unitIs e.unit .unlockPending = true then { e with state := .withdrawn } else e
      (s.mode = m → Replies (.setMode tag [byteOf m.code]) s 0x07#8 tag [0x00#8, byteOf m.code, 0x00#8] s)
      ∧ (s.mode ≠ m → ∃ t, exec (.setMode tag [byteOf m.code]) s = .next t
          ∧ t.answers 0x07#8 tag [0x00#8, byteOf m.code, byteOf (s.custody.groups.filter hit).length]
          ∧ SameCart { s with mode := m, custody := t.custody } t
          ∧ (∀ g ∈ t.custody.groups, ∀ c, t.cred? g.cred = some c → ended c.role = true → g.cancelled = true)
          ∧ (s.custody.groups = [] → SameBut { s with mode := m } t)
          ∧ (s.groupsSound → (s.latch.units.map (·.num)).Nodup →
            (∀ g ∈ s.custody.groups,
              (hit g = false → t.groupOfCred g.cred = some g)
              ∧ (hit g = true →
                let left : Group := { g with cancelled := true, entries := g.entries.map after }
                let done : Prop := ∀ e ∈ left.entries, e.state = .closed ∨ e.state = .failed ∨ e.state = .withdrawn
                (¬ done → t.groupOfCred g.cred = some left)
                ∧ (done → (∃ e ∈ g.entries, e.handedBack = false ∧ unitIs e.unit .unlockPending = true) →
                  t.groupOfCred g.cred = none
                  ∧ ((∀ h ∈ s.custody.groups, h.cred ≠ g.cred → ∀ x ∈ h.entries, ∀ y ∈ g.entries, ∀ b ∈ s.baysOf x.unit,
                      b ∉ s.baysOf y.unit) → s.groupEnded t g .cancelled))
                ∧ ∀ e ∈ g.entries, e.handedBack = false → ∀ r, s.unit? e.unit = some r →
                  (r.state = .unlockPending → t.noMove e.unit ∧ ∃ r', t.unit? e.unit = some r' ∧ r'.state = .locked)
                  ∧ (r.state = .unlatched → s.noMove e.unit → t.moving e.unit .lock)
                  ∧ (r.state = .unlockPending ∨ r.state = .unlatched → ∀ b ∈ r.bays, s.hasBay b = true →
                    (t.bay b).events.getLsbD 9 = true)
                  ∧ (r.state ≠ .unlockPending → r.state ≠ .unlatched → t.unit? e.unit = some r)))
            ∧ ∀ u r, s.unit? u = some r →
              (∀ g ∈ s.custody.groups, hit g = true → ∀ e ∈ g.entries, e.handedBack = false → e.unit ≠ u) → t.unit? u = some r))

/-- RENEGOTIATE and a FORCE_CONTRACT that changes the forced level restart the session by its state: not at all in OFF, GREETING
and BREAK, at the next entry to CONTRACTED in ASLEEP and WAKING, and otherwise at once, uncounted, through BREAK. -/
def Obligations.HubRestartsSession : Prop :=
  ∀ (s : State) (tag : Byte) (p : Bytes), s.quiet = true → s.listening = true → s.names (byteAt p 0) = true →
    let b := byteAt p 0
    let restarts (u t : State) : Prop :=
      match (s.bay b).sess.state with
      | .off => t.sameButOutput u
      | .greeting => t.sameButOutput u
      | .breakWait => t.sameButOutput u
      | .asleep => t.sameButOutput (u.updSess b fun x => { x with hubRestart := true })
      | .waking => t.sameButOutput (u.updSess b fun x => { x with hubRestart := true })
      | .confirming => BreakEntered u t b
      | .identifying => BreakEntered u t b
      | .contracted => BreakEntered u t b
      | .fallback => BreakEntered u t b
    (p.length = 1 →
      if (s.bay b).enabled = false then Replies (.renegotiate tag p) s 0x10#8 tag [0x08#8] s
      else if (s.bay b).sess.state = .off then Replies (.renegotiate tag p) s 0x10#8 tag [0x0C#8] s
      else ∃ t, exec (.renegotiate tag p) s = .next t ∧ t.answers 0x10#8 tag [0x00#8] ∧ restarts s t)
    ∧ (p.length = 2 →
        let top := (s.rankMax (s.bay b).rank).min (s.bay b).cap
        let asked := Level.ofNum (byteAt p 1)
        let level := asked.map (·.min top)
        let body := if level = asked then [0x00#8] else [0x0E#8, byteOf ((level.map Level.num).getD 0)]
        if 5 < byteAt p 1 then Replies (.forceContract tag p) s 0x11#8 tag [0x04#8] s
        else if (s.bay b).sess.forced = level then Replies (.forceContract tag p) s 0x11#8 tag body s
        else ∃ t, exec (.forceContract tag p) s = .next t ∧ t.answers 0x11#8 tag body
          ∧ restarts (s.updSess b fun x => { x with forced := level }) t)

/-- WAKE_BAY and the refresh timer take an ASLEEP session to WAKING and ask the lane for the WAKE pattern, which starts in the
event if the line is free; WAKE_BAY is refused by the other states. The model's choices in it: log 2. -/
def Obligations.WakeBegins : Prop :=
  ∀ (s : State) (b : Nat), s.quiet = true →
    let woken (u : State) : State := u.updBay b fun r => { r with
      sess := { r.sess with state := .waking, refreshAt := none }
      lane := if r.lane.free then { r.lane with wakeAsked := false, act := .wakePulse, dueAt := u.now + 20 }
        else { r.lane with wakeAsked := true } }
    (∀ d, s.resetN = true → (s.bay b).sess.state = .asleep → (s.bay b).sess.refreshAt = some d →
      Leaves (.refreshExpiry b) s (woken (s.reach d)))
    ∧ (∀ (tag : Byte) (p : Bytes), s.listening = true → p.length = 1 → byteAt p 0 = b → s.names b = true →
        if (s.bay b).enabled = false then Replies (.wakeBay tag p) s 0x12#8 tag [0x08#8] s
        else if (s.bay b).sess.state = .asleep then Replies (.wakeBay tag p) s 0x12#8 tag [0x00#8] (woken s)
        else if (s.bay b).sess.state = .waking then Replies (.wakeBay tag p) s 0x12#8 tag [0x00#8] s
        else Replies (.wakeBay tag p) s 0x12#8 tag [0x0C#8] s)

/-- SET_LANE_FLAGS writes hub defer and hub refuse of its bay, or with bay 0 of every enabled bay, and nothing else where no
undecided ask waits on a bay it opens; where it clears the last set flag of bays with undecided asks, the owners of these asks
decide them in the event, bay by bay. That no slot number stands twice is an invariant (`BaysSoundIsKept`). The model's
choices in it: logs 8, 12 and 13. -/
def Obligations.SetLaneFlagsWritesFlags : Prop :=
  ∀ (s : State) (tag : Byte) (p : Bytes), s.quiet = true → s.listening = true → s.committed = true → p.length = 3 →
    let meant (r : Bay) : Bool := if byteAt p 0 = 0 then r.enabled else r.num == byteAt p 0
    if 1 < byteAt p 1 ∨ 1 < byteAt p 2 then Replies (.setLaneFlags tag p) s 0x13#8 tag [0x04#8] s
    else if s.nBays < byteAt p 0 then Replies (.setLaneFlags tag p) s 0x13#8 tag [0x07#8] s
    else
      let u : State := { s with
        bays := s.bays.map fun (r : Bay) =>
          if meant r then
            { r with lane := { r.lane with hubDefer := byteAt p 1 == 1, hubRefuse := byteAt p 2 == 1 } }
          else r }
      let opens (r : Bay) : Bool := meant r && (r.lane.hubDefer || r.lane.hubRefuse) && byteAt p 1 == 0 && byteAt p 2 == 0
      let waiting : List (Nat × Ask) := (s.bays.filter opens).filterMap fun r =>
        (r.sess.ask.filter fun a => !a.decided).map fun a => (r.num, a)
      let decides (P : State → Prop) : Prop :=
        ∃ t, exec (.setLaneFlags tag p) s = .next t ∧ t.answers 0x13#8 tag [0x00#8] ∧ P t
      (s.bays.map (·.num)).Nodup →
      (waiting = [] → Replies (.setLaneFlags tag p) s 0x13#8 tag [0x00#8] u)
      ∧ ((s.store.map (·.num)).Nodup →
        (∀ b a, waiting = [(b, a)] → decides fun t => AskDecided u t b a) ∧ decides fun t => AsksDecided waiting u t)

/-! ## Settings -/

/-- SET_BUDGET refuses a payload of any other length, brings each field into its range, writes the four values and trim 0, and
after commit runs an urgent pass if D falls below the summary's D, else requests a normal one. -/
def Obligations.SetBudgetWritesSettings : Prop :=
  ∀ (s : State) (tag : Byte) (p : Bytes), s.quiet = true → s.listening = true →
    (p.length ≠ 6 → p.length ≤ 512 → Replies (.setBudget tag p) s 0x20#8 tag [0x03#8] s)
    ∧ (p.length = 6 →
      let c := max 1000 (min 20000 (wordAt p 0))
      let o := min 600 (wordAt p 2)
      let eta := max 70 (min 98 (byteAt p 4))
      let slots := min 4 (byteAt p 5)
      let kept : Bool := c == wordAt p 0 && o == wordAt p 2 && eta == byteAt p 4 && slots == byteAt p 5
      let u : State := { s with alloc := { s.alloc with ceiling := c, overhead := o, eta := eta, slots := slots, trim := 0 } }
      ∃ t, exec (.setBudget tag p) s = .next t
        ∧ t.answers 0x20#8 tag (if kept then [0x00#8] else 0x0E#8 :: (le2 c ++ le2 o ++ [byteOf eta, byteOf slots]))
        ∧ SameBut u t
        ∧ (s.committed = false → t.sameButOutput u)
        ∧ (s.committed = true →
            if (s.alloc.summary.map fun m => decide (u.distributable < m.distributable)).getD false then s.passedTo t
            else s.normalTaken t))

/-- The settings requests write their values clamped to their ranges; a change of the low or ready threshold or of the policy
requests a normal pass after commit; a unit OPEN for longer than a new ajar limit raises AJAR at once. -/
def Obligations.SettingsAreWritten : Prop :=
  ∀ (s : State) (tag : Byte) (p : Bytes), s.quiet = true → s.listening = true →
    (p.length = 3 →
      let low := min 100 (byteAt p 0)
      let ready := max low (min 100 (byteAt p 1))
      let rel := min 100 (byteAt p 2)
      let kept : Bool := low == byteAt p 0 && ready == byteAt p 1 && rel == byteAt p 2
      let u : State := { s with
        alloc := { s.alloc with low := low, ready := ready }, custody := { s.custody with releaseMin := rel } }
      ∃ t, exec (.setThresholds tag p) s = .next t
        ∧ t.answers 0x21#8 tag (if kept then [0x00#8] else [0x0E#8, byteOf low, byteOf ready, byteOf rel])
        ∧ SameBut u t
        ∧ (s.committed = true → (s.alloc.low ≠ low ∨ s.alloc.ready ≠ ready) → s.normalTaken t)
        ∧ (s.alloc.low = low → s.alloc.ready = ready → t.sameButOutput u.lightLamps))
    ∧ (p.length = 1 →
        match Policy.ofCode (byteAt p 0) with
        | none => Replies (.setPolicy tag p) s 0x22#8 tag [0x04#8] s
        | some v => ∃ t, exec (.setPolicy tag p) s = .next t ∧ t.answers 0x22#8 tag [0x00#8]
            ∧ SameBut { s with alloc := { s.alloc with policy := v } } t
            ∧ (s.alloc.policy = v → t.sameButOutput s)
            ∧ (s.committed = true → s.alloc.policy ≠ v → s.normalTaken t))
    ∧ (p.length = 2 →
        let limit := max 30 (min 600 (wordAt p 0))
        let body := if limit = wordAt p 0 then [0x00#8] else 0x0E#8 :: le2 limit
        let u : State := { s with custody := { s.custody with ajarLimit := limit } }
        let late (r : LatchUnit) : Bool := (r.ajarDue limit).any fun d => decide (d ≤ s.now)
        (s.latch.units.any late = false → Replies (.setCustody tag p) s 0x57#8 tag body u)
        ∧ ∃ t, exec (.setCustody tag p) s = .next t ∧ t.answers 0x57#8 tag body ∧ SameCart u t
          ∧ ∀ n r, s.unit? n = some r → late r = true → ∀ b ∈ r.bays, s.hasBay b = true → (t.bay b).cust.has .ajar = true)
    ∧ (p.length = 2 →
        if 8192 ≤ wordAt p 0 then Replies (.setNotices tag p) s 0x60#8 tag [0x04#8] s
        else Replies (.setNotices tag p) s 0x60#8 tag [0x00#8]
          { s with hub := { s.hub with mask := BitVec.ofNat 13 (wordAt p 0) } })

/-- CLEAR_FAULT takes a FAULTED stage to OFF with its trip history emptied, the end of a cool-off a TRIPPED one; each requests a
normal pass. CLEAR_FAULT in any other state is refused with STATE. The model's choices in it: log 2. -/
def Obligations.ClearedStageGoesOff : Prop :=
  ∀ (s : State) (b : Nat), s.quiet = true → s.names b = true →
    (∀ (tag : Byte) (p : Bytes), s.listening = true → p.length = 1 → byteAt p 0 = b →
      ((s.bay b).stage.state = .faulted → ∃ t, exec (.clearFault tag p) s = .next t ∧ t.answers 0x24#8 tag [0x00#8]
        ∧ SameBut (s.updStage b fun x => { x with state := .off, trips := [] }) t ∧ s.normalTaken t)
      ∧ ((s.bay b).stage.state ≠ .faulted → Replies (.clearFault tag p) s 0x24#8 tag [0x0C#8] s))
    ∧ (∀ d, s.resetN = true → (s.bay b).stage.state = .tripped → (s.bay b).stage.coolAt = some d →
        ∃ t, exec (.coolOffExpiry b) s = .next t
          ∧ SameBut ((s.reach d).updStage b fun x => { x with state := .off, coolAt := none }) t ∧ s.normalTaken t)

/-- READ_EVENTS reports the named set's flags and clears them, with the notice-outstanding flag; a notice is owed again while
enabled flags are left. -/
def Obligations.ReadEventsClearsFlags : Prop :=
  ∀ (s : State) (tag : Byte) (p : Bytes), s.quiet = true → s.listening = true → s.committed = true → p.length = 1 →
    (byteAt p 0 = 0 →
      let u : State := { s with cartEvents := 0#3 }
      ∃ t, exec (.readEvents tag p) s = .next t ∧ t.answers 0x61#8 tag [0x00#8, s.cartEvents.setWidth 8]
        ∧ t.sameButOutput u ∧ t.hub.noticeOutstanding = u.anyEnabled)
    ∧ (s.names (byteAt p 0) = true →
      let u : State := s.updBay (byteAt p 0) fun r => { r with events := 0#10 }
      ∃ t, exec (.readEvents tag p) s = .next t
        ∧ t.answers 0x61#8 tag (0x00#8 :: leBytes 2 (s.bay (byteAt p 0)).events.toNat)
        ∧ t.sameButOutput u ∧ t.hub.noticeOutstanding = u.anyEnabled)

/-! ## The profile store -/

/-- The loading requests: PROFILE_BEGIN declares a slot, PROFILE_DATA appends, PROFILE_END seals, PROFILE_DROP empties, each by
its checks in order, and each changes its own slot alone. The model's choice in it: log 23 (the id, version and length of an
EMPTY slot are 0). -/
def Obligations.ProfileSlotsLoad : Prop :=
  ∀ (s : State) (tag : Byte) (p : Bytes), s.quiet = true → s.listening = true →
    let k := byteAt p 0
    (p.length = 6 →
      let id := byteAt p 1
      let n := wordAt p 4
      if k = 0 ∨ 8 < k ∨ id = 0 ∨ n = 0 ∨ 4096 < n then Replies (.profileBegin tag p) s 0x30#8 tag [0x04#8] s
      else ∀ r, s.slot? k = some r →
        if 0 < r.serves then Replies (.profileBegin tag p) s 0x30#8 tag [0x09#8] s
        else if (s.store.any fun x => x.num != k && x.state != .empty && x.id == id) = true then
          Replies (.profileBegin tag p) s 0x30#8 tag [0x09#8] s
        else if 16384 < s.storeTotal - (if r.state = .empty then 0 else r.length) + n then
          Replies (.profileBegin tag p) s 0x30#8 tag [0x0A#8] s
        else Replies (.profileBegin tag p) s 0x30#8 tag [0x00#8] (s.updSlot k fun x => { x with
          state := .loading, id := id, version := wordAt p 2, length := n, content := [] }))
    ∧ (p.length ≤ 512 →
      if p.length < 4 ∨ 483 < p.length then Replies (.profileData tag p) s 0x31#8 tag [0x03#8] s
      else if k = 0 ∨ 8 < k then Replies (.profileData tag p) s 0x31#8 tag [0x04#8] s
      else ∀ r, s.slot? k = some r →
        if r.state ≠ .loading then Replies (.profileData tag p) s 0x31#8 tag [0x0C#8] s
        else if wordAt p 1 ≠ r.content.length ∨ r.length - r.content.length < p.length - 3 then
          Replies (.profileData tag p) s 0x31#8 tag [0x04#8] s
        else Replies (.profileData tag p) s 0x31#8 tag [0x00#8] (s.updSlot k fun x => { x with
          content := x.content ++ p.drop 3 }))
    ∧ (p.length = 1 →
        (k = 0 ∨ 8 < k → Replies (.profileEnd tag p) s 0x32#8 tag [0x04#8] s
          ∧ Replies (.profileDrop tag p) s 0x33#8 tag [0x04#8] s)
        ∧ (1 ≤ k → k ≤ 8 → ∀ r, s.slot? k = some r →
          (if r.state = .loading ∧ r.content.length = r.length then
              Replies (.profileEnd tag p) s 0x32#8 tag [0x00#8] (s.updSlot k fun x => { x with state := .ready })
            else Replies (.profileEnd tag p) s 0x32#8 tag [0x0C#8] s)
          ∧ (if 0 < r.serves then Replies (.profileDrop tag p) s 0x33#8 tag [0x09#8] s
            else Replies (.profileDrop tag p) s 0x33#8 tag [0x00#8] (s.updSlot k fun x =>
              { num := x.num, state := .empty, id := 0, version := 0, length := 0, content := [], serves := 0 }))))

/-! ## Jobs -/

/-- CATALOG_SET adds or replaces one entry of an ascending catalog of at most 16, CATALOG_DROP takes one out; an entry is not
changed under a job on a channel, and not dropped while a job names it. The model's choices in it: log 8. -/
def Obligations.CatalogHolds : Prop :=
  ∀ (s : State) (tag : Byte), s.quiet = true → s.listening = true →
    (∀ p : Bytes, p.length ≤ 512 → p.length ∉ [14, 16, 18, 20] → Replies (.catalogSet tag p) s 0x40#8 tag [0x03#8] s)
    ∧ (∀ (id version size minutes : Nat) (models : List Nat) (auto : Bool),
      id < 65536 → version < 4294967296 → size < 4294967296 → minutes < 256 → 1 ≤ models.length → models.length ≤ 4
      → (∀ m ∈ models, m < 65536) →
      let p := le2 id ++ le4 version ++ le4 size ++ [byteOf minutes] ++ (models.map le2).flatten ++ [flagByte auto]
      if id = 0 ∨ size = 0 ∨ minutes = 0 ∨ 240 < minutes then Replies (.catalogSet tag p) s 0x40#8 tag [0x04#8] s
      else if (s.image? id).isSome = true ∧ ∃ j ∈ s.jobs, j.image = id ∧ j.state.onChannel = true then
        Replies (.catalogSet tag p) s 0x40#8 tag [0x09#8] s
      else if s.image? id = none ∧ 16 ≤ s.sched.catalog.length then Replies (.catalogSet tag p) s 0x40#8 tag [0x0A#8] s
      else ∃ cat : List Image,
        Replies (.catalogSet tag p) s 0x40#8 tag [0x00#8] { s with sched := { s.sched with catalog := cat } }
        ∧ (∀ x, x ∈ cat ↔ x = ⟨id, version, size, minutes, models, auto⟩ ∨ (x ∈ s.sched.catalog ∧ x.id ≠ id))
        ∧ ((s.sched.catalog.map (·.id)).Pairwise (· < ·) → (cat.map (·.id)).Pairwise (· < ·)))
    ∧ (∀ p : Bytes, p.length = 2 →
      let id := wordAt p 0
      if s.image? id = none then Replies (.catalogDrop tag p) s 0x41#8 tag [0x0B#8] s
      else if ∃ j ∈ s.jobs, j.image = id then Replies (.catalogDrop tag p) s 0x41#8 tag [0x09#8] s
      else Replies (.catalogDrop tag p) s 0x41#8 tag [0x00#8]
        { s with sched := { s.sched with catalog := s.sched.catalog.filter (·.id != id) } })

/-- QUEUE_JOB's checks in their order; an accepted one puts a QUEUED job with a tag no job holds at the back of its priority
band, behind every job of its priority or a higher one and before every job of a lower, and accepts the bay's JOB ask. A job whose
priority the mode does not allow stays QUEUED, and where the mode allows no waiting job's priority nothing else changes. -/
def Obligations.QueuedJobJoinsItsBand : Prop :=
  ∀ (s : State) (tag : Byte) (p : Bytes), s.quiet = true → s.listening = true → p.length = 4 → s.names (byteAt p 0) = true →
    let b := byteAt p 0
    let pr := byteAt p 3
    let no (body : Bytes) : Prop := Replies (.queueJob tag p) s 0x42#8 tag body s
    let wrong (e : Image) : Bool := (s.bay b).sess.identity.any fun t => !e.models.contains t.model
    if 3 < pr then no [0x04#8]
    else if (s.bay b).enabled = false then no [0x08#8]
    else if (s.bay b).present = false then no [0x0C#8]
    else match s.image? (wordAt p 1) with
      | none => no [0x0B#8]
      | some e =>
        if (s.jobOf b).isSome then no [0x09#8]
        else if wrong e then no [0x0D#8, 0x0C#8]
        else if 48 ≤ s.jobs.length then no [0x0A#8]
        else ∃ t τ, exec (.queueJob tag p) s = .next t ∧ t.answers 0x42#8 tag (0x00#8 :: le2 τ)
          ∧ (∀ j ∈ s.jobs, j.tag ≠ τ) ∧ (1 ≤ s.sched.nextTag → s.sched.nextTag ≤ 65535 → 1 ≤ τ ∧ τ ≤ 65535)
          ∧ (let j : Job := {
                tag := τ, bay := b, image := wordAt p 1, priority := pr, origin := .hub, state := .queued, resume := false
                channel := none, posted := false, holds := 0, progress := 0, baseline := none
                settleAt := none, resendAt := none, stallAt := none, limitAt := none }
            let asked : Bool := (s.bay b).sess.ask.any fun a => a.kind == .job
            let u : State := ({ s with sched := { s.sched with
                queue := s.sched.queue.takeWhile (fun (x : Job) => decide (pr ≤ x.priority)) ++ [j]
                  ++ s.sched.queue.dropWhile (fun (x : Job) => decide (pr ≤ x.priority))
                nextTag := if 65535 ≤ τ then 1 else τ + 1 } } : State).updBay b fun (r : Bay) =>
              if asked then
                { r with
                  sess := { r.sess with ask := r.sess.ask.map fun a => { a with reply := .accept, decided := true } }
                  lane := { r.lane with autoDefer := false } }
              else r
            let allowed (x : Nat) : Prop := s.mode = .night ∨ (s.mode = .classMode ∧ x = 3)
            SameBut u t
            ∧ (¬ allowed pr → t.jobOf b = some j)
            ∧ (s.sched.queue.Pairwise (fun x y => y.priority ≤ x.priority) → ∀ j', t.jobOf b = some j' → j'.channel = none →
              ∃ before after, t.sched.queue = before ++ j' :: after ∧ j'.tag = τ ∧ (∀ x ∈ before, pr ≤ x.priority)
                ∧ ∀ x ∈ after, x.priority < pr)
            ∧ ((∀ x ∈ j :: s.sched.queue, ¬ allowed x.priority) → t.sameButOutput u))

/-- CANCEL_JOB, the stall timer and the time limit end a job with their reasons: its outcome is written, JOB is posted, its
channel drains, a waiting ENVELOPE or RECEIPT_READ is withdrawn and ABORT is posted for a job the tablet may hold; the tag of no job
is NOT_FOUND. The model's choices in it: log 2. -/
def Obligations.EndedJobsLeaveScheduler : Prop :=
  ∀ s : State, s.quiet = true → s.committed = true →
    (∀ (tag : Byte) (p : Bytes), s.listening = true → p.length = 2 →
      match s.jobTagged (wordAt p 0) with
      | none => Replies (.cancelJob tag p) s 0x43#8 tag [0x0B#8] s
      | some j => ∃ t, exec (.cancelJob tag p) s = .next t ∧ t.answers 0x43#8 tag [0x00#8]
          ∧ JobEnded s t j false .cancelled j.channel.isSome)
    ∧ (∀ (b d : Nat) (j : Job), s.resetN = true → s.jobOf b = some j →
      (j.stallAt = some d →
        ∃ t, exec (.stallExpiry b) s = .next t ∧ JobEnded (s.reach d) t j false .stalled true)
      ∧ (j.limitAt = some d →
        ∃ t, exec (.timeLimitExpiry b) s = .next t ∧ JobEnded (s.reach d) t j false .timeout true))

/-- DECLINE_ASK makes REFUSE the reply to send of a JOB ask and clears auto-defer. SET_CHANNELS writes the flags of the channels
that exist; every job whose channel it disables is suspended: its channel drains, PAUSE goes to a tablet that has its envelope, and
where the scan finds nothing else for it, as with no channel free, it stands QUEUED again with its resume flag set; a normal pass
is requested. The model's choices in it: log 8. -/
def Obligations.AsksAndChannelsFollowHub : Prop :=
  ∀ (s : State) (tag : Byte) (p : Bytes), s.quiet = true → s.listening = true → s.committed = true → p.length = 1 →
    let b := byteAt p 0
    let mask := p.headD 0#8
    (s.names b = true →
      match (s.bay b).sess.ask with
      | none => Replies (.declineAsk tag p) s 0x44#8 tag [0x0C#8] s
      | some a =>
        if a.kind = .job then Replies (.declineAsk tag p) s 0x44#8 tag [0x00#8] (s.updBay b fun r => { r with
          sess := { r.sess with ask := r.sess.ask.map fun a => { a with reply := .refuse, decided := true } }
          lane := { r.lane with autoDefer := false } })
        else Replies (.declineAsk tag p) s 0x44#8 tag [0x0C#8] s)
    ∧ (if mask >>> s.sched.channels.length ≠ 0#8 then Replies (.setChannels tag p) s 0x45#8 tag [0x04#8] s
      else
        let on (c : Channel) : Bool := mask.getLsbD (c.num - 1)
        let flags : List Channel := s.sched.channels.map fun (c : Channel) => { c with enabled := on c }
        ∃ t, exec (.setChannels tag p) s = .next t ∧ t.answers 0x45#8 tag [0x00#8]
          ∧ SameBut { s with sched := { s.sched with channels := flags } } t
          ∧ (flags = s.sched.channels → t.sameButOutput s)
          ∧ (∀ c j, s.chan? (c : Channel).num = some c → c.enabled = true → on c = false → c.state = .assigned j.bay j.tag
              → s.jobOf j.bay = some j → s.onlyJob j → j.state.onChannel = true → j.channel = some c.num →
              JobSuspended s t j (∀ q ∈ s.sched.channels, q.state = .idle → on q = false)
              ∧ ((∀ q ∈ s.sched.channels, on q = true → q.enabled = true) → s.normalTaken t)))

/-! ## Roster and custody requests -/

/-- ROSTER_PUT writes every entry it carries or none: the first entry that fails a check of R132, taken in their order, is
answered with its code and its position, and where none fails all are written. ROSTER_REMOVE takes out a credential with no
checkout and no release group. The model's choices in it: log 8. -/
def Obligations.RosterRequestsKeepRoster : Prop :=
  ∀ (s : State) (tag : Byte), s.quiet = true → s.listening = true →
    (∀ p : Bytes, p.length ≤ 512 → ¬ (p.length % 8 = 0 ∧ 8 ≤ p.length ∧ p.length ≤ 256) →
      Replies (.rosterPut tag p) s 0x50#8 tag [0x03#8] s)
    ∧ (∀ (p : Bytes) (k : Nat), p.length = 8 * k → 1 ≤ k → k ≤ 32 →
      let entry (i : Nat) : Bytes := (p.drop (8 * i)).take 8
      let num (i : Nat) : Nat := longAt (entry i) 0
      let role (i : Nat) : Option Role := Role.ofCode (byteAt (entry i) 4)
      let carried (i : Nat) : Nat := byteAt (entry i) 5
      let assigned (i : Nat) : Nat := byteAt (entry i) 6
      let st (i : Nat) : Nat := byteAt (entry i) 7
      let lim (i : Nat) : Nat := min (carried i) (if role i = some .student then 4 else 36)
      let known (i : Nat) : Bool := (s.cred? (num i)).isSome
      let bad (i : Nat) : Prop :=
        role i = none ∨ num i = 0 ∨ 36 < assigned i ∨ (st i ≠ 1 ∧ st i ≠ 2) ∨ ∃ j < i, num j = num i
      let inUse (i : Nat) : Prop := known i = true ∧ lim i < s.checkouts (num i) + s.pendingAllowance (num i)
      let full (i : Nat) : Prop :=
        known i = false ∧ 256 < s.roster.length + ((List.range (i + 1)).filter fun j => !known j).length
      let passes (i : Nat) : Prop := ¬ bad i ∧ ¬ inUse i ∧ ¬ full i
      let no (code : Byte) (i : Nat) : Prop := Replies (.rosterPut tag p) s 0x50#8 tag [code, byteOf (i + 1)] s
      (∀ i < k, (∀ j < i, passes j) →
        (bad i → no 0x04#8 i) ∧ (¬ bad i → inUse i → no 0x09#8 i) ∧ (¬ bad i → ¬ inUse i → full i → no 0x0A#8 i))
      ∧ ((∀ i < k, passes i) → ∃ l : List Credential,
        (∀ c, c ∈ l ↔ (∃ i < k, ∃ r, role i = some r
            ∧ c = ⟨num i, r, lim i, if assigned i = 0 then none else some (assigned i), st i == 1⟩)
          ∨ (c ∈ s.roster ∧ ∀ i < k, num i ≠ c.num))
        ∧ ((s.roster.map (·.num)).Pairwise (· < ·) → (l.map (·.num)).Pairwise (· < ·))
        ∧ Replies (.rosterPut tag p) s 0x50#8 tag
          (if ∀ i < k, lim i = carried i then [0x00#8] else 0x0E#8 :: byteOf k :: (List.range k).map fun i => byteOf (lim i))
          { s with roster := l }))
    ∧ (∀ p : Bytes, p.length ≤ 512 → p.length ≠ 4 → Replies (.rosterRemove tag p) s 0x51#8 tag [0x03#8] s)
    ∧ (∀ p : Bytes, p.length = 4 →
      let num := longAt p 0
      if s.cred? num = none then Replies (.rosterRemove tag p) s 0x51#8 tag [0x0B#8] s
      else if 0 < s.checkouts num ∨ (s.groupOfCred num).isSome = true then Replies (.rosterRemove tag p) s 0x51#8 tag [0x09#8] s
      else Replies (.rosterRemove tag p) s 0x51#8 tag [0x00#8] { s with roster := s.roster.filter (·.num != num) })

/-- PRESENT's checks in their order; an accepted presentation creates the release group, aborts the jobs R140 names, puts an
UNLOCK move for each unit of the selected bays into the latch queue, and suspends the other jobs on channels behind those units. That
a job on a channel holds it is an invariant (`jobsSound`, `BaysSoundIsKept`). The model's choices in it: logs 8 (RELEASING and the
warnings' codes), 12 and 14. -/
def Obligations.PresentCreatesReleaseGroup : Prop :=
  ∀ (s : State) (tag : Byte) (p : Bytes), s.quiet = true → s.listening = true → s.committed = true → p.length = 8 →
    let num := longAt p 0
    let count := byteAt p 5
    let bay := byteAt p 6
    let override := flagAt p 7
    let no (body : Bytes) : Prop := Replies (.present tag p) s 0x53#8 tag body s
    match Intent.ofCode (byteAt p 4) with
    | none => no [0x04#8]
    | some i =>
      if num = 0 ∨ count = 0 ∨ 36 < count ∨ (i = .returnIt ∧ bay ≠ 0) ∨ (i = .service ∧ bay = 0) then no [0x04#8]
      else if s.nBays < bay then no [0x07#8]
      else match s.cred? num with
        | none => no [0x0D#8, 0x01#8]
        | some c =>
          let room := c.limit - s.checkouts num
          let allowance := match i with
            | .take => min count room
            | .service => room
            | .returnIt => 0
          if c.active = false then no [0x0D#8, 0x02#8]
          else if (s.mode = .secure ∧ c.role ≠ .technician) ∨ (s.mode = .night ∧ c.role = .student) then no [0x0D#8, 0x03#8]
          else if (s.groupOfCred num).isSome = true then no [0x0D#8, 0x04#8]
          else if c.role ≠ .technician
              ∧ (override = true ∨ i = .service ∨ (c.role = .student ∧ i = .take ∧ (count ≠ 1 ∨ bay ≠ 0))) then
            no [0x0D#8, 0x05#8]
          else if i = .take ∧ room = 0 then no [0x0D#8, 0x06#8]
          else match s.select c i bay allowance override with
            | .error r => no [0x0D#8, r.byte]
            | .ok (bays, warning) => ∃ (t : State) (sel units : List Nat),
              exec (.present tag p) s = .next t ∧ sel.Perm bays ∧ sel.Pairwise (· ≤ ·)
              ∧ t.answers 0x53#8 tag ([0x00#8, 0x01#8, byteOf sel.length] ++ sel.map byteOf ++ [byteOf allowance, byteOf warning])
              ∧ units.Pairwise (· < ·) ∧ (∀ u, u ∈ units ↔ ∃ b ∈ sel, (s.bay b).unit = u)
              ∧ SameBut { s with custody := { s.custody with groups := s.custody.groups ++ [⟨num, i, allowance, sel,
                  units.map fun u => ⟨u, .pending, false, false, false, false⟩, false, 0, 0, 0⟩] } } t
              ∧ (∀ u ∈ units, ∀ r, s.unit? u = some r → r.state = .locked → s.noMove u → t.moving u .unlock)
              ∧ (∀ j, s.onlyJob j →
                (i = .take → j.bay ∈ sel → j.state.onChannel = false →
                  t.jobOf j.bay = none ∧ (s.hasBay j.bay = true →
                    (t.bay j.bay).lastJob = some ⟨j.tag, j.image, false, .cancelled⟩))
                ∧ (override = true → s.jobsSound → j.state.onChannel = true → (∃ u ∈ units, j.bay ∈ s.baysOf u) →
                  t.jobOf j.bay = none ∧ (s.hasBay j.bay = true →
                    (t.bay j.bay).lastJob = some ⟨j.tag, j.image, false, .released⟩)
                  ∧ StopPosted s t j (some (.abort j.tag)))
                ∧ (override = false → j.state.onChannel = true →
                  (∃ u ∈ units, ∃ r, s.unit? u = some r ∧ r.state = .locked ∧ j.bay ∈ r.bays ∧ (s.bay j.bay).unit = u) →
                  (s.latch.units.map (·.num)).Nodup → JobSuspended s t j True ∧ s.normalTaken t))

/-- What a presentation selects: the best candidates in rank order, one named or assigned bay, the bay to return to, or the bay
to service; and the first reason that speaks against it. The model's choices in it: log 14 (when a unit is in a release group). -/
def Obligations.SelectionFollowsIntent : Prop :=
  ∀ (s : State) (c : Credential) (bay allowance : Nat) (override : Bool),
    let free (r : Bay) : Prop := (∃ u, s.unit? r.unit = some u ∧ u.state = .locked) ∧ s.groupOfUnit r.unit = none
    let soc (r : Bay) : Nat := ((r.sess.status.bind (·.soc)).filter (s.custody.releaseMin ≤ ·)).getD 0
    let known (r : Bay) : Prop := ∃ v, r.sess.status.bind (·.soc) = some v ∧ s.custody.releaseMin ≤ v
    let candidate (r : Bay) : Prop := r.enabled = true ∧ r.cust.state = .stocked ∧ r.cust.borrower = none
      ∧ r.cust.alarms = 0#5 ∧ r.stage.state ≠ .faulted ∧ free r ∧ known r ∧ s.hasActiveJob r.num = false
    let tier (r : Bay) : Nat := if (s.jobOf r.num).isSome then 1 else if s.currency r.num = 1 then 0 else 2
    let one (b : Nat) : Prop :=
      let res := s.select c .take bay allowance override
      match s.bay? b with
      | none => res = .error .noneReady
      | some r =>
        (r.enabled = false ∨ r.cust.state ≠ .stocked ∨ r.cust.borrower.isSome = true ∨ r.cust.alarms ≠ 0#5 →
          res = .error .noneReady)
        ∧ (r.enabled = true → r.cust.state = .stocked → r.cust.borrower = none → r.cust.alarms = 0#5 →
          (¬ free r → res = .error .unitBusy)
          ∧ (free r → s.hasActiveJob b = true → override = false → res = .error .jobActive)
          ∧ (free r → (s.hasActiveJob b = true → override = true) →
            (known r → res = .ok ([b], 0)) ∧ (¬ known r → res = .ok ([b], 2))))
    (bay ≠ 0 → one bay)
    ∧ (∀ b, bay = 0 → c.assigned = some b → one b)
    ∧ (bay = 0 → c.assigned = none →
      ((∀ r ∈ s.bays, ¬ candidate r) → s.select c .take bay allowance override = .error .noneReady)
      ∧ ((∃ r ∈ s.bays, candidate r) → ∃ ranked : List Bay,
        (∀ r, r ∈ ranked ↔ r ∈ s.bays ∧ candidate r)
        ∧ (∃ cands : List Bay, cands.Sublist s.bays ∧ cands.Perm ranked)
        ∧ ranked.Pairwise (fun a b => tier a < tier b
            ∨ (tier a = tier b ∧ (soc b < soc a ∨ (soc a = soc b ∧ a.num ≤ b.num))))
        ∧ s.select c .take bay allowance override
          = .ok ((ranked.take allowance).map (·.num), if ranked.length < allowance then 1 else 0)))
    ∧ (match s.bays.find? (·.cust.borrower == some c.num) with
      | none => s.select c .returnIt bay allowance override = .error .nothingOut
      | some own =>
        if own.enabled = true ∧ own.cust.state = .vacant then
          (free own → s.select c .returnIt bay allowance override = .ok ([own.num], 0))
          ∧ (¬ free own → s.select c .returnIt bay allowance override = .error .unitBusy)
        else
          let fits (r : Bay) : Prop := r.enabled = true ∧ r.cust.state = .vacant ∧ r.cust.borrower = none ∧ free r
          ((∀ r ∈ s.bays, ¬ fits r) → s.select c .returnIt bay allowance override = .error .noRoom)
          ∧ (∀ l r l', s.bays = l ++ r :: l' → fits r → (∀ x ∈ l, ¬ fits x) →
            s.select c .returnIt bay allowance override = .ok ([r.num], 0)))
    ∧ (let res := s.select c .service bay allowance override
      let r := s.bay bay
      (r.enabled = false → res = .error .noneReady)
      ∧ (r.enabled = true → ¬ free r → res = .error .unitBusy)
      ∧ (r.enabled = true → free r → s.hasActiveJob bay = true → override = false → res = .error .jobActive)
      ∧ (r.enabled = true → free r → (s.hasActiveJob bay = true → override = true) → res = .ok ([bay], 0)))

/-- RESTORE_CHECKOUT and ACCEPT_FOREIGN by their checks, and what they write in the custody record. The model's choices in it:
logs 12, 20 (a note's unattended flag) and 36 (a VACANT bay stays VACANT, and the unattended flag goes). -/
def Obligations.CheckoutsFollowHub : Prop :=
  ∀ (s : State) (tag : Byte), s.quiet = true → s.listening = true → s.committed = true →
    (∀ p : Bytes, p.length ≤ 512 → p.length < 6 ∨ p.length ≠ 6 + byteAt p 5 → Replies (.restoreCheckout tag p) s 0x54#8 tag [0x03#8] s)
    ∧ (∀ p : Bytes, 6 ≤ p.length → p.length = 6 + byteAt p 5 →
      let b := byteAt p 0
      let num := longAt p 1
      let serial := p.drop 6
      let known := if serial = [] then none else some serial
      let no (body : Bytes) : Prop := Replies (.restoreCheckout tag p) s 0x54#8 tag body s
      if 20 < serial.length ∨ (∃ x ∈ serial, x.toNat < 0x21 ∨ 0x7E < x.toNat) ∨ num = 0 then no [0x04#8]
      else if b = 0 ∨ s.nBays < b then no [0x07#8]
      else match s.cred? num with
        | none => no [0x0B#8]
        | some c =>
          let x := (s.bay b).cust
          if x.state ≠ .vacant ∨ x.borrower ≠ none ∨ x.taken ≠ none ∨ x.inserted = true then no [0x0C#8]
          else if serial ≠ [] ∧ (∃ r ∈ s.bays, r.num ≠ b ∧ r.cust.borrower ≠ none ∧ r.cust.expected = some serial) then no [0x09#8]
          else if c.limit ≤ s.checkouts num + s.pendingAllowance num then no [0x0D#8, 0x06#8]
          else Replies (.restoreCheckout tag p) s 0x54#8 tag [0x00#8] (s.updBay b fun r => { r with
            cust := { r.cust with
              borrower := some num, expected := known, note := some ⟨.restored, some num, known, none, false⟩ } }))
    ∧ (∀ p : Bytes, p.length = 1 → s.names (byteAt p 0) = true →
      let b := byteAt p 0
      if (s.bay b).cust.has .foreign = false then Replies (.acceptForeign tag p) s 0x55#8 tag [0x0C#8] s
      else Replies (.acceptForeign tag p) s 0x55#8 tag [0x00#8] (s.updBay b fun r => { r with
        cust := { r.cust with
          state := if r.cust.state = .reconciling then .stocked else r.cust.state, unattended := false
          alarms := r.cust.alarms &&& 0x17#5, borrower := none, expected := none
          note := some ⟨.accepted, r.cust.borrower, none, none, false⟩ }
        events := r.events ||| 0x80#10 }).lightLamps)

/-- CLEAR_ALARM: MISSING and FOREIGN go from the bay; FORCED and LATCH from every bay of the unit, which goes back to service by
its latch position or its door, and belongs to no release group any more; a kind that is not set, AJAR, or FORCED under an
open door is refused with STATE. The model's choices in it: logs 8, 14 and 24. -/
def Obligations.ClearedAlarmsReturnToService : Prop :=
  ∀ (s : State) (tag : Byte) (p : Bytes) (high : Bool), s.quiet = true → s.listening = true → p.length = 2
    → s.names (byteAt p 0) = true →
    let b := byteAt p 0
    let u := (s.bay b).unit
    let no (body : Bytes) : Prop := Replies (.clearAlarm tag p high) s 0x56#8 tag body s
    let without (a : Alarm) : State :=
      (s.updBay b fun r => { r with cust := { r.cust with alarms := clearBit r.cust.alarms a.bit } }).lightLamps
    match Alarm.ofCode (byteAt p 1) with
    | none => no [0x04#8]
    | some a =>
      if (s.bay b).cust.has a = false ∨ a = .ajar then no [0x0C#8]
      else if a = .missing ∨ a = .foreign then Replies (.clearAlarm tag p high) s 0x56#8 tag [0x00#8] (without a)
      else ∀ r, s.unit? u = some r → s.noMove u →
        if a = .forced ∧ r.doorOpen = true then no [0x0C#8]
        else ∃ t, exec (.clearAlarm tag p high) s = .next t ∧ t.answers 0x56#8 tag [0x00#8]
          ∧ SameCart { s with pins := t.pins, custody := t.custody } t
          ∧ (if a = .latch ∧ r.state ≠ .jammed then t.custody = s.custody
            else t.groupOfUnit u = none ∧ t.custody = { s.custody with groups := s.custody.groups.map fun g =>
              { g with entries := g.entries.map fun e => if e.unit = u then { e with handedBack := true } else e } })
          ∧ t.pins = (if a = .forced then { s.pins with lpos := setPin s.pins.lpos u high } else s.pins)
          ∧ (∀ c, (t.bay c).cust.alarms = if c ∈ r.bays then clearBit (s.bay c).cust.alarms a.bit else (s.bay c).cust.alarms)
          ∧ (a = .forced → ∀ g, s.rankGeo r.rank = some g →
            (g.lposPol.active high = true → ∃ r', t.unit? u = some r' ∧ r'.state = .locked)
            ∧ (g.lposPol.active high = false → t.moving u .lock))
          ∧ (a = .latch → r.state = .jammed →
            (r.doorOpen = true → ∃ r', t.unit? u = some r' ∧ r'.state = .opened ∧ r'.openedAt = some s.now)
            ∧ (r.doorOpen = false → t.moving u .lock))
          ∧ (a = .latch → r.state ≠ .jammed → ∃ r', t.unit? u = some r' ∧ r'.state = r.state)

/-! ## Start-up, bays, bay reset -/

/-- COMMIT_GEOMETRY: its checks, and the cart it creates: bays and units by the geometry and the sampled inputs, sessions on the
bays found PRESENT, the timers, and the first pass. What exists before commit is kept. The model's choices in it: logs 4, 23 and
28. -/
def Obligations.CommitCreatesCart : Prop :=
  ∀ (s : State) (tag : Byte) (inp : Inputs), s.quiet = true → s.listening = true →
    (∀ p : Bytes, p.length ≤ 512 → s.committed = true → Replies (.commitGeometry tag p inp) s 0x05#8 tag [0x06#8] s)
    ∧ (∀ p : Bytes, s.committed = false →
      let ranks := byteAt p 4
      let sized : Prop := if 2 ≤ ranks ∧ ranks ≤ 6 then p.length = 6 + 5 * ranks else 6 ≤ p.length ∧ (p.length - 6) % 5 = 0
      let wrong (k : Nat) : Prop :=
        let e (i : Nat) := byteAt p (6 + 5 * k + i)
        e 0 ∉ [1, 2] ∨ e 1 ∉ [3, 4, 5] ∨ e 2 ∉ [1, 2] ∨ e 3 ∉ [1, 2] ∨ e 4 ∉ [1, 2]
      (¬ sized → p.length ≤ 512 → Replies (.commitGeometry tag p inp) s 0x05#8 tag [0x03#8] s)
      ∧ (sized → p.length ≤ 512 → (ranks ∉ [2, 3, 4, 5, 6] ∨ byteAt p 5 ∉ [1, 2, 3, 4] ∨ ∃ k < ranks, wrong k) →
        Replies (.commitGeometry tag p inp) s 0x05#8 tag [0x04#8] s))
    ∧ (∀ g : Geometry, s.committed = false → g.cartId < 4294967296 → 2 ≤ g.ranks.length → g.ranks.length ≤ 6 → 1 ≤ g.channels
      → g.channels ≤ 4 → (∀ r ∈ g.ranks, 3 ≤ r.maxLevel.num) →
      let p := le4 g.cartId ++ [byteOf g.ranks.length, byteOf g.channels]
        ++ (g.ranks.map fun r => [byteOf r.topology.code, byteOf r.maxLevel.num, byteOf r.presPol.code, byteOf r.doorPol.code,
            byteOf r.lposPol.code]).flatten
      ∃ t, exec (.commitGeometry tag p inp) s = .next t ∧ t.answers 0x05#8 tag [0x00#8]
        ∧ t.alloc.lastPass = some t.now ∧ t.summed ∧ t.alloc.origin = 2 ∧ t.alloc.periodic = some (t.now + 10000)
        ∧ t.geo = some g ∧ t.pins = inp ∧ t.mode = s.mode ∧ t.monitor = s.monitor ∧ t.store = s.store ∧ t.roster = s.roster
        ∧ t.settings = s.settings ∧ t.custody = { s.custody with removals := 0, groups := [] }
        ∧ t.sched = { s.sched with
            queue := [], active := [], scanAt := some (s.now + 1000)
            channels := (List.range g.channels).map fun i => ⟨i + 1, true, .idle⟩ }
        ∧ t.rampAt = some (s.now + 250) ∧ t.cartEvents = 0#3
        ∧ t.bays.map (·.num) = (List.range (6 * g.ranks.length)).map (· + 1)
        ∧ ∀ k r, g.ranks[k]? = some r →
          let unitOf (u : Nat) (bays : List Nat) : Prop :=
            let door := r.doorPol.active (inp.door.getLsbD (u - 1))
            let lock := r.lposPol.active (inp.lpos.getLsbD (u - 1))
            ∃ x, t.unit? u = some x ∧ x.rank = k + 1 ∧ x.bays = bays ∧ x.doorOpen = door ∧ x.doorAt = none ∧ x.posLocked = lock
              ∧ (door = true → x.state = .opened ∧ x.openedAt = some s.now)
              ∧ (door = false → lock = true → x.state = .locked) ∧ (door = false → lock = false → t.moving u .lock)
          (∀ i < 6,
            let b := 6 * k + i + 1
            let here := r.presPol.active (inp.pres.getLsbD (b - 1))
            (t.bay b).num = b ∧ (t.bay b).rank = k + 1
            ∧ (t.bay b).unit = (if r.topology = .bayDoors then b else 6 * k + 1)
            ∧ (t.bay b).enabled = true ∧ (t.bay b).cap = r.maxLevel ∧ (t.bay b).present = here ∧ (t.bay b).presAt = none
            ∧ (t.bay b).cust = Cust.atCommit (if here then .stocked else .vacant)
            ∧ (t.bay b).sess = { Session.off with state := if here then .greeting else .off }
            ∧ (t.bay b).lane = (if here then
                { Lane.down with up := true, act := .sending, flight := some ⟨.hello g.cartId b, .greeting⟩ } else Lane.down)
            ∧ ((t.bay b).stage = Stage.off (s.now + 100)
              ∨ (t.bay b).stage = { Stage.off (s.now + 100) with state := .starting })
            ∧ (t.bay b).lastJob = none ∧ (t.bay b).serve = none ∧ (t.bay b).lastServe = none)
          ∧ (r.topology = .bayDoors → ∀ i < 6, unitOf (6 * k + i + 1) [6 * k + i + 1])
          ∧ (r.topology = .shelfDoor → unitOf (6 * k + 1) ((List.range 6).map fun i => 6 * k + i + 1)))

/-- Every step keeps bays 1 to N, a session on an UP lane in every enabled bay that is PRESENT, and every other bay off; every step
keeps the scheduler's jobs apart: at most 48, one for a bay and a tag, the queued ones without a channel and the active ones
with one; and every step keeps N at most 36 and the store's slots 1 to 8. -/
def Obligations.BaysSoundIsKept : Prop :=
  (∀ s t : State, s.baysSound → step s = .next t → t.baysSound)
    ∧ (∀ s t : State, s.jobsSound → step s = .next t → t.jobsSound)
    ∧ (∀ s t : State, s.nBays ≤ 36 → step s = .next t → t.nBays ≤ 36)
    ∧ ∀ s t : State, s.store.map (·.num) = [1, 2, 3, 4, 5, 6, 7, 8] → step s = .next t →
      t.store.map (·.num) = [1, 2, 3, 4, 5, 6, 7, 8]

/-- SET_BAYS writes every enable flag and cap in one event: a disabled bay's session ends, an enabled PRESENT bay's starts, an
unchanged bay is left alone; caps lowered below a target run one urgent pass, any other change requests a normal one, which behind
that pass is spaced from it unless the scan's admission pass serves it. That N is at most 36 is an invariant (`BaysSoundIsKept`).
The model's choices in it: logs 8 and 32. -/
def Obligations.SetBaysWritesEnablesAndCaps : Prop :=
  ∀ (s : State) (tag : Byte) (p : Bytes), s.quiet = true → s.listening = true → s.committed = true → s.baysSound →
    s.nBays ≤ 36 →
    let n := s.nBays
    let on (b : Nat) : Bool := (byteAt p ((b - 1) / 8)).testBit ((b - 1) % 8)
    let asked (b : Nat) : Option Level := Level.ofNum (byteAt p (4 + b))
    let wrong : Prop := (∃ b, 1 ≤ b ∧ b ≤ n ∧ asked b = none) ∨ ∃ b, n < b ∧ b ≤ 40 ∧ on b = true
    let cap (b : Nat) : Level := ((asked b).getD (s.bay b).cap).min (s.rankMax (s.bay b).rank)
    let caps : List Level := (List.range n).map fun i => cap (i + 1)
    (p.length ≠ 5 + n → p.length ≤ 512 → Replies (.setBays tag p) s 0x06#8 tag [0x03#8] s)
    ∧ (p.length = 5 + n → wrong → Replies (.setBays tag p) s 0x06#8 tag [0x04#8] s)
    ∧ (p.length = 5 + n → ¬ wrong → ∃ t, exec (.setBays tag p) s = .next t
      ∧ t.answers 0x06#8 tag (if (List.range n).all fun i => some (cap (i + 1)) == asked (i + 1) then [0x00#8]
          else 0x0E#8 :: byteOf n :: caps.map fun l => byteOf l.num)
      ∧ (∀ b, 1 ≤ b → b ≤ n →
        (t.bay b).cap = cap b ∧ (t.bay b).enabled = on b ∧ (t.bay b).present = (s.bay b).present
        ∧ (t.bay b).cust = (s.bay b).cust
        ∧ ((s.bay b).enabled = on b → SameBay { s.bay b with cap := cap b } (t.bay b))
        ∧ ((s.bay b).enabled = true → on b = false → SessionEnded s t b ∧ (t.bay b).stage.trips = (s.bay b).stage.trips
          ∧ ∀ j, s.onlyJob j → j.bay = b →
            t.jobOf b = none ∧ (t.bay b).lastJob = some ⟨j.tag, j.image, false, .bayDisabled⟩)
        ∧ ((s.bay b).enabled = false → on b = true → (s.bay b).present = true → SessionStarted s t b)
        ∧ ((s.bay b).enabled = false → on b = true → (s.bay b).present = false →
          SameBay { s.bay b with cap := cap b, enabled := true } (t.bay b)))
      ∧ (∀ k x, s.slot? k = some x → t.slot? k = some { x with serves := x.serves - ((List.range n).filter fun i =>
          (s.bay (i + 1)).enabled && !on (i + 1) && ((s.bay (i + 1)).serve.any fun v => v.slot == k)).length })
      ∧ (let below (b : Nat) : Prop := ((s.bay b).enabled = true → on b = true)
            ∧ (cap b).num < (s.bay b).cap.num ∧ (cap b).power < (s.bay b).power.target
        let lowered : Prop := ∃ b, 1 ≤ b ∧ b ≤ n ∧ below b
        (lowered → s.passedTo t
          ∧ ((∃ b, 1 ≤ b ∧ b ≤ n ∧ cap b ≠ (s.bay b).cap ∧ ¬ below b) →
            t.alloc.scheduled = some (t.now + 100) ∨ ∃ m b, t.alloc.summary = some m ∧ m.kind = .admission b))
        ∧ (¬ lowered → (∃ b, 1 ≤ b ∧ b ≤ n ∧ (cap b ≠ (s.bay b).cap ∨ on b ≠ (s.bay b).enabled)) → s.normalTaken t)))

/-- RESET_BAY starts a bay over in one event, runs an urgent pass and clears the bay's flags; custody, alarms, units and their
moves, groups, the enable flag, the cap and every other bay are left alone. The model's choices in it: log 21. -/
def Obligations.BayResetStartsBayOver : Prop :=
  ∀ (s : State) (tag : Byte) (p : Bytes), s.quiet = true → s.listening = true → p.length = 1 → s.names (byteAt p 0) = true →
    let b := byteAt p 0
    let r := s.bay b
    ∃ t, exec (.resetBay tag p) s = .next t ∧ t.answers 0x04#8 tag [0x00#8] ∧ s.passedTo t
      ∧ (t.bay b).sess = (if r.enabled && r.present then
          { Session.off with state := .breakWait, ability := r.sess.ability, breakAt := some (s.now + 800) } else Session.off)
      ∧ (t.bay b).lane.flight = none ∧ (t.bay b).lane.up = (r.lane.up && r.enabled && r.present)
      ∧ (t.bay b).lane.greeting = none ∧ (t.bay b).lane.stop = none ∧ (t.bay b).lane.job = none
      ∧ (t.bay b).lane.pollDue = false ∧ (t.bay b).lane.ident = none ∧ (t.bay b).lane.serve = none
      ∧ (t.bay b).lane.hubDefer = false ∧ (t.bay b).lane.hubRefuse = false ∧ (t.bay b).lane.autoDefer = false
      ∧ (t.bay b).stage.trips = [] ∧ (t.bay b).stage.cap = none ∧ (t.bay b).stage.volts = 5
      ∧ (t.bay b).stage.state ≠ .tripped ∧ (t.bay b).stage.state ≠ .faulted
      ∧ (r.stage.state = .tripped → (t.bay b).stage.coolAt = none)
      ∧ ServeAbandoned s t b ∧ t.store = (s.serveOver b .abandoned).store ∧ (t.bay b).events = 0#10
      ∧ (t.bay b).enabled = r.enabled ∧ (t.bay b).cap = r.cap ∧ (t.bay b).present = r.present
      ∧ (t.bay b).presAt = r.presAt ∧ (t.bay b).cust = r.cust
      ∧ (∀ j, s.onlyJob j → j.bay = b →
          t.jobOf b = none ∧ (t.bay b).lastJob = some ⟨j.tag, j.image, false, .bayReset⟩)
      ∧ (∀ c, c ≠ b → SameBay (s.bay c) (t.bay c))
      ∧ t.latch = s.latch ∧ SameCart { s with store := t.store } t

/-! ## Lanes -/

/-- The lane's steps: the end of a call opens the answer window; a retry or a due wake attempt sends the call again with a POLL
rebuilt, but no wake attempt starts once the wake window has ended; the WAKE pattern's end opens the wake window with a POLL;
the end of QUIET frees the line for the first call in R29's order. Events the lane's activity rules out change nothing. The
model's choices in it: logs 2 and 15. -/
def Obligations.LaneStepsFollowLine : Prop :=
  ∀ (s : State) (b : Nat), s.quiet = true →
    let l := (s.bay b).lane
    let at_ := s.reach l.dueAt
    (s.laneIs b .sending = true →
      Leaves (.callSent b) s (s.updLane b fun l => { l with act := .listening, callEnd := s.now }))
    ∧ (s.laneIs b .sending = false → exec (.callSent b) s = .next s ∧ exec (.clash b) s = .next s)
    ∧ (s.laneIs b .listening = false → ∀ f p, exec (.noAnswer b) s = .next s ∧ exec (.answerIncomplete b) s = .next s
        ∧ exec (.answerByteFault b f) s = .next s ∧ exec (.ability b p) s = .next s ∧ exec (.status b p) s = .next s)
    ∧ (∀ f, s.laneIs b .spacing = true → l.flight = some f →
      let poll : Call :=
        .poll (askReply (s.bay b).sess.ask l.hubRefuse l.hubDefer l.autoDefer) (s.bay b).stage.applied (s.pollTag b)
      let call : Call := match f.call with
        | .poll _ _ _ => poll
        | c => c
      let again : State := at_.updLane b fun l => { l with act := .sending, flight := some ⟨call, f.plan⟩ }
      (f.plan ≠ .wake → Leaves (.retry b) s again)
      ∧ (∀ w, f.plan = .wake → l.wakeAt = some w →
        if at_.now < w + 2000 then Leaves (.wakeAttemptDue b) s again else Leaves (.wakeAttemptDue b) s at_))
    ∧ (s.laneIs b .wakePulse = true →
      Leaves (.wakePulseEnd b) s (at_.updLane b fun l => { l with
        wakeAt := some at_.now, attempts := 0, act := .sending, flight := some ⟨s.buildPoll b, .wake⟩ }))
    ∧ (s.laneIs b .quiet = true → l.flight = none → (s.bays.map (·.num)).Nodup →
      let send (l : Lane) (c : Call) (p : Plan) : Lane := { l with flight := some ⟨c, p⟩, attempts := 0, act := .sending }
      let idle : Lane := { l with act := .idle }
      let first : Lane :=
        match l.greeting, l.stop, l.job, l.pollDue, l.ident, l.serve with
        | some f, _, _, _, _, _ => send { l with greeting := none } f.call f.plan
        | none, some c, _, _, _, _ => send { l with stop := none } c .ordinary
        | none, none, some c, _, _, _ => send { l with job := none } c .ordinary
        | none, none, none, true, _, _ => send { l with pollDue := false } (s.buildPoll b) .ordinary
        | none, none, none, false, some c, _ => send { l with ident := none } c .ordinary
        | none, none, none, false, none, some c => send { l with serve := none } c .ordinary
        | none, none, none, false, none, none => idle
      let after : Lane :=
        if (s.bay b).sess.state = .off ∨ (s.bay b).sess.state = .asleep then idle
        else if (s.bay b).sess.state = .waking then
          if l.wakeAsked then { l with wakeAsked := false, act := .wakePulse, dueAt := at_.now + 20 } else idle
        else first
      Leaves (.quietEnd b) s (at_.updLane b fun _ => after))

/-- The ask reply a POLL carries, by the row of R33's table for the bay's state when the attempt is built, the first or a later
one. The model's choices in it: log 2. -/
def Obligations.PollCarriesAskReply : Prop :=
  ∀ (s : State) (b : Nat),
    let x := (s.bay b).sess
    let l := (s.bay b).lane
    (∃ reply, s.buildPoll b = .poll reply (s.bay b).stage.applied (s.pollTag b)
      ∧ (x.ask = none → reply = none)
      ∧ ∀ a, x.ask = some a →
        (l.hubRefuse = true → reply = some .refuse)
        ∧ (l.hubRefuse = false → l.hubDefer = true ∨ l.autoDefer = true → reply = some .hold)
        ∧ (l.hubRefuse = false → l.hubDefer = false → l.autoDefer = false → reply = some a.reply))
    ∧ (∀ reply applied tag, s.quiet = true → s.laneIs b .spacing = true
      → l.flight = some ⟨.poll reply applied tag, .ordinary⟩ →
      Leaves (.retry b) s ((s.reach l.dueAt).updLane b fun l => { l with
        act := .sending, flight := some ⟨s.buildPoll b, .ordinary⟩ }))

/-- A failed attempt that is not its call's last raises the count and spaces the next: 20 ms under the ordinary plan, 200 ms
under the greeting plan, at its start time under the wake plan, or at once if that has come. An answer that comes after the 15
ms of its window fails the attempt as SHORT (`judged?`). The model's choices in it: logs 2 and 16. -/
def Obligations.FailedAttemptIsSpaced : Prop :=
  ∀ (s u : State) (c : Instr) (b : Nat) (k : FailKind) (f : Flight), s.quiet = true → s.judged? c = some (b, k, u)
    → (s.bay b).lane.flight = some f →
    let n := (s.bay b).lane.attempts + 1
    let spaced (due : Nat) : State := u.updLane b fun l => { l with
      attempts := n, lastFail := some k, act := .spacing, dueAt := due }
    (f.plan = .ordinary → n < 3 → Leaves c s (spaced (u.now + 20)))
    ∧ (f.plan = .greeting → n < 3 → Leaves c s (spaced (u.now + 200)))
    ∧ (∀ w, f.plan = .wake → (s.bay b).lane.wakeAt = some w → n < 8 → u.now < w + 2000 →
        if u.now < w + 250 * n then Leaves c s (spaced (w + 250 * n))
        else Leaves c s (u.updLane b fun l => { l with
          attempts := n, lastFail := some k, act := .sending, flight := some (s.rebuild b f) }))

/-- A failed call leaves flight and tells the session: a greeting falls back, a contracting or contracted session is LOST and
restarts, a fallback waits for its timer, and a wake fails with its window; an attempt running at the window's end is still
judged. That no bay number stands twice is an invariant (`BaysSoundIsKept`). The model's choices in it: logs 2, 16, 17 and 20. -/
def Obligations.FailedCallMovesSession : Prop :=
  ∀ (s : State) (b : Nat), s.quiet = true → s.committed = true → (s.bays.map (·.num)).Nodup →
    (∀ (u : State) (c : Instr) (k : FailKind) (f : Flight), s.judged? c = some (b, k, u) → (s.bay b).lane.flight = some f →
      let l := (s.bay b).lane
      let n := l.attempts + 1
      let x := (s.bay b).sess
      let windowOver : Prop := ∀ w, l.wakeAt = some w → w + 2000 ≤ u.now
      let atEnd : Prop := match f.plan with
        | .ordinary => 3 ≤ n
        | .greeting => 3 ≤ n
        | .fallback => True
        | .wake => 8 ≤ n ∨ windowOver
      atEnd →
      let g := u.callGone b n k
      let bare : Prop := l.greeting = none ∧ l.stop = none ∧ l.job = none ∧ l.pollDue = false ∧ l.ident = none ∧ l.serve = none
      (x.state = .greeting → ∃ t, exec c s = .next t ∧ FallbackEntered g t b)
      ∧ (x.state = .confirming ∨ x.state = .identifying ∨ x.state = .contracted →
        let m := min 3 (x.restarts + 1)
        ∃ t, exec c s = .next t ∧ (t.bay b).events.getLsbD 1 = true
          ∧ (m = 3 → FallbackEntered (g.updSess b fun x => { x with restarts := m }) t b)
          ∧ (m ≠ 3 → BreakEntered (g.updSess b fun x => { x with restarts := m }) t b)
          ∧ ∀ j, s.onlyJob j → j.bay = b →
            t.jobOf b = none ∧ (t.bay b).lastJob = some ⟨j.tag, j.image, false, .laneLost⟩)
      ∧ (x.state = .fallback → bare → Leaves c s g)
      ∧ (x.state = .waking → l.wakeAsked = false → ¬ windowOver → Leaves c s g)
      ∧ (x.state = .waking → windowOver → WakeLost c s g b))
    ∧ (∀ w, s.resetN = true → (s.bay b).sess.state = .waking → (s.bay b).lane.wakeAt = some w →
      let at_ := s.reach (w + 2000)
      let l := (s.bay b).lane
      (l.flight = none → WakeLost (.wakeWindowEnd b) s at_ b)
      ∧ (l.flight.isSome = true → l.act = .sending ∨ l.act = .listening → Leaves (.wakeWindowEnd b) s at_)
      ∧ (l.flight.isSome = true → l.act = .spacing →
        WakeLost (.wakeWindowEnd b) s (at_.updLane b fun l => { l with flight := none, act := .idle }) b))

/-! ## Answers -/

/-- A judged ABILITY moves a greeting or fallback session by its handshake: to CONFIRMING with the highest level both sides
allow, past it where a level is forced, to a hold, or to FALLBACK; a CONFIRM answer that repeats the proposal puts it in force,
any other restarts the session. That no slot number stands twice is an invariant (`BaysSoundIsKept`). The model's choices in it:
logs 8, 16, 20, 35, 39 (of the ack byte bit 0 is read) and 40 (the layout of the answers). -/
def Obligations.NegotiationFollowsAnswers : Prop :=
  ∀ (s : State) (b : Nat) (p : Bytes), s.quiet = true → s.committed = true → (s.store.map (·.num)).Nodup → s.hears b = true →
    let u := s.callDone b
    let x := (s.bay b).sess
    let h := byteAt p 0
    let goesOn (c : Instr) (v : State) (ident : Bool) : Prop := ∃ t, exec c s = .next t
      ∧ (t.bay b).stage.volts = (t.bay b).sess.volts
      ∧ (ident = true → IdentityAsked v t b) ∧ (ident = false → SessionContracted v t b x.identity none ∧ (t.bay b).lane.greeting = none)
    (∀ cart n plan, (s.bay b).lane.flight = some ⟨.hello cart n, plan⟩ → p.length = 5 →
      let a : Ability := ⟨BitVec.ofNat 4 (byteAt p 3), BitVec.ofNat 3 (byteAt p 4)⟩
      (h = 1 → x.state = .greeting ∨ x.state = .fallback →
        (x.forced = none →
          let offered := ((s.rankMax (s.bay b).rank).min (s.bay b).cap).maskUpTo &&& a.mask
          let level := highestLevel offered
          ∃ t, exec (.ability b p) s = .next t
            ∧ (t.bay b).sess = { x with
                state := .confirming, ability := some a, holds := 0, greetAt := none, fallAt := none, contract := none
                proposal := some ⟨level, if offered = 0#4 then .base else .negotiated, offered, some a.mask⟩ }
            ∧ SameLane { (u.bay b).lane with greeting := some ⟨.confirm level offered a.mask, .ordinary⟩ } (t.bay b).lane
            ∧ (t.bay b).stage.volts = 5 ∧ (25 < x.ceiling → s.passedTo t)
            ∧ (∀ c, c ≠ b → SameBay (s.bay c) (t.bay c)) ∧ SameCart s t)
        ∧ (∀ l, x.forced = some l → goesOn (.ability b p)
          (u.updSess b fun x => { x with
            ability := some a, holds := 0, greetAt := none, fallAt := none, proposal := none
            contract := some ⟨l, .forced, 0#4, some a.mask⟩ }) (a.features.getLsbD 0)))
      ∧ (h = 2 → x.state = .greeting →
        (x.holds + 1 < 3 → Leaves (.ability b p) s (u.updSess b fun y => { y with
          holds := x.holds + 1, greetAt := some (s.now + 200) }))
        ∧ (3 ≤ x.holds + 1 → ∃ t, exec (.ability b p) s = .next t
          ∧ FallbackEntered (u.updSess b fun y => { y with holds := x.holds + 1 }) t b))
      ∧ (h ≠ 1 → h ≠ 2 → x.state = .greeting → ∃ t, exec (.ability b p) s = .next t ∧ FallbackEntered u t b)
      ∧ (h ≠ 1 → x.state = .fallback → Leaves (.ability b p) s u))
    ∧ (∀ level offered tablet plan c, (s.bay b).lane.flight = some ⟨.confirm level offered tablet, plan⟩ → p.length = 4
      → x.state = .confirming → x.proposal = some c →
      let confirmed : Prop := h = 1 ∧ byteAt p 1 = c.level.num ∧ c.tablet = some (BitVec.ofNat 4 (byteAt p 2))
        ∧ byteAt p 3 % 2 = 1
      let m := min 3 (x.restarts + 1)
      (confirmed → goesOn (.confirmAnswer b p)
        (u.updSess b fun x => { x with contract := some c, proposal := none, greetAt := none, fallAt := none })
        (x.ability.any fun a => a.features.getLsbD 0))
      ∧ (¬ confirmed → ∃ t, exec (.confirmAnswer b p) s = .next t
        ∧ (m = 3 → FallbackEntered (u.updSess b fun y => { y with restarts := m }) t b)
        ∧ (m ≠ 3 → BreakEntered (u.updSess b fun y => { y with restarts := m }) t b)))

/-- A judged STATUS is recorded, with the passes its heat cap, SoC class and charge state call for and its progress; then its
ask and its attention flags act: a new ask replaces the one that stands and is decided by its owner, or waits with ASK posted
while a hub flag is set; a STATUS without an ask withdraws it, and its serve with it. RECEIPT_READY, RENEGOTIATE, IDENT_CHANGED and
SLEEPING then act, with no ask, one withdrawn or one that stands and is served: a restart or a new identity read ends the serve as
ABANDONED, the read holding its ask. In WAKING a STATUS ends the wake with success. That no slot number stands twice is an
invariant (`BaysSoundIsKept`). The model's choices in it: logs 13, 16, 20, 37 and 40 (the layout and the bits of a STATUS). -/
def Obligations.StatusIsRecordedAndActedOn : Prop :=
  ∀ (s : State) (b : Nat) (p : Bytes) (reply : Option Reply) (applied tag : Nat) (plan : Plan), s.quiet = true
    → s.committed = true → (s.store.map (·.num)).Nodup → s.hears b = true → (s.bay b).lane.flight = some ⟨.poll reply applied tag, plan⟩
    → p.length = 10 →
    let x := (s.bay b).sess
    let st : Status := ⟨if byteAt p 1 = 255 then none else some (min (byteAt p 1) 100), Charge.ofCode (byteAt p 2),
      (p.getD 3 0#8).toInt, BitVec.ofNat 5 (byteAt p 4), min 1000 (wordAt p 8)⟩
    let v := (s.callDone b).updSess b fun x => { x with status := some st }
    let m := min 3 (x.restarts + 1)
    let same : Prop := heatLimit x.status = heatLimit (some st)
      ∧ socClass s.alloc.low s.alloc.ready x.status = socClass s.alloc.low s.alloc.ready (some st)
      ∧ ∀ o, x.status = some o → o.charge = st.charge
    let takes (P : State → Prop) : Prop := ∃ t, exec (.status b p) s = .next t ∧ P t
    let woken (u : State) : State := u.updBay b fun r => { r with
      sess := { r.sess with failedWakes := 0, wakeFailed := false }, lane := { r.lane with wakeAt := none } }
    let asked : Option (AskKind × Nat) :=
      if st.attention.getLsbD 1 then (AskKind.ofCode (byteAt p 5)).map fun k => (k, wordAt p 6) else none
    let noAsk (u : State) : State := u.updBay b fun r => { r with
      sess := { r.sess with ask := none }, lane := { r.lane with autoDefer := false } }
    let standing : Prop := asked = none ∨ ∃ a, x.ask = some a ∧ asked = some (a.kind, a.id)
    let told : State := if asked.isNone && x.ask.isSome then noAsk (v.serveOver b .withdrawn) else v
    (x.state = .contracted → st.attention = 0#5 ∨ st.attention = 2#5 →
      (∀ a, x.ask = some a → asked = none → takes fun t => SameBut (noAsk (v.serveOver b .withdrawn)) t)
      ∧ (∀ a, x.ask = some a → asked = some (a.kind, a.id) → takes fun t => SameBut v t)
      ∧ (∀ k id, asked = some (k, id) → (∀ a, x.ask = some a → a.kind ≠ k ∨ a.id ≠ id) →
        let ask : Ask := ⟨k, id, .hold, false⟩
        let w := (noAsk (v.serveOver b .withdrawn)).updSess b fun x => { x with ask := some ask }
        takes fun t => if (s.bay b).lane.hubDefer = true ∨ (s.bay b).lane.hubRefuse = true then
            SameBut (w.updBay b fun r => { r with events := r.events ||| 0x10#10 }) t
          else AskDecided w t b ask))
    ∧ (x.ask = none → x.state = .contracted → st.attention = 0#5 → takes fun t => SameBut v t
      ∧ (heatLimit (some st) < heatLimit x.status → s.passedTo t)
      ∧ (¬ same → heatLimit x.status ≤ heatLimit (some st) → s.normalTaken t)
      ∧ (same → t.alloc = s.alloc ∧ t.jobOf b = (s.jobOf b).map fun j =>
          if j.state = .running then
            if j.baseline.all fun base => decide (base < st.progress) then
              { j with progress := st.progress, baseline := some st.progress, stallAt := some (s.now + 30000) }
            else { j with progress := st.progress }
          else j)
      ∧ (same → s.jobOf b = none → t.sameButOutput v.lightLamps))
    ∧ (x.state = .contracted → standing →
      (st.attention = 16#5 ∨ st.attention = 18#5 → takes fun t =>
        if s.hasActiveJob b = true ∨ (told.bay b).serve.isSome = true then SameBut told t
        else SameBut (told.updBay b fun r => { r with
          sess := { r.sess with
            state := .asleep, pollAt := none, refreshAt := if x.wakeFailed then none else some (s.now + 300000) }
          lane := { r.lane with pollDue := false } }) t)
      ∧ (st.attention.getLsbD 3 = true → st.attention.getLsbD 2 = false → takes fun t =>
        (m = 3 → FallbackEntered (told.updSess b fun y => { y with restarts := m }) t b)
        ∧ (m ≠ 3 → BreakEntered (told.updSess b fun y => { y with restarts := m }) t b))
      ∧ (st.attention.getLsbD 3 = false → st.attention.getLsbD 2 = false → st.attention.getLsbD 0 = true →
        let served := (told.bay b).serve.isSome
        let held : State := if served then (told.serveOver b .abandoned).updSess b fun y => { y with
            ask := y.ask.map fun a => { a with reply := .hold, decided := false } }
          else told
        let w := held.updBay b fun r => { r with
          sess := { r.sess with proposal := none, greetAt := none, fallAt := none }, lane := { r.lane with pollDue := false } }
        takes fun t => (t.bay b).lastServe = (held.bay b).lastServe ∧ (served = true → (t.bay b).events.getLsbD 5 = true)
          ∧ if (x.ability.any fun a => a.features.getLsbD 0) = true then IdentityAsked w t b ∧ (t.bay b).serve = none
            else SessionContracted w t b x.identity none)
      ∧ (∀ j, st.attention = 4#5 ∨ st.attention = 6#5 → s.jobOf b = some j → j.state = .running → same → takes fun t =>
        (t.bay b).lane.job = some (.receiptRead j.tag) ∧ (t.bay b).sess = (told.bay b).sess ∧ t.store = told.store
        ∧ (t.bay b).serve = (told.bay b).serve
        ∧ (t.jobOf b).map (fun j => (j.tag, j.state, j.stallAt, j.limitAt)) = some (j.tag, .receipt, none, none)))
    ∧ (x.ask = none → x.state = .waking → x.hubRestart = false → st.attention = 0#5 → takes fun t =>
      (t.bay b).sess = { x with
        state := .contracted, status := some st, failedWakes := 0, wakeFailed := false, restarts := 0, readBuf := none
        pollAt := some (s.now + 1000) }
      ∧ (t.bay b).lane.wakeAt = none ∧ (t.bay b).events.getLsbD 0 = true
      ∧ (∀ c, c ≠ b → SameBay (s.bay c) (t.bay c)) ∧ SameCart s t)
    ∧ (x.state = .waking → x.hubRestart = true → takes fun t => BreakEntered (woken v) t b)

/-- An identity answer at the offset held extends the read or ends it: a record that passes its checks becomes the identity,
any other outcome is identity absent; IDENTITY is posted
exactly where the outcome differs from the identity held before the read; custody reconciles the bay with it, and an outdated tablet's job is queued. Bytes pass those
checks exactly where they are the layout of an identity whose fields lie in their ranges, its check byte last (R49; section 11.4):
they give that identity, and any other bytes give none. That no slot number stands twice is an invariant (`BaysSoundIsKept`). The
model's choices in it: logs 13, 16, 20 (a note's unattended flag) and 40. -/
def Obligations.IdentityIsRead : Prop :=
  (∀ (s : State) (b : Nat) (p : Bytes) (offset : Nat) (plan : Plan), s.quiet = true → (s.store.map (·.num)).Nodup
    → s.hears b = true → (s.bay b).lane.flight = some ⟨.identRead offset, plan⟩ → 2 ≤ p.length → p.length ≤ 50 →
    let u := s.callDone b
    let x := (s.bay b).sess
    let total := wordAt p 0
    let data := p.drop 2
    (x.state ≠ .identifying → Leaves (.identityChunk b p) s u)
    ∧ ∀ rb, x.state = .identifying → x.readBuf = some rb →
      let held := rb.bytes ++ data
      let right : Prop := 18 ≤ total ∧ total ≤ 56 ∧ (∀ n, rb.total = some n → n = total) ∧ data.length = min 48 (total - offset)
      (offset ≠ rb.bytes.length → Leaves (.identityChunk b p) s u)
      ∧ (offset = rb.bytes.length → right → held.length < total → Leaves (.identityChunk b p) s (u.updBay b fun r => { r with
          sess := { r.sess with readBuf := some ⟨some total, held, rb.before⟩ }
          lane := { r.lane with ident := some (.identRead held.length) } }))
      ∧ (offset = rb.bytes.length → right → total ≤ held.length →
        ∃ t, exec (.identityChunk b p) s = .next t ∧ SessionContracted u t b rb.before (parseIdentity held))
      ∧ (offset = rb.bytes.length → ¬ right →
        ∃ t, exec (.identityChunk b p) s = .next t ∧ SessionContracted u t b rb.before none))
  ∧ ∀ (bytes : Bytes) (i : Identity),
    let printed (cs : Bytes) : Prop := ∀ c ∈ cs, 0x21 ≤ c.toNat ∧ c.toNat ≤ 0x7E
    let inRange : Prop := 1 ≤ i.serial.length ∧ i.serial.length ≤ 20 ∧ printed i.serial
      ∧ (∀ a, i.asset = some a → 1 ≤ a.length ∧ a.length ≤ 16 ∧ printed a)
      ∧ i.model < 65536 ∧ i.agent < 65536 ∧ i.image < 65536 ∧ i.version < 4294967296 ∧ i.capacity < 65536
      ∧ (∀ e, i.enrolled = some e → e.1 < 256 ∧ e.2 < 65536)
    let layout : Bytes := [0x01#8, byteOf i.serial.length] ++ i.serial ++ le2 i.model ++ le2 i.agent ++ le2 i.image ++ le4 i.version
      ++ le2 i.capacity ++ [byteOf (i.asset.getD []).length] ++ i.asset.getD []
      ++ (match i.enrolled with
        | none => [0x00#8]
        | some e => [0x01#8, byteOf e.1] ++ le2 e.2)
    i.record = layout ++ [crc8 layout] ∧ (parseIdentity bytes = some i ↔ inRange ∧ bytes = layout ++ [crc8 layout])

/-- A CHUNK handshake for the chunk that stands moves its serve: to the next chunk or COMPLETE, to a re-send or HELD_OUT, or to
DECLINED; the end releases the slot and settles the ask. Any other is discarded, as is one on a bay without a serve. The re-send
timer posts the chunk again. The model's choices in it: logs 2, 8 and 16. -/
def Obligations.ServeFollowsHandshakes : Prop :=
  (∀ (s : State) (b : Nat) (id offset : Nat) (last : Bool) (data p : Bytes) (plan : Plan), s.quiet = true → s.hears b = true
    → (s.bay b).serve = none → (s.bay b).lane.flight = some ⟨.chunk id offset last data, plan⟩ → p.length = 1 →
    Leaves (.chunkHandshake b p) s (s.callDone b))
  ∧ ∀ (s : State) (b : Nat) (v : Serve) (k : Slot), s.quiet = true → (s.bay b).serve = some v → s.slot? v.slot = some k
    → (s.bays.map (·.num)).Nodup → (s.bay b).sess.state = .contracted →
    let chunk (off rem : Nat) : Call := .chunk k.id off (decide (rem ≤ 48)) ((k.content.drop off).take (min 48 rem))
    (∀ (id offset : Nat) (last : Bool) (data p : Bytes) (plan : Plan), s.hears b = true
      → (s.bay b).lane.flight = some ⟨.chunk id offset last data, plan⟩ → p.length = 1 →
      let u := s.callDone b
      let n := min 48 v.remaining
      let set (w : Serve) : State := u.updBay b fun r => { r with serve := some w }
      let ended (o : ServeEnd) (off : Nat) : State := (u.updSlot v.slot fun q => { q with serves := q.serves - 1 }).updBay b fun r =>
        { r with
          serve := none, lastServe := some ⟨k.id, k.version, o, off⟩, events := r.events ||| 0x20#10
          lane := { r.lane with serve := none } }
      let refused (w : State) : State := w.updSess b fun x => { x with
        ask := x.ask.map fun a => { a with reply := .refuse, decided := true } }
      (k.id ≠ id ∨ v.offset ≠ offset → Leaves (.chunkHandshake b p) s u)
      ∧ (k.id = id → v.offset = offset →
        (byteAt p 0 = 1 → n < v.remaining → Leaves (.chunkHandshake b p) s
          ((set { v with offset := v.offset + n, remaining := v.remaining - n, holds := 0, resendAt := none }).updLane b fun l =>
            { l with serve := some (chunk (v.offset + n) (v.remaining - n)) }))
        ∧ (byteAt p 0 = 1 → v.remaining ≤ n → Leaves (.chunkHandshake b p) s
          ((ended .complete (v.offset + n)).updBay b fun r => { r with
            sess := { r.sess with ask := none }, lane := { r.lane with autoDefer := false } }))
        ∧ (byteAt p 0 = 2 → v.holds + 1 < 10 → Leaves (.chunkHandshake b p) s
          (set { v with holds := v.holds + 1, resendAt := some (s.now + 100) }))
        ∧ (byteAt p 0 = 2 → 10 ≤ v.holds + 1 → Leaves (.chunkHandshake b p) s (refused (ended .heldOut v.offset)))
        ∧ (byteAt p 0 ≠ 1 → byteAt p 0 ≠ 2 → Leaves (.chunkHandshake b p) s (refused (ended .declined v.offset)))))
    ∧ (∀ d, s.resetN = true → v.resendAt = some d →
      Leaves (.chunkResendExpiry b) s
        (((s.reach d).updBay b fun r => { r with serve := some { v with resendAt := none } }).posted b
          (chunk v.offset v.remaining) .ordinary fun l => { l with serve := some (chunk v.offset v.remaining) }))

/-- An ENVELOPE handshake or a receipt for the bay's job moves it: RUNNING with no ENVELOPE of it left waiting, held, or ended with
its reason; one for another tag or another job state is discarded, and so is every PAUSE or ABORT handshake. The model's choices
in it: logs 8, 16 and 40 (the layout of a receipt). -/
def Obligations.JobFollowsHandshakes : Prop :=
  ∀ (s : State) (b : Nat) (p : Bytes) (f : Flight), s.quiet = true → s.committed = true → s.hears b = true
    → (s.bay b).lane.flight = some f →
    let u := s.callDone b
    let upd (j : Job) (g : Job → Job) : State := { u with sched := { u.sched with
      queue := u.sched.queue.map fun x => if x.tag = j.tag then g x else x
      active := u.sched.active.map fun x => if x.tag = j.tag then g x else x } }
    let ends (c : Instr) (v : State) (j : Job) (done : Bool) (why : JobReason) (tell : Bool) : Prop :=
      ∃ t, exec c s = .next t ∧ JobEnded v t j done why tell
    (∀ tag image version size channel resume, f.call = .envelope tag image version size channel resume → p.length = 1 →
      let c := Instr.envelopeHandshake b p
      ((∀ j, s.jobOf b = some j → j.tag ≠ tag ∨ j.state ≠ .offered) → Leaves c s u)
      ∧ ∀ j, s.jobOf b = some j → j.tag = tag → j.state = .offered →
        (byteAt p 0 = 1 → Leaves c s ((upd j fun j' => { j' with
          state := .running, baseline := none, stallAt := some (s.now + 30000), settleAt := none, resendAt := none
          limitAt := some (s.now + (((s.image? j.image).map (·.minutes)).getD 0) * 60000) }).updLane b fun l => { l with
            job := if l.job.any (·.isJobCall tag) then none else l.job }).lightLamps)
        ∧ (byteAt p 0 = 2 → j.holds + 1 < 5 → Leaves c s (upd j fun j' => { j' with
          holds := j'.holds + 1, resendAt := some (s.now + 2000) }))
        ∧ (byteAt p 0 = 2 → 5 ≤ j.holds + 1 → ends c u j false .tabletBusy true)
        ∧ (byteAt p 0 ≠ 1 → byteAt p 0 ≠ 2 → ends c u j false .refused false))
    ∧ (∀ tag, p.length = 1 → (f.call = .pause tag → Leaves (.stopHandshake b .pause p) s u)
      ∧ (f.call = .abort tag → Leaves (.stopHandshake b .abort p) s u))
    ∧ (∀ tag, f.call = .receiptRead tag → p.length = 11 →
      let c := Instr.receipt b p
      ((∀ j, s.jobOf b = some j → j.tag ≠ tag ∨ j.state ≠ .receipt) → Leaves c s u)
      ∧ ∀ j, s.jobOf b = some j → j.tag = tag → j.state = .receipt →
        let installed := u.updBay b fun r => { r with
          sess := { r.sess with identity := r.sess.identity.map fun i => { i with version := longAt p 3 } }
          events := if (s.bay b).sess.identity.isSome then r.events ||| 0x04#10 else r.events }
        if wordAt p 0 ≠ j.tag then ends c u j false .rejected false
        else if byteAt p 2 = 1 then ends c installed j true .ok false
        else if byteAt p 2 = 2 then ends c u j false .corrupt false
        else if byteAt p 2 = 3 then ends c u j false .noSpace false
        else ends c u j false .rejected false)

/-! ## Presence and session timers -/

/-- A level that differs from the debounced presence or door value starts its timer, 200 ms or 50 ms, unless it runs; a level
that matches cancels it; a number no bay or unit has changes nothing. The model's choices in it: logs 4 and 31. -/
def Obligations.LevelChangesAreDebounced : Prop :=
  ∀ (s : State) (n : Nat) (high : Bool), s.quiet = true → s.resetN = true →
    (s.bay? n = none → exec (.presenceChange n high) s = .next s)
    ∧ (∀ r g, s.bay? n = some r → s.rankGeo r.rank = some g →
      Leaves (.presenceChange n high) s
        (({ s with pins := { s.pins with pres := setPin s.pins.pres n high } }).updBay n fun r => { r with
          presAt := if g.presPol.active high = r.present then none else some (r.presAt.getD (s.now + 200)) }))
    ∧ (s.unit? n = none → exec (.doorChange n high) s = .next s)
    ∧ (∀ r g, s.unit? n = some r → s.rankGeo r.rank = some g →
      Leaves (.doorChange n high) s
        (({ s with pins := { s.pins with door := setPin s.pins.door n high } }).updUnit n fun r => { r with
          doorAt := if g.doorPol.active high = r.doorOpen then none else some (r.doorAt.getD (s.now + 50)) }))

/-- A debounced removal ends the bay's session, job, serve and grant, a debounced insertion starts a session in an enabled bay,
and custody handles both by the bay's state, inside an open period and outside one. The model's choices in it: logs 2, 19 and
20. -/
def Obligations.RemovalAndInsertionMoveBay : Prop :=
  ∀ (s : State) (b d : Nat), s.quiet = true → s.resetN = true → s.committed = true → s.baysSound → s.names b = true
    → (s.bay b).presAt = some d →
    let u := s.reach d
    let r := s.bay b
    let x := r.cust
    let inPeriod : Bool := s.inOpenPeriod r.unit
    ∃ t, exec (.presenceDebounce b) s = .next t ∧ (t.bay b).present = !r.present ∧ (t.bay b).presAt = none ∧ s.normalTaken t
      ∧ (∀ c, c ≠ b → SameBay (s.bay c) (t.bay c))
      ∧ SameCart { u with store := t.store, custody := t.custody } t
      ∧ t.custody = { s.custody with
          removals := s.custody.removals + (if r.present ∧ inPeriod = true ∧ x.state = .stocked then 1 else 0) }
      ∧ (r.present = true → SessionEnded u t b ∧ (t.bay b).events.getLsbD 0 = true ∧ (t.bay b).stage.trips = []
        ∧ (t.bay b).stage.cap = none
        ∧ (∀ j, s.onlyJob j → j.bay = b →
            t.jobOf b = none ∧ (t.bay b).lastJob = some ⟨j.tag, j.image, false, .tabletRemoved⟩)
        ∧ (t.bay b).cust = (
          if inPeriod then
            match x.state with
            | .stocked => { x with state := .vacant, taken := some ⟨s.custody.removals + 1, x.seen⟩, seen := .none }
            | .reconciling => { x with state := .vacant, unattended := false, seen := .none }
            | .vacant => { x with inserted := false, seen := .none }
          else { x with
            state := .vacant, unattended := false, inserted := false, seen := .none, alarms := x.alarms ||| 4#5
            note := some ⟨.missing, none, x.seen.serial?, none, false⟩ }))
      ∧ (r.present = false → (r.enabled = true → SessionStarted u t b)
        ∧ (t.bay b).cust = (
          if inPeriod then
            match x.state, x.taken with
            | .vacant, some _ => { x with state := .stocked, taken := none, seen := .none }
            | .vacant, none => { x with inserted := true, seen := .none }
            | _, _ => { x with seen := .none }
          else { x with state := .reconciling, unattended := true, seen := .none }))

/-- The session timers: HELLO after a greeting hold, after BREAK and from FALLBACK, and a POLL while CONTRACTED; a free line
starts the call in the event. The model's choices in it: log 2. -/
def Obligations.SessionTimersGreetAndPoll : Prop :=
  ∀ (s : State) (b d : Nat), s.quiet = true → s.resetN = true → (s.bays.map (·.num)).Nodup →
    let u := s.reach d
    let x := (s.bay b).sess
    let hello : Call := .hello ((s.geo.map (·.cartId)).getD 0) b
    let greet (v : State) (pl : Plan) : State := v.posted b hello pl fun l => { l with greeting := some ⟨hello, pl⟩ }
    (x.state = .greeting → x.greetAt = some d →
      Leaves (.greetingHoldExpiry b) s (greet (u.updSess b fun x => { x with greetAt := none }) .greeting))
    ∧ (x.state = .breakWait → x.breakAt = some d →
      Leaves (.breakExpiry b) s (greet (u.updSess b fun x => { x with state := .greeting, breakAt := none }) .greeting))
    ∧ (x.state = .fallback → x.fallAt = some d →
      Leaves (.fallbackExpiry b) s (greet (u.updSess b fun x => { x with fallAt := some (u.now + 30000) }) .fallback))
    ∧ (x.state = .contracted → x.pollAt = some d →
      Leaves (.pollTimer b) s ((u.updSess b fun x => { x with pollAt := some (u.now + 1000) }).posted b (s.buildPoll b) .ordinary
        fun l => { l with pollDue := true }))

/-! ## Passes, stages and the cart monitor -/

/-- A scheduled pass runs at its time, restarts the periodic timer and, where no scan follows it with another, leaves its
figures in the summary, steps the origin, and gives a bay without demand nothing. The periodic timer requests a normal pass. The
model's choices in it: logs 2 and 6. -/
def Obligations.PassesRunWhenDue : Prop :=
  ∀ (s : State) (d : Nat), s.quiet = true → s.resetN = true → s.committed = true →
    (s.alloc.scheduled = some d → ∃ t, exec .scheduledPass s = .next t ∧ SameBut (s.reach d) t ∧ s.passedTo t
      ∧ t.alloc.periodic = some (t.now + 10000)
      ∧ (s.mode = .secure → t.alloc.origin = s.alloc.origin % s.nBays + 1
        ∧ (∀ b, s.names b = true → s.hasDemand (s.bay b) = false →
            (t.bay b).power = { cls := none, floor := 0, ceil := 0, target := 0, starved := false })
        ∧ ∃ m, t.alloc.summary = some m ∧ m.kind = .normal ∧ m.admitted = false ∧ m.temp = s.monitor.temp
          ∧ m.hold = s.monitor.hold ∧ m.kT = s.kT ∧ m.derated = s.derated ∧ m.etaEff = s.etaEff ∧ m.available = s.available
          ∧ m.empties = s.empties ∧ m.insertion = s.insertionReserve ∧ m.distributable = s.distributable
          ∧ m.origin = s.alloc.origin ∧ m.total = m.classTotals.sum ∧ m.classTotals.length = 5))
    ∧ (s.alloc.periodic = some d → ∃ t, exec .periodicTimer s = .next t
      ∧ SameBut (s.reach d) t ∧ s.normalTaken t)

/-- The figures of a pass, in tenths of a watt: the derated ceiling, the effective efficiency and the available budget, the
reserves and the distributable budget; with the bounds R69 and R70 give the temperature and the trim, which every step keeps. -/
def Obligations.BudgetFigures : Prop :=
  (∀ s : State,
    (s.monitor.hold = true → s.kT = 0)
    ∧ (∀ t : Int, s.monitor.hold = false → s.monitor.temp = some t → t ≤ 40 → s.kT = 100)
    ∧ (∀ t : Int, s.monitor.hold = false → s.monitor.temp = some t → 41 ≤ t → t ≤ 54 →
        (s.kT : Int) = 100 - 4 * (t - 40) ∧ 44 ≤ s.kT ∧ s.kT ≤ 100)
    ∧ s.derated = s.alloc.ceiling * s.kT / 100 ∧ s.kT ≤ 100 ∧ s.derated ≤ s.alloc.ceiling
    ∧ (∀ t : Int, s.monitor.hold = false → s.monitor.temp = some t → t ≤ 54 → s.alloc.ceiling * 44 / 100 ≤ s.derated)
    ∧ s.etaEff = max 70 (s.alloc.eta - s.alloc.trim) ∧ 70 ≤ s.etaEff
    ∧ (s.alloc.overhead < s.derated → s.available = (s.derated - s.alloc.overhead) * s.etaEff / 100)
    ∧ (s.derated ≤ s.alloc.overhead → s.available = 0)
    ∧ s.insertionReserve = 25 * min s.alloc.slots (s.bays.filter fun r => r.enabled && !r.present).length
    ∧ (s.distributable : Int) = max 0 ((s.available : Int) - s.insertionReserve - 120))
  ∧ (∀ s t : State, s.alloc.trim ≤ 10 → step s = .next t → t.alloc.trim ≤ 10)
  ∧ ∀ s t : State, (∀ v, s.monitor.hold = false → s.monitor.temp = some v → v ≤ 54) → step s = .next t →
    ∀ v, t.monitor.hold = false → t.monitor.temp = some v → v ≤ 54

/-- The targets of a pass never add up to more than the distributable budget; each is 0 or lies between its floor and its
ceiling, which is at most the raw ceiling; and no bay is served twice. A scheduled pass leaves such targets behind. -/
def Obligations.TargetsStayWithinBudget : Prop :=
  ∀ (s : State), s.baysSound →
    (∀ kind : PassKind,
      (((s.grants kind).map fun gs => (gs.map (·.target)).sum).sum ≤ s.distributable)
      ∧ (((s.grants kind).flatten).map (·.dem.bay)).Nodup
      ∧ (∀ g ∈ (s.grants kind).flatten, 1 ≤ g.dem.bay ∧ g.dem.bay ≤ s.nBays ∧ s.hasDemand (s.bay g.dem.bay) = true
          ∧ g.dem.ceil ≤ (s.bay g.dem.bay).rawCeiling
          ∧ (g.target = 0 ∨ (25 ≤ g.target ∧ g.dem.floor ≤ g.target ∧ g.target ≤ g.dem.ceil))))
    ∧ (∀ d t, s.quiet = true → s.resetN = true → s.committed = true → s.mode = .secure → s.alloc.scheduled = some d
      → exec .scheduledPass s = .next t →
      (t.bays.map (·.power.target)).sum ≤ s.distributable
      ∧ ∀ b, s.names b = true → (t.bay b).power.target = 0
          ∨ (25 ≤ (t.bay b).power.target ∧ (t.bay b).power.target ≤ (s.bay b).rawCeiling))

/-- A ramp tick raises every ON stage below its target by at most 3.0 W and switches on up to four bays from the head of the
start queue at 2.5 W; a sample runs the trip filter, the slack window and the cap-clearing count. The model's choices in it: log
2. -/
def Obligations.StagesRampAndSample : Prop :=
  ∀ (s : State), s.quiet = true → s.resetN = true → s.committed = true →
    let limit (applied volts : Nat) : Nat := applied * 100 / volts / 10 * 10
    (∀ d, s.rampAt = some d →
      Leaves .rampTick s ({ (s.reach d) with
        rampAt := some ((s.reach d).now + 250)
        startQueue := s.startQueue.drop 4
        bays := s.bays.map fun (r : Bay) =>
          let x : Stage := r.stage
          let y : Stage := if x.state = StageState.on ∧ x.applied < r.power.target then
              { x with
                applied := x.applied + min 30 (r.power.target - x.applied)
                setpoint := limit (x.applied + min 30 (r.power.target - x.applied)) x.volts }
            else x
          let z : Stage := { y with state := .on, applied := 25, setpoint := limit 25 y.volts }
          { r with stage := if r.num ∈ s.startQueue.take 4 then z else y } }).lightLamps)
    ∧ (∀ (b mv : Nat) (draw : BitVec 16), s.names b = true →
      let x := (s.bay b).stage
      let p := (s.bay b).power
      let u := s.reach x.sampleAt
      let atTarget : Bool := x.applied == p.target
      let w := if atTarget then (x.window ++ [draw.toNat]).drop (x.window.length + 1 - 100) else x.window
      let found : Prop := atTarget = true ∧ w.length = 100 ∧ p.cls ≠ some 0 ∧ w.sum / 100 + 30 < p.target
      let count := if x.cap.isNone then x.capCount else if p.target ≤ draw.toNat + 5 then x.capCount + 1 else 0
      let filter : Option Nat := if mv < x.volts * 800 then some (x.tripAt.getD (u.now + 500)) else none
      (x.state ≠ .on → Leaves (.stageSample b draw mv) s
        (u.updStage b fun y => { y with draw := 0, sampleAt := u.now + 100 }))
      ∧ (x.state = .on → ¬ found → (x.cap = none ∨ count ≠ 20) → (s.bays.map (·.num)).Nodup →
        Leaves (.stageSample b draw mv) s (u.updStage b fun y => { y with
          draw := draw.toNat, tripAt := filter, window := w, capCount := count, sampleAt := u.now + 100 }))
      ∧ (x.state = .on → found → ∃ t, exec (.stageSample b draw mv) s = .next t ∧ s.normalTaken t
        ∧ (t.bay b).stage.cap = some (max 25 (w.sum / 100 + 30)) ∧ (t.bay b).stage.window = []
        ∧ (t.bay b).stage.draw = draw.toNat ∧ (t.bay b).stage.sampleAt = u.now + 100
        ∧ (∀ c, c ≠ b → SameBay (s.bay c) (t.bay c)) ∧ SameCart u t)
      ∧ (x.state = .on → ¬ found → x.cap.isSome = true → count = 20 → ∃ t, exec (.stageSample b draw mv) s = .next t
        ∧ s.normalTaken t ∧ (t.bay b).stage.cap = none ∧ (t.bay b).stage.window = []
        ∧ (t.bay b).stage.draw = draw.toNat ∧ (∀ c, c ≠ b → SameBay (s.bay c) (t.bay c)) ∧ SameCart u t))

/-- A trip takes the stage to TRIPPED with a 5 s cool-off, the third within 600 s to FAULTED, with an urgent pass. A temperature
sample sets the reading, the hold flag and the factor, with the passes and suspensions they call for; a wall-input sample counts
overruns, and the 20th in a row begins an episode. Before commit a sample writes the monitor alone. The model's choices in it:
logs 2 and 7. -/
def Obligations.TripsAndSensorSamples : Prop :=
  (∀ (s : State), s.quiet = true → s.resetN = true → s.bare = true → s.committed = false →
    (∀ reading : TempReading,
      let u := s.reach s.monitor.tempDue
      let v : Option Int := match reading with
        | .openSensor => none
        | .celsius t => if -20 ≤ t ∧ t ≤ 100 then some t else none
      let hold : Bool := match v with
        | none => true
        | some t => if 55 ≤ t then true else if t ≤ 50 then false else s.monitor.hold
      let temp := if v.isSome then v else s.monitor.temp
      ∃ k, Leaves (.tsenseSample reading) s { u with monitor := { s.monitor with
          temp := temp, sensorFault := v.isNone, hold := hold, factor := k, tempDue := u.now + 1000
          overruns := if hold = true ∧ s.monitor.hold = false then 0 else s.monitor.overruns
          armed := (hold && !s.monitor.hold) || s.monitor.armed } }
        ∧ (hold = true → k = 0) ∧ (hold = false → ∀ t, temp = some t → (k : Int) = 100 - 4 * max 0 (min 25 (t - 40)))
        ∧ (hold = false → temp = none → k = 100))
    ∧ ∀ w : BitVec 16, Leaves (.wsenseSample w) s
      (let u := s.reach s.monitor.winDue
      { u with monitor := { s.monitor with win := w, winDue := u.now + 100 } }))
  ∧ ∀ (s : State), s.quiet = true → s.resetN = true → s.committed = true →
    (∀ b d, s.names b = true → (s.bay b).stage.tripAt = some d →
      let u := s.reach d
      let recent := (s.bay b).stage.trips.filter fun a => u.now ≤ a + 600000
      ∃ t, exec (.trip b) s = .next t ∧ s.passedTo t ∧ (t.bay b).events.getLsbD 3 = true
        ∧ (t.bay b).stage.applied = 0 ∧ (t.bay b).stage.tripAt = none ∧ (t.bay b).power.target = 0
        ∧ (t.bay b).stage.cap = (s.bay b).stage.cap
        ∧ (recent.length < 2 → (t.bay b).stage.state = .tripped ∧ (t.bay b).stage.trips = recent ++ [u.now]
            ∧ (t.bay b).stage.coolAt = some (u.now + 5000))
        ∧ (2 ≤ recent.length → (t.bay b).stage.state = .faulted ∧ (t.bay b).stage.trips = [] ∧ (t.bay b).stage.coolAt = none)
        ∧ (∀ c, c ≠ b → SameBay (s.bay c) (t.bay c)) ∧ SameCart u t)
    ∧ (∀ reading : TempReading,
      let m := s.monitor
      let u := s.reach m.tempDue
      let v : Option Int := match reading with
        | .openSensor => none
        | .celsius t => if -20 ≤ t ∧ t ≤ 100 then some t else none
      let hold : Bool := match v with
        | none => true
        | some t => if 55 ≤ t then true else if t ≤ 50 then false else m.hold
      let temp := if v.isSome then v else m.temp
      let factor : Nat := if hold then 0 else match temp with
        | none => 100
        | some t => if t ≤ 40 then 100 else 100 - 4 * (t - 40).toNat
      let entered : Bool := hold && !m.hold
      ∃ t, exec (.tsenseSample reading) s = .next t
        ∧ t.monitor = { m with
            temp := temp, sensorFault := v.isNone, hold := hold, factor := factor, tempDue := u.now + 1000
            overruns := if entered then 0 else m.overruns, armed := entered || m.armed }
        ∧ SameBut { u with
            monitor := t.monitor, cartEvents := if hold = m.hold then s.cartEvents else s.cartEvents ||| 1#3 } t
        ∧ (factor < m.factor → s.passedTo t) ∧ (m.factor < factor → entered = false → s.normalTaken t)
        ∧ (factor = m.factor → entered = false → t.alloc = s.alloc)
        ∧ (∀ j, entered = true → s.onlyJob j → s.hasBay j.bay = true → j.state.onChannel = true → JobSuspended s t j True))
    ∧ (∀ w : BitVec 16,
      let m := s.monitor
      let u := s.reach m.winDue
      let n := min 20 (m.overruns + 1)
      let set (overruns : Nat) (armed : Bool) : State :=
        { u with monitor := { m with win := w, winDue := u.now + 100, overruns := overruns, armed := armed } }
      (s.alloc.summary = none ∨ m.hold = true → Leaves (.wsenseSample w) s (set m.overruns m.armed))
      ∧ ∀ p, s.alloc.summary = some p → m.hold = false →
        (w.toNat ≤ p.derated → Leaves (.wsenseSample w) s (set 0 true))
        ∧ (p.derated < w.toNat → (n ≠ 20 ∨ m.armed = false) → Leaves (.wsenseSample w) s (set n m.armed))
        ∧ (p.derated < w.toNat → n = 20 → m.armed = true → ∃ t, exec (.wsenseSample w) s = .next t ∧ s.passedTo t
          ∧ t.alloc.trim = min 10 (s.alloc.trim + 1) ∧ t.monitor = (set 20 false).monitor
          ∧ t.cartEvents = s.cartEvents ||| 2#3 ∧ ∀ b, SameBay (s.bay b) (t.bay b)))

/-! ## Timers of jobs and channels -/

/-- The settle and re-send timers post the ENVELOPE built afresh; a drained channel is IDLE; the scan timer starts again and runs
a scan, which acts on each permitted job by R120's first row that applies: a wake, a failure with its reason, nothing, or for an
eligible job the admission pass, whose success takes the lowest free channel (R122). That the scheduler's queued jobs hold no
channel is an invariant (`BaysSoundIsKept`), and so is that before commit there is no job (`BareIsKept`). The model's choices in
it: log 2. -/
def Obligations.JobTimersPostEnvelopeAndScan : Prop :=
  ∀ (s : State) (d : Nat), s.quiet = true → s.resetN = true → s.jobsSound →
    let skipped (j : Job) : Prop :=
      j.state = .waking ∨ s.mode = .secure ∨ (s.mode = .classMode ∧ j.priority ≠ 3)
    (∀ (b : Nat) (j : Job) (e : Image), s.jobOf b = some j → s.image? j.image = some e → (s.bays.map (·.num)).Nodup
      → (s.bay b).sess.state = .contracted →
      let envelope : Call := .envelope j.tag j.image e.version e.size (j.channel.getD 0) j.resume
      let sent (f : Job → Job) : State :=
        (({ (s.reach d) with sched := { s.sched with
            queue := s.sched.queue.map fun (x : Job) => if x.tag = j.tag then f x else x
            active := s.sched.active.map fun (x : Job) => if x.tag = j.tag then f x else x } }).posted b envelope .ordinary fun l =>
          { l with job := some envelope })
      (j.settleAt = some d → Leaves (.settleExpiry b) s (sent fun x => { x with settleAt := none, posted := true }))
      ∧ (j.resendAt = some d → Leaves (.envelopeResendExpiry b) s (sent fun x => { x with resendAt := none, posted := true })))
    ∧ (s.sched.scanAt = some d →
      let u : State := { (s.reach d) with sched := { s.sched with scanAt := some ((s.reach d).now + 1000) } }
      (∃ t, exec .scanTimer s = .next t ∧ SameBut u t)
      ∧ ((∀ j ∈ s.sched.queue, skipped j) → Leaves .scanTimer s u)
      ∧ ∀ j ∈ s.sched.queue, s.committed = true → ¬ skipped j → s.onlyJob j → (∀ i ∈ s.sched.queue, i = j ∨ skipped i) →
        let b := j.bay
        let r := s.bay b
        let x := r.sess
        let fails (why : JobReason) : Prop := ∃ t, exec .scanTimer s = .next t ∧ JobEnded u t j false why false
        let wrong : Prop := ∃ e i, s.image? j.image = some e ∧ x.identity = some i ∧ i.model ∉ e.models
        let able : Bool := x.ability.any fun a => a.features.getLsbD 2
        let free (c : Channel) : Prop := c ∈ s.sched.channels ∧ c.enabled = true ∧ c.state = .idle
        let eligible : Prop := (∃ c, free c) ∧ r.enabled = true ∧ r.present = true
          ∧ (∃ c, x.contract = some c ∧ 2 ≤ c.level.num) ∧ 75 ≤ r.rawCeiling
          ∧ r.stage.state ≠ .tripped ∧ r.stage.state ≠ .faulted
          ∧ (∃ y, s.unit? r.unit = some y ∧ y.state = .locked ∧ y.doorOpen = false) ∧ s.monitor.hold = false
        (x.state = .asleep → x.wakeFailed = true → fails .wakeFailed)
        ∧ (x.state = .asleep → x.wakeFailed = false → Leaves .scanTimer s
          (({ u with sched := { u.sched with
              queue := s.sched.queue.map fun (i : Job) => if i.tag = j.tag then { i with state := .waking } else i
              active := s.sched.active.map fun (i : Job) => if i.tag = j.tag then { i with state := .waking } else i } }).updBay b
            fun r => { r with
              sess := { r.sess with state := .waking, refreshAt := none }
              lane := if r.lane.free then { r.lane with wakeAsked := false, act := .wakePulse, dueAt := u.now + 20 }
                else { r.lane with wakeAsked := true } }))
        ∧ (x.state ≠ .asleep → x.state ≠ .contracted → Leaves .scanTimer s u)
        ∧ (x.state = .contracted → x.identity = none → fails .noIdentity)
        ∧ (x.state = .contracted → wrong → fails .wrongModel)
        ∧ (x.state = .contracted → x.identity ≠ none → ¬ wrong → able = false → fails .refused)
        ∧ (x.state = .contracted → x.identity ≠ none → ¬ wrong → able = true → ¬ eligible → Leaves .scanTimer s u)
        ∧ (x.state = .contracted → x.identity ≠ none → ¬ wrong → able = true → eligible → s.baysSound → s.names b = true →
          let floors := 75 * (1 + (s.bays.filter fun y => y.num != b && s.hasDemand y && s.hasActiveJob y.num
            && decide (75 ≤ y.rawCeiling)).length)
          ∃ t m, exec .scanTimer s = .next t ∧ SameBut u t ∧ s.passedTo t ∧ t.alloc.summary = some m ∧ m.kind = .admission b
            ∧ (floors ≤ s.distributable → m.admitted = true) ∧ (s.distributable < 75 → m.admitted = false)
            ∧ (m.admitted = false → t.jobOf b = some j)
            ∧ (m.admitted = true → (t.bay b).power.cls = some 0 ∧ 75 ≤ (t.bay b).power.target
              ∧ (t.bay b).events.getLsbD 6 = true
              ∧ ∀ c, free c → (s.sched.channels.map (·.num)).Pairwise (· < ·) → (∀ q, free q → c.num ≤ q.num) →
                t.chan? c.num = some { c with state := .assigned b j.tag }
                ∧ t.jobOf b = some { j with
                    state := .offered, channel := some c.num, posted := false, holds := 0, baseline := none
                    settleAt := some (u.now + 50) })))
    ∧ (∀ c ch, s.chan? c = some ch → ch.state = .draining d →
      let u := (s.reach d).updChan c fun x => { x with state := .idle }
      (∃ t, exec (.drainExpiry c) s = .next t ∧ SameBut u t)
      ∧ ((∀ j ∈ s.sched.queue, skipped j) → Leaves (.drainExpiry c) s u))

/-! ## Latches -/

/-- A driver's pulse leads to its position check in 50 ms and a retry wait to the second pulse; a check that does not match
waits 500 ms once and jams the unit the second time, and the entry of a release that could not complete is FAILED; a LOCK that
completes locks the unit, an UNLOCK unlatches it for 10 s, or relocks it where its group is cancelled; the driver is then IDLE
or holds the next move. The model's choices in it: logs 2, 4 and 14. -/
def Obligations.DriversMoveLatches : Prop :=
  ∀ (s : State) (d : DriverId) (v : Drive), s.quiet = true → s.resetN = true → s.latch.driver d = some v →
    let u := s.reach v.dueAt
    let phase (v : Drive) : State := { u with latch := u.latch.setDriver d (some v) }
    (v.phase = .pulse → Leaves (.motorPulseEnd d) s (phase { v with phase := .checkWait, dueAt := u.now + 50 }))
    ∧ (v.phase = .retryWait → Leaves (.retryWaitEnd d) s (phase { v with phase := .pulse, attempt := 2, dueAt := u.now + 300 }))
    ∧ (∀ (high : Bool) r g, v.phase = .checkWait → s.unit? v.move.unit = some r → s.rankGeo r.rank = some g →
      let n := v.move.unit
      let locked := g.lposPol.active high
      let read (w : State) : State :=
        { (w.updUnit n fun r => { r with posLocked := locked }) with pins := { w.pins with lpos := setPin w.pins.lpos n high } }
      let next : Option Move := match s.latch.queue.find? fun m => m.kind == .lock with
        | some m => some m
        | none => s.latch.queue.head?
      let freed (t : State) : Prop := match next with
        | none => t.latch.driver d = none ∧ t.latch.queue = []
        | some m => t.latch.driver d = some ⟨m, .pulse, 1, u.now + 300⟩
          ∧ t.latch.queue = s.latch.queue.filter fun q => q.unit != m.unit
      let reaches (st : UnitState) (P : State → LatchUnit → Prop) : Prop :=
        ∃ t r', exec (.positionCheck d high) s = .next t ∧ t.unit? n = some r' ∧ r'.state = st ∧ r'.posLocked = locked
          ∧ t.pins = (read u).pins ∧ freed t ∧ P t r'
      (locked ≠ (v.move.kind == .lock) → v.attempt = 1 →
        Leaves (.positionCheck d high) s (read (phase { v with phase := .retryWait, dueAt := u.now + 500 })))
      ∧ (s.noMove n → r.state = v.move.kind.drivenState →
        (locked ≠ (v.move.kind == .lock) → v.attempt ≠ 1 →
          reaches .jammed fun t _ => (∀ b ∈ r.bays, s.hasBay b = true → (t.bay b).cust.has .latch = true)
            ∧ (v.move.kind = .unlock → s.releaseFailed t n))
        ∧ (v.move.kind = .lock → locked = true → reaches .locked fun _ _ => True)
        ∧ (v.move.kind = .unlock → locked = false → s.releaseCancelled n = false →
          reaches .unlatched fun t r' => r'.windowAt = some (u.now + 10000)
            ∧ ∀ e, s.entryOf n = some e → e.state = .pending → t.entryOf n = some { e with state := .opened })
        ∧ (v.move.kind = .unlock → locked = false → s.releaseCancelled n = true →
          ∃ t, exec (.positionCheck d high) s = .next t ∧ t.moving n .lock)))

/-- The close of a unit's open period settles its bays: the tablets taken become checkouts in their removal order while the
allowance lasts, the others are MISSING, the bays inserted into are RECONCILING and at once reconciled with an outcome that is at
hand; with its last unit the group ends, and its outcome is written as the last release of its units' bays. The close comes with the
LOCK move's completion, or with its jam, which leaves LATCH_FAULT. The first clause says it of a group of one unit with one bay. The
model's choices in it: logs 2, 14 and 20. -/
def Obligations.ClosedPeriodSettlesBay : Prop :=
  (∀ (s : State) (d : DriverId) (v : Drive) (high : Bool) (r : LatchUnit) (k : RankGeo) (g : Group) (e : UnitEntry) (b : Nat)
    (mark : TakenMark), s.quiet = true → s.resetN = true → s.latch.driver d = some v → v.phase = .checkWait
    → v.move.kind = .lock → s.unit? v.move.unit = some r → r.bays = [b] → s.names b = true → s.rankGeo r.rank = some k
    → k.lposPol.active high = true → s.custody.groups = [g] → g.entries = [e] → e.unit = v.move.unit → e.state = .opened
    → e.handedBack = false → e.latchFault = false → (s.bay b).cust.taken = some mark → (s.bay b).cust.inserted = false →
    let x := (s.bay b).cust
    let outcome : GroupOutcome :=
      if g.cancelled then .cancelled else if e.doorOpened then .taken else .lapsed
    ∃ t, exec (.positionCheck d high) s = .next t ∧ t.custody = { s.custody with groups := [] }
      ∧ (t.bay b).events.getLsbD 7 = true ∧ (∀ c, c ≠ b → SameBay (s.bay c) (t.bay c))
      ∧ (x.borrower = none → 1 ≤ g.remaining → (t.bay b).cust = { x with
          borrower := some g.cred, expected := mark.serial.serial?, taken := none
          note := some ⟨.checkout, some g.cred, mark.serial.serial?, none, false⟩
          release := some ⟨g.cred, g.intent, outcome, g.taken + 1, g.inserted, g.missing⟩ })
      ∧ (x.borrower ≠ none ∨ g.remaining = 0 → (t.bay b).cust = { x with
          alarms := x.alarms ||| 4#5, taken := none, note := some ⟨.missing, none, mark.serial.serial?, none, false⟩
          release := some ⟨g.cred, g.intent, outcome, g.taken, g.inserted, g.missing + 1⟩ }))
  ∧ ∀ (s : State) (d : DriverId) (v : Drive) (high : Bool) (r : LatchUnit) (k : RankGeo) (g : Group) (e : UnitEntry),
    let jam : Bool := !k.lposPol.active high
    s.quiet = true → s.resetN = true → s.latch.driver d = some v → v.phase = .checkWait → v.move.kind = .lock
    → (jam = true → v.attempt ≠ 1) → s.unit? v.move.unit = some r → s.rankGeo r.rank = some k
    → s.groupOfUnit r.num = some g → s.entryOf r.num = some e → e.state = .opened → (s.custody.groups.map (·.cred)).Nodup
    → (g.entries.map (·.unit)).Nodup → (s.bays.map (·.num)).Nodup → r.bays.Nodup → (∀ b ∈ r.bays, s.hasBay b = true) →
    let x (b : Nat) : Cust := (s.bay b).cust
    let before (b c : Nat) : Bool := match (x b).taken, (x c).taken with
      | some m, some m' => decide (m.order < m'.order)
      | _, _ => false
    (∀ b ∈ r.bays, ∀ c ∈ r.bays, (x b).taken ≠ none → (x c).taken ≠ none → b = c ∨ before b c = true ∨ before c b = true)
    → (∀ b ∈ r.bays, (x b).inserted = true → (x b).taken = none) →
    let goes (b : Nat) : Bool := (x b).taken.isSome && (x b).borrower.isNone
      && decide ((r.bays.filter fun c => (x c).borrower.isNone && before c b).length < g.remaining)
    let out := (r.bays.filter goes).length
    let lost := (r.bays.filter fun b => (x b).taken.isSome && !goes b).length
    let back := (r.bays.filter fun b => (x b).inserted).length
    let ends : Bool := g.entries.all fun y => y.unit == r.num || y.state == .closed || y.state == .failed || y.state == .withdrawn
    let outcome : GroupOutcome :=
      if g.cancelled then .cancelled
      else if jam || g.entries.any fun y => y.latchFault then .latchFault
      else if g.entries.any fun y => y.doorOpened then .taken else .lapsed
    let inGroup (b : Nat) : Bool := g.entries.any fun y => (s.baysOf y.unit).contains b
    let settled (b : Nat) : Cust :=
      let y := { x b with alarms := if jam then (x b).alarms ||| 16#5 else (x b).alarms }
      match (x b).taken with
      | some m =>
        if goes b then { y with
          borrower := some g.cred, expected := m.serial.serial?, taken := none
          note := some ⟨.checkout, some g.cred, m.serial.serial?, none, false⟩ }
        else { y with
          alarms := y.alarms ||| 4#5, taken := none, note := some ⟨.missing, none, m.serial.serial?, none, false⟩ }
      | none => if (x b).inserted then { y with state := .reconciling, inserted := false } else y
    let w : State := { s with bays := s.bays.map fun (q : Bay) => { q with
      cust := { (if r.bays.contains q.num then settled q.num else q.cust) with
        release := if ends && inGroup q.num then
            some ⟨g.cred, g.intent, outcome, g.taken + out, g.inserted + back, g.missing + lost⟩
          else q.cust.release } } }
    let atHand : List (Nat × Option Bytes) :=
      (r.bays.filter fun b => (x b).inserted && (x b).seen != .none).map fun b => (b, (x b).seen.serial?)
    ∃ t, exec (.positionCheck d high) s = .next t ∧ CustodyFollowsAll atHand w t
      ∧ (∀ b ∈ r.bays, ((x b).taken.isSome = true ∨ (x b).inserted = true ∨ ends = true → (t.bay b).events.getLsbD 7 = true)
        ∧ (jam = true → (x b).has .latch = false → (t.bay b).events.getLsbD 8 = true))
      ∧ (s.noMove r.num → ∃ r', t.unit? r.num = some r' ∧ r'.state = if jam then .jammed else .locked)
      ∧ t.groupOfCred g.cred = (if ends then none else some { g with
          remaining := g.remaining - out, taken := g.taken + out, inserted := g.inserted + back, missing := g.missing + lost
          entries := g.entries.map fun y => if y.unit = r.num then
              { y with state := .closed, latchFault := y.latchFault || jam }
            else y })
      ∧ ∀ c, inGroup c = false → SameBay { s.bay c with cust := (t.bay c).cust } (t.bay c)

/-- The unlatch window and the ajar limit of a unit act when their time comes: the unit relocks and its entry is lapsed; AJAR is
raised on its bays, once. The model's choices in it: log 2. -/
def Obligations.UnlatchedAndOpenUnitsTimeOut : Prop :=
  ∀ (s : State) (n d : Nat) (r : LatchUnit), s.quiet = true → s.resetN = true → s.unit? n = some r →
    let u := s.reach d
    (r.windowAt = some d → s.noMove n → ∃ t, exec (.unlatchWindowExpiry n) s = .next t ∧ t.moving n .lock
      ∧ (∀ e, s.entryOf n = some e → t.entryOf n = some (if e.state = .opened then { e with lapsed := true } else e))
      ∧ SameBut { u with custody := t.custody } t)
    ∧ (∀ a, r.state = .opened → r.openedAt = some a → r.ajarReported = false → d = a + s.custody.ajarLimit * 1000 →
      ∃ t, exec (.ajarLimit n) s = .next t ∧ SameCart u t
        ∧ (∀ b, (t.bay b).cust.alarms = if b ∈ r.bays ∧ s.hasBay b then (s.bay b).cust.alarms ||| 2#5 else (s.bay b).cust.alarms)
        ∧ t.unit? n = some { r with ajarReported := true })

/-- A debounced door opening acts on its unit by R158's table, marks the unit's open period or fails its release, and suspends the
jobs on the unit's bays; a closing relocks an OPEN unit and clears AJAR. The model's choices in it: log 2. -/
def Obligations.DoorsMoveUnits : Prop :=
  ∀ (s : State) (n d : Nat) (r : LatchUnit), s.quiet = true → s.resetN = true → s.unit? n = some r → r.doorAt = some d
    → (∀ m ∈ s.latch.queue, m.unit = n → r.state = .unlockPending ∨ r.state = .lockPending) →
    let u := s.reach d
    ∃ t r', exec (.doorDebounce n) s = .next t ∧ t.unit? n = some r' ∧ r'.doorOpen = !r.doorOpen ∧ r'.doorAt = none
      ∧ (r.doorOpen = false →
        (r.state = .locked ∨ r.state = .unlockPending ∨ r.state = .unlocking →
          r'.state = .forced ∧ ∀ b ∈ r.bays, s.hasBay b = true → (t.bay b).cust.has .forced = true)
        ∧ (r.state = .unlockPending ∨ r.state = .unlocking → s.releaseFailed t n)
        ∧ (r.state = .unlatched ∨ r.state = .lockPending ∨ r.state = .locking →
          r'.state = .opened ∧ r'.openedAt = some u.now ∧ r'.windowAt = none
          ∧ ∀ e, s.entryOf n = some e → t.entryOf n = some (if e.state = .opened then { e with doorOpened := true } else e))
        ∧ (r.state = .opened ∨ r.state = .forced ∨ r.state = .jammed → r'.state = r.state)
        ∧ t.noMove n ∧ (∀ q v, t.latch.driver q = some v → v.move.unit = n →
            r.state ≠ .unlocking ∧ r.state ≠ .locking ∧ s.latch.driver q = some v)
        ∧ (∀ j, s.onlyJob j → j.bay ∈ r.bays → (s.bay j.bay).unit = n → j.state.onChannel = true → JobSuspended s t j True))
      ∧ (r.doorOpen = true →
        (r.state = .opened → t.moving n .lock
          ∧ ∀ b ∈ r.bays, s.hasBay b = true → (t.bay b).cust.has .ajar = false)
        ∧ (r.state ≠ .opened → r.state ≠ .unlockPending → r.state ≠ .lockPending → r'.state = r.state))

/-- After every event each bay shows the first row of R164 that its record, its unit and the release groups give; a unit handed
back is in no group. The model's choices in it: log 14. -/
def Obligations.LampsShowFirstRow : Prop :=
  ∀ (s t : State) (b : Nat), s.quiet = true → step s = .next t → t.hasBay b = true →
    let r := t.bay b
    let unit (P : LatchUnit → Prop) : Prop := ∃ x, t.unit? r.unit = some x ∧ P x
    let fault : Prop := r.cust.alarms ≠ 0#5 ∨ r.stage.state = .faulted
    let take : Prop := unit (fun x => x.state = .unlatched ∨ x.state = .opened)
      ∧ ∃ g ∈ t.custody.groups, g.intent = .take ∧ b ∈ g.selected ∧ ∃ e ∈ g.entries, e.unit = r.unit ∧ e.handedBack = false
    let back : Prop := ∃ g ∈ t.custody.groups, g.intent = .returnIt ∧ b ∈ g.selected
    let working : Prop := ∃ j, t.jobOf b = some j ∧ (j.state = .offered ∨ j.state = .running ∨ j.state = .receipt)
    let ready : Prop := r.cust.state = .stocked
      ∧ ∃ x v, r.sess.status = some x ∧ x.soc = some v ∧ t.custody.releaseMin ≤ v
    let charging : Prop := r.stage.state = .starting ∨ r.stage.state = .on
    (fault → r.indicator = .fault)
    ∧ (¬ fault → take → r.indicator = .take)
    ∧ (¬ fault → ¬ take → back → r.indicator = .returnHere)
    ∧ (¬ fault → ¬ take → ¬ back → working → r.indicator = .working)
    ∧ (¬ fault → ¬ take → ¬ back → ¬ working → ready → r.indicator = .ready)
    ∧ (¬ fault → ¬ take → ¬ back → ¬ working → ¬ ready → charging → r.indicator = .charging)
    ∧ (¬ fault → ¬ take → ¬ back → ¬ working → ¬ ready → ¬ charging → r.indicator = .off)
end

