-- ==== Sys2Proof/Laws/State.lean ====
section
/-! SUPPORT. Fields of an updated state, one law for each field and update. -/

namespace Sys2Proof.Laws

open Machine

variable (s : State)

/-! ## updBay -/

@[simp] theorem updBay_pending (b : Nat) (f : Bay → Bay) : (s.updBay b f).pending = s.pending := rfl
@[simp] theorem updBay_now (b : Nat) (f : Bay → Bay) : (s.updBay b f).now = s.now := rfl
@[simp] theorem updBay_resetN (b : Nat) (f : Bay → Bay) : (s.updBay b f).resetN = s.resetN := rfl
@[simp] theorem updBay_pins (b : Nat) (f : Bay → Bay) : (s.updBay b f).pins = s.pins := rfl
@[simp] theorem updBay_hub (b : Nat) (f : Bay → Bay) : (s.updBay b f).hub = s.hub := rfl
@[simp] theorem updBay_cartEvents (b : Nat) (f : Bay → Bay) : (s.updBay b f).cartEvents = s.cartEvents := rfl
@[simp] theorem updBay_geo (b : Nat) (f : Bay → Bay) : (s.updBay b f).geo = s.geo := rfl
@[simp] theorem updBay_mode (b : Nat) (f : Bay → Bay) : (s.updBay b f).mode = s.mode := rfl
@[simp] theorem updBay_alloc (b : Nat) (f : Bay → Bay) : (s.updBay b f).alloc = s.alloc := rfl
@[simp] theorem updBay_monitor (b : Nat) (f : Bay → Bay) : (s.updBay b f).monitor = s.monitor := rfl
@[simp] theorem updBay_store (b : Nat) (f : Bay → Bay) : (s.updBay b f).store = s.store := rfl
@[simp] theorem updBay_sched (b : Nat) (f : Bay → Bay) : (s.updBay b f).sched = s.sched := rfl
@[simp] theorem updBay_roster (b : Nat) (f : Bay → Bay) : (s.updBay b f).roster = s.roster := rfl
@[simp] theorem updBay_custody (b : Nat) (f : Bay → Bay) : (s.updBay b f).custody = s.custody := rfl
@[simp] theorem updBay_latch (b : Nat) (f : Bay → Bay) : (s.updBay b f).latch = s.latch := rfl
@[simp] theorem updBay_startQueue (b : Nat) (f : Bay → Bay) : (s.updBay b f).startQueue = s.startQueue := rfl
@[simp] theorem updBay_rampAt (b : Nat) (f : Bay → Bay) : (s.updBay b f).rampAt = s.rampAt := rfl
@[simp] theorem updBay_work (b : Nat) (f : Bay → Bay) : (s.updBay b f).work = s.work := rfl

/-! ## updUnit -/

@[simp] theorem updUnit_pending (u : Nat) (f : LatchUnit → LatchUnit) : (s.updUnit u f).pending = s.pending := rfl
@[simp] theorem updUnit_now (u : Nat) (f : LatchUnit → LatchUnit) : (s.updUnit u f).now = s.now := rfl
@[simp] theorem updUnit_resetN (u : Nat) (f : LatchUnit → LatchUnit) : (s.updUnit u f).resetN = s.resetN := rfl
@[simp] theorem updUnit_pins (u : Nat) (f : LatchUnit → LatchUnit) : (s.updUnit u f).pins = s.pins := rfl
@[simp] theorem updUnit_hub (u : Nat) (f : LatchUnit → LatchUnit) : (s.updUnit u f).hub = s.hub := rfl
@[simp] theorem updUnit_cartEvents (u : Nat) (f : LatchUnit → LatchUnit) : (s.updUnit u f).cartEvents = s.cartEvents := rfl
@[simp] theorem updUnit_geo (u : Nat) (f : LatchUnit → LatchUnit) : (s.updUnit u f).geo = s.geo := rfl
@[simp] theorem updUnit_mode (u : Nat) (f : LatchUnit → LatchUnit) : (s.updUnit u f).mode = s.mode := rfl
@[simp] theorem updUnit_alloc (u : Nat) (f : LatchUnit → LatchUnit) : (s.updUnit u f).alloc = s.alloc := rfl
@[simp] theorem updUnit_monitor (u : Nat) (f : LatchUnit → LatchUnit) : (s.updUnit u f).monitor = s.monitor := rfl
@[simp] theorem updUnit_store (u : Nat) (f : LatchUnit → LatchUnit) : (s.updUnit u f).store = s.store := rfl
@[simp] theorem updUnit_sched (u : Nat) (f : LatchUnit → LatchUnit) : (s.updUnit u f).sched = s.sched := rfl
@[simp] theorem updUnit_roster (u : Nat) (f : LatchUnit → LatchUnit) : (s.updUnit u f).roster = s.roster := rfl
@[simp] theorem updUnit_custody (u : Nat) (f : LatchUnit → LatchUnit) : (s.updUnit u f).custody = s.custody := rfl
@[simp] theorem updUnit_startQueue (u : Nat) (f : LatchUnit → LatchUnit) : (s.updUnit u f).startQueue = s.startQueue := rfl
@[simp] theorem updUnit_rampAt (u : Nat) (f : LatchUnit → LatchUnit) : (s.updUnit u f).rampAt = s.rampAt := rfl
@[simp] theorem updUnit_bays (u : Nat) (f : LatchUnit → LatchUnit) : (s.updUnit u f).bays = s.bays := rfl
@[simp] theorem updUnit_work (u : Nat) (f : LatchUnit → LatchUnit) : (s.updUnit u f).work = s.work := rfl

/-! ## updSlot -/

@[simp] theorem updSlot_pending (k : Nat) (f : Slot → Slot) : (s.updSlot k f).pending = s.pending := rfl
@[simp] theorem updSlot_now (k : Nat) (f : Slot → Slot) : (s.updSlot k f).now = s.now := rfl
@[simp] theorem updSlot_resetN (k : Nat) (f : Slot → Slot) : (s.updSlot k f).resetN = s.resetN := rfl
@[simp] theorem updSlot_pins (k : Nat) (f : Slot → Slot) : (s.updSlot k f).pins = s.pins := rfl
@[simp] theorem updSlot_hub (k : Nat) (f : Slot → Slot) : (s.updSlot k f).hub = s.hub := rfl
@[simp] theorem updSlot_cartEvents (k : Nat) (f : Slot → Slot) : (s.updSlot k f).cartEvents = s.cartEvents := rfl
@[simp] theorem updSlot_geo (k : Nat) (f : Slot → Slot) : (s.updSlot k f).geo = s.geo := rfl
@[simp] theorem updSlot_mode (k : Nat) (f : Slot → Slot) : (s.updSlot k f).mode = s.mode := rfl
@[simp] theorem updSlot_alloc (k : Nat) (f : Slot → Slot) : (s.updSlot k f).alloc = s.alloc := rfl
@[simp] theorem updSlot_monitor (k : Nat) (f : Slot → Slot) : (s.updSlot k f).monitor = s.monitor := rfl
@[simp] theorem updSlot_sched (k : Nat) (f : Slot → Slot) : (s.updSlot k f).sched = s.sched := rfl
@[simp] theorem updSlot_roster (k : Nat) (f : Slot → Slot) : (s.updSlot k f).roster = s.roster := rfl
@[simp] theorem updSlot_custody (k : Nat) (f : Slot → Slot) : (s.updSlot k f).custody = s.custody := rfl
@[simp] theorem updSlot_latch (k : Nat) (f : Slot → Slot) : (s.updSlot k f).latch = s.latch := rfl
@[simp] theorem updSlot_startQueue (k : Nat) (f : Slot → Slot) : (s.updSlot k f).startQueue = s.startQueue := rfl
@[simp] theorem updSlot_rampAt (k : Nat) (f : Slot → Slot) : (s.updSlot k f).rampAt = s.rampAt := rfl
@[simp] theorem updSlot_bays (k : Nat) (f : Slot → Slot) : (s.updSlot k f).bays = s.bays := rfl
@[simp] theorem updSlot_work (k : Nat) (f : Slot → Slot) : (s.updSlot k f).work = s.work := rfl

/-! ## updChan -/

@[simp] theorem updChan_pending (c : Nat) (f : Channel → Channel) : (s.updChan c f).pending = s.pending := rfl
@[simp] theorem updChan_now (c : Nat) (f : Channel → Channel) : (s.updChan c f).now = s.now := rfl
@[simp] theorem updChan_resetN (c : Nat) (f : Channel → Channel) : (s.updChan c f).resetN = s.resetN := rfl
@[simp] theorem updChan_pins (c : Nat) (f : Channel → Channel) : (s.updChan c f).pins = s.pins := rfl
@[simp] theorem updChan_hub (c : Nat) (f : Channel → Channel) : (s.updChan c f).hub = s.hub := rfl
@[simp] theorem updChan_cartEvents (c : Nat) (f : Channel → Channel) : (s.updChan c f).cartEvents = s.cartEvents := rfl
@[simp] theorem updChan_geo (c : Nat) (f : Channel → Channel) : (s.updChan c f).geo = s.geo := rfl
@[simp] theorem updChan_mode (c : Nat) (f : Channel → Channel) : (s.updChan c f).mode = s.mode := rfl
@[simp] theorem updChan_alloc (c : Nat) (f : Channel → Channel) : (s.updChan c f).alloc = s.alloc := rfl
@[simp] theorem updChan_monitor (c : Nat) (f : Channel → Channel) : (s.updChan c f).monitor = s.monitor := rfl
@[simp] theorem updChan_store (c : Nat) (f : Channel → Channel) : (s.updChan c f).store = s.store := rfl
@[simp] theorem updChan_roster (c : Nat) (f : Channel → Channel) : (s.updChan c f).roster = s.roster := rfl
@[simp] theorem updChan_custody (c : Nat) (f : Channel → Channel) : (s.updChan c f).custody = s.custody := rfl
@[simp] theorem updChan_latch (c : Nat) (f : Channel → Channel) : (s.updChan c f).latch = s.latch := rfl
@[simp] theorem updChan_startQueue (c : Nat) (f : Channel → Channel) : (s.updChan c f).startQueue = s.startQueue := rfl
@[simp] theorem updChan_rampAt (c : Nat) (f : Channel → Channel) : (s.updChan c f).rampAt = s.rampAt := rfl
@[simp] theorem updChan_bays (c : Nat) (f : Channel → Channel) : (s.updChan c f).bays = s.bays := rfl
@[simp] theorem updChan_work (c : Nat) (f : Channel → Channel) : (s.updChan c f).work = s.work := rfl

/-! ## updJob -/

@[simp] theorem updJob_pending (t : Nat) (f : Job → Job) : (s.updJob t f).pending = s.pending := rfl
@[simp] theorem updJob_now (t : Nat) (f : Job → Job) : (s.updJob t f).now = s.now := rfl
@[simp] theorem updJob_resetN (t : Nat) (f : Job → Job) : (s.updJob t f).resetN = s.resetN := rfl
@[simp] theorem updJob_pins (t : Nat) (f : Job → Job) : (s.updJob t f).pins = s.pins := rfl
@[simp] theorem updJob_hub (t : Nat) (f : Job → Job) : (s.updJob t f).hub = s.hub := rfl
@[simp] theorem updJob_cartEvents (t : Nat) (f : Job → Job) : (s.updJob t f).cartEvents = s.cartEvents := rfl
@[simp] theorem updJob_geo (t : Nat) (f : Job → Job) : (s.updJob t f).geo = s.geo := rfl
@[simp] theorem updJob_mode (t : Nat) (f : Job → Job) : (s.updJob t f).mode = s.mode := rfl
@[simp] theorem updJob_alloc (t : Nat) (f : Job → Job) : (s.updJob t f).alloc = s.alloc := rfl
@[simp] theorem updJob_monitor (t : Nat) (f : Job → Job) : (s.updJob t f).monitor = s.monitor := rfl
@[simp] theorem updJob_store (t : Nat) (f : Job → Job) : (s.updJob t f).store = s.store := rfl
@[simp] theorem updJob_roster (t : Nat) (f : Job → Job) : (s.updJob t f).roster = s.roster := rfl
@[simp] theorem updJob_custody (t : Nat) (f : Job → Job) : (s.updJob t f).custody = s.custody := rfl
@[simp] theorem updJob_latch (t : Nat) (f : Job → Job) : (s.updJob t f).latch = s.latch := rfl
@[simp] theorem updJob_startQueue (t : Nat) (f : Job → Job) : (s.updJob t f).startQueue = s.startQueue := rfl
@[simp] theorem updJob_rampAt (t : Nat) (f : Job → Job) : (s.updJob t f).rampAt = s.rampAt := rfl
@[simp] theorem updJob_bays (t : Nat) (f : Job → Job) : (s.updJob t f).bays = s.bays := rfl
@[simp] theorem updJob_work (t : Nat) (f : Job → Job) : (s.updJob t f).work = s.work := rfl

/-! ## updGroup -/

@[simp] theorem updGroup_pending (c : Nat) (f : Group → Group) : (s.updGroup c f).pending = s.pending := rfl
@[simp] theorem updGroup_now (c : Nat) (f : Group → Group) : (s.updGroup c f).now = s.now := rfl
@[simp] theorem updGroup_resetN (c : Nat) (f : Group → Group) : (s.updGroup c f).resetN = s.resetN := rfl
@[simp] theorem updGroup_pins (c : Nat) (f : Group → Group) : (s.updGroup c f).pins = s.pins := rfl
@[simp] theorem updGroup_hub (c : Nat) (f : Group → Group) : (s.updGroup c f).hub = s.hub := rfl
@[simp] theorem updGroup_cartEvents (c : Nat) (f : Group → Group) : (s.updGroup c f).cartEvents = s.cartEvents := rfl
@[simp] theorem updGroup_geo (c : Nat) (f : Group → Group) : (s.updGroup c f).geo = s.geo := rfl
@[simp] theorem updGroup_mode (c : Nat) (f : Group → Group) : (s.updGroup c f).mode = s.mode := rfl
@[simp] theorem updGroup_alloc (c : Nat) (f : Group → Group) : (s.updGroup c f).alloc = s.alloc := rfl
@[simp] theorem updGroup_monitor (c : Nat) (f : Group → Group) : (s.updGroup c f).monitor = s.monitor := rfl
@[simp] theorem updGroup_store (c : Nat) (f : Group → Group) : (s.updGroup c f).store = s.store := rfl
@[simp] theorem updGroup_sched (c : Nat) (f : Group → Group) : (s.updGroup c f).sched = s.sched := rfl
@[simp] theorem updGroup_roster (c : Nat) (f : Group → Group) : (s.updGroup c f).roster = s.roster := rfl
@[simp] theorem updGroup_latch (c : Nat) (f : Group → Group) : (s.updGroup c f).latch = s.latch := rfl
@[simp] theorem updGroup_startQueue (c : Nat) (f : Group → Group) : (s.updGroup c f).startQueue = s.startQueue := rfl
@[simp] theorem updGroup_rampAt (c : Nat) (f : Group → Group) : (s.updGroup c f).rampAt = s.rampAt := rfl
@[simp] theorem updGroup_bays (c : Nat) (f : Group → Group) : (s.updGroup c f).bays = s.bays := rfl
@[simp] theorem updGroup_work (c : Nat) (f : Group → Group) : (s.updGroup c f).work = s.work := rfl

/-! ## updEntry -/

@[simp] theorem updEntry_pending (u : Nat) (f : UnitEntry → UnitEntry) : (s.updEntry u f).pending = s.pending := rfl
@[simp] theorem updEntry_now (u : Nat) (f : UnitEntry → UnitEntry) : (s.updEntry u f).now = s.now := rfl
@[simp] theorem updEntry_resetN (u : Nat) (f : UnitEntry → UnitEntry) : (s.updEntry u f).resetN = s.resetN := rfl
@[simp] theorem updEntry_pins (u : Nat) (f : UnitEntry → UnitEntry) : (s.updEntry u f).pins = s.pins := rfl
@[simp] theorem updEntry_hub (u : Nat) (f : UnitEntry → UnitEntry) : (s.updEntry u f).hub = s.hub := rfl
@[simp] theorem updEntry_cartEvents (u : Nat) (f : UnitEntry → UnitEntry) : (s.updEntry u f).cartEvents = s.cartEvents := rfl
@[simp] theorem updEntry_geo (u : Nat) (f : UnitEntry → UnitEntry) : (s.updEntry u f).geo = s.geo := rfl
@[simp] theorem updEntry_mode (u : Nat) (f : UnitEntry → UnitEntry) : (s.updEntry u f).mode = s.mode := rfl
@[simp] theorem updEntry_alloc (u : Nat) (f : UnitEntry → UnitEntry) : (s.updEntry u f).alloc = s.alloc := rfl
@[simp] theorem updEntry_monitor (u : Nat) (f : UnitEntry → UnitEntry) : (s.updEntry u f).monitor = s.monitor := rfl
@[simp] theorem updEntry_store (u : Nat) (f : UnitEntry → UnitEntry) : (s.updEntry u f).store = s.store := rfl
@[simp] theorem updEntry_sched (u : Nat) (f : UnitEntry → UnitEntry) : (s.updEntry u f).sched = s.sched := rfl
@[simp] theorem updEntry_roster (u : Nat) (f : UnitEntry → UnitEntry) : (s.updEntry u f).roster = s.roster := rfl
@[simp] theorem updEntry_latch (u : Nat) (f : UnitEntry → UnitEntry) : (s.updEntry u f).latch = s.latch := rfl
@[simp] theorem updEntry_startQueue (u : Nat) (f : UnitEntry → UnitEntry) : (s.updEntry u f).startQueue = s.startQueue := rfl
@[simp] theorem updEntry_rampAt (u : Nat) (f : UnitEntry → UnitEntry) : (s.updEntry u f).rampAt = s.rampAt := rfl
@[simp] theorem updEntry_bays (u : Nat) (f : UnitEntry → UnitEntry) : (s.updEntry u f).bays = s.bays := rfl
@[simp] theorem updEntry_work (u : Nat) (f : UnitEntry → UnitEntry) : (s.updEntry u f).work = s.work := rfl

/-! ## dropJob -/

@[simp] theorem dropJob_pending (t : Nat) : (s.dropJob t).pending = s.pending := rfl
@[simp] theorem dropJob_now (t : Nat) : (s.dropJob t).now = s.now := rfl
@[simp] theorem dropJob_resetN (t : Nat) : (s.dropJob t).resetN = s.resetN := rfl
@[simp] theorem dropJob_pins (t : Nat) : (s.dropJob t).pins = s.pins := rfl
@[simp] theorem dropJob_hub (t : Nat) : (s.dropJob t).hub = s.hub := rfl
@[simp] theorem dropJob_cartEvents (t : Nat) : (s.dropJob t).cartEvents = s.cartEvents := rfl
@[simp] theorem dropJob_geo (t : Nat) : (s.dropJob t).geo = s.geo := rfl
@[simp] theorem dropJob_mode (t : Nat) : (s.dropJob t).mode = s.mode := rfl
@[simp] theorem dropJob_alloc (t : Nat) : (s.dropJob t).alloc = s.alloc := rfl
@[simp] theorem dropJob_monitor (t : Nat) : (s.dropJob t).monitor = s.monitor := rfl
@[simp] theorem dropJob_store (t : Nat) : (s.dropJob t).store = s.store := rfl
@[simp] theorem dropJob_roster (t : Nat) : (s.dropJob t).roster = s.roster := rfl
@[simp] theorem dropJob_custody (t : Nat) : (s.dropJob t).custody = s.custody := rfl
@[simp] theorem dropJob_latch (t : Nat) : (s.dropJob t).latch = s.latch := rfl
@[simp] theorem dropJob_startQueue (t : Nat) : (s.dropJob t).startQueue = s.startQueue := rfl
@[simp] theorem dropJob_rampAt (t : Nat) : (s.dropJob t).rampAt = s.rampAt := rfl
@[simp] theorem dropJob_bays (t : Nat) : (s.dropJob t).bays = s.bays := rfl
@[simp] theorem dropJob_work (t : Nat) : (s.dropJob t).work = s.work := rfl

/-! ## dropMove -/

@[simp] theorem dropMove_pending (u : Nat) : (s.dropMove u).pending = s.pending := rfl
@[simp] theorem dropMove_now (u : Nat) : (s.dropMove u).now = s.now := rfl
@[simp] theorem dropMove_resetN (u : Nat) : (s.dropMove u).resetN = s.resetN := rfl
@[simp] theorem dropMove_pins (u : Nat) : (s.dropMove u).pins = s.pins := rfl
@[simp] theorem dropMove_hub (u : Nat) : (s.dropMove u).hub = s.hub := rfl
@[simp] theorem dropMove_cartEvents (u : Nat) : (s.dropMove u).cartEvents = s.cartEvents := rfl
@[simp] theorem dropMove_geo (u : Nat) : (s.dropMove u).geo = s.geo := rfl
@[simp] theorem dropMove_mode (u : Nat) : (s.dropMove u).mode = s.mode := rfl
@[simp] theorem dropMove_alloc (u : Nat) : (s.dropMove u).alloc = s.alloc := rfl
@[simp] theorem dropMove_monitor (u : Nat) : (s.dropMove u).monitor = s.monitor := rfl
@[simp] theorem dropMove_store (u : Nat) : (s.dropMove u).store = s.store := rfl
@[simp] theorem dropMove_sched (u : Nat) : (s.dropMove u).sched = s.sched := rfl
@[simp] theorem dropMove_roster (u : Nat) : (s.dropMove u).roster = s.roster := rfl
@[simp] theorem dropMove_custody (u : Nat) : (s.dropMove u).custody = s.custody := rfl
@[simp] theorem dropMove_startQueue (u : Nat) : (s.dropMove u).startQueue = s.startQueue := rfl
@[simp] theorem dropMove_rampAt (u : Nat) : (s.dropMove u).rampAt = s.rampAt := rfl
@[simp] theorem dropMove_bays (u : Nat) : (s.dropMove u).bays = s.bays := rfl
@[simp] theorem dropMove_work (u : Nat) : (s.dropMove u).work = s.work := rfl

/-! ## stopDrive -/

@[simp] theorem stopDrive_pending (u : Nat) : (s.stopDrive u).pending = s.pending := rfl
@[simp] theorem stopDrive_now (u : Nat) : (s.stopDrive u).now = s.now := rfl
@[simp] theorem stopDrive_resetN (u : Nat) : (s.stopDrive u).resetN = s.resetN := rfl
@[simp] theorem stopDrive_pins (u : Nat) : (s.stopDrive u).pins = s.pins := rfl
@[simp] theorem stopDrive_hub (u : Nat) : (s.stopDrive u).hub = s.hub := rfl
@[simp] theorem stopDrive_cartEvents (u : Nat) : (s.stopDrive u).cartEvents = s.cartEvents := rfl
@[simp] theorem stopDrive_geo (u : Nat) : (s.stopDrive u).geo = s.geo := rfl
@[simp] theorem stopDrive_mode (u : Nat) : (s.stopDrive u).mode = s.mode := rfl
@[simp] theorem stopDrive_alloc (u : Nat) : (s.stopDrive u).alloc = s.alloc := rfl
@[simp] theorem stopDrive_monitor (u : Nat) : (s.stopDrive u).monitor = s.monitor := rfl
@[simp] theorem stopDrive_store (u : Nat) : (s.stopDrive u).store = s.store := rfl
@[simp] theorem stopDrive_sched (u : Nat) : (s.stopDrive u).sched = s.sched := rfl
@[simp] theorem stopDrive_roster (u : Nat) : (s.stopDrive u).roster = s.roster := rfl
@[simp] theorem stopDrive_custody (u : Nat) : (s.stopDrive u).custody = s.custody := rfl
@[simp] theorem stopDrive_startQueue (u : Nat) : (s.stopDrive u).startQueue = s.startQueue := rfl
@[simp] theorem stopDrive_rampAt (u : Nat) : (s.stopDrive u).rampAt = s.rampAt := rfl
@[simp] theorem stopDrive_bays (u : Nat) : (s.stopDrive u).bays = s.bays := rfl
@[simp] theorem stopDrive_work (u : Nat) : (s.stopDrive u).work = s.work := rfl

/-! ## reach -/

@[simp] theorem reach_pending (d : Nat) : (s.reach d).pending = s.pending := rfl
@[simp] theorem reach_resetN (d : Nat) : (s.reach d).resetN = s.resetN := rfl
@[simp] theorem reach_pins (d : Nat) : (s.reach d).pins = s.pins := rfl
@[simp] theorem reach_hub (d : Nat) : (s.reach d).hub = s.hub := rfl
@[simp] theorem reach_cartEvents (d : Nat) : (s.reach d).cartEvents = s.cartEvents := rfl
@[simp] theorem reach_geo (d : Nat) : (s.reach d).geo = s.geo := rfl
@[simp] theorem reach_mode (d : Nat) : (s.reach d).mode = s.mode := rfl
@[simp] theorem reach_alloc (d : Nat) : (s.reach d).alloc = s.alloc := rfl
@[simp] theorem reach_monitor (d : Nat) : (s.reach d).monitor = s.monitor := rfl
@[simp] theorem reach_store (d : Nat) : (s.reach d).store = s.store := rfl
@[simp] theorem reach_sched (d : Nat) : (s.reach d).sched = s.sched := rfl
@[simp] theorem reach_roster (d : Nat) : (s.reach d).roster = s.roster := rfl
@[simp] theorem reach_custody (d : Nat) : (s.reach d).custody = s.custody := rfl
@[simp] theorem reach_latch (d : Nat) : (s.reach d).latch = s.latch := rfl
@[simp] theorem reach_startQueue (d : Nat) : (s.reach d).startQueue = s.startQueue := rfl
@[simp] theorem reach_rampAt (d : Nat) : (s.reach d).rampAt = s.rampAt := rfl
@[simp] theorem reach_bays (d : Nat) : (s.reach d).bays = s.bays := rfl
@[simp] theorem reach_work (d : Nat) : (s.reach d).work = s.work := rfl

/-! ## Parts of the scheduler and of the latch controller an update leaves -/

@[simp] theorem updChan_queue (c : Nat) (f : Channel → Channel) : (s.updChan c f).sched.queue = s.sched.queue := rfl
@[simp] theorem updChan_active (c : Nat) (f : Channel → Channel) : (s.updChan c f).sched.active = s.sched.active := rfl
@[simp] theorem updChan_catalog (c : Nat) (f : Channel → Channel) : (s.updChan c f).sched.catalog = s.sched.catalog := rfl
@[simp] theorem updChan_nextTag (c : Nat) (f : Channel → Channel) : (s.updChan c f).sched.nextTag = s.sched.nextTag := rfl
@[simp] theorem updChan_scanAt (c : Nat) (f : Channel → Channel) : (s.updChan c f).sched.scanAt = s.sched.scanAt := rfl
@[simp] theorem updJob_channels (t : Nat) (f : Job → Job) : (s.updJob t f).sched.channels = s.sched.channels := rfl
@[simp] theorem updJob_catalog (t : Nat) (f : Job → Job) : (s.updJob t f).sched.catalog = s.sched.catalog := rfl
@[simp] theorem updJob_nextTag (t : Nat) (f : Job → Job) : (s.updJob t f).sched.nextTag = s.sched.nextTag := rfl
@[simp] theorem updJob_scanAt (t : Nat) (f : Job → Job) : (s.updJob t f).sched.scanAt = s.sched.scanAt := rfl
@[simp] theorem dropJob_channels (t : Nat) : (s.dropJob t).sched.channels = s.sched.channels := rfl
@[simp] theorem dropJob_catalog (t : Nat) : (s.dropJob t).sched.catalog = s.sched.catalog := rfl
@[simp] theorem dropJob_nextTag (t : Nat) : (s.dropJob t).sched.nextTag = s.sched.nextTag := rfl
@[simp] theorem dropJob_scanAt (t : Nat) : (s.dropJob t).sched.scanAt = s.sched.scanAt := rfl
@[simp] theorem updUnit_queue (u : Nat) (f : LatchUnit → LatchUnit) : (s.updUnit u f).latch.queue = s.latch.queue := rfl
@[simp] theorem updUnit_drvA (u : Nat) (f : LatchUnit → LatchUnit) : (s.updUnit u f).latch.drvA = s.latch.drvA := rfl
@[simp] theorem updUnit_drvB (u : Nat) (f : LatchUnit → LatchUnit) : (s.updUnit u f).latch.drvB = s.latch.drvB := rfl
@[simp] theorem dropMove_units (u : Nat) : (s.dropMove u).latch.units = s.latch.units := rfl

/-! ## The bay's parts are updates of the bay -/

theorem updSess_eq (b : Nat) (f : Session → Session) : s.updSess b f = s.updBay b fun r => { r with sess := f r.sess } := rfl
theorem updLane_eq (b : Nat) (f : Lane → Lane) : s.updLane b f = s.updBay b fun r => { r with lane := f r.lane } := rfl
theorem updStage_eq (b : Nat) (f : Stage → Stage) : s.updStage b f = s.updBay b fun r => { r with stage := f r.stage } := rfl
theorem updPower_eq (b : Nat) (f : Power → Power) : s.updPower b f = s.updBay b fun r => { r with power := f r.power } := rfl
theorem updCust_eq (b : Nat) (f : Cust → Cust) : s.updCust b f = s.updBay b fun r => { r with cust := f r.cust } := rfl
theorem post_eq (b : Nat) (e : BayEvent) :
    s.post b e = s.updBay b fun r => { r with events := setBit r.events e.bit } := rfl

end Sys2Proof.Laws
end

