-- ==== Sys2Proof/Laws/Bays.lean ====
section
/-! SUPPORT. Reading a record after an update of the records; slot numbers; loops over a list of numbers. -/

namespace Sys2Proof.Laws

open Machine

/-! ## Bays -/

/-- A map that keeps bay numbers finds the mapped record. -/
theorem find_map_num (g : Bay → Bay) (hg : ∀ r, (g r).num = r.num) (c : Nat) (l : List Bay) :
    (l.map g).find? (·.num == c) = (l.find? (·.num == c)).map g := by
  induction l with
  | nil => rfl
  | cons r l ih =>
    simp only [List.map_cons, List.find?_cons, hg]
    cases r.num == c <;> simp [ih]

theorem bay?_mapBays (s : State) (g : Bay → Bay) (hg : ∀ r, (g r).num = r.num) (c : Nat) :
    ({ s with bays := s.bays.map g }).bay? c = (s.bay? c).map g :=
  find_map_num g hg c s.bays

theorem bay?_num {s : State} {b : Nat} {r : Bay} (h : s.bay? b = some r) : r.num = b := by
  have := List.find?_some h
  simpa using this

/-- A bay's record is one of the list, or the fresh record of a bay that does not exist. -/
theorem bay_eq (s : State) (b : Nat) :
    (s.bay? b = some (s.bay b) ∧ s.bay b ∈ s.bays) ∨ (s.bay? b = none ∧ s.bay b = Bay.fresh b 0 0 .p1 0) := by
  unfold State.bay
  cases h : s.bay? b with
  | none => exact .inr ⟨rfl, rfl⟩
  | some r => exact .inl ⟨rfl, List.mem_of_find?_eq_some h⟩

theorem bay_num (s : State) (b : Nat) : (s.bay b).num = b := by
  rcases bay_eq s b with ⟨h, _⟩ | ⟨_, h⟩
  · exact bay?_num h
  · rw [h]; rfl

theorem bay?_updBay (s : State) (b : Nat) (f : Bay → Bay) (hf : ∀ r, (f r).num = r.num) (c : Nat) :
    (s.updBay b f).bay? c = if c = b then (s.bay? c).map f else s.bay? c := by
  rw [show (s.updBay b f).bay? c = (s.bay? c).map fun r => if r.num = b then f r else r from
    bay?_mapBays s _ (fun r => by split <;> simp [hf]) c]
  cases h : s.bay? c with
  | none => simp
  | some r =>
    have hr := bay?_num h
    simp only [Option.map_some, hr]
    split <;> rfl

/-- The record read after an update of one bay. -/
theorem bay_updBay_ne (s : State) (b : Nat) (f : Bay → Bay) (hf : ∀ r, (f r).num = r.num) {c : Nat} (h : c ≠ b) :
    (s.updBay b f).bay c = s.bay c := by
  unfold State.bay
  rw [bay?_updBay s b f hf, if_neg h]

theorem bay_updBay_eq (s : State) (b : Nat) (f : Bay → Bay) (hf : ∀ r, (f r).num = r.num) (h : s.hasBay b = true) :
    (s.updBay b f).bay b = f (s.bay b) := by
  unfold State.bay
  rw [bay?_updBay s b f hf, if_pos rfl]
  unfold State.hasBay at h
  cases hb : s.bay? b with
  | none => rw [hb] at h; cases h
  | some r => rfl

/-- An update that leaves a record as it is leaves the state as it is. -/
theorem updBay_same (s : State) (b : Nat) (f : Bay → Bay) (h : ∀ r ∈ s.bays, r.num = b → f r = r) : s.updBay b f = s := by
  have : s.bays.map (fun r => if r.num = b then f r else r) = s.bays := by
    conv => rhs; rw [← List.map_id s.bays]
    apply List.map_congr_left
    intro r hr
    split
    · exact h r hr ‹_›
    · rfl
  unfold State.updBay
  rw [this]

/-- Where there is no bay nothing is updated. -/
theorem updBay_nil {s : State} (h : s.bays = []) (b : Nat) (f : Bay → Bay) : s.updBay b f = s :=
  updBay_same s b f (by simp [h])

theorem bay_nil {s : State} (h : s.bays = []) (b : Nat) : s.bay b = Bay.fresh b 0 0 .p1 0 := by
  simp [State.bay, State.bay?, h]

/-! ## Slots -/

/-- An update of a slot that keeps its number keeps every slot's number. -/
theorem updSlot_nums (s : State) (k : Nat) (f : Slot → Slot) (hf : ∀ r, r.num = k → (f r).num = r.num) :
    (s.updSlot k f).store.map (·.num) = s.store.map (·.num) := by
  simp only [State.updSlot, List.map_map]
  refine List.map_congr_left fun r _ => ?_
  simp only [Function.comp_apply]
  split
  · exact hf r ‹_›
  · rfl

/-- Where no slot number stands twice, a slot of the store is the one its number finds. -/
theorem slot?_of_mem {s : State} (hn : (s.store.map (·.num)).Nodup) {k : Slot} (hk : k ∈ s.store) : s.slot? k.num = some k := by
  unfold State.slot?
  revert hn hk
  induction s.store with
  | nil => exact fun _ hk => absurd hk (by simp)
  | cons x l ih =>
    intro hn hk
    obtain ⟨hx, hl⟩ := List.nodup_cons.1 hn
    rcases List.mem_cons.1 hk with rfl | hk
    · simp
    · have : x.num ≠ k.num := fun h => hx (List.mem_map.2 ⟨k, hk, h.symm⟩)
      simpa [this] using ih hl hk

/-! ## Loops -/

/-- What every turn of a loop keeps, the loop keeps. -/
theorem forEach_keeps {P : State → Prop} (f : State → Nat → State) (hf : ∀ s b, P s → P (f s b)) (l : List Nat) :
    ∀ s : State, P s → P (s.forEach l f) := by
  induction l with
  | nil => exact fun _ h => h
  | cons b l ih => exact fun s h => ih _ (hf s b h)

/-- What the turns of a loop over `l` keep, the loop keeps. -/
theorem forEach_keeps_mem {P : State → Prop} (f : State → Nat → State) :
    ∀ (l : List Nat), (∀ s, ∀ b ∈ l, P s → P (f s b)) → ∀ s : State, P s → P (s.forEach l f)
  | [], _, _, h => h
  | b :: l, hf, s, h =>
    forEach_keeps_mem f l (fun s c hc => hf s c (List.mem_cons_of_mem _ hc)) _ (hf s b (List.mem_cons_self ..) h)

theorem forEach_nil (s : State) (f : State → Nat → State) : s.forEach [] f = s := rfl

end Sys2Proof.Laws
end

