-- ==== Sys2Proof/Laws/Frame.lean ====
section
/-! SUPPORT. The frame `SameBut`, with the hub link, is a preorder, and the small updates that passes, scans, drivers, lanes and lamps are made of
keep it. -/

namespace Sys2Proof.Machine

open Laws

/-- `SameBut`, and the hub link unchanged: what the parts of `settle` keep one by one. -/
structure Kept (s t : State) : Prop where
  cart : SameCart s t
  bays : ∀ b, SameBay (s.bay b) (t.bay b)
  jobless : ∀ b, s.jobOf b = none → t.jobOf b = none ∧ (t.bay b).lastJob = (s.bay b).lastJob
  hub : t.hub = s.hub

theorem Kept.same {s t : State} (h : Kept s t) : SameBut s t := ⟨h.cart, h.bays, h.jobless⟩

/-! ## Reflexive and transitive -/

theorem SameLane.refl (l : Lane) : SameLane l l :=
  ⟨rfl, rfl, rfl, rfl, rfl, rfl, rfl, fun _ => ⟨rfl, rfl, rfl, rfl, rfl, rfl, rfl, rfl⟩⟩

theorem SameStage.refl (x : Stage) : SameStage x x := ⟨rfl, rfl, rfl, rfl, rfl, rfl, rfl, .inl rfl⟩

theorem SameBay.refl (r : Bay) : SameBay r r :=
  ⟨rfl, rfl, rfl, rfl, rfl, rfl, rfl, rfl, rfl, rfl, .inl rfl, SameLane.refl _, SameStage.refl _, BitVec.and_self⟩

theorem SameCart.refl (s : State) : SameCart s s :=
  ⟨rfl, rfl, rfl, rfl, rfl, rfl, rfl, rfl, rfl, rfl, rfl, rfl, rfl, rfl, rfl, rfl, rfl, rfl, rfl, rfl, rfl, rfl, rfl⟩

theorem Kept.refl (s : State) : Kept s s := ⟨SameCart.refl s, fun _ => SameBay.refl _, fun _ h => ⟨h, rfl⟩, rfl⟩

theorem SameBut.refl (s : State) : SameBut s s := (Kept.refl s).same

theorem SameSession.trans {x y z : Session} (h : SameSession x y) (k : SameSession y z) : SameSession x z := by
  rcases h with rfl | ⟨hx, rfl⟩
  · exact k
  · rcases k with rfl | ⟨hy, _⟩
    · exact .inr ⟨hx, rfl⟩
    · cases hy

theorem SameLane.free_eq {l m : Lane} (h : SameLane l m) (hb : l.free = false) : m.free = false := by
  obtain ⟨ha, hf, _⟩ := h.busy hb
  unfold Lane.free at hb ⊢
  rw [ha, hf, h.up]
  exact hb

theorem SameLane.trans {l m n : Lane} (h : SameLane l m) (k : SameLane m n) : SameLane l n where
  up := k.up.trans h.up
  hubDefer := k.hubDefer.trans h.hubDefer
  hubRefuse := k.hubRefuse.trans h.hubRefuse
  autoDefer := k.autoDefer.trans h.autoDefer
  callEnd := k.callEnd.trans h.callEnd
  wakeAt := k.wakeAt.trans h.wakeAt
  lastFail := k.lastFail.trans h.lastFail
  busy hb := by
    obtain ⟨a1, a2, a3, a4, a5, a6, a7, a8⟩ := h.busy hb
    obtain ⟨b1, b2, b3, b4, b5, b6, b7, b8⟩ := k.busy (h.free_eq hb)
    exact ⟨b1.trans a1, b2.trans a2, b3.trans a3, b4.trans a4, b5.trans a5, b6.trans a6, b7.trans a7, b8.trans a8⟩

theorem SameStage.trans {x y z : Stage} (h : SameStage x y) (k : SameStage y z) : SameStage x z where
  volts := k.volts.trans h.volts
  draw := k.draw.trans h.draw
  cap := k.cap.trans h.cap
  capCount := k.capCount.trans h.capCount
  trips := k.trips.trans h.trips
  coolAt := k.coolAt.trans h.coolAt
  sampleAt := k.sampleAt.trans h.sampleAt
  state := by
    rcases h.state with hs | ⟨h1, h2, h3⟩
    · rcases k.state with ks | ks
      · exact .inl (ks.trans hs)
      · rw [hs] at ks; exact .inr ks
    · refine .inr ⟨h1, h2, ?_⟩
      rcases k.state with ks | ⟨_, _, ks⟩
      · rw [ks]; exact h3
      · exact ks

theorem SameBay.trans {q r t : Bay} (h : SameBay q r) (k : SameBay r t) : SameBay q t where
  num := k.num.trans h.num
  rank := k.rank.trans h.rank
  unit := k.unit.trans h.unit
  enabled := k.enabled.trans h.enabled
  cap := k.cap.trans h.cap
  present := k.present.trans h.present
  presAt := k.presAt.trans h.presAt
  serve := k.serve.trans h.serve
  lastServe := k.lastServe.trans h.lastServe
  cust := k.cust.trans h.cust
  sess := SameSession.trans h.sess k.sess
  lane := h.lane.trans k.lane
  stage := h.stage.trans k.stage
  events := by
    conv => lhs; rw [← h.events]
    rw [BitVec.and_assoc, k.events, h.events]

theorem SameCart.trans {s t u : State} (h : SameCart s t) (k : SameCart t u) : SameCart s u where
  pending := k.pending.trans h.pending
  now := k.now.trans h.now
  resetN := k.resetN.trans h.resetN
  pins := k.pins.trans h.pins
  cartEvents := k.cartEvents.trans h.cartEvents
  geo := k.geo.trans h.geo
  mode := k.mode.trans h.mode
  monitor := k.monitor.trans h.monitor
  store := k.store.trans h.store
  roster := k.roster.trans h.roster
  custody := k.custody.trans h.custody
  rampAt := k.rampAt.trans h.rampAt
  settings := k.settings.trans h.settings
  catalog := k.catalog.trans h.catalog
  nextTag := k.nextTag.trans h.nextTag
  scanAt := k.scanAt.trans h.scanAt
  channels := k.channels.trans h.channels
  units := k.units.trans h.units
  nums := k.nums.trans h.nums
  mask := k.mask.trans h.mask
  receiver := ⟨k.receiver.1.trans h.receiver.1, k.receiver.2.1.trans h.receiver.2.1, k.receiver.2.2.trans h.receiver.2.2⟩

theorem Kept.trans {s t u : State} (h : Kept s t) (k : Kept t u) : Kept s u where
  cart := h.cart.trans k.cart
  bays b := (h.bays b).trans (k.bays b)
  jobless b hb := by
    obtain ⟨ht, hl⟩ := h.jobless b hb
    obtain ⟨ku, kl⟩ := k.jobless b ht
    exact ⟨ku, kl.trans hl⟩
  hub := k.hub.trans h.hub

theorem SameBut.trans {s t u : State} (h : SameBut s t) (k : SameBut t u) : SameBut s u where
  cart := h.cart.trans k.cart
  bays b := (h.bays b).trans (k.bays b)
  jobless b hb := by
    obtain ⟨ht, hl⟩ := h.jobless b hb
    obtain ⟨ku, kl⟩ := k.jobless b ht
    exact ⟨ku, kl.trans hl⟩

/-! ## Updates of bays -/

theorem Kept.mapBays (s : State) (g : Bay → Bay) (hb : ∀ r, SameBay r (g r)) (hj : ∀ r, (g r).lastJob = r.lastJob) :
    Kept s { s with bays := s.bays.map g } := by
  have hbay : ∀ b, SameBay (s.bay b) (State.bay { s with bays := s.bays.map g } b)
      ∧ (State.bay { s with bays := s.bays.map g } b).lastJob = (s.bay b).lastJob := by
    intro b
    unfold State.bay
    rw [bay?_mapBays s g (fun r => (hb r).num) b]
    cases s.bay? b with
    | none => exact ⟨SameBay.refl _, rfl⟩
    | some r => exact ⟨hb r, hj r⟩
  refine ⟨{ SameCart.refl s with nums := ?_ }, fun b => (hbay b).1, fun b hn => ⟨hn, (hbay b).2⟩, rfl⟩
  show ((s.bays.map g).map (·.num)) = _
  rw [List.map_map]
  exact List.map_congr_left fun r _ => (hb r).num

theorem Kept.updBay (s : State) (b : Nat) (f : Bay → Bay) (hb : ∀ r, SameBay r (f r)) (hj : ∀ r, (f r).lastJob = r.lastJob) :
    Kept s (s.updBay b f) :=
  Kept.mapBays s _ (fun r => by split; exacts [hb r, SameBay.refl r]) (fun r => by split; exacts [hj r, rfl])

theorem Kept.post (s : State) (b : Nat) (e : BayEvent) : Kept s (s.post b e) :=
  Kept.updBay s b _ (fun r => { SameBay.refl r with
    events := by show r.events &&& (r.events ||| _) = r.events; ext i; simp; tauto }) (fun _ => rfl)

theorem Kept.updPower (s : State) (b : Nat) (f : Power → Power) : Kept s (s.updPower b f) :=
  Kept.updBay s b _ (fun r => { SameBay.refl r with }) (fun _ => rfl)

/-- An update of a lane that touches the slots Stop and Job alone. -/
theorem Kept.updStopJob (s : State) (b : Nat) (f : Lane → Lane) (hf : ∀ l, SameLane l (f l)) : Kept s (s.updLane b f) :=
  Kept.updBay s b _ (fun r => { SameBay.refl r with lane := hf r.lane }) (fun _ => rfl)

theorem SameLane.withdrawJob (l : Lane) (t : Nat) : SameLane l (l.withdrawJob t) := by
  unfold Lane.withdrawJob
  split
  · exact SameLane.refl l
  · split
    · exact { SameLane.refl l with }
    · exact SameLane.refl l

theorem Kept.postStop (s : State) (b t : Nat) (c : Call) : Kept s (s.postStop b t c) := by
  unfold State.postStop State.postLane
  split
  · exact Kept.refl s
  · exact Kept.updStopJob s b _ fun l => (SameLane.withdrawJob l t).trans { SameLane.refl _ with }

/-! ## Updates outside the bays -/

theorem bay?_of_bays {s t : State} (h : t.bays = s.bays) (b : Nat) : t.bay? b = s.bay? b := by unfold State.bay?; rw [h]

theorem bay_of_bays {s t : State} (h : t.bays = s.bays) (b : Nat) : t.bay b = s.bay b := by
  unfold State.bay; rw [bay?_of_bays h]

/-- An update that leaves the bays as they are and adds no job to a bay. -/
theorem Kept.of_bays {s t : State} (hc : SameCart s t) (hh : t.hub = s.hub) (hb : t.bays = s.bays)
    (hj : ∀ b, s.jobOf b = none → t.jobOf b = none) : Kept s t :=
  ⟨hc, fun b => by rw [bay_of_bays hb]; exact SameBay.refl _, fun b h => ⟨hj b h, by rw [bay_of_bays hb]⟩, hh⟩

theorem Kept.work (s : State) (w : Work) : Kept s { s with work := w } :=
  Kept.of_bays { SameCart.refl s with } rfl rfl fun _ h => h

theorem Kept.askNormal (s : State) : Kept s s.askNormal := by
  unfold State.askNormal; split
  · exact Kept.work s _
  · exact Kept.refl s

theorem Kept.askScan (s : State) : Kept s s.askScan := by
  unfold State.askScan; split
  · exact Kept.work s _
  · exact Kept.refl s

theorem Kept.startQueue (s : State) (q : List Nat) : Kept s { s with startQueue := q } :=
  Kept.of_bays { SameCart.refl s with } rfl rfl fun _ h => h

/-- A change of the allocator that keeps its settings and its trim. -/
theorem Kept.alloc (s : State) (a : Alloc) (h : State.settings { s with alloc := a } = s.settings) :
    Kept s { s with alloc := a } :=
  Kept.of_bays { SameCart.refl s with settings := h } rfl rfl fun _ h => h

theorem Kept.updChan (s : State) (c : Nat) (f : Channel → Channel) (hf : ∀ r, (f r).num = r.num ∧ (f r).enabled = r.enabled) :
    Kept s (s.updChan c f) := by
  refine Kept.of_bays { SameCart.refl s with channels := ?_ } rfl rfl fun _ h => h
  unfold State.channelFlags State.updChan
  rw [List.map_map]
  refine List.map_congr_left fun r _ => ?_
  simp only [Function.comp]
  split
  · rw [(hf r).1, (hf r).2]
  · rfl

theorem Kept.releaseChannel (s : State) (c : Option Nat) : Kept s (s.releaseChannel c) := by
  unfold State.releaseChannel; split
  · exact Kept.refl s
  · exact Kept.updChan s _ _ fun _ => ⟨rfl, rfl⟩

theorem Kept.updUnit (s : State) (u : Nat) (f : LatchUnit → LatchUnit)
    (hf : ∀ r : LatchUnit, ((f r).num, (f r).rank, (f r).bays, (f r).doorOpen, (f r).doorAt, (f r).posLocked)
      = (r.num, r.rank, r.bays, r.doorOpen, r.doorAt, r.posLocked)) : Kept s (s.updUnit u f) := by
  refine Kept.of_bays { SameCart.refl s with units := ?_ } rfl rfl fun _ h => h
  show ((s.latch.units.map _).map _) = _
  rw [List.map_map]
  refine List.map_congr_left fun r _ => ?_
  simp only [Function.comp]
  split
  · exact hf r
  · rfl

theorem Kept.latch (s : State) (l : Latch) (h : l.units = s.latch.units) : Kept s { s with latch := l } :=
  Kept.of_bays { SameCart.refl s with units := by show l.units.map _ = s.latch.units.map _; rw [h] } rfl rfl fun _ h => h

/-! ## Jobs -/

theorem jobOf_none_iff (s : State) (b : Nat) : s.jobOf b = none ↔ ∀ j ∈ s.jobs, j.bay ≠ b := by
  unfold State.jobOf
  simp [List.find?_eq_none]

/-- The scheduler's list of jobs changes, and no bay gains one. -/
theorem Kept.jobs (s : State) (q a : List Job) (h : ∀ j ∈ a ++ q, ∃ i ∈ s.jobs, i.bay = j.bay) :
    Kept s { s with sched := { s.sched with queue := q, active := a } } := by
  refine Kept.of_bays { SameCart.refl s with } rfl rfl fun b hb => ?_
  rw [jobOf_none_iff] at hb ⊢
  intro j hj he
  obtain ⟨i, hi, hib⟩ := h j hj
  exact hb i hi (hib.trans he)

theorem Kept.dropJob (s : State) (t : Nat) : Kept s (s.dropJob t) := by
  refine Kept.jobs s _ _ fun j hj => ⟨j, ?_, rfl⟩
  rw [List.mem_append, List.mem_filter, List.mem_filter] at hj
  unfold State.jobs
  rw [List.mem_append]
  exact hj.imp And.left And.left

theorem Kept.updJob (s : State) (t : Nat) (f : Job → Job) (hf : ∀ j, (f j).bay = j.bay) : Kept s (s.updJob t f) := by
  refine Kept.jobs s _ _ fun j hj => ?_
  rw [List.mem_append, List.mem_map, List.mem_map] at hj
  unfold State.jobs
  rcases hj with ⟨i, hi, rfl⟩ | ⟨i, hi, rfl⟩
  · exact ⟨i, List.mem_append_left _ hi, by split <;> simp [hf]⟩
  · exact ⟨i, List.mem_append_right _ hi, by split <;> simp [hf]⟩

/-- A job of a bay that has had one joins the scheduler's lists. -/
theorem Kept.addJob {s0 s : State} (h : Kept s0 s) (q a : List Job) (w : Work) (j : Job) (hj : s0.jobOf j.bay ≠ none)
    (hm : ∀ i ∈ a ++ q, i = j ∨ i ∈ s.jobs) :
    Kept s0 { s with sched := { s.sched with queue := q, active := a }, work := w } := by
  refine ⟨h.cart.trans { SameCart.refl s with }, fun b => h.bays b, fun b hb => ?_, h.hub⟩
  obtain ⟨hn, hl⟩ := h.jobless b hb
  refine ⟨?_, hl⟩
  rw [jobOf_none_iff] at hn ⊢
  intro i hi he
  rcases hm i hi with rfl | hi
  · exact hj (he ▸ hb)
  · exact hn i hi he

/-- The bay's last outcome is written; the bay had a job. -/
theorem Kept.lastJob {s0 s : State} (h : Kept s0 s) (b : Nat) (o : Option JobOutcome) (hb : s0.jobOf b ≠ none) :
    Kept s0 (s.updBay b fun r => { r with lastJob := o }) := by
  have hs : ∀ r : Bay, SameBay r (if r.num = b then { r with lastJob := o } else r) := fun r => by
    split
    · exact { SameBay.refl r with }
    · exact SameBay.refl r
  refine ⟨h.cart.trans { SameCart.refl s with nums := ?_ }, fun c => (h.bays c).trans ?_, fun c hc => ?_, h.hub⟩
  · unfold State.updBay
    rw [List.map_map]
    exact List.map_congr_left fun r _ => (hs r).num
  · unfold State.bay
    rw [bay?_updBay s b (fun r => { r with lastJob := o }) (fun _ => rfl) c]
    split
    · cases s.bay? c with
      | none => exact SameBay.refl _
      | some r => exact { SameBay.refl r with }
    · exact SameBay.refl _
  · have hne : c ≠ b := fun he => hb (he ▸ hc)
    rw [bay_updBay_ne s b (fun r => { r with lastJob := o }) (fun _ => rfl) hne]
    exact h.jobless c hc

end Sys2Proof.Machine
end

