-- ==== Sys2Proof/Laws/Settle.lean ====
section
/-! SUPPORT. The end of an event keeps the frame: passes, scans, drivers, lanes and lamps one by one, then `settle`. -/

namespace Sys2Proof.Laws

open Machine

/-! ## Passes -/

theorem sameStage_takeTarget (x : Stage) (t : Nat) : SameStage x (x.takeTarget t) := by
  unfold Stage.takeTarget Stage.leaveOn
  split <;> rename_i hs <;> (try split) <;> (try split) <;>
    first
    | exact SameStage.refl x
    | exact { SameStage.refl x with }
    | exact { SameStage.refl x with state := .inr ⟨by simp [hs], by simp [hs], by simp⟩ }

theorem kept_handTarget (s : State) (b t : Nat) : Kept s (s.handTarget b t) := by
  have h : Kept s (s.updBay b fun r => { r with power := { r.power with target := t }, stage := r.stage.takeTarget t }) :=
    Kept.updBay s b _ (fun r => { SameBay.refl r with stage := sameStage_takeTarget r.stage t }) fun _ => rfl
  unfold State.handTarget
  dsimp only
  split
  · exact h.trans (Kept.startQueue _ _)
  · split
    · exact h.trans (Kept.startQueue _ _)
    · exact h

theorem kept_writeGrant (s : State) (g : Grant) : Kept s (s.writeGrant g) := by
  unfold State.writeGrant
  dsimp only
  have h := (Kept.updPower s g.dem.bay fun p =>
    { p with cls := some g.dem.cls, floor := g.dem.floor, ceil := g.dem.ceil, starved := !g.served }).trans
      (kept_handTarget _ g.dem.bay g.target)
  split
  · exact h.trans (Kept.post _ _ _)
  · exact h

theorem kept_writeNoDemand (s : State) (b : Nat) : Kept s (s.writeNoDemand b) :=
  (Kept.updPower s b _).trans (kept_handTarget _ b 0)

theorem kept_recordPass (s : State) (m : Summary) : Kept s (s.recordPass m) := Kept.alloc s _ rfl

/-- Whoever had no job has none after a job of another bay moves. -/
theorem mem_jobs_dropJob {s : State} {t : Nat} {i : Job} (h : i ∈ (s.dropJob t).jobs) : i ∈ s.jobs := by
  unfold State.jobs State.dropJob at h
  unfold State.jobs
  simp only [List.mem_append, List.mem_filter] at h ⊢
  exact h.imp And.left And.left

theorem mem_insertFront {l : List Nat} {j i : Job} : ∀ {q : List Job}, i ∈ insertFront l j q → i = j ∨ i ∈ q
  | [], h => by simpa [insertFront] using h
  | x :: xs, h => by
    unfold insertFront at h
    split at h
    · rcases List.mem_cons.1 h with rfl | h
      · exact .inr (List.mem_cons_self ..)
      · exact (mem_insertFront h).imp_right (List.mem_cons_of_mem _)
    · rcases List.mem_cons.1 h with rfl | h
      · exact .inl rfl
      · exact .inr h

theorem kept_suspendJob {s0 s : State} (h : Kept s0 s) (j : Job) (hj : s0.jobOf j.bay ≠ none) :
    Kept s0 (s.suspendJob j) := by
  unfold State.suspendJob
  dsimp only
  have h1 := h.trans (Kept.updStopJob s j.bay (fun l => l.withdrawJob j.tag) fun l => SameLane.withdrawJob l j.tag)
  have h2 : Kept s0 (if j.posted = true then
      (s.updLane j.bay fun l => l.withdrawJob j.tag).postStop j.bay j.tag (.pause j.tag)
      else s.updLane j.bay fun l => l.withdrawJob j.tag) := by
    split
    · exact h1.trans (Kept.postStop _ _ _ _)
    · exact h1
  have h3 := (h2.trans (Kept.releaseChannel _ j.channel)).trans (Kept.dropJob _ j.tag)
  refine Kept.trans (Kept.trans (Kept.addJob h3 _ _ _
    { j.stopTimers with state := .queued, channel := none, resume := true, posted := false, holds := 0 } hj ?_)
    (Kept.post _ j.bay .job)) (Kept.askNormal _)
  intro i hi
  rcases List.mem_append.1 hi with hi | hi
  · exact .inr (List.mem_append_left _ hi)
  · exact (mem_insertFront hi).imp_right fun hi => List.mem_append_right _ hi

theorem jobOf_bay {s : State} {b : Nat} {j : Job} (h : s.jobOf b = some j) : j.bay = b := by
  have := List.find?_some h
  simpa using this

theorem kept_suspendBay (s : State) (b : Nat) : Kept s (s.suspendBay b) := by
  unfold State.suspendBay
  split
  · exact Kept.refl s
  · rename_i j hj
    split
    · exact kept_suspendJob (Kept.refl s) j (by rw [jobOf_bay hj, hj]; simp)
    · exact Kept.refl s

theorem kept_forEach (s : State) (l : List Nat) (f : State → Nat → State) (hf : ∀ s b, Kept s (f s b)) :
    Kept s (s.forEach l f) :=
  forEach_keeps (P := Kept s) f (fun _ b h => h.trans (hf _ b)) l s (Kept.refl s)

theorem kept_suspendUnpowered (s : State) : Kept s s.suspendUnpowered := by
  refine kept_forEach s _ _ fun s b => ?_
  split
  · exact kept_suspendBay s b
  · exact Kept.refl s

theorem kept_foldGrants (l : List Grant) : ∀ s : State, Kept s (l.foldl State.writeGrant s) := by
  induction l with
  | nil => exact Kept.refl
  | cons g l ih => exact fun s => (kept_writeGrant s g).trans (ih _)

theorem kept_spaceRaised (s : State) : Kept s s.spaceRaised := by
  unfold State.spaceRaised
  split
  · exact Kept.refl s
  · exact (Kept.work s { s.work with passes := [] }).trans (Kept.alloc _ _ rfl)

theorem kept_runPass (s : State) (k : PassKind) : Kept s (s.runPass k) := by
  unfold State.runPass
  split
  · exact Kept.refl s
  · dsimp only
    have h := ((((kept_foldGrants (s.grants k).flatten s).trans
      (kept_forEach _ ((s.bays.map (·.num)).filter fun b => !(s.grants k).flatten.any fun g => g.dem.bay == b)
        State.writeNoDemand kept_writeNoDemand)).trans
      (kept_recordPass _ (s.summaryOf k (s.grants k)))).trans (kept_suspendUnpowered _)).trans (kept_spaceRaised _)
    split
    · exact h.trans (Kept.askScan _)
    · exact h.trans (Kept.askScan _)
    · exact h

theorem kept_takeNormal (s : State) : Kept s s.takeNormal := by
  unfold State.takeNormal
  split
  · exact Kept.refl s
  · exact kept_runPass _ _
  · split
    · exact kept_runPass _ _
    · exact Kept.alloc _ _ rfl

theorem kept_servePass (s : State) (r : PassRequest) : Kept s (s.servePass r) := by
  cases r
  · exact kept_takeNormal s
  · exact kept_runPass s .urgent

theorem kept_foldPasses (l : List PassRequest) : ∀ s : State, Kept s (l.foldl State.servePass s) := by
  induction l with
  | nil => exact Kept.refl
  | cons r l ih => exact fun s => (kept_servePass s r).trans (ih _)

theorem kept_servePasses (s : State) : Kept s s.servePasses :=
  (Kept.work s { s.work with passes := [] }).trans (kept_foldPasses _ _)

/-! ## The scan -/

theorem kept_endJob {s0 s : State} (h : Kept s0 s) (j : Job) (hj : s0.jobOf j.bay ≠ none) (done : Bool) (r : JobReason)
    (tell : Bool) : Kept s0 (s.endJob j done r tell) := by
  unfold State.endJob
  dsimp only
  have h1 := h.trans (Kept.updStopJob s j.bay (fun l => l.withdrawJob j.tag) fun l => SameLane.withdrawJob l j.tag)
  have h2 : Kept s0 (if tell = true then
      (s.updLane j.bay fun l => l.withdrawJob j.tag).postStop j.bay j.tag (.abort j.tag)
      else s.updLane j.bay fun l => l.withdrawJob j.tag) := by
    split
    · exact h1.trans (Kept.postStop _ _ _ _)
    · exact h1
  have h3 := h2.trans (Kept.releaseChannel _ j.channel)
  refine Kept.trans (Kept.lastJob (Kept.trans ?_ (Kept.dropJob _ _)) _ _ hj) (Kept.post _ _ _)
  split
  · exact h3.trans (Kept.askNormal _)
  · exact h3

theorem kept_beginWake {s : State} {b : Nat} (hs : (s.bay b).sess.state = .asleep) : Kept s (s.beginWake b) := by
  unfold State.beginWake
  refine Kept.trans ?_ (Kept.updStopJob _ b (fun l => { l with wakeAsked := true }) fun l => { SameLane.refl l with })
  rw [updSess_eq]
  have hb : (s.updBay b fun r => { r with sess := { r.sess with state := .waking, refreshAt := none } }).bay b
      = { s.bay b with sess := { (s.bay b).sess with state := .waking, refreshAt := none } } := by
    rcases bay_eq s b with ⟨hb, _⟩ | ⟨_, hf⟩
    · exact bay_updBay_eq s b (fun r => { r with sess := { r.sess with state := .waking, refreshAt := none } })
        (fun _ => rfl) (by simp [State.hasBay, hb])
    · rw [hf] at hs; cases hs
  have hc : ∀ c, c ≠ b → (s.updBay b fun r => { r with sess := { r.sess with state := .waking, refreshAt := none } }).bay c
      = s.bay c := fun c h =>
    bay_updBay_ne s b (fun r => { r with sess := { r.sess with state := .waking, refreshAt := none } }) (fun _ => rfl) h
  refine ⟨{ SameCart.refl s with nums := ?_ }, fun c => ?_, fun c hn => ⟨hn, ?_⟩, rfl⟩
  · unfold State.updBay
    rw [List.map_map]
    refine List.map_congr_left fun r _ => ?_
    simp only [Function.comp]
    split <;> rfl
  · by_cases h : c = b
    · subst h
      rw [hb]
      exact { SameBay.refl (s.bay c) with sess := .inr ⟨hs, rfl⟩ }
    · rw [hc c h]
      exact SameBay.refl _
  · by_cases h : c = b
    · subst h
      rw [hb]
    · rw [hc c h]

theorem kept_takeChannel {s0 s : State} (h : Kept s0 s) (j : Job) (hj : s0.jobOf j.bay ≠ none) (c : Channel) :
    Kept s0 (s.takeChannel j c) := by
  unfold State.takeChannel
  dsimp only
  have h1 := h.trans (Kept.dropJob s j.tag)
  refine Kept.trans (Kept.trans (Kept.addJob h1 _ _ (s.dropJob j.tag).work { j with
    state := .offered, channel := some c.num, posted := false, holds := 0, baseline := none
    settleAt := some (s.now + Config.settleTime) } hj ?_) (Kept.updChan _ c.num
      (fun r => { r with state := .assigned j.bay j.tag }) fun _ => ⟨rfl, rfl⟩)) (Kept.post _ j.bay .job)
  intro i hi
  rcases List.mem_append.1 hi with hi | hi
  · rcases List.mem_append.1 hi with hi | hi
    · exact .inr (List.mem_append_left _ hi)
    · exact .inl (List.mem_singleton.1 hi)
  · exact .inr (List.mem_append_right _ hi)

theorem kept_scanJob {s0 s : State} (h : Kept s0 s) (j : Job) (hj : s0.jobOf j.bay ≠ none) :
    Kept s0 (s.scanJob j).1 := by
  unfold State.scanJob
  dsimp only
  split
  · exact h
  · split <;> rename_i hs <;> try exact h
    · split
      · exact kept_endJob h j hj _ _ _
      · exact (h.trans (kept_beginWake hs)).trans (Kept.updJob _ _ _ fun _ => rfl)
    · split
      · exact kept_endJob h j hj _ _ _
      · split
        · exact kept_endJob h j hj _ _ _
        · split
          · exact kept_endJob h j hj _ _ _
          · split
            · unfold State.tryAdmit
              dsimp only
              have h1 := h.trans (kept_runPass s (.admission j.bay))
              split
              · exact kept_takeChannel h1 j hj _
              · exact h1
              · exact h1
            · exact h

theorem kept_scanWalk {s0 : State} : ∀ (l : List Job), (∀ j ∈ l, s0.jobOf j.bay ≠ none) → ∀ s, Kept s0 s →
    Kept s0 (State.scanWalk l s)
  | [], _, _, h => h
  | j :: js, hl, s, h => by
    have h1 := kept_scanJob h j (hl j (List.mem_cons_self ..))
    unfold State.scanWalk
    dsimp only
    split
    · exact h1
    · exact kept_scanWalk js (fun i hi => hl i (List.mem_cons_of_mem _ hi)) _ h1

theorem kept_runScan (s : State) : Kept s s.runScan := by
  refine kept_scanWalk s.sched.queue (fun j hj hn => ?_) s (Kept.refl s)
  rw [jobOf_none_iff] at hn
  exact hn j (List.mem_append_right _ hj) rfl

theorem kept_payWork (s : State) : Kept s s.payWork := by
  unfold State.payWork
  dsimp only
  refine Kept.trans ?_ (kept_servePasses _)
  split
  · exact (kept_servePasses s).trans (kept_runScan _)
  · exact kept_servePasses s

/-! ## Drivers, lanes and lamps -/

theorem kept_setUnit (s : State) (u : Nat) (st : UnitState) : Kept s (s.setUnit u st) := by
  unfold State.setUnit
  split
  · exact Kept.refl s
  · rename_i r _
    split
    · exact Kept.refl s
    · dsimp only
      have h := (Kept.updUnit s u (fun r => r.become st s.now) fun _ => rfl).trans
        (kept_forEach _ r.bays (fun s b => s.post b .latch) fun s b => Kept.post s b _)
      have h2 : ∀ t, Kept s t → Kept s (if r.state = .locked then t.suspendUnit u else t) := fun t ht => by
        split
        · exact ht.trans (kept_forEach _ _ _ kept_suspendBay)
        · exact ht
      split
      · exact (h2 _ h).trans (Kept.askScan _)
      · exact h2 _ h

theorem kept_driverTakes (s : State) (d : DriverId) : Kept s (s.driverTakes d) := by
  unfold State.driverTakes
  split
  · dsimp only
    refine Kept.trans ?_ (kept_setUnit _ _ _)
    refine Kept.trans (Kept.latch s { s.latch with queue := _ } rfl) (Kept.latch _ _ ?_)
    cases d <;> rfl
  · exact Kept.refl s
  · exact Kept.refl s

theorem kept_driversTake (s : State) : Kept s s.driversTake := (kept_driverTakes s .a).trans (kept_driverTakes _ .b)

theorem sameLane_laneNext {s : State} {b : Nat} {st : SessState} {l l' : Lane} (hf : l.free = true)
    (h : s.laneNext b st l = some l') : SameLane l l' := by
  have hc : s.chooseCall b l = some l' → SameLane l l' := by
    intro h
    unfold State.chooseCall Lane.startCall at h
    have mk : ∀ m : Lane, (m.up = l.up ∧ m.hubDefer = l.hubDefer ∧ m.hubRefuse = l.hubRefuse ∧ m.autoDefer = l.autoDefer
        ∧ m.callEnd = l.callEnd ∧ m.wakeAt = l.wakeAt ∧ m.lastFail = l.lastFail) → SameLane l m := by
      rintro m ⟨h1, h2, h3, h4, h5, h6, h7⟩
      exact ⟨h1, h2, h3, h4, h5, h6, h7, fun hb => by rw [hf] at hb; cases hb⟩
    split at h
    · exact mk _ (by simp only [Option.some.injEq] at h; subst h; simp)
    · exact mk _ (by simp only [Option.some.injEq] at h; subst h; simp)
    · exact mk _ (by simp only [Option.some.injEq] at h; subst h; simp)
    · split at h
      · exact mk _ (by simp only [Option.some.injEq] at h; subst h; simp)
      · split at h
        · exact mk _ (by simp only [Option.some.injEq] at h; subst h; simp)
        · exact mk _ (by simp only [Option.some.injEq] at h; subst h; simp)
        · cases h
  unfold State.laneNext at h
  split at h <;> try (first | exact hc h | cases h)
  split at h
  · simp only [Option.some.injEq] at h
    subst h
    exact ⟨rfl, rfl, rfl, rfl, rfl, rfl, rfl, fun hb => by rw [hf] at hb; cases hb⟩
  · cases h

theorem kept_kickLanes (s : State) : Kept s s.kickLanes := by
  refine Kept.mapBays s s.kickLane (fun r => ?_) fun r => ?_
  · unfold State.kickLane
    split
    · rename_i hf
      split
      · exact SameBay.refl r
      · rename_i l hl
        exact { SameBay.refl r with lane := sameLane_laneNext hf hl }
    · exact SameBay.refl r
  · unfold State.kickLane
    split
    · split <;> rfl
    · rfl

theorem kept_lightLamps (s : State) : Kept s s.lightLamps :=
  Kept.mapBays s _ (fun r => { SameBay.refl r with }) fun _ => rfl

theorem kept_sendLimits (s : State) : Kept s s.sendLimits := by
  refine Kept.mapBays s _ (fun r => { SameBay.refl r with stage := ?_ }) fun _ => rfl
  unfold Stage.sendLimit
  split
  · exact { SameStage.refl r.stage with }
  · exact SameStage.refl r.stage

/-- The end of an event keeps the frame. -/
theorem kept_settle (s : State) : Kept s s.settle := by
  unfold State.settle
  exact (((((kept_payWork s).trans (kept_driversTake _)).trans (kept_kickLanes _)).trans (kept_lightLamps _)).trans
    (kept_sendLimits _)).trans (Kept.work _ _)

theorem settle_same (s : State) : SameBut s s.settle := (kept_settle s).same

@[simp] theorem settle_hub (s : State) : s.settle.hub = s.hub := (kept_settle s).hub

@[simp] theorem settle_work (s : State) : s.settle.work = Work.none := rfl

end Sys2Proof.Laws
end

