-- ==== Sys2Proof/Laws/Quiet.lean ====
section
/-! SUPPORT. The end of an event leaves a quiet state, and does nothing to one; what the hub link's output does. -/

namespace Sys2Proof.Laws

open Machine

/-! ## Bool facts about quiet -/

theorem quiet_iff (s : State) : s.quiet = true ↔ s.work = Work.none ∧ s.driversQuiet = true ∧ s.lanesQuiet = true
    ∧ s.lampsRight = true ∧ s.limitsRight = true ∧ s.noticeQuiet = true ∧ s.outputQuiet = true ∧ s.replyRight = true := by
  unfold State.quiet
  simp only [Bool.and_eq_true, beq_iff_eq]
  tauto

/-- The part of `quiet` that `settle` is about: it reads nothing of the hub link. -/
def inner (s : State) : Prop :=
  s.work = Work.none ∧ s.driversQuiet = true ∧ s.lanesQuiet = true ∧ s.lampsRight = true ∧ s.limitsRight = true

/-- The part of `quiet` that the hub link's own flags are about. -/
def linkRight (s : State) : Prop := (s.hub.notice = true → s.hub.noticeOutstanding = true) ∧ s.replyRight = true

theorem quiet_inner {s : State} (h : s.quiet = true) : inner s := by
  obtain ⟨a, b, c, d, e, _⟩ := (quiet_iff s).1 h
  exact ⟨a, b, c, d, e⟩

theorem quiet_linkRight {s : State} (h : s.quiet = true) : linkRight s := by
  obtain ⟨_, _, _, _, _, n, _, r⟩ := (quiet_iff s).1 h
  refine ⟨fun hn => ?_, r⟩
  unfold State.noticeQuiet at n
  rw [hn] at n
  simpa using n

/-! ## A settled state -/

theorem nextMove_none {q : List Move} (h : nextMove q = none) : q = [] := by
  unfold nextMove at h
  split at h
  · cases h
  · cases q with
    | nil => rfl
    | cons => cases h

theorem askNormal_latch (s : State) : s.askNormal.latch = s.latch := by unfold State.askNormal; split <;> rfl

theorem postStop_latch (s : State) (b t : Nat) (c : Call) : (s.postStop b t c).latch = s.latch := by
  unfold State.postStop State.postLane; split <;> rfl

theorem releaseChannel_latch (s : State) (c : Option Nat) : (s.releaseChannel c).latch = s.latch := by
  unfold State.releaseChannel; split <;> rfl

theorem suspendBay_latch (s : State) (b : Nat) : (s.suspendBay b).latch = s.latch := by
  unfold State.suspendBay
  split
  · rfl
  · split
    · unfold State.suspendJob
      dsimp only
      rw [askNormal_latch, post_eq, updBay_latch]
      dsimp only
      rw [dropJob_latch, releaseChannel_latch]
      split
      · rw [postStop_latch]; rfl
      · rfl
    · rfl

theorem setUnit_latch (s : State) (u : Nat) (st : UnitState) :
    (s.setUnit u st).latch.queue = s.latch.queue ∧ (s.setUnit u st).latch.drvA = s.latch.drvA
      ∧ (s.setUnit u st).latch.drvB = s.latch.drvB := by
  have hpost : ∀ (l : List Nat) (t : State), (t.forEach l fun s b => s.post b .latch).latch = t.latch := fun l t =>
    forEach_keeps (P := fun v => v.latch = t.latch) (fun s b => s.post b .latch) (fun _ _ h => h) l t rfl
  have hsus : ∀ (l : List Nat) (t : State), (t.forEach l fun s b => s.suspendBay b).latch = t.latch := fun l t =>
    forEach_keeps (P := fun v => v.latch = t.latch) (fun s b => s.suspendBay b)
      (fun v b h => (suspendBay_latch v b).trans h) l t rfl
  unfold State.setUnit
  split
  · exact ⟨rfl, rfl, rfl⟩
  · rename_i r _
    split
    · exact ⟨rfl, rfl, rfl⟩
    · have h : ∀ t : State, t.latch.queue = s.latch.queue ∧ t.latch.drvA = s.latch.drvA ∧ t.latch.drvB = s.latch.drvB →
          (if st = .locked then t.askScan else t).latch.queue = s.latch.queue
          ∧ (if st = .locked then t.askScan else t).latch.drvA = s.latch.drvA
          ∧ (if st = .locked then t.askScan else t).latch.drvB = s.latch.drvB := fun t ht => by
        split
        · unfold State.askScan; split <;> exact ht
        · exact ht
      refine h _ ?_
      split
      · unfold State.suspendUnit
        rw [hsus, hpost]
        exact ⟨rfl, rfl, rfl⟩
      · rw [hpost]
        exact ⟨rfl, rfl, rfl⟩

theorem driverTakes_drivers (s : State) (d : DriverId) : ((s.driverTakes d).latch.driver d).isSome = true
    ∨ ((s.driverTakes d).latch.queue = [] ∧ s.driverTakes d = s) := by
  unfold State.driverTakes
  split
  · left
    have h := setUnit_latch
    dsimp only
    cases d <;> simp [Latch.driver, h, Latch.setDriver]
  · rename_i hm
    exact .inr ⟨nextMove_none hm, rfl⟩
  · rename_i hs
    left; rw [hs]; rfl

theorem driverTakes_b_drvA (s : State) : (s.driverTakes .b).latch.drvA = s.latch.drvA := by
  unfold State.driverTakes
  split
  · simp [setUnit_latch, Latch.setDriver, State.dropMove]
  · rfl
  · rfl

theorem driversTake_quiet (s : State) : s.driversTake.driversQuiet = true := by
  unfold State.driversTake State.driversQuiet
  rcases driverTakes_drivers (s.driverTakes .a) .b with hb | ⟨hq, _⟩
  · rcases driverTakes_drivers s .a with ha | ⟨hq, he⟩
    · rw [driverTakes_b_drvA]
      unfold Latch.driver at ha hb
      dsimp only at ha hb
      simp [ha, hb]
    · have hn : ((s.driverTakes .a).driverTakes .b).latch.queue = [] := by
        generalize s.driverTakes .a = t at hq
        unfold State.driverTakes
        split
        · rename_i h _
          rw [hq] at *
          simp_all [nextMove]
        · exact hq
        · exact hq
      simp [hn]
  · simp [hq]

/-- What `laneNext` finds to do does not depend on what it would write. -/
theorem chooseCall_isSome (s t : State) (b c : Nat) (l : Lane) : (s.chooseCall b l).isSome = (t.chooseCall c l).isSome := by
  unfold State.chooseCall
  split <;> try rfl
  split
  · rfl
  · split <;> rfl

theorem laneNext_isSome (s t : State) (b c : Nat) (st : SessState) (l : Lane) :
    (s.laneNext b st l).isSome = (t.laneNext c st l).isSome := by
  unfold State.laneNext
  split <;> first
    | rfl
    | exact chooseCall_isSome s t b c l
    | (split <;> rfl)

theorem laneNext_busy {s : State} {b : Nat} {st : SessState} {l l' : Lane} (h : s.laneNext b st l = some l') :
    l'.free = false := by
  have hc : s.chooseCall b l = some l' → l'.free = false := by
    intro h
    unfold State.chooseCall Lane.startCall at h
    split at h
    · cases h; simp [Lane.free]
    · cases h; simp [Lane.free]
    · cases h; simp [Lane.free]
    · split at h
      · cases h; simp [Lane.free]
      · split at h
        · cases h; simp [Lane.free]
        · cases h; simp [Lane.free]
        · cases h
  unfold State.laneNext at h
  split at h <;> try (first | exact hc h | cases h)
  split at h
  · cases h; simp [Lane.free]
  · cases h

theorem kickLane_num (s : State) (r : Bay) : (s.kickLane r).num = r.num := by
  unfold State.kickLane; split
  · split <;> rfl
  · rfl

theorem kickLane_sess (s : State) (r : Bay) : (s.kickLane r).sess = r.sess := by
  unfold State.kickLane; split
  · split <;> rfl
  · rfl

theorem kickLane_settled (s t : State) (r : Bay) :
    ((s.kickLane r).lane.free && (t.laneNext (s.kickLane r).num (s.kickLane r).sess.state (s.kickLane r).lane).isSome) = false := by
  rw [kickLane_num, kickLane_sess]
  unfold State.kickLane
  split
  · split
    · rename_i h
      rw [laneNext_isSome t s r.num r.num, h]
      simp
    · rename_i l h
      simp [laneNext_busy h]
  · rename_i h
    simp [h]

theorem kickLanes_quiet (s : State) : s.kickLanes.lanesQuiet = true := by
  unfold State.lanesQuiet State.kickLanes
  rw [List.all_eq_true]
  intro r hr
  obtain ⟨q, _, rfl⟩ := List.mem_map.1 hr
  simp only [Bool.not_eq_true']
  exact kickLane_settled s _ q

theorem indicatorOf_indicator (s : State) (r : Bay) (i : Indicator) :
    s.indicatorOf { r with indicator := i } = s.indicatorOf r := rfl

theorem lightLamps_right (s : State) : s.lightLamps.lampsRight = true := by
  unfold State.lampsRight State.lightLamps
  rw [List.all_eq_true]
  intro r hr
  obtain ⟨q, _, rfl⟩ := List.mem_map.1 hr
  rw [beq_iff_eq]
  rfl

theorem lightLamps_lanes (s : State) (hk : s.lanesQuiet = true) : s.lightLamps.lanesQuiet = true := by
  unfold State.lanesQuiet State.lightLamps at *
  rw [List.all_map]
  rw [List.all_eq_true] at hk ⊢
  intro r hr
  have := hk r hr
  simp only [Function.comp, Bool.not_eq_true', laneNext_isSome _ s r.num r.num] at this ⊢
  exact this

theorem sendLimits_right (s : State) : s.sendLimits.limitsRight = true := by
  unfold State.limitsRight State.sendLimits
  rw [List.all_map, List.all_eq_true]
  intro r _
  simp only [Function.comp, Stage.sendLimit]
  split
  · simp
  · rename_i h
    simp [h]

theorem sendLimits_lanes (s : State) (hk : s.lanesQuiet = true) : s.sendLimits.lanesQuiet = true := by
  unfold State.lanesQuiet State.sendLimits at *
  rw [List.all_map]
  rw [List.all_eq_true] at hk ⊢
  intro r hr
  have := hk r hr
  simp only [Function.comp, Bool.not_eq_true', laneNext_isSome _ s r.num r.num] at this ⊢
  exact this

theorem sendLimit_state (st : Stage) : st.sendLimit.state = st.state := by unfold Stage.sendLimit; split <;> rfl

/-- The limits change no lamp: a lamp reads of a stage its state alone. -/
theorem indicatorOf_sendLimits (s : State) (r : Bay) :
    s.sendLimits.indicatorOf { r with stage := r.stage.sendLimit } = s.indicatorOf r := by
  unfold State.indicatorOf
  simp only [sendLimit_state]
  rfl

theorem sendLimits_lamps (s : State) (h : s.lampsRight = true) : s.sendLimits.lampsRight = true := by
  unfold State.lampsRight at *
  rw [show s.sendLimits.bays = s.bays.map fun r => { r with stage := r.stage.sendLimit } from rfl, List.all_map]
  rw [List.all_eq_true] at h ⊢
  intro r hr
  simp only [Function.comp, indicatorOf_sendLimits]
  exact h r hr

theorem lit_drivers (s : State) (h : s.driversQuiet = true) : s.kickLanes.lightLamps.sendLimits.driversQuiet = true := h

theorem inner_of_paid (s : State) (hd : s.driversQuiet = true) (hl : s.lanesQuiet = true) (hi : s.lampsRight = true)
    (hm : s.limitsRight = true) : inner { s with work := Work.none } := ⟨rfl, hd, hl, hi, hm⟩

/-- The end of an event leaves nothing to do inside the part. -/
theorem settle_inner (s : State) : inner s.settle := by
  unfold State.settle
  generalize s.payWork = w
  have hd := lit_drivers _ (driversTake_quiet w)
  have hl := sendLimits_lanes _ (lightLamps_lanes _ (kickLanes_quiet w.driversTake))
  have hi := sendLimits_lamps _ (lightLamps_right w.driversTake.kickLanes)
  have hm := sendLimits_right w.driversTake.kickLanes.lightLamps
  generalize w.driversTake.kickLanes.lightLamps.sendLimits = u at hd hl hi hm ⊢
  exact inner_of_paid u hd hl hi hm

theorem driverTakes_quiet {s : State} (h : s.driversQuiet = true) (d : DriverId) : s.driverTakes d = s := by
  unfold State.driversQuiet at h
  unfold State.driverTakes
  split
  · rename_i hd hm
    rcases Bool.or_eq_true_iff.1 h with hq | hq
    · rw [List.isEmpty_iff] at hq
      rw [hq] at hm; simp [nextMove] at hm
    · obtain ⟨ha, hb⟩ := Bool.and_eq_true_iff.1 hq
      cases d <;> simp_all [Latch.driver]
  · rfl
  · rfl

/-- The end of an event does nothing where nothing is left to do. -/
theorem settle_of_inner {s : State} (h : inner s) : s.settle = s := by
  obtain ⟨hw, hd, hl, hi, hm⟩ := h
  have hp : s.payWork = s := by
    have hs : s.servePasses = s := by
      unfold State.servePasses
      rw [hw]
      show { s with work := Work.none } = s
      rw [← hw]
    unfold State.payWork
    simp [hs, hw, Work.none]
  have hk : s.kickLanes = s := by
    unfold State.kickLanes
    have : s.bays.map s.kickLane = s.bays := by
      conv => rhs; rw [← List.map_id s.bays]
      refine List.map_congr_left fun r hr => ?_
      unfold State.lanesQuiet at hl
      have := (List.all_eq_true.1 hl) r hr
      unfold State.kickLane
      split
      · rename_i hf
        rw [hf] at this
        cases hn : s.laneNext r.num r.sess.state r.lane with
        | none => rfl
        | some l => rw [hn] at this; simp at this
      · rfl
    rw [this]
  have hla : s.lightLamps = s := by
    unfold State.lightLamps
    have : s.bays.map (fun r => { r with indicator := s.indicatorOf r }) = s.bays := by
      conv => rhs; rw [← List.map_id s.bays]
      refine List.map_congr_left fun r hr => ?_
      unfold State.lampsRight at hi
      have := (List.all_eq_true.1 hi) r hr
      rw [beq_iff_eq] at this
      rw [← this]
      rfl
    rw [this]
  have hse : s.sendLimits = s := by
    unfold State.sendLimits
    have : s.bays.map (fun r => { r with stage := r.stage.sendLimit }) = s.bays := by
      conv => rhs; rw [← List.map_id s.bays]
      refine List.map_congr_left fun r hr => ?_
      have := (List.all_eq_true.1 hm) r hr
      rw [show r.stage.sendLimit = r.stage by
        unfold Stage.sendLimit
        split
        · rename_i ho
          simp only [ho, bne_self_eq_false, Bool.false_or, beq_iff_eq] at this
          rw [← this]
        · rfl]
      rfl
    rw [this]
  unfold State.settle
  rw [hp, show s.driversTake = s by unfold State.driversTake; rw [driverTakes_quiet hd, driverTakes_quiet hd], hk, hla, hse,
    ← hw]

/-- A quiet state is left as it is by the end of an event. -/
theorem settle_quiet {s : State} (h : s.quiet = true) : s.settle = s := settle_of_inner (quiet_inner h)

/-! ## The hub link's output -/

/-- The output changes the hub link alone. -/
theorem startOutput_link (s : State) : { s.startOutput with hub := s.hub } = s := by
  unfold State.startOutput
  split <;> try rfl
  split
  · split <;> rfl
  · rfl

theorem queueNotice_link (s : State) : { s.queueNotice with hub := s.hub } = s := by
  unfold State.queueNotice; split <;> rfl

theorem sameButLink_refl (s : State) : s.sameButLink s := rfl

theorem sameButLink_iff (t u : State) : t.sameButLink u ↔ ∃ h, t = { u with hub := h } := by
  unfold State.sameButLink
  constructor
  · intro h
    refine ⟨t.hub, ?_⟩
    rw [← h]
  · rintro ⟨h, rfl⟩
    rfl

theorem sameButLink_trans {s t u : State} (h : s.sameButLink t) (k : t.sameButLink u) : s.sameButLink u := by
  obtain ⟨a, rfl⟩ := (sameButLink_iff _ _).1 h
  obtain ⟨b, rfl⟩ := (sameButLink_iff _ _).1 k
  rfl

theorem startOutput_sameButLink (s : State) : s.startOutput.sameButLink s := startOutput_link s

theorem queueNotice_sameButLink (s : State) : s.queueNotice.sameButLink s := queueNotice_link s

theorem announce_sameButLink (s : State) : s.announce.sameButLink s :=
  sameButLink_trans (startOutput_sameButLink _) (queueNotice_sameButLink s)

theorem inner_sameButLink {s t : State} (h : t.sameButLink s) (hs : inner s) : inner t := by
  obtain ⟨a, rfl⟩ := (sameButLink_iff _ _).1 h
  exact hs

/-- The frame holds from one link state to another. -/
theorem sameBut_announce (s : State) : SameBut s s.announce := by
  have hm : s.announce.hub.mask = s.hub.mask ∧ s.announce.hub.rx = s.hub.rx
      ∧ s.announce.hub.receiverOpen = s.hub.receiverOpen ∧ s.announce.hub.resetDue = s.hub.resetDue := by
    unfold State.announce State.queueNotice State.startOutput
    split <;> split <;> (try split) <;> (try split) <;> exact ⟨rfl, rfl, rfl, rfl⟩
  obtain ⟨h, he⟩ := (sameButLink_iff _ _).1 (announce_sameButLink s)
  rw [he] at hm ⊢
  exact ⟨{ SameCart.refl s with mask := hm.1, receiver := hm.2 }, fun _ => SameBay.refl _, fun _ hn => ⟨hn, rfl⟩⟩

/-- The end of an event keeps the frame. -/
theorem sameBut_conclude (s : State) : SameBut s s.conclude := (settle_same s).trans (sameBut_announce _)

/-- What the output leaves once the link's flags are right. -/
theorem announce_output {s : State} (h : linkRight s) :
    s.announce.noticeQuiet = true ∧ s.announce.outputQuiet = true ∧ s.announce.replyRight = true := by
  obtain ⟨hn, hr⟩ := h
  have hany : ∀ l : Hub, l.mask = s.hub.mask → State.anyEnabled { s with hub := l } = s.anyEnabled := by
    intro l h
    unfold State.anyEnabled State.enabledCart
    rw [h]
  unfold State.announce State.queueNotice State.replyRight State.sendingReply at *
  cases hb : s.hub.notice with
  | true =>
    have ho := hn hb
    rw [if_neg (by simp [ho])]
    unfold State.startOutput State.noticeQuiet State.outputQuiet
    split <;> try simp_all [State.committed]
    split <;> simp_all [State.committed]
  | false =>
    split
    · rename_i hc
      have he : s.anyEnabled = true := by simp only [Bool.and_eq_true] at hc; exact hc.2
      unfold State.startOutput State.noticeQuiet State.outputQuiet
      dsimp only
      split <;> simp_all [State.committed]
    · rename_i hc
      unfold State.startOutput State.noticeQuiet State.outputQuiet
      have hq : (s.geo = none ∨ s.hub.noticeOutstanding = true) ∨ s.anyEnabled = false := by
        cases hg : s.geo <;> cases ho : s.hub.noticeOutstanding <;> simp_all [State.committed]
      split <;> simp_all [State.committed]

/-- The end of an event leaves a quiet state. -/
theorem announce_quiet {s : State} (hi : inner s) (hl : linkRight s) : s.announce.quiet = true := by
  obtain ⟨a, b, c, d, e⟩ := inner_sameButLink (announce_sameButLink s) hi
  exact (quiet_iff _).2 ⟨a, b, c, d, e, announce_output hl⟩

theorem linkRight_of_hub {s t : State} (h : t.hub = s.hub) (hs : linkRight s) : linkRight t := by
  unfold linkRight State.replyRight State.sendingReply at *
  rw [h]; exact hs

theorem conclude_quiet {s : State} (h : linkRight s) : s.conclude.quiet = true :=
  announce_quiet (settle_inner s) (linkRight_of_hub (settle_hub s) h)

/-- Nothing is announced where nothing is owed. -/
theorem announce_of_quiet {s : State} (h : s.quiet = true) : s.announce = s := by
  obtain ⟨_, _, _, _, _, n, o, _⟩ := (quiet_iff s).1 h
  have hq : s.queueNotice = s := by
    unfold State.queueNotice State.noticeQuiet at *
    split
    · rename_i hc
      rw [hc] at n; simp at n
    · rfl
  unfold State.announce
  rw [hq]
  unfold State.startOutput State.outputQuiet at *
  split
  · rfl
  · rename_i h1 h2; rw [h1, h2] at o; simp at o
  · rename_i h1 h2 h3; rw [h1, h2, h3] at o; simp at o
  · rename_i h1 h2 h3
    rw [h1, h2, h3] at o
    split
    · rename_i hn; rw [hn] at o; simp at o
    · rfl

theorem conclude_of_quiet {s : State} (h : s.quiet = true) : s.conclude = s := by
  unfold State.conclude
  rw [settle_quiet h, announce_of_quiet h]

/-! ## Replies -/

/-- After a reply is queued and announced, it waits or is being sent. -/
theorem announce_answers (s : State) (kind tag : Byte) (body : Bytes) (h : s.hub.replyPending = true) :
    (s.queueReply kind tag body).announce.answers kind tag body := by
  unfold State.answers State.announce State.queueNotice State.queueReply
  split
  · unfold State.startOutput; dsimp only; split <;> simp_all
  · unfold State.startOutput; dsimp only; split <;> simp_all

end Sys2Proof.Laws
end

