-- ==== Sys2Proof/Laws/Outer.lean ====
section
/-! SUPPORT. What no block's operation touches while an event runs: the queue of commands, RESET_N, the hub link, the geometry,
the cart mode, the roster, the ramp timer, the catalog, the scan timer, the release minimum, the ajar limit and the numbers of the
profile slots. One law for each operation; the requests that write one of these have their own. -/

namespace Sys2Proof.Laws

open Machine

set_option linter.unusedSimpArgs false

/-- The state an event's operations leave alone. -/
def outer (s : State) :
    List Instr × Bool × Hub × Option Geometry × Mode × List Credential × Option Nat × List Image × Option Nat × Nat × Nat
      × List Nat :=
  (s.pending, s.resetN, s.hub, s.geo, s.mode, s.roster, s.rampAt, s.sched.catalog, s.sched.scanAt, s.custody.releaseMin,
    s.custody.ajarLimit, s.store.map (·.num))

theorem outer_iff (s t : State) : outer t = outer s ↔ t.pending = s.pending ∧ t.resetN = s.resetN ∧ t.hub = s.hub
    ∧ t.geo = s.geo ∧ t.mode = s.mode ∧ t.roster = s.roster ∧ t.rampAt = s.rampAt ∧ t.sched.catalog = s.sched.catalog
    ∧ t.sched.scanAt = s.sched.scanAt ∧ t.custody.releaseMin = s.custody.releaseMin
    ∧ t.custody.ajarLimit = s.custody.ajarLimit ∧ t.store.map (·.num) = s.store.map (·.num) := by
  simp only [outer, Prod.mk.injEq]

theorem outer_of_kept {s t : State} (h : Kept s t) : outer t = outer s :=
  (outer_iff s t).2 ⟨h.cart.pending, h.cart.resetN, h.hub, h.cart.geo, h.cart.mode, h.cart.roster, h.cart.rampAt,
    h.cart.catalog, h.cart.scanAt, by rw [h.cart.custody], by rw [h.cart.custody], by rw [h.cart.store]⟩

section
variable (s : State)

@[simp] theorem outer_with (n : Nat) (p : Inputs) (ce : BitVec 3) (al : Alloc) (mo : Monitor) (l : Latch)
    (sq : List Nat) (b : List Bay) (w : Work) :
    outer { s with
      now := n, pins := p, cartEvents := ce, alloc := al, monitor := mo, latch := l, startQueue := sq, bays := b
      work := w } = outer s := rfl

@[simp] theorem outer_with_sched (n : Nat) (p : Inputs) (ce : BitVec 3) (al : Alloc) (mo : Monitor)
    (l : Latch) (sq : List Nat) (b : List Bay) (w : Work) (nt : Nat) (q a : List Job) (ch : List Channel) :
    outer { s with
      now := n, pins := p, cartEvents := ce, alloc := al, monitor := mo, latch := l, startQueue := sq, bays := b
      work := w
      sched := { s.sched with nextTag := nt, queue := q, active := a, channels := ch } } = outer s := rfl

@[simp] theorem outer_with_custody (n : Nat) (p : Inputs) (ce : BitVec 3) (al : Alloc) (mo : Monitor)
    (l : Latch) (sq : List Nat) (b : List Bay) (w : Work) (r : Nat) (g : List Group) :
    outer { s with
      now := n, pins := p, cartEvents := ce, alloc := al, monitor := mo, latch := l, startQueue := sq, bays := b
      work := w
      custody := { s.custody with removals := r, groups := g } } = outer s := rfl

@[simp] theorem outer_updBay (b : Nat) (f : Bay → Bay) : outer (s.updBay b f) = outer s := rfl
@[simp] theorem outer_updUnit (u : Nat) (f : LatchUnit → LatchUnit) : outer (s.updUnit u f) = outer s := rfl
@[simp] theorem outer_updSlot (k : Nat) (f : Slot → Slot) (hf : ∀ r, r.num = k → (f r).num = r.num) :
    outer (s.updSlot k f) = outer s := by
  rw [outer_iff]
  simp [updSlot_nums s k f hf]
@[simp] theorem outer_updChan (c : Nat) (f : Channel → Channel) : outer (s.updChan c f) = outer s := rfl
@[simp] theorem outer_updJob (t : Nat) (f : Job → Job) : outer (s.updJob t f) = outer s := rfl
@[simp] theorem outer_settle : outer s.settle = outer s := outer_of_kept (kept_settle s)
@[simp] theorem outer_runPass (k : PassKind) : outer (s.runPass k) = outer s := outer_of_kept (kept_runPass s k)

@[simp] theorem outer_forEach (f : State → Nat → State) (hf : ∀ s b, outer (f s b) = outer s) (l : List Nat) :
    outer (s.forEach l f) = outer s :=
  forEach_keeps (P := fun v => outer v = outer s) f (fun v b h => (hf v b).trans h) l s rfl

end

@[simp] theorem outer_reach (s : State) (d : Nat) : outer (s.reach d) = outer s := by
  simp only [State.reach, apply_ite outer, ite_self]
  repeat' split
  all_goals first | rfl | simp

@[simp] theorem outer_updSess (s : State) (b : Nat) (f : Session → Session) : outer (s.updSess b f) = outer s := by
  simp only [State.updSess, apply_ite outer, ite_self]
  repeat' split
  all_goals first | rfl | simp

@[simp] theorem outer_updLane (s : State) (b : Nat) (f : Lane → Lane) : outer (s.updLane b f) = outer s := by
  simp only [State.updLane, apply_ite outer, ite_self]
  repeat' split
  all_goals first | rfl | simp

@[simp] theorem outer_updStage (s : State) (b : Nat) (f : Stage → Stage) : outer (s.updStage b f) = outer s := by
  simp only [State.updStage, apply_ite outer, ite_self]
  repeat' split
  all_goals first | rfl | simp

@[simp] theorem outer_updPower (s : State) (b : Nat) (f : Power → Power) : outer (s.updPower b f) = outer s := by
  simp only [State.updPower, apply_ite outer, ite_self]
  repeat' split
  all_goals first | rfl | simp

@[simp] theorem outer_updCust (s : State) (b : Nat) (f : Cust → Cust) : outer (s.updCust b f) = outer s := by
  simp only [State.updCust, apply_ite outer, ite_self]
  repeat' split
  all_goals first | rfl | simp

@[simp] theorem outer_post (s : State) (b : Nat) (e : BayEvent) : outer (s.post b e) = outer s := by
  simp only [State.post, apply_ite outer, ite_self]
  repeat' split
  all_goals first | rfl | simp

@[simp] theorem outer_postCart (s : State) (e : CartEvent) : outer (s.postCart e) = outer s := by
  simp only [State.postCart, apply_ite outer, ite_self]
  repeat' split
  all_goals first | rfl | simp

@[simp] theorem outer_askNormal (s : State) : outer (s.askNormal) = outer s := by
  simp only [State.askNormal, apply_ite outer, ite_self]
  repeat' split
  all_goals first | rfl | simp

@[simp] theorem outer_askUrgent (s : State) : outer (s.askUrgent) = outer s := by
  simp only [State.askUrgent, apply_ite outer, ite_self]
  repeat' split
  all_goals first | rfl | simp

@[simp] theorem outer_askScan (s : State) : outer (s.askScan) = outer s := by
  simp only [State.askScan, apply_ite outer, ite_self]
  repeat' split
  all_goals first | rfl | simp

@[simp] theorem outer_handTarget (s : State) (b target : Nat) : outer (s.handTarget b target) = outer s := by
  simp only [State.handTarget, apply_ite outer, ite_self]
  repeat' split
  all_goals first | rfl | simp

@[simp] theorem outer_clearCap (s : State) (b : Nat) : outer (s.clearCap b) = outer s := by
  simp only [State.clearCap, apply_ite outer, ite_self]
  repeat' split
  all_goals first | rfl | simp

@[simp] theorem outer_contractChanged (s : State) (b : Nat) : outer (s.contractChanged b) = outer s := by
  simp only [State.contractChanged, apply_ite outer, ite_self]
  repeat' split
  all_goals first | rfl | simp

@[simp] theorem outer_rampTick (s : State) : outer (s.rampTick) = outer s := by
  simp only [State.rampTick, apply_ite outer, ite_self]
  repeat' split
  all_goals first | rfl | simp

@[simp] theorem outer_stageSample (s : State) (b draw mv : Nat) : outer (s.stageSample b draw mv) = outer s := by
  simp only [State.stageSample, apply_ite outer, ite_self]
  repeat' split
  all_goals first | rfl | simp

@[simp] theorem outer_tripStage (s : State) (b : Nat) : outer (s.tripStage b) = outer s := by
  simp only [State.tripStage, apply_ite outer, ite_self]
  repeat' split
  all_goals first | rfl | simp

@[simp] theorem outer_postLane (s : State) (b : Nat) (f : Lane → Lane) : outer (s.postLane b f) = outer s := by
  simp only [State.postLane, apply_ite outer, ite_self]
  repeat' split
  all_goals first | rfl | simp

@[simp] theorem outer_withdrawGreeting (s : State) (b : Nat) : outer (s.withdrawGreeting b) = outer s := rfl

@[simp] theorem outer_withdrawIdent (s : State) (b : Nat) : outer (s.withdrawIdent b) = outer s := rfl

@[simp] theorem outer_postGreeting (s : State) (b : Nat) (c : Call) (p : Plan) : outer (s.postGreeting b c p) = outer s := by
  simp only [State.postGreeting, apply_ite outer, ite_self]
  repeat' split
  all_goals first | rfl | simp

@[simp] theorem outer_postStop (s : State) (b tag : Nat) (c : Call) : outer (s.postStop b tag c) = outer s := by
  simp only [State.postStop, apply_ite outer, ite_self]
  repeat' split
  all_goals first | rfl | simp

@[simp] theorem outer_postJob (s : State) (b : Nat) (c : Call) : outer (s.postJob b c) = outer s := by
  simp only [State.postJob, apply_ite outer, ite_self]
  repeat' split
  all_goals first | rfl | simp

@[simp] theorem outer_postIdent (s : State) (b offset : Nat) : outer (s.postIdent b offset) = outer s := by
  simp only [State.postIdent, apply_ite outer, ite_self]
  repeat' split
  all_goals first | rfl | simp

@[simp] theorem outer_postServe (s : State) (b : Nat) (c : Call) : outer (s.postServe b c) = outer s := by
  simp only [State.postServe, apply_ite outer, ite_self]
  repeat' split
  all_goals first | rfl | simp

@[simp] theorem outer_pollDue (s : State) (b : Nat) : outer (s.pollDue b) = outer s := by
  simp only [State.pollDue, apply_ite outer, ite_self]
  repeat' split
  all_goals first | rfl | simp

@[simp] theorem outer_nextAttempt (s : State) (b : Nat) : outer (s.nextAttempt b) = outer s := by
  simp only [State.nextAttempt, apply_ite outer, ite_self]
  repeat' split
  all_goals first | rfl | simp

@[simp] theorem outer_releaseChannel (s : State) (c : Option Nat) : outer (s.releaseChannel c) = outer s := by
  simp only [State.releaseChannel, apply_ite outer, ite_self]
  repeat' split
  all_goals first | rfl | simp

@[simp] theorem outer_dropJob (s : State) (t : Nat) : outer (s.dropJob t) = outer s := by
  simp only [State.dropJob, apply_ite outer, ite_self]
  repeat' split
  all_goals first | rfl | simp

@[simp] theorem outer_endJob (s : State) (j : Job) (done : Bool) (reason : JobReason) (tellTablet : Bool) :
    outer (s.endJob j done reason tellTablet) = outer s := by
  simp only [State.endJob, apply_ite outer, ite_self]
  repeat' split
  all_goals first | rfl | simp

@[simp] theorem outer_abortBay (s : State) (b : Nat) (reason : JobReason) (tellTablet : Bool) :
    outer (s.abortBay b reason tellTablet) = outer s := by
  simp only [State.abortBay, apply_ite outer, ite_self]
  repeat' split
  all_goals first | rfl | simp

@[simp] theorem outer_suspendJob (s : State) (j : Job) : outer (s.suspendJob j) = outer s := by
  simp only [State.suspendJob, apply_ite outer, ite_self]
  repeat' split
  all_goals first | rfl | simp

@[simp] theorem outer_suspendBay (s : State) (b : Nat) : outer (s.suspendBay b) = outer s := by
  simp only [State.suspendBay, apply_ite outer, ite_self]
  repeat' split
  all_goals first | rfl | simp

@[simp] theorem outer_createJob (s : State) (b image priority : Nat) (origin : Origin) :
    outer (s.createJob b image priority origin) = outer s := by
  simp only [State.createJob, apply_ite outer, ite_self]
  repeat' split
  all_goals first | rfl | simp

@[simp] theorem outer_checkIn (s : State) (b : Nat) : outer (s.checkIn b) = outer s := by
  simp only [State.checkIn, apply_ite outer, ite_self]
  repeat' split
  all_goals first | rfl | simp

@[simp] theorem outer_replyAsk (s : State) (b : Nat) (r : Reply) : outer (s.replyAsk b r) = outer s := by
  simp only [State.replyAsk, apply_ite outer, ite_self]
  repeat' split
  all_goals first | rfl | simp

@[simp] theorem outer_deferAsk (s : State) (b : Nat) : outer (s.deferAsk b) = outer s := by
  simp only [State.deferAsk, apply_ite outer, ite_self]
  repeat' split
  all_goals first | rfl | simp

@[simp] theorem outer_decideJobAsk (s : State) (b id : Nat) : outer (s.decideJobAsk b id) = outer s := by
  simp only [State.decideJobAsk, apply_ite outer, ite_self]
  repeat' split
  all_goals first | rfl | simp

@[simp] theorem outer_wakeOver (s : State) (b : Nat) : outer (s.wakeOver b) = outer s := by
  simp only [State.wakeOver, apply_ite outer, ite_self]
  repeat' split
  all_goals first | rfl | simp

@[simp] theorem outer_wakeFailedJob (s : State) (b : Nat) : outer (s.wakeFailedJob b) = outer s := by
  simp only [State.wakeFailedJob, apply_ite outer, ite_self]
  repeat' split
  all_goals first | rfl | simp

@[simp] theorem outer_postEnvelope (s : State) (j : Job) : outer (s.postEnvelope j) = outer s := by
  simp only [State.postEnvelope, apply_ite outer, ite_self]
  repeat' split
  all_goals first | rfl | simp

@[simp] theorem outer_envelopeAnswer (s : State) (b tag : Nat) (h : Reply) : outer (s.envelopeAnswer b tag h) = outer s := by
  simp only [State.envelopeAnswer, apply_ite outer, ite_self]
  repeat' split
  all_goals first | rfl | simp

@[simp] theorem outer_takeProgress (s : State) (b progress : Nat) : outer (s.takeProgress b progress) = outer s := by
  simp only [State.takeProgress, apply_ite outer, ite_self]
  repeat' split
  all_goals first | rfl | simp

@[simp] theorem outer_receiptReady (s : State) (b : Nat) : outer (s.receiptReady b) = outer s := by
  simp only [State.receiptReady, apply_ite outer, ite_self]
  repeat' split
  all_goals first | rfl | simp

@[simp] theorem outer_installVersion (s : State) (b version : Nat) : outer (s.installVersion b version) = outer s := by
  simp only [State.installVersion, apply_ite outer, ite_self]
  repeat' split
  all_goals first | rfl | simp

@[simp] theorem outer_receiptAnswer (s : State) (b callTag : Nat) (tag result version : Nat) :
    outer (s.receiptAnswer b callTag tag result version) = outer s := by
  simp only [State.receiptAnswer, apply_ite outer, ite_self]
  repeat' split
  all_goals first | rfl | simp

@[simp] theorem outer_addAlarm (s : State) (b : Nat) (a : Alarm) : outer (s.addAlarm b a) = outer s := by
  simp only [State.addAlarm, apply_ite outer, ite_self]
  repeat' split
  all_goals first | rfl | simp

@[simp] theorem outer_removeAlarm (s : State) (b : Nat) (a : Alarm) : outer (s.removeAlarm b a) = outer s := by
  simp only [State.removeAlarm, apply_ite outer, ite_self]
  repeat' split
  all_goals first | rfl | simp

@[simp] theorem outer_alarmUnit (s : State) (u : Nat) (a : Alarm) : outer (s.alarmUnit u a) = outer s := by
  simp only [State.alarmUnit, apply_ite outer, ite_self]
  repeat' split
  all_goals first | rfl | simp

@[simp] theorem outer_quietUnit (s : State) (u : Nat) (a : Alarm) : outer (s.quietUnit u a) = outer s := by
  simp only [State.quietUnit, apply_ite outer, ite_self]
  repeat' split
  all_goals first | rfl | simp

@[simp] theorem outer_updGroup (s : State) (c : Nat) (f : Group → Group) : outer (s.updGroup c f) = outer s := by
  simp only [State.updGroup, apply_ite outer, ite_self]
  repeat' split
  all_goals first | rfl | simp

@[simp] theorem outer_updEntry (s : State) (u : Nat) (f : UnitEntry → UnitEntry) : outer (s.updEntry u f) = outer s := by
  simp only [State.updEntry, apply_ite outer, ite_self]
  repeat' split
  all_goals first | rfl | simp

@[simp] theorem outer_handBack (s : State) (u : Nat) : outer (s.handBack u) = outer s := by
  simp only [State.handBack, outer_updEntry]

@[simp] theorem outer_endGroup (s : State) (c : Nat) : outer (s.endGroup c) = outer s := by
  simp only [State.endGroup, apply_ite outer, ite_self]
  repeat' split
  all_goals first | rfl | simp

@[simp] theorem outer_endGroupOfUnit (s : State) (u : Nat) : outer (s.endGroupOfUnit u) = outer s := by
  simp only [State.endGroupOfUnit, apply_ite outer, ite_self]
  repeat' split
  all_goals first | rfl | simp

@[simp] theorem outer_closeCheckout (s : State) (c : Nat) (n : Note) : outer (s.closeCheckout c n) = outer s := by
  simp only [State.closeCheckout, apply_ite outer, ite_self]
  repeat' split
  all_goals first | rfl | simp

@[simp] theorem outer_returnElsewhere (s : State) (c b : Nat) (serial : Bytes) :
    outer (s.returnElsewhere c b serial) = outer s := by
  simp only [State.returnElsewhere, apply_ite outer, ite_self]
  repeat' split
  all_goals first | rfl | simp

@[simp] theorem outer_stock (s : State) (b : Nat) (keep : Bool) (kind : NoteKind) (cred : Option Nat) (serial : Option Bytes) (other : Option Nat) :
    outer (s.stock b keep kind cred serial other) = outer s := by
  simp only [State.stock, apply_ite outer, ite_self]
  repeat' split
  all_goals first | rfl | simp

@[simp] theorem outer_reconcile (s : State) (b : Nat) (outcome : Seen) : outer (s.reconcile b outcome) = outer s := by
  simp only [State.reconcile, apply_ite outer, ite_self]
  repeat' split
  all_goals first | rfl | simp

@[simp] theorem outer_matchStocked (s : State) (b : Nat) (outcome : Seen) : outer (s.matchStocked b outcome) = outer s := by
  simp only [State.matchStocked, apply_ite outer, ite_self]
  repeat' split
  all_goals first | rfl | simp

@[simp] theorem outer_identityReport (s : State) (b : Nat) (outcome : Seen) : outer (s.identityReport b outcome) = outer s := by
  simp only [State.identityReport, apply_ite outer, ite_self]
  repeat' split
  all_goals first | rfl | simp

@[simp] theorem outer_removalInPeriod (s : State) (b : Nat) : outer (s.removalInPeriod b) = outer s := by
  simp only [State.removalInPeriod, apply_ite outer, ite_self]
  repeat' split
  all_goals first | rfl | simp

@[simp] theorem outer_insertionInPeriod (s : State) (b : Nat) : outer (s.insertionInPeriod b) = outer s := by
  simp only [State.insertionInPeriod, apply_ite outer, ite_self]
  repeat' split
  all_goals first | rfl | simp

@[simp] theorem outer_removalOutside (s : State) (b : Nat) : outer (s.removalOutside b) = outer s := by
  simp only [State.removalOutside, apply_ite outer, ite_self]
  repeat' split
  all_goals first | rfl | simp

@[simp] theorem outer_insertionOutside (s : State) (b : Nat) : outer (s.insertionOutside b) = outer s := by
  simp only [State.insertionOutside, apply_ite outer, ite_self]
  repeat' split
  all_goals first | rfl | simp

@[simp] theorem outer_custodyRemoval (s : State) (b : Nat) : outer (s.custodyRemoval b) = outer s := by
  simp only [State.custodyRemoval, apply_ite outer, ite_self]
  repeat' split
  all_goals first | rfl | simp

@[simp] theorem outer_custodyInsertion (s : State) (b : Nat) : outer (s.custodyInsertion b) = outer s := by
  simp only [State.custodyInsertion, apply_ite outer, ite_self]
  repeat' split
  all_goals first | rfl | simp

@[simp] theorem outer_settleTaken (s : State) (cred b : Nat) : outer (s.settleTaken cred b) = outer s := by
  simp only [State.settleTaken, apply_ite outer, ite_self]
  repeat' split
  all_goals first | rfl | simp

@[simp] theorem outer_settleInserted (s : State) (cred b : Nat) : outer (s.settleInserted cred b) = outer s := by
  simp only [State.settleInserted, apply_ite outer, ite_self]
  repeat' split
  all_goals first | rfl | simp

@[simp] theorem outer_closePeriod (s : State) (u : Nat) (fault : Bool) : outer (s.closePeriod u fault) = outer s := by
  simp only [State.closePeriod, apply_ite outer, ite_self]
  repeat' split
  all_goals first | rfl | simp

@[simp] theorem outer_reportUnlocked (s : State) (u : Nat) : outer (s.reportUnlocked u) = outer s := by
  simp only [State.reportUnlocked, apply_ite outer, ite_self]
  repeat' split
  all_goals first | rfl | simp

@[simp] theorem outer_reportReleaseFailed (s : State) (u : Nat) : outer (s.reportReleaseFailed u) = outer s := by
  simp only [State.reportReleaseFailed, apply_ite outer, ite_self]
  repeat' split
  all_goals first | rfl | simp

@[simp] theorem outer_reportDoorOpened (s : State) (u : Nat) : outer (s.reportDoorOpened u) = outer s := by
  simp only [State.reportDoorOpened, apply_ite outer, ite_self]
  repeat' split
  all_goals first | rfl | simp

@[simp] theorem outer_reportLapsed (s : State) (u : Nat) : outer (s.reportLapsed u) = outer s := by
  simp only [State.reportLapsed, apply_ite outer, ite_self]
  repeat' split
  all_goals first | rfl | simp

@[simp] theorem outer_reportRelocked (s : State) (u : Nat) (jam : Bool) : outer (s.reportRelocked u jam) = outer s := by
  simp only [State.reportRelocked, apply_ite outer, ite_self]
  repeat' split
  all_goals first | rfl | simp

@[simp] theorem outer_clearAsk (s : State) (b : Nat) : outer (s.clearAsk b) = outer s := by
  simp only [State.clearAsk, apply_ite outer, ite_self]
  repeat' split
  all_goals first | rfl | simp

@[simp] theorem outer_postChunk (s : State) (b : Nat) : outer (s.postChunk b) = outer s := by
  simp only [State.postChunk, apply_ite outer, ite_self]
  repeat' split
  all_goals first | rfl | simp

@[simp] theorem outer_startServe (s : State) (b : Nat) (k : Slot) : outer (s.startServe b k) = outer s := by
  simp only [State.startServe, apply_ite outer, ite_self]
  repeat' split
  all_goals first | rfl | simp

@[simp] theorem outer_settleAsk (s : State) (b : Nat) (o : ServeEnd) (toIdentifying : Bool) :
    outer (s.settleAsk b o toIdentifying) = outer s := by
  simp only [State.settleAsk, apply_ite outer, ite_self]
  repeat' split
  all_goals first | rfl | simp

@[simp] theorem outer_endServe (s : State) (b : Nat) (o : ServeEnd) (toIdentifying : Bool) :
    outer (s.endServe b o toIdentifying) = outer s := by
  simp only [State.endServe, apply_ite outer, ite_self]
  repeat' split
  all_goals first | rfl | simp

@[simp] theorem outer_abandonServe (s : State) (b : Nat) : outer (s.abandonServe b) = outer s := by
  simp only [State.abandonServe, apply_ite outer, ite_self]
  repeat' split
  all_goals first | rfl | simp

@[simp] theorem outer_chunkAnswer (s : State) (b id offset : Nat) (h : Reply) :
    outer (s.chunkAnswer b id offset h) = outer s := by
  simp only [State.chunkAnswer, apply_ite outer, ite_self]
  repeat' split
  all_goals first | rfl | simp

@[simp] theorem outer_decideProfileAsk (s : State) (b id : Nat) : outer (s.decideProfileAsk b id) = outer s := by
  simp only [State.decideProfileAsk, apply_ite outer, ite_self]
  repeat' split
  all_goals first | rfl | simp

@[simp] theorem outer_consultOwner (s : State) (b : Nat) (a : Ask) : outer (s.consultOwner b a) = outer s := by
  simp only [State.consultOwner, apply_ite outer, ite_self]
  repeat' split
  all_goals first | rfl | simp

@[simp] theorem outer_consultUndecided (s : State) (b : Nat) : outer (s.consultUndecided b) = outer s := by
  simp only [State.consultUndecided, apply_ite outer, ite_self]
  repeat' split
  all_goals first | rfl | simp

@[simp] theorem outer_consultProfile (s : State) (b : Nat) : outer (s.consultProfile b) = outer s := by
  simp only [State.consultProfile, apply_ite outer, ite_self]
  repeat' split
  all_goals first | rfl | simp

@[simp] theorem outer_recordAsk (s : State) (b : Nat) (kind : AskKind) (id : Nat) :
    outer (s.recordAsk b kind id) = outer s := by
  simp only [State.recordAsk, apply_ite outer, ite_self]
  repeat' split
  all_goals first | rfl | simp

@[simp] theorem outer_withdrawAsk (s : State) (b : Nat) : outer (s.withdrawAsk b) = outer s := by
  simp only [State.withdrawAsk, apply_ite outer, ite_self]
  repeat' split
  all_goals first | rfl | simp

@[simp] theorem outer_takeAsk (s : State) (b : Nat) (asked : Option (AskKind × Nat)) : outer (s.takeAsk b asked) = outer s := by
  simp only [State.takeAsk, apply_ite outer, ite_self]
  repeat' split
  all_goals first | rfl | simp

@[simp] theorem outer_passFor (s : State) (before after : Nat) : outer (s.passFor before after) = outer s := by
  simp only [State.passFor, apply_ite outer, ite_self]
  repeat' split
  all_goals first | rfl | simp

@[simp] theorem outer_sessionMoved (s : State) (b : Nat) (before : Session) (quiet : Bool) :
    outer (s.sessionMoved b before quiet) = outer s := by
  simp only [State.sessionMoved, apply_ite outer, ite_self]
  repeat' split
  all_goals first | rfl | simp

@[simp] theorem outer_startSession (s : State) (b : Nat) : outer (s.startSession b) = outer s := by
  simp only [State.startSession, apply_ite outer, ite_self]
  repeat' split
  all_goals first | rfl | simp

@[simp] theorem outer_endSession (s : State) (b : Nat) : outer (s.endSession b) = outer s := by
  simp only [State.endSession, apply_ite outer, ite_self]
  repeat' split
  all_goals first | rfl | simp

@[simp] theorem outer_enterBreak (s : State) (b : Nat) (quiet : Bool) : outer (s.enterBreak b quiet) = outer s := by
  simp only [State.enterBreak, apply_ite outer, ite_self]
  repeat' split
  all_goals first | rfl | simp

@[simp] theorem outer_enterFallback (s : State) (b : Nat) : outer (s.enterFallback b) = outer s := by
  simp only [State.enterFallback, apply_ite outer, ite_self]
  repeat' split
  all_goals first | rfl | simp

@[simp] theorem outer_countedRestart (s : State) (b : Nat) : outer (s.countedRestart b) = outer s := by
  simp only [State.countedRestart, apply_ite outer, ite_self]
  repeat' split
  all_goals first | rfl | simp

@[simp] theorem outer_lostSession (s : State) (b : Nat) : outer (s.lostSession b) = outer s := by
  simp only [State.lostSession, apply_ite outer, ite_self]
  repeat' split
  all_goals first | rfl | simp

@[simp] theorem outer_enterContracted (s : State) (b : Nat) (fromWaking : Bool) :
    outer (s.enterContracted b fromWaking) = outer s := by
  simp only [State.enterContracted, apply_ite outer, ite_self]
  repeat' split
  all_goals first | rfl | simp

@[simp] theorem outer_endRead (s : State) (b : Nat) (before outcome : Option Identity) :
    outer (s.endRead b before outcome) = outer s := by
  simp only [State.endRead, apply_ite outer, ite_self]
  repeat' split
  all_goals first | rfl | simp

@[simp] theorem outer_enterIdentifying (s : State) (b : Nat) : outer (s.enterIdentifying b) = outer s := by
  simp only [State.enterIdentifying, apply_ite outer, ite_self]
  repeat' split
  all_goals first | rfl | simp

@[simp] theorem outer_identityAnswer (s : State) (b offset : Nat) (p : Bytes) :
    outer (s.identityAnswer b offset p) = outer s := by
  simp only [State.identityAnswer, apply_ite outer, ite_self]
  repeat' split
  all_goals first | rfl | simp

@[simp] theorem outer_proceed (s : State) (b : Nat) (a : Ability) : outer (s.proceed b a) = outer s := by
  simp only [State.proceed, apply_ite outer, ite_self]
  repeat' split
  all_goals first | rfl | simp

@[simp] theorem outer_greetingHeld (s : State) (b : Nat) : outer (s.greetingHeld b) = outer s := by
  simp only [State.greetingHeld, apply_ite outer, ite_self]
  repeat' split
  all_goals first | rfl | simp

@[simp] theorem outer_abilityAnswer (s : State) (b : Nat) (p : Bytes) : outer (s.abilityAnswer b p) = outer s := by
  simp only [State.abilityAnswer, apply_ite outer, ite_self]
  repeat' split
  all_goals first | rfl | simp

@[simp] theorem outer_confirmAnswer (s : State) (b : Nat) (p : Bytes) : outer (s.confirmAnswer b p) = outer s := by
  simp only [State.confirmAnswer, apply_ite outer, ite_self]
  repeat' split
  all_goals first | rfl | simp

@[simp] theorem outer_writeStatus (s : State) (b : Nat) (st : Status) : outer (s.writeStatus b st) = outer s := by
  simp only [State.writeStatus, apply_ite outer, ite_self]
  repeat' split
  all_goals first | rfl | simp

@[simp] theorem outer_enterAsleep (s : State) (b : Nat) : outer (s.enterAsleep b) = outer s := by
  simp only [State.enterAsleep, apply_ite outer, ite_self]
  repeat' split
  all_goals first | rfl | simp

@[simp] theorem outer_identAgain (s : State) (b : Nat) : outer (s.identAgain b) = outer s := by
  simp only [State.identAgain, apply_ite outer, ite_self]
  repeat' split
  all_goals first | rfl | simp

@[simp] theorem outer_actOnFlags (s : State) (b : Nat) (p : Bytes) : outer (s.actOnFlags b p) = outer s := by
  simp only [State.actOnFlags, apply_ite outer, ite_self]
  repeat' split
  all_goals first | rfl | simp

@[simp] theorem outer_statusAnswer (s : State) (b : Nat) (p : Bytes) : outer (s.statusAnswer b p) = outer s := by
  simp only [State.statusAnswer, apply_ite outer, ite_self]
  repeat' split
  all_goals first | rfl | simp

@[simp] theorem outer_beginWake (s : State) (b : Nat) : outer (s.beginWake b) = outer s := by
  simp only [State.beginWake, apply_ite outer, ite_self]
  repeat' split
  all_goals first | rfl | simp

@[simp] theorem outer_wakeFails (s : State) (b : Nat) : outer (s.wakeFails b) = outer s := by
  simp only [State.wakeFails, apply_ite outer, ite_self]
  repeat' split
  all_goals first | rfl | simp

@[simp] theorem outer_callFailed (s : State) (b : Nat) : outer (s.callFailed b) = outer s := by
  simp only [State.callFailed, apply_ite outer, ite_self]
  repeat' split
  all_goals first | rfl | simp

@[simp] theorem outer_failAttempt (s : State) (b : Nat) (k : FailKind) : outer (s.failAttempt b k) = outer s := by
  simp only [State.failAttempt, apply_ite outer, ite_self]
  repeat' split
  all_goals first | rfl | simp

@[simp] theorem outer_deliver (s : State) (b : Nat) (c : Call) (p : Bytes) : outer (s.deliver b c p) = outer s := by
  simp only [State.deliver, apply_ite outer, ite_self]
  repeat' split
  all_goals first | rfl | simp

@[simp] theorem outer_judgeAnswer (s : State) (b : Nat) (kind : Byte) (p : Bytes) :
    outer (s.judgeAnswer b kind p) = outer s := by
  simp only [State.judgeAnswer, apply_ite outer, ite_self]
  repeat' split
  all_goals first | rfl | simp

@[simp] theorem outer_removal (s : State) (b : Nat) : outer (s.removal b) = outer s := by
  simp only [State.removal, apply_ite outer, ite_self]
  repeat' split
  all_goals first | rfl | simp

@[simp] theorem outer_insertion (s : State) (b : Nat) : outer (s.insertion b) = outer s := by
  simp only [State.insertion, apply_ite outer, ite_self]
  repeat' split
  all_goals first | rfl | simp

@[simp] theorem outer_disable (s : State) (b : Nat) : outer (s.disable b) = outer s := by
  simp only [State.disable, apply_ite outer, ite_self]
  repeat' split
  all_goals first | rfl | simp

@[simp] theorem outer_enable (s : State) (b : Nat) : outer (s.enable b) = outer s := by
  simp only [State.enable, apply_ite outer, ite_self]
  repeat' split
  all_goals first | rfl | simp

@[simp] theorem outer_resetBay (s : State) (b : Nat) : outer (s.resetBay b) = outer s := by
  simp only [State.resetBay, apply_ite outer, ite_self]
  repeat' split
  all_goals first | rfl | simp

@[simp] theorem outer_suspendUnit (s : State) (u : Nat) : outer (s.suspendUnit u) = outer s := by
  simp only [State.suspendUnit, apply_ite outer, ite_self]
  repeat' split
  all_goals first | rfl | simp

@[simp] theorem outer_setUnit (s : State) (u : Nat) (st : UnitState) : outer (s.setUnit u st) = outer s := by
  simp only [State.setUnit, apply_ite outer, ite_self]
  repeat' split
  all_goals first | rfl | simp

@[simp] theorem outer_queueMove (s : State) (u : Nat) (k : MoveKind) : outer (s.queueMove u k) = outer s := by
  simp only [State.queueMove, apply_ite outer, ite_self]
  repeat' split
  all_goals first | rfl | simp

@[simp] theorem outer_dropMove (s : State) (u : Nat) : outer (s.dropMove u) = outer s := by
  simp only [State.dropMove, apply_ite outer, ite_self]
  repeat' split
  all_goals first | rfl | simp

@[simp] theorem outer_stopDrive (s : State) (u : Nat) : outer (s.stopDrive u) = outer s := by
  simp only [State.stopDrive, apply_ite outer, ite_self]
  repeat' split
  all_goals first | rfl | simp

@[simp] theorem outer_completeMove (s : State) (m : Move) : outer (s.completeMove m) = outer s := by
  simp only [State.completeMove, apply_ite outer, ite_self]
  repeat' split
  all_goals first | rfl | simp

@[simp] theorem outer_jamMove (s : State) (m : Move) : outer (s.jamMove m) = outer s := by
  simp only [State.jamMove, apply_ite outer, ite_self]
  repeat' split
  all_goals first | rfl | simp

@[simp] theorem outer_positionRead (s : State) (d : DriverId) (v : Drive) (locked : Bool) :
    outer (s.positionRead d v locked) = outer s := by
  simp only [State.positionRead, apply_ite outer, ite_self]
  repeat' split
  all_goals first | rfl | simp

@[simp] theorem outer_forceUnit (s : State) (u : Nat) : outer (s.forceUnit u) = outer s := by
  simp only [State.forceUnit, apply_ite outer, ite_self]
  repeat' split
  all_goals first | rfl | simp

@[simp] theorem outer_doorOpening (s : State) (u : Nat) (st : UnitState) : outer (s.doorOpening u st) = outer s := by
  simp only [State.doorOpening, apply_ite outer, ite_self]
  repeat' split
  all_goals first | rfl | simp

@[simp] theorem outer_doorClosing (s : State) (u : Nat) (st : UnitState) : outer (s.doorClosing u st) = outer s := by
  simp only [State.doorClosing, apply_ite outer, ite_self]
  repeat' split
  all_goals first | rfl | simp

@[simp] theorem outer_doorChanged (s : State) (u : Nat) : outer (s.doorChanged u) = outer s := by
  simp only [State.doorChanged, apply_ite outer, ite_self]
  repeat' split
  all_goals first | rfl | simp

@[simp] theorem outer_windowLapses (s : State) (u : Nat) : outer (s.windowLapses u) = outer s := by
  simp only [State.windowLapses, apply_ite outer, ite_self]
  repeat' split
  all_goals first | rfl | simp

@[simp] theorem outer_reportAjar (s : State) (u : Nat) : outer (s.reportAjar u) = outer s := by
  simp only [State.reportAjar, apply_ite outer, ite_self]
  repeat' split
  all_goals first | rfl | simp

@[simp] theorem outer_reportOverdue (s : State) : outer (s.reportOverdue) = outer s := by
  refine outer_forEach s _ (fun s u => ?_) _
  split
  · rfl
  · split
    · rfl
    · split
      · exact outer_reportAjar s u
      · rfl

@[simp] theorem outer_forcedCleared (s : State) (u : Nat) (locked : Bool) : outer (s.forcedCleared u locked) = outer s := by
  simp only [State.forcedCleared, apply_ite outer, ite_self]
  repeat' split
  all_goals first | rfl | simp

@[simp] theorem outer_latchCleared (s : State) (u : Nat) : outer (s.latchCleared u) = outer s := by
  simp only [State.latchCleared, apply_ite outer, ite_self]
  repeat' split
  all_goals first | rfl | simp

@[simp] theorem outer_cancelUnit (s : State) (u : Nat) : outer (s.cancelUnit u) = outer s := by
  simp only [State.cancelUnit, apply_ite outer, ite_self]
  repeat' split
  all_goals first | rfl | simp

@[simp] theorem outer_clearEvents (s : State) (b : Nat) : outer (s.clearEvents b) = outer s := by
  simp only [State.clearEvents, apply_ite outer, ite_self]
  repeat' split
  all_goals first | rfl | simp

@[simp] theorem outer_setEnable (s : State) (mask : BitVec 40) (b : Nat) : outer (s.setEnable mask b) = outer s := by
  simp only [State.setEnable, apply_ite outer, ite_self]
  repeat' split
  all_goals first | rfl | simp

@[simp] theorem outer_askForCaps (s : State) (old : List Bay) : outer (s.askForCaps old) = outer s := by
  unfold State.askForCaps
  dsimp only
  split <;> split <;> simp

@[simp] theorem outer_setBays (s : State) (mask : BitVec 40) (caps : List Level) : outer (s.setBays mask caps) = outer s := by
  simp [State.setBays]

@[simp] theorem outer_cancelGroups (s : State) (gs : List Group) : outer (s.cancelGroups gs) = outer s := by
  simp only [State.cancelGroups, apply_ite outer, ite_self]
  repeat' split
  all_goals first | rfl | simp

@[simp] theorem outer_hubRestart (s : State) (b : Nat) : outer (s.hubRestart b) = outer s := by
  simp only [State.hubRestart, apply_ite outer, ite_self]
  repeat' split
  all_goals first | rfl | simp

@[simp] theorem outer_forceContract (s : State) (b : Nat) (l : Option Level) : outer (s.forceContract b l) = outer s := by
  simp only [State.forceContract, apply_ite outer, ite_self]
  repeat' split
  all_goals first | rfl | simp

@[simp] theorem outer_setLaneFlags (s : State) (b : Nat) (defer refuse : Bool) :
    outer (s.setLaneFlags b defer refuse) = outer s := by
  simp only [State.setLaneFlags, apply_ite outer, ite_self]
  repeat' split
  all_goals first | rfl | simp

@[simp] theorem outer_writeBudget (s : State) (c o eta slots : Nat) : outer (s.writeBudget c o eta slots) = outer s := by
  simp only [State.writeBudget, apply_ite outer, ite_self]
  repeat' split
  all_goals first | rfl | simp

@[simp] theorem outer_budgetPass (s : State) : outer (s.budgetPass) = outer s := by
  simp only [State.budgetPass, apply_ite outer, ite_self]
  repeat' split
  all_goals first | rfl | simp

@[simp] theorem outer_setPolicy (s : State) (v : Policy) : outer (s.setPolicy v) = outer s := by
  simp only [State.setPolicy, apply_ite outer, ite_self]
  repeat' split
  all_goals first | rfl | simp

@[simp] theorem outer_hubReply (s : State) (b : Nat) (r : Reply) : outer (s.hubReply b r) = outer s := by
  simp only [State.hubReply, apply_ite outer, ite_self]
  repeat' split
  all_goals first | rfl | simp

@[simp] theorem outer_channelSwitched (s : State) (c : Channel) (on : Bool) : outer (s.channelSwitched c on) = outer s := by
  simp only [State.channelSwitched, apply_ite outer, ite_self]
  repeat' split
  all_goals first | rfl | simp

@[simp] theorem outer_setChannels (s : State) (mask : BitVec 8) : outer (s.setChannels mask) = outer s := by
  have h : ∀ (l : List Channel) (t : State),
      outer (l.foldl (fun s c => s.channelSwitched c (mask.getLsbD (c.num - 1))) t) = outer t := by
    intro l
    induction l with
    | nil => exact fun _ => rfl
    | cons c l ih => exact fun t => (ih _).trans (outer_channelSwitched t c _)
  exact h s.sched.channels _

@[simp] theorem outer_abortForRelease (s : State) (i : Intent) (bays units : List Nat) (override : Bool) :
    outer (s.abortForRelease i bays units override) = outer s := by
  have h1 : ∀ t : State, outer (t.forEach bays fun s b => if s.hasActiveJob b then s else s.abortBay b .cancelled false)
      = outer t := fun t => outer_forEach t _ (fun v b => by split; exacts [rfl, outer_abortBay v b _ _]) _
  have h2 : ∀ (l : List Nat) (t : State), outer (t.forEach l fun s b =>
      if s.hasActiveJob b then s.abortBay b .released true else s) = outer t := fun l t =>
    outer_forEach t _ (fun v b => by split; exacts [outer_abortBay v b _ _, rfl]) _
  unfold State.abortForRelease
  dsimp only
  split <;> split <;> simp only [h1, h2]

@[simp] theorem outer_release (s : State) (c : Nat) (i : Intent) (bays : List Nat) (allowance : Nat) (override : Bool) :
    outer (s.release c i bays allowance override) = outer s := by
  simp only [State.release, apply_ite outer, ite_self]
  repeat' split
  all_goals first | rfl | simp

@[simp] theorem outer_restore (s : State) (b c : Nat) (serial : Bytes) : outer (s.restore b c serial) = outer s := by
  simp only [State.restore, apply_ite outer, ite_self]
  repeat' split
  all_goals first | rfl | simp

@[simp] theorem outer_acceptForeign (s : State) (b : Nat) : outer (s.acceptForeign b) = outer s := by
  simp only [State.acceptForeign, apply_ite outer, ite_self]
  repeat' split
  all_goals first | rfl | simp

@[simp] theorem outer_readLpos (s : State) (u : Nat) (high : Bool) : outer (s.readLpos u high) = outer s := by
  simp only [State.readLpos, apply_ite outer, ite_self]
  repeat' split
  all_goals first | rfl | simp

@[simp] theorem outer_closeWindow (s : State) (b : Nat) : outer (s.closeWindow b) = outer s := by
  simp only [State.closeWindow, apply_ite outer, ite_self]
  repeat' split
  all_goals first | rfl | simp

@[simp] theorem outer_releasePulse (s : State) (b : Nat) : outer (s.releasePulse b) = outer s := by
  simp only [State.releasePulse, apply_ite outer, ite_self]
  repeat' split
  all_goals first | rfl | simp

@[simp] theorem outer_presenceLevel (s : State) (b : Nat) (high level : Bool) :
    outer (s.presenceLevel b high level) = outer s := by
  simp only [State.presenceLevel, apply_ite outer, ite_self]
  repeat' split
  all_goals first | rfl | simp

@[simp] theorem outer_presenceTaken (s : State) (b : Nat) : outer (s.presenceTaken b) = outer s := by
  simp only [State.presenceTaken, apply_ite outer, ite_self]
  repeat' split
  all_goals first | rfl | simp

@[simp] theorem outer_tempSample (s : State) (v : Option Int) : outer (s.tempSample v) = outer s := by
  simp only [State.tempSample, apply_ite outer, ite_self]
  repeat' split
  all_goals first | rfl | simp

@[simp] theorem outer_beginEpisode (s : State) : outer (s.beginEpisode) = outer s := by
  simp only [State.beginEpisode, apply_ite outer, ite_self]
  repeat' split
  all_goals first | rfl | simp

@[simp] theorem outer_wallSample (s : State) (w : BitVec 16) : outer (s.wallSample w) = outer s := by
  simp only [State.wallSample, apply_ite outer, ite_self]
  repeat' split
  all_goals first | rfl | simp

@[simp] theorem outer_drained (s : State) (c : Nat) : outer (s.drained c) = outer s := by
  simp only [State.drained, apply_ite outer, ite_self]
  repeat' split
  all_goals first | rfl | simp

@[simp] theorem outer_doorLevel (s : State) (u : Nat) (high level : Bool) : outer (s.doorLevel u high level) = outer s := by
  simp only [State.doorLevel, apply_ite outer, ite_self]
  repeat' split
  all_goals first | rfl | simp

end Sys2Proof.Laws
end

