-- ==== Sys2Proof/Laws/Receiver.lean ====
section
/-! SUPPORT. The hub receiver (R172): what hunting, collecting and completing do, and that a frame's own bytes are heard as that
frame. -/

namespace Sys2Proof.Laws

open Machine

/-! ## One byte -/

@[simp] theorem hear_nil (rx : Bytes) : hear rx [] = (rx, []) := rfl

theorem hear_cons (rx : Bytes) (b : Byte) (bs : Bytes) :
    hear rx (b :: bs) = ((hear (rxByte rx b).1 bs).1, (rxByte rx b).2.toList ++ (hear (rxByte rx b).1 bs).2) := rfl

theorem hear_append (rx xs ys : Bytes) :
    hear rx (xs ++ ys) = ((hear (hear rx xs).1 ys).1, (hear rx xs).2 ++ (hear (hear rx xs).1 ys).2) := by
  induction xs generalizing rx with
  | nil => simp
  | cons x xs ih => simp [hear_cons, ih]

@[simp] theorem rxByte_sync : rxByte [] 0xA5#8 = ([0xA5#8], none) := rfl

theorem rxByte_hunting {b : Byte} (h : b ≠ 0xA5#8) : rxByte [] b = ([], none) := by simp [rxByte, h]

/-- A byte that neither gives a length above 512 nor completes the frame is collected. -/
theorem rxByte_collects {rx : Bytes} {b : Byte} (hne : rx ≠ [])
    (h : 3 ≤ rx.length + 1 → ofLe (((rx ++ [b]).drop 1).take 2) ≤ 512
      ∧ rx.length + 1 < ofLe (((rx ++ [b]).drop 1).take 2) + 7) :
    rxByte rx b = (rx ++ [b], none) := by
  unfold rxByte
  rw [if_neg hne]
  dsimp only
  rw [List.length_append, List.length_singleton]
  split
  · rfl
  · have := h (by omega)
    rw [if_neg (by omega), if_pos (by omega)]

/-- The byte that completes a frame sends the receiver back to hunting; the frame is heard if its CRC matches. -/
theorem rxByte_completes {rx : Bytes} {b : Byte} (hne : rx ≠ []) (h3 : 3 ≤ rx.length + 1)
    (hn : ofLe (((rx ++ [b]).drop 1).take 2) ≤ 512)
    (hl : ofLe (((rx ++ [b]).drop 1).take 2) + 7 ≤ rx.length + 1) :
    rxByte rx b = ([], frameOf (rx ++ [b])) := by
  unfold rxByte
  rw [if_neg hne]
  dsimp only
  rw [List.length_append, List.length_singleton, if_neg (by omega), if_neg (by omega), if_neg (by omega)]

/-- Bytes without a sync byte leave a hunting receiver hunting. -/
theorem hear_hunting : ∀ {bs : Bytes}, 0xA5#8 ∉ bs → hear [] bs = ([], [])
  | [], _ => rfl
  | b :: bs, h => by
    have hb : b ≠ 0xA5#8 := fun e => h (by simp [e])
    rw [hear_cons, rxByte_hunting hb, hear_hunting fun e => h (List.mem_cons_of_mem _ e)]
    rfl

/-! ## A frame begun -/

/-- A receiver that holds the beginning of a frame of length field at most 512 collects its further bytes. -/
theorem hear_collects : ∀ (ys xs : Bytes), xs ≠ [] →
    (3 ≤ xs.length + ys.length → ofLe (((xs ++ ys).drop 1).take 2) ≤ 512
      ∧ xs.length + ys.length < ofLe (((xs ++ ys).drop 1).take 2) + 7) →
    hear xs ys = (xs ++ ys, [])
  | [], xs, _, _ => by simp
  | y :: ys, xs, hne, h => by
    have hx : ∀ zs : Bytes, 3 ≤ xs.length + 1 → (((xs ++ [y]) ++ zs).drop 1).take 2 = ((xs ++ [y]).drop 1).take 2 := by
      intro zs h3
      rw [List.drop_append_of_le_length (by simp), List.take_append_of_le_length (by simp; omega)]
    have e : xs ++ y :: ys = (xs ++ [y]) ++ ys := by simp
    rw [hear_cons, rxByte_collects hne]
    · dsimp only
      rw [hear_collects ys (xs ++ [y]) (by simp)]
      · simp
      · intro h3
        rw [← e]
        simp only [List.length_append, List.length_cons, List.length_nil] at h h3 ⊢
        have := h (by omega)
        omega
    · intro h3
      have := h (by simp only [List.length_cons]; omega)
      rw [e, hx ys h3] at this
      simp only [List.length_cons] at this
      omega

/-! ## A whole frame -/

theorem ofLe_le2 {n : Nat} (h : n < 65536) : ofLe (le2 n) = n := by
  simp only [le2, leBytes, ofLe, byteOf, BitVec.toNat_ofNat]
  omega

@[simp] theorem le2_length (n : Nat) : (le2 n).length = 2 := rfl

@[simp] theorem crc16Bytes_length (bs : Bytes) : (crc16Bytes bs).length = 2 := rfl

theorem wire_length (f : Frame) : f.wire.length = f.payload.length + 7 := by
  simp [Frame.wire, Frame.body]
  omega

theorem frameOf_wire {f : Frame} (h : f.payload.length ≤ 512) : frameOf f.wire = some f := by
  obtain ⟨k, t, p⟩ := f
  have hw : (Frame.mk k t p).wire
      = 0xA5#8 :: byteOf (p.length % 256) :: byteOf (p.length / 256 % 256) :: k :: t
        :: (p ++ crc16Bytes (le2 p.length ++ [k, t] ++ p)) := by
    simp [Frame.wire, Frame.body, le2, leBytes]
  have hn : ofLe ((((Frame.mk k t p).wire).drop 1).take 2) = p.length := by
    rw [hw]
    exact ofLe_le2 (by simp at h; omega)
  unfold frameOf
  dsimp only
  rw [hn]
  have hd : ((Frame.mk k t p).wire.drop (p.length + 5)) = crc16Bytes (le2 p.length ++ [k, t] ++ p) := by
    rw [hw]
    simp
  have ht : ((Frame.mk k t p).wire.drop 1).take (p.length + 4) = le2 p.length ++ [k, t] ++ p := by
    rw [hw]
    simp [le2, leBytes]
  rw [hd, ht, if_pos rfl, hw]
  simp

/-- A hunting receiver hears the bytes of a frame as that frame, and then hunts again (R172). -/
theorem hear_wire {f : Frame} (h : f.payload.length ≤ 512) : hear [] f.wire = ([], [f]) := by
  have hl := wire_length f
  have hn : ofLe ((f.wire.drop 1).take 2) = f.payload.length := by
    have : (f.wire.drop 1).take 2 = le2 f.payload.length := by simp [Frame.wire, Frame.body, le2, leBytes]
    rw [this]
    exact ofLe_le2 (by omega)
  obtain ⟨xs, y, hw⟩ : ∃ xs y, f.wire = 0xA5#8 :: xs ++ [y] := by
    refine ⟨(f.wire.drop 1).dropLast, (f.wire.drop 1).getLast (by simp [Frame.wire, Frame.body]), ?_⟩
    rw [List.cons_append, List.dropLast_concat_getLast]
    simp [Frame.wire]
  have hxs : xs.length = f.payload.length + 5 := by
    have := congrArg List.length hw
    simp [hl] at this
    omega
  have hin : ((0xA5#8 :: xs ++ [y]).drop 1).take 2 = ((0xA5#8 :: xs).drop 1).take 2 := by
    rw [List.drop_append_of_le_length (by simp), List.take_append_of_le_length (by simp; omega)]
  have hin' : ofLe (xs.take 2) = f.payload.length := by
    rw [← hn, hw, hin]
    rfl
  have hc : hear [0xA5#8] xs = (0xA5#8 :: xs, []) := by
    rw [hear_collects xs [0xA5#8] (by simp)]
    · rfl
    · intro _
      rw [show (([0xA5#8] ++ xs).drop 1).take 2 = xs.take 2 from rfl, hin']
      simp
      omega
  have hlast : rxByte (0xA5#8 :: xs) y = ([], some f) := by
    rw [rxByte_completes (by simp)]
    · rw [← hw, frameOf_wire h]
    · simp; omega
    · rw [← hw, hn]; exact h
    · rw [← hw, hn]; simp; omega
  rw [hw, List.cons_append, hear_cons, rxByte_sync]
  dsimp only
  rw [hear_append, hc]
  simp [hear_cons, hlast]

end Sys2Proof.Laws
end

