-- ==== Sys2Proof/Laws/Requests.lean ====
section
/-! SUPPORT. The forms of an event and of a request, and what bytes at the receiver can do, said once. -/

namespace Sys2Proof.Laws

open Machine

/-! ## Events -/

theorem whenLive_live {s : State} (h : s.resetN = true) (f : State → State) : whenLive s f = .next (f s) := by
  simp [whenLive, h]

theorem whenLive_held {s : State} (h : s.resetN = false) (f : State → State) : whenLive s f = .next s := by
  simp [whenLive, h]

theorem event_live {s : State} (h : s.resetN = true) (f : State → State) : event s f = .next (f s).conclude :=
  whenLive_live h _

theorem timerEvent_live {s : State} (h : s.resetN = true) (d : Nat) (f : State → State) :
    timerEvent s (some d) f = .next (f (s.reach d)).conclude :=
  event_live h fun s => f (s.reach d)

theorem timerEvent_stopped (s : State) (f : State → State) : timerEvent s none f = .next s := rfl

theorem laneEvent_live {s : State} {b : Nat} {act : LaneAct} (h : s.resetN = true) (hu : (s.bay b).lane.up = true)
    (ha : (s.bay b).lane.act = act) (f : State → State) : laneEvent s b act f = .next (f s).conclude := by
  unfold laneEvent
  rw [hu, ha]
  simp [event_live h]

theorem laneEvent_other {s : State} {b : Nat} {act : LaneAct} (h : (s.bay b).lane.act ≠ act) (f : State → State) :
    laneEvent s b act f = .next s := by
  unfold laneEvent
  rw [if_neg]
  simp [h]

/-- Everything an event can do: it changes nothing, or it is an operation followed by the end of the event. -/
theorem event_cases {P : State → Prop} {s t : State} {f : State → State} (h : event s f = .next t) (hs : P s)
    (hf : s.resetN = true → P (f s).conclude) : P t := by
  unfold event whenLive at h
  split at h <;> cases h
  · exact hf ‹_›
  · exact hs

theorem timerEvent_cases {P : State → Prop} {s t : State} {due : Option Nat} {f : State → State}
    (h : timerEvent s due f = .next t) (hs : P s) (hf : ∀ d, due = some d → s.resetN = true → P (f (s.reach d)).conclude) :
    P t := by
  unfold timerEvent at h
  split at h
  · cases h; exact hs
  · exact event_cases h hs (hf _ rfl)

theorem laneEvent_cases {P : State → Prop} {s t : State} {b : Nat} {act : LaneAct} {f : State → State}
    (h : laneEvent s b act f = .next t) (hs : P s) (hf : s.resetN = true → P (f s).conclude) : P t := by
  unfold laneEvent at h
  split at h
  · exact event_cases h hs hf
  · cases h; exact hs

/-! ## The end of an event keeps the queue of commands -/

theorem announce_pending (s : State) : s.announce.pending = s.pending := by
  obtain ⟨h, he⟩ := (sameButLink_iff _ _).1 (announce_sameButLink s)
  rw [he]

theorem announce_resetN (s : State) : s.announce.resetN = s.resetN := by
  obtain ⟨h, he⟩ := (sameButLink_iff _ _).1 (announce_sameButLink s)
  rw [he]

theorem conclude_pending (s : State) : s.conclude.pending = s.pending := (sameBut_conclude s).cart.pending

theorem conclude_resetN (s : State) : s.conclude.resetN = s.resetN := (sameBut_conclude s).cart.resetN

/-- An event whose operation leaves the hub link alone leaves a quiet state. -/
theorem conclude_quiet_of_outer {s u : State} (hq : s.quiet = true) (h : outer u = outer s) : u.conclude.quiet = true :=
  conclude_quiet (linkRight_of_hub ((outer_iff s u).1 h).2.2.1 (quiet_linkRight hq))

/-! ## Decisions -/

/-- What every decision keeps: the queue, RESET_N, what the link sends, and a settled state settled. -/
structure Fair (s : State) (d : Decision) : Prop where
  settled : inner s → inner d.1
  pending : d.1.pending = s.pending
  resetN : d.1.resetN = s.resetN
  replyPending : d.1.hub.replyPending = s.hub.replyPending
  reply : d.1.hub.reply = s.hub.reply
  sending : d.1.hub.sending = s.hub.sending
  busy : d.1.hub.busy = s.hub.busy
  notice : (s.hub.notice = true → s.hub.noticeOutstanding = true) →
    d.1.hub.notice = true → d.1.hub.noticeOutstanding = true

theorem Fair.unchanged (s : State) (body : Bytes) : Fair s (s, body) := ⟨id, rfl, rfl, rfl, rfl, rfl, rfl, id⟩

theorem Fair.deny (s : State) (r : Result) : Fair s (s.deny r) := Fair.unchanged s _

theorem Fair.refuse (s : State) (r : Reason) : Fair s (s.refuse r) := Fair.unchanged s _

theorem Fair.report (s : State) (body : Bytes) : Fair s (s.report body) := Fair.unchanged s _

theorem Fair.settled_of {s u : State} (hp : u.pending = s.pending) (hr : u.resetN = s.resetN) (hh : u.hub = s.hub)
    (body : Bytes) : Fair s (u.settle, body) where
  settled _ := settle_inner u
  pending := (settle_same u).cart.pending.trans hp
  resetN := (settle_same u).cart.resetN.trans hr
  replyPending := by show u.settle.hub.replyPending = _; rw [settle_hub, hh]
  reply := by show u.settle.hub.reply = _; rw [settle_hub, hh]
  sending := by show u.settle.hub.sending = _; rw [settle_hub, hh]
  busy := by show u.settle.hub.busy = _; rw [settle_hub, hh]
  notice h := by show u.settle.hub.notice = _ → u.settle.hub.noticeOutstanding = _; rw [settle_hub, hh]; exact h

theorem Fair.accept {s u : State} (hp : u.pending = s.pending) (hr : u.resetN = s.resetN) (hh : u.hub = s.hub) (body : Bytes) :
    Fair s (u.accept body) := Fair.settled_of hp hr hh _

theorem Fair.acceptClamped {s u : State} (hp : u.pending = s.pending) (hr : u.resetN = s.resetN) (hh : u.hub = s.hub)
    (c : Bool) (v : Bytes) : Fair s (u.acceptClamped c v) := Fair.settled_of hp hr hh _

/-- An operation that keeps `outer` may be accepted. -/
theorem Fair.accept_outer {s u : State} (h : outer u = outer s) (body : Bytes) : Fair s (u.accept body) :=
  have k := (outer_iff s u).1 h
  Fair.accept k.1 k.2.1 k.2.2.1 body

theorem Fair.acceptClamped_outer {s u : State} (h : outer u = outer s) (c : Bool) (v : Bytes) :
    Fair s (u.acceptClamped c v) :=
  have k := (outer_iff s u).1 h
  Fair.acceptClamped k.1 k.2.1 k.2.2.1 c v

theorem Fair.sized {s : State} {f : State → Decision} (h : Fair s (f s)) (right : Bool) : Fair s (s.sized right f) := by
  unfold State.sized
  split
  · exact h
  · exact Fair.deny s _

theorem Fair.onBay {s : State} {f : State → Decision} (h : Fair s (f s)) (b : Nat) : Fair s (s.onBay b f) := by
  unfold State.onBay
  split
  · exact h
  · exact Fair.deny s _

theorem Fair.onBayOrZero {s : State} {f : State → Decision} (h : Fair s (f s)) (b : Nat) : Fair s (s.onBayOrZero b f) := by
  unfold State.onBayOrZero
  split
  · exact h
  · exact Fair.deny s _

/-! ## Frames -/

/-- The state in which a request is decided: reply-pending is set (R173, point 2). -/
def taken (s : State) : State := { s with hub := { s.hub with replyPending := true } }

theorem hunting_iff (s : State) : s.hunting = true ↔ s.resetN = true ∧ s.hub.receiverOpen = true ∧ s.hub.rx = [] := by
  unfold State.hunting
  simp only [Bool.and_eq_true, List.isEmpty_iff]
  tauto

theorem listening_iff (s : State) : s.listening = true ↔ s.hunting = true ∧ s.hub.replyPending = false := by
  unfold State.listening
  simp only [Bool.and_eq_true, Bool.not_eq_true']

/-- A frame the link listens to is decided and answered. -/
theorem takeFrame_listening {s : State} (h : s.listening = true) (f : Frame) (rule : State → Decision) :
    s.takeFrame f rule = ((rule (taken s)).1.queueReply f.kind f.tag (rule (taken s)).2).announce := by
  unfold State.takeFrame
  rw [((listening_iff s).1 h).2]
  rfl

/-- A decision that keeps the link's outgoing part is answered. -/
theorem takeFrame_answers {s : State} (h : s.listening = true) (f : Frame) (rule : State → Decision)
    (hf : Fair (taken s) (rule (taken s))) : (s.takeFrame f rule).answers f.kind f.tag (rule (taken s)).2 := by
  rw [takeFrame_listening h]
  exact announce_answers _ _ _ _ hf.replyPending

theorem takeFrame_sameButLink {s : State} (h : s.listening = true) (f : Frame) (rule : State → Decision) :
    (s.takeFrame f rule).sameButLink (rule (taken s)).1 := by
  rw [takeFrame_listening h]
  exact sameButLink_trans (announce_sameButLink _) rfl

theorem announce_frame_quiet {s : State} (hq : s.quiet = true) (hp : s.hub.replyPending = false) (kind tag : Byte) {d : Decision}
    (hf : Fair (taken s) d) : (d.1.queueReply kind tag d.2).announce.quiet = true := by
  have hl := quiet_linkRight hq
  have hi : inner d.1 := hf.settled (inner_sameButLink (s := s) rfl (quiet_inner hq))
  refine announce_quiet hi ⟨fun h => hf.notice hl.1 h, ?_⟩
  have hr := hl.2
  have hs : d.1.hub.sending = s.hub.sending := hf.sending
  have hrp : d.1.hub.replyPending = true := hf.replyPending
  unfold State.replyRight State.sendingReply State.queueReply at *
  simp only [hs, hrp]
  rw [hp] at hr
  simp only [Bool.and_eq_true, beq_iff_eq, Bool.not_eq_true'] at hr
  have h1 := hr.1
  cases hsend : s.hub.sending with
  | none => simp
  | some p => rw [hsend] at h1; simp_all

theorem busyReply_quiet {s : State} (hq : s.quiet = true) (kind tag : Byte) (hp : s.hub.replyPending = true) :
    (s.busyReply kind tag).startOutput.quiet = true := by
  obtain ⟨w, d, l, i, m, n, o, r⟩ := (quiet_iff s).1 hq
  have hs : s.hub.sending.isSome = true := by
    unfold State.outputQuiet at o
    unfold State.replyRight State.sendingReply at r
    rw [hp] at r
    cases hs : s.hub.sending with
    | some p => rfl
    | none => rw [hs] at o r; simp_all
  unfold State.busyReply
  obtain ⟨p, hs⟩ := Option.isSome_iff_exists.1 hs
  split
  · have : s.startOutput = s := by unfold State.startOutput; rw [hs]
    rw [this]; exact hq
  · have : State.startOutput { s with hub := { s.hub with busy := some ⟨replyKind kind, tag, [Result.busy.byte]⟩ } }
        = { s with hub := { s.hub with busy := some ⟨replyKind kind, tag, [Result.busy.byte]⟩ } } := by
      unfold State.startOutput; simp only [hs]
    rw [this]
    refine (quiet_iff _).2 ⟨w, d, l, i, m, n, ?_, r⟩
    unfold State.outputQuiet; simp [hs]

/-- A request leaves a quiet state, however it is decided. -/
theorem takeFrame_quiet {s : State} (hq : s.quiet = true) (f : Frame) (rule : State → Decision)
    (hf : Fair (taken s) (rule (taken s))) : (s.takeFrame f rule).quiet = true := by
  unfold State.takeFrame
  split
  · exact busyReply_quiet hq f.kind f.tag ‹_›
  · rename_i hp
    exact announce_frame_quiet hq (by simpa using hp) f.kind f.tag hf

/-- The receive buffer has no part in a quiet state. -/
theorem quiet_rx {s : State} (rx : Bytes) (hq : s.quiet = true) : State.quiet { s with hub := { s.hub with rx := rx } } = true := hq

theorem takeFrame_pending {s : State} (f : Frame) (rule : State → Decision) (hf : Fair (taken s) (rule (taken s))) :
    (s.takeFrame f rule).pending = s.pending := by
  unfold State.takeFrame State.busyReply
  split
  · split
    · obtain ⟨h, he⟩ := (sameButLink_iff _ _).1 (startOutput_sameButLink s)
      rw [he]
    · obtain ⟨h, he⟩ := (sameButLink_iff _ _).1 (startOutput_sameButLink
        { s with hub := { s.hub with busy := some ⟨replyKind f.kind, f.tag, [Result.busy.byte]⟩ } })
      rw [he]
  · rw [announce_pending]
    exact hf.pending

/-! ## The rule of a frame (R173) -/

@[simp] theorem ofByte_byte (k : ReqKind) : ReqKind.ofByte k.byte = some k := by cases k <;> decide

theorem ofByte_unknown {kind : Byte} (h : isRequestKind kind = false) : ReqKind.ofByte kind = none := by
  simpa [isRequestKind] using h

theorem decideFrame_kind (k : ReqKind) (tag : Byte) (p : Bytes) (l : Levels) (s : State) :
    decideFrame ⟨k.byte, tag, p⟩ l s = if !k.early && !s.committed then s.deny .notReady else decideKind k p l s := by
  simp [decideFrame]

theorem decideFrame_taken {k : ReqKind} {s : State} (h : k.early = true ∨ s.committed = true) (tag : Byte) (p : Bytes) (l : Levels) :
    decideFrame ⟨k.byte, tag, p⟩ l s = decideKind k p l s := by
  rw [decideFrame_kind]
  rcases h with h | h <;> simp [h]

theorem decideFrame_early {k : ReqKind} {s : State} (h : k.early = false) (hc : s.committed = false) (tag : Byte) (p : Bytes)
    (l : Levels) : decideFrame ⟨k.byte, tag, p⟩ l s = s.deny .notReady := by
  rw [decideFrame_kind]
  simp [h, hc]

theorem decideFrame_unknown {f : Frame} {s : State} (h : isRequestKind f.kind = false) (l : Levels) :
    decideFrame f l s = s.deny .unknownKind := by
  simp [decideFrame, ofByte_unknown h]

/-- A frame is decided by a refusal, or by the rule of its kind. -/
theorem decideFrame_cases {Q : Decision → Prop} {f : Frame} {l : Levels} {s : State} (hd : ∀ r, Q (s.deny r))
    (hk : ∀ k, Q (decideKind k f.payload l s)) : Q (decideFrame f l s) := by
  unfold decideFrame
  split
  · exact hd _
  · split
    · exact hd _
    · exact hk _

/-! ## Bytes at the receiver (R172) -/

theorem takeHeard_closed {s : State} (h : s.hub.receiverOpen = false) (l : Levels) (f : Frame) : s.takeHeard l f = s := by
  simp [State.takeHeard, h]

theorem takeHeard_open {s : State} (h : s.hub.receiverOpen = true) (l : Levels) (f : Frame) :
    s.takeHeard l f = s.takeFrame f (decideFrame f l) := by
  simp [State.takeHeard, h]

theorem hearBytes_closed {s : State} (h : s.hub.receiverOpen = false) (l : Levels) (bytes : Bytes) :
    s.hearBytes l bytes = s := by
  simp [State.hearBytes, h]

/-- Bytes that complete no frame change the receive buffer at most. -/
theorem hearBytes_silent {s : State} (h : s.hub.receiverOpen = true) {rx bytes : Bytes} (hh : hear s.hub.rx bytes = (rx, []))
    (l : Levels) : s.hearBytes l bytes = { s with hub := { s.hub with rx := rx } } := by
  simp [State.hearBytes, h, hh]

/-- Bytes that complete one frame have it taken. -/
theorem hearBytes_one {s : State} (h : s.hub.receiverOpen = true) {rx bytes : Bytes} {f : Frame}
    (hh : hear s.hub.rx bytes = (rx, [f])) (l : Levels) :
    s.hearBytes l bytes = State.takeFrame { s with hub := { s.hub with rx := rx } } f (decideFrame f l) := by
  simp [State.hearBytes, State.takeHeard, h, hh]

/-- A hunting receiver takes a frame that keeps the link's payload limit (R172). -/
theorem hearBytes_wire {s : State} (h : s.hunting = true) {f : Frame} (hp : f.payload.length ≤ 512) (l : Levels) :
    s.hearBytes l f.wire = s.takeFrame f (decideFrame f l) := by
  obtain ⟨_, ho, hr⟩ := (hunting_iff s).1 h
  rw [hearBytes_one ho (rx := []) (f := f) (by rw [hr]; exact hear_wire hp)]
  rw [← hr]

/-- Everything bytes at the receiver can do: what a change of its buffer and the taking of any frame keep, they keep. -/
theorem hearBytes_keeps {P : State → Prop} (hrx : ∀ s rx, P s → P { s with hub := { s.hub with rx := rx } }) {l : Levels}
    (hf : ∀ s f, P s → P (s.takeFrame f (decideFrame f l))) {s : State} (hs : P s) (bytes : Bytes) : P (s.hearBytes l bytes) := by
  have hfold : ∀ (fs : List Frame) (u : State), P u → P (fs.foldl (State.takeHeard l) u) := by
    intro fs
    induction fs with
    | nil => exact fun _ h => h
    | cons f fs ih =>
      intro u hu
      refine ih _ ?_
      unfold State.takeHeard
      split
      · exact hf u f hu
      · exact hu
  unfold State.hearBytes
  split
  · exact hs
  · exact hfold _ _ (hrx s _ hs)

/-- Everything a request can do. -/
theorem request_keeps {P : State → Prop} (hrx : ∀ s rx, P s → P { s with hub := { s.hub with rx := rx } })
    {l : Levels} (hf : ∀ s f, P s → P (s.takeFrame f (decideFrame f l))) {s t : State} {k : ReqKind} {tag : Byte} {p : Bytes}
    (h : request s k tag p l = .next t) (hs : P s) : P t := by
  unfold request whenLive at h
  split at h <;> cases h
  · exact hearBytes_keeps hrx hf hs _
  · exact hs

/-- A request that the link listens to, taken by its own rule. -/
theorem request_listening {s : State} (h : s.listening = true) (k : ReqKind) (tag : Byte) {p : Bytes} (hl : p.length ≤ 512)
    (l : Levels) (hc : k.early = true ∨ s.committed = true) :
    request s k tag p l
      = .next ((decideKind k p l (taken s)).1.queueReply k.byte tag (decideKind k p l (taken s)).2).announce := by
  have hh := ((listening_iff s).1 h).1
  unfold request
  rw [whenLive_live ((hunting_iff s).1 hh).1, hearBytes_wire hh hl, takeFrame_listening h,
    decideFrame_taken (s := taken s) hc]

end Sys2Proof.Laws
end

