-- ==== Sys2Proof/Laws/Decisions.lean ====
section
/-! SUPPORT. Every rule of a request is fair: it keeps the queue, RESET_N, what the link sends, and a settled state settled; so
bytes at the receiver leave a quiet state and the queue of commands alone. -/

namespace Sys2Proof.Laws

open Machine

/-! ## Decisions that need no settling -/

/-- The event flags have no part in what a settled state owes. -/
theorem inner_updEvents {s : State} (b : Nat) (v : BitVec 10) (h : inner s) :
    inner (s.updBay b fun r => { r with events := v }) := by
  obtain ⟨w, d, l, i, m⟩ := h
  refine ⟨w, d, ?_, ?_, ?_⟩
  · unfold State.lanesQuiet State.updBay at *
    rw [List.all_map, List.all_eq_true] at *
    intro r hr
    have := l r hr
    simp only [Function.comp]
    split <;> simpa only [Bool.not_eq_true', laneNext_isSome _ s r.num r.num] using this
  · unfold State.lampsRight State.updBay at *
    rw [List.all_map, List.all_eq_true] at *
    intro r hr
    have := i r hr
    simp only [Function.comp]
    split <;> exact this
  · unfold State.limitsRight State.updBay at *
    rw [List.all_map, List.all_eq_true] at *
    intro r hr
    have := m r hr
    simp only [Function.comp]
    split <;> exact this

theorem Fair.clearEvents {s : State} {d : Decision} (h : Fair s d) (b : Nat) (body : Bytes) :
    Fair s (d.1.clearEvents b, body) :=
  ⟨fun hs => inner_updEvents b _ (h.settled hs), h.pending, h.resetN, h.replyPending, h.reply, h.sending, h.busy, h.notice⟩

/-- A settled state accepts a write of what only the hub link holds, the sending part apart. -/
theorem Fair.settledLink {s u : State} (hp : u.pending = s.pending) (hr : u.resetN = s.resetN)
    (h1 : u.hub.replyPending = s.hub.replyPending) (h2 : u.hub.reply = s.hub.reply) (h3 : u.hub.sending = s.hub.sending)
    (h4 : u.hub.busy = s.hub.busy)
    (hn : u.hub.notice = true → u.hub.noticeOutstanding = s.hub.noticeOutstanding ∧ s.hub.notice = true)
    (body : Bytes) : Fair s (u.accept body) where
  settled _ := settle_inner u
  pending := (settle_same u).cart.pending.trans hp
  resetN := (settle_same u).cart.resetN.trans hr
  replyPending := by show u.settle.hub.replyPending = _; rw [settle_hub, h1]
  reply := by show u.settle.hub.reply = _; rw [settle_hub, h2]
  sending := by show u.settle.hub.sending = _; rw [settle_hub, h3]
  busy := by show u.settle.hub.busy = _; rw [settle_hub, h4]
  notice h := by
    show u.settle.hub.notice = _ → u.settle.hub.noticeOutstanding = _
    rw [settle_hub]
    intro hu
    exact (hn hu).1.trans (h (hn hu).2)

/-! ## One law for each rule -/

theorem fair_decideResetPart (p : Bytes) (s : State) : Fair s (decideResetPart p s) :=
  Fair.sized (f := fun s => s.armReset.report []) ⟨id, rfl, rfl, rfl, rfl, rfl, rfl, fun _ h => nomatch h⟩ _

theorem fair_decideResetBay (p : Bytes) (s : State) : Fair s (decideResetBay p s) :=
  ((Fair.clearEvents (Fair.accept_outer (outer_resetBay s (byteAt p 0)) []) (byteAt p 0) _).onBay
    (f := fun s => ((s.resetBay (byteAt p 0)).settle.clearEvents (byteAt p 0)).report []) _).sized _

theorem fair_decideCommit (p : Bytes) (inp : Inputs) (s : State) : Fair s (decideCommit p inp s) := by
  unfold decideCommit
  split
  · exact Fair.deny _ _
  · refine Fair.sized ?_ _
    split
    · exact Fair.deny _ _
    · rename_i g _
      have h := (outer_iff _ _).1 (show outer ((s.commit g inp).startFound.askNormal) = outer (s.commit g inp) by
        simp [State.startFound])
      exact Fair.accept (s := s) h.1 h.2.1 h.2.2.1 _

theorem fair_decideSetMode (p : Bytes) (s : State) : Fair s (decideSetMode p s) := by
  unfold decideSetMode
  refine Fair.sized ?_ _
  split
  · exact Fair.deny _ _
  · rename_i m _
    split
    · exact Fair.report _ _
    · have h := (outer_iff _ _).1 (show outer (s.changeMode m) = outer { s with mode := m } by simp [State.changeMode])
      exact Fair.accept (s := s) h.1 h.2.1 h.2.2.1 _

theorem fair_decideSetThresholds (p : Bytes) (s : State) : Fair s (decideSetThresholds p s) := by
  unfold decideSetThresholds
  refine Fair.sized ?_ _
  have h (low ready rel : Nat) : outer (s.setThresholds low ready rel)
      = outer { s with custody := { s.custody with releaseMin := rel } } := by
    unfold State.setThresholds
    dsimp only
    split
    · exact outer_askNormal _
    · rfl
  have k := (outer_iff _ _).1
    (h (min 100 (byteAt p 0)) (max (min 100 (byteAt p 0)) (min 100 (byteAt p 1))) (min 100 (byteAt p 2)))
  exact Fair.acceptClamped (s := s) k.1 k.2.1 k.2.2.1 _ _

theorem fair_decideSetCustody (p : Bytes) (s : State) : Fair s (decideSetCustody p s) := by
  unfold decideSetCustody
  refine Fair.sized ?_ _
  have k := (outer_iff _ _).1 (outer_reportOverdue
    { s with custody := { s.custody with ajarLimit := max 30 (min 600 (wordAt p 0)) } })
  exact Fair.acceptClamped (s := s) k.1 k.2.1 k.2.2.1 _ _

theorem fair_decideRosterPut (p : Bytes) (s : State) : Fair s (decideRosterPut p s) := by
  unfold decideRosterPut
  refine Fair.sized ?_ _
  split
  · exact Fair.unchanged _ _
  · refine Fair.acceptClamped ?_ ?_ ?_ _ _ <;> rfl

theorem fair_decideSetNotices (p : Bytes) (s : State) : Fair s (decideSetNotices p s) := by
  unfold decideSetNotices
  refine Fair.sized ?_ _
  split
  · exact Fair.deny _ _
  · exact Fair.settledLink (s := s) (u := { s with hub := { s.hub with mask := BitVec.ofNat 13 (wordAt p 0) } })
      rfl rfl rfl rfl rfl rfl (fun h => ⟨rfl, h⟩) _

theorem fair_readSet (s : State) (b : Nat) : Fair s (s.readSet b) := by
  unfold State.readSet
  split
  · exact ⟨id, rfl, rfl, rfl, rfl, rfl, rfl, fun _ h => nomatch h⟩
  · exact ⟨inner_updEvents b _, rfl, rfl, rfl, rfl, rfl, rfl, fun _ h => nomatch h⟩

theorem fair_decideReadEvents (p : Bytes) (s : State) : Fair s (decideReadEvents p s) :=
  ((fair_readSet s _).onBayOrZero (f := fun s => s.readSet (byteAt p 0)) _).sized _

theorem fair_decideGetCart (p : Bytes) (s : State) : Fair s (decideGetCart p s) :=
  (Fair.report s _).sized (f := fun s => s.report _) _

theorem fair_decideGetBudget (p : Bytes) (s : State) : Fair s (decideGetBudget p s) :=
  (Fair.report s _).sized (f := fun s => s.report _) _

theorem fair_decideGetProfiles (p : Bytes) (s : State) : Fair s (decideGetProfiles p s) :=
  (Fair.report s _).sized (f := fun s => s.report _) _

theorem fair_decideRosterGet (p : Bytes) (s : State) : Fair s (decideRosterGet p s) :=
  (Fair.report s _).sized (f := fun s => s.report _) _

theorem fair_decideGetBay (p : Bytes) (s : State) : Fair s (decideGetBay p s) := by
  unfold decideGetBay
  exact Fair.sized ((Fair.report s _).onBay (f := fun s => s.report (s.bayBytes (s.bay (byteAt p 0)))) _) _

theorem fair_decideSetBays (p : Bytes) (s : State) : Fair s (decideSetBays p s) := by
  unfold decideSetBays
  refine Fair.sized ?_ _
  repeat' first
    | exact Fair.unchanged _ _
    | exact Fair.acceptClamped_outer (by simp) _ _
    | split
    | dsimp only

theorem fair_decideRenegotiate (p : Bytes) (s : State) : Fair s (decideRenegotiate p s) := by
  unfold decideRenegotiate
  refine Fair.sized ?_ _
  repeat' first
    | exact Fair.unchanged _ _
    | exact Fair.accept_outer (by simp) _
    | refine Fair.onBay ?_ _
    | split

theorem fair_decideForceContract (p : Bytes) (s : State) : Fair s (decideForceContract p s) := by
  unfold decideForceContract
  refine Fair.sized ?_ _
  repeat' first
    | exact Fair.unchanged _ _
    | exact Fair.acceptClamped_outer (by simp) _ _
    | refine Fair.onBay ?_ _
    | split

theorem fair_decideWakeBay (p : Bytes) (s : State) : Fair s (decideWakeBay p s) := by
  unfold decideWakeBay
  refine Fair.sized ?_ _
  repeat' first
    | exact Fair.unchanged _ _
    | exact Fair.accept_outer (by simp) _
    | refine Fair.onBay ?_ _
    | split

theorem fair_decideSetLaneFlags (p : Bytes) (s : State) : Fair s (decideSetLaneFlags p s) := by
  unfold decideSetLaneFlags
  refine Fair.sized ?_ _
  repeat' first
    | exact Fair.unchanged _ _
    | exact Fair.accept_outer (by simp) _
    | refine Fair.onBayOrZero ?_ _
    | split

theorem fair_decideSetBudget (p : Bytes) (s : State) : Fair s (decideSetBudget p s) := by
  unfold decideSetBudget
  refine Fair.sized ?_ _
  exact Fair.acceptClamped_outer (by simp) _ _

theorem fair_decideSetPolicy (p : Bytes) (s : State) : Fair s (decideSetPolicy p s) := by
  unfold decideSetPolicy
  refine Fair.sized ?_ _
  repeat' first
    | exact Fair.unchanged _ _
    | exact Fair.accept_outer (by simp) _
    | split

theorem fair_decideClearFault (p : Bytes) (s : State) : Fair s (decideClearFault p s) := by
  unfold decideClearFault
  refine Fair.sized ?_ _
  repeat' first
    | exact Fair.unchanged _ _
    | exact Fair.accept_outer (by simp) _
    | refine Fair.onBay ?_ _
    | split

theorem fair_decideProfileBegin (p : Bytes) (s : State) : Fair s (decideProfileBegin p s) := by
  unfold decideProfileBegin
  refine Fair.sized ?_ _
  repeat' first
    | exact Fair.unchanged _ _
    | exact Fair.accept_outer (by simp) _
    | split
    | dsimp only

theorem fair_decideProfileData (p : Bytes) (s : State) : Fair s (decideProfileData p s) := by
  unfold decideProfileData
  refine Fair.sized ?_ _
  repeat' first
    | exact Fair.unchanged _ _
    | exact Fair.accept_outer (by simp) _
    | split
    | dsimp only

theorem fair_decideProfileEnd (p : Bytes) (s : State) : Fair s (decideProfileEnd p s) := by
  unfold decideProfileEnd
  refine Fair.sized ?_ _
  repeat' first
    | exact Fair.unchanged _ _
    | exact Fair.accept_outer (by simp) _
    | split
    | dsimp only

theorem fair_decideProfileDrop (p : Bytes) (s : State) : Fair s (decideProfileDrop p s) := by
  unfold decideProfileDrop
  refine Fair.sized ?_ _
  repeat' first
    | exact Fair.unchanged _ _
    | (refine Fair.accept ?_ ?_ ?_ _ <;> rfl)
    | split
    | dsimp only

theorem fair_decideCatalogSet (p : Bytes) (s : State) : Fair s (decideCatalogSet p s) := by
  unfold decideCatalogSet
  refine Fair.sized ?_ _
  repeat' first
    | exact Fair.unchanged _ _
    | (refine Fair.accept ?_ ?_ ?_ _ <;> rfl)
    | split
    | dsimp only

theorem fair_decideCatalogDrop (p : Bytes) (s : State) : Fair s (decideCatalogDrop p s) := by
  unfold decideCatalogDrop
  refine Fair.sized ?_ _
  repeat' first
    | exact Fair.unchanged _ _
    | (refine Fair.accept ?_ ?_ ?_ _ <;> rfl)
    | split
    | dsimp only

theorem fair_decideQueueJob (p : Bytes) (s : State) : Fair s (decideQueueJob p s) := by
  unfold decideQueueJob
  refine Fair.sized ?_ _
  repeat' first
    | exact Fair.unchanged _ _
    | exact Fair.accept_outer (by simp) _
    | refine Fair.onBay ?_ _
    | split

theorem fair_decideCancelJob (p : Bytes) (s : State) : Fair s (decideCancelJob p s) := by
  unfold decideCancelJob
  refine Fair.sized ?_ _
  repeat' first
    | exact Fair.unchanged _ _
    | exact Fair.accept_outer (by simp) _
    | split

theorem fair_decideDeclineAsk (p : Bytes) (s : State) : Fair s (decideDeclineAsk p s) := by
  unfold decideDeclineAsk
  refine Fair.sized ?_ _
  repeat' first
    | exact Fair.unchanged _ _
    | exact Fair.accept_outer (by simp) _
    | refine Fair.onBay ?_ _
    | split

theorem fair_decideSetChannels (p : Bytes) (s : State) : Fair s (decideSetChannels p s) := by
  unfold decideSetChannels
  refine Fair.sized ?_ _
  repeat' first
    | exact Fair.unchanged _ _
    | exact Fair.accept_outer (by simp) _
    | split
    | dsimp only

theorem fair_decideGetJobs (p : Bytes) (s : State) : Fair s (decideGetJobs p s) := by
  unfold decideGetJobs
  refine Fair.sized ?_ _
  repeat' first
    | exact Fair.unchanged _ _
    | split

theorem fair_decideRosterRemove (p : Bytes) (s : State) : Fair s (decideRosterRemove p s) := by
  unfold decideRosterRemove
  refine Fair.sized ?_ _
  repeat' first
    | exact Fair.unchanged _ _
    | (refine Fair.accept ?_ ?_ ?_ _ <;> rfl)
    | split
    | dsimp only

theorem fair_decidePresent (p : Bytes) (s : State) : Fair s (decidePresent p s) := by
  unfold decidePresent
  refine Fair.sized ?_ _
  repeat' first
    | exact Fair.unchanged _ _
    | exact Fair.accept_outer (by simp) _
    | refine Fair.onBayOrZero ?_ _
    | split
    | dsimp only

theorem fair_decideRestoreCheckout (p : Bytes) (s : State) : Fair s (decideRestoreCheckout p s) := by
  unfold decideRestoreCheckout
  refine Fair.sized ?_ _
  repeat' first
    | exact Fair.unchanged _ _
    | exact Fair.accept_outer (by simp) _
    | refine Fair.onBay ?_ _
    | split
    | dsimp only

theorem fair_decideAcceptForeign (p : Bytes) (s : State) : Fair s (decideAcceptForeign p s) := by
  unfold decideAcceptForeign
  refine Fair.sized ?_ _
  repeat' first
    | exact Fair.unchanged _ _
    | exact Fair.accept_outer (by simp) _
    | refine Fair.onBay ?_ _
    | split

theorem fair_decideClearAlarm (p : Bytes) (high : Nat → Bool) (s : State) : Fair s (decideClearAlarm p high s) := by
  unfold decideClearAlarm
  refine Fair.sized ?_ _
  repeat' first
    | exact Fair.unchanged _ _
    | exact Fair.accept_outer (by simp) _
    | refine Fair.onBay ?_ _
    | split
    | dsimp only

/-- Whatever a frame asks for, its rule is fair. -/
theorem fair_decideKind (k : ReqKind) (p : Bytes) (l : Levels) (s : State) : Fair s (decideKind k p l s) :=
  match k with
  | .getCart => fair_decideGetCart p s
  | .getBay => fair_decideGetBay p s
  | .resetPart => fair_decideResetPart p s
  | .resetBay => fair_decideResetBay p s
  | .commitGeometry => fair_decideCommit p l.inputs s
  | .setBays => fair_decideSetBays p s
  | .setMode => fair_decideSetMode p s
  | .renegotiate => fair_decideRenegotiate p s
  | .forceContract => fair_decideForceContract p s
  | .wakeBay => fair_decideWakeBay p s
  | .setLaneFlags => fair_decideSetLaneFlags p s
  | .setBudget => fair_decideSetBudget p s
  | .setThresholds => fair_decideSetThresholds p s
  | .setPolicy => fair_decideSetPolicy p s
  | .getBudget => fair_decideGetBudget p s
  | .clearFault => fair_decideClearFault p s
  | .profileBegin => fair_decideProfileBegin p s
  | .profileData => fair_decideProfileData p s
  | .profileEnd => fair_decideProfileEnd p s
  | .profileDrop => fair_decideProfileDrop p s
  | .getProfiles => fair_decideGetProfiles p s
  | .catalogSet => fair_decideCatalogSet p s
  | .catalogDrop => fair_decideCatalogDrop p s
  | .queueJob => fair_decideQueueJob p s
  | .cancelJob => fair_decideCancelJob p s
  | .declineAsk => fair_decideDeclineAsk p s
  | .setChannels => fair_decideSetChannels p s
  | .getJobs => fair_decideGetJobs p s
  | .rosterPut => fair_decideRosterPut p s
  | .rosterRemove => fair_decideRosterRemove p s
  | .rosterGet => fair_decideRosterGet p s
  | .present => fair_decidePresent p s
  | .restoreCheckout => fair_decideRestoreCheckout p s
  | .acceptForeign => fair_decideAcceptForeign p s
  | .clearAlarm => fair_decideClearAlarm p l.lpos s
  | .setCustody => fair_decideSetCustody p s
  | .setNotices => fair_decideSetNotices p s
  | .readEvents => fair_decideReadEvents p s

theorem fair_decideFrame (f : Frame) (l : Levels) (s : State) : Fair s (decideFrame f l s) :=
  decideFrame_cases (Fair.deny s) fun k => fair_decideKind k _ l s

/-! ## Bytes at the receiver -/

/-- Bytes leave a quiet state. -/
theorem hearBytes_quiet {s : State} (hq : s.quiet = true) (l : Levels) (bytes : Bytes) : (s.hearBytes l bytes).quiet = true :=
  hearBytes_keeps (P := fun v => v.quiet = true) (fun _ rx h => quiet_rx rx h)
    (fun u f h => takeFrame_quiet h f _ (fair_decideFrame f l (taken u))) hq bytes

/-- Bytes leave the queue of commands alone. -/
theorem hearBytes_pending (s : State) (l : Levels) (bytes : Bytes) : (s.hearBytes l bytes).pending = s.pending :=
  hearBytes_keeps (P := fun v => v.pending = s.pending) (fun _ _ h => h)
    (fun u f h => (takeFrame_pending f _ (fair_decideFrame f l (taken u))).trans h) rfl bytes

/-- A request leaves a quiet state, and the queue of commands alone. -/
theorem request_quiet {s t : State} {k : ReqKind} {tag : Byte} {p : Bytes} {l : Levels} (h : request s k tag p l = .next t) :
    t.pending = s.pending ∧ (s.quiet = true → t.quiet = true) := by
  unfold request whenLive at h
  split at h <;> cases h
  · exact ⟨hearBytes_pending s l _, fun hq => hearBytes_quiet hq l _⟩
  · exact ⟨rfl, id⟩

end Sys2Proof.Laws
end

