-- ==== Sys2Proof/Laws/Passes.lean ====
section
/-! SUPPORT. What one pass does to the allocator (R64, R67, R79, R81): nothing but its pass writes there. -/

namespace Sys2Proof.Laws

open Machine

/-! ## What leaves the allocator alone -/

theorem forEach_alloc (f : State → Nat → State) (hf : ∀ s b, (f s b).alloc = s.alloc) (l : List Nat) (s : State) :
    (s.forEach l f).alloc = s.alloc :=
  forEach_keeps (P := fun t => t.alloc = s.alloc) f (fun t b h => (hf t b).trans h) l s rfl

@[simp] theorem updLane_alloc (s : State) (b : Nat) (f : Lane → Lane) : (s.updLane b f).alloc = s.alloc := rfl

@[simp] theorem updPower_alloc (s : State) (b : Nat) (f : Power → Power) : (s.updPower b f).alloc = s.alloc := rfl

@[simp] theorem post_alloc (s : State) (b : Nat) (e : BayEvent) : (s.post b e).alloc = s.alloc := rfl

@[simp] theorem askNormal_alloc (s : State) : s.askNormal.alloc = s.alloc := by
  unfold State.askNormal
  split <;> rfl

@[simp] theorem askScan_alloc (s : State) : s.askScan.alloc = s.alloc := by
  unfold State.askScan
  split <;> rfl

@[simp] theorem postStop_alloc (s : State) (b tag : Nat) (c : Call) : (s.postStop b tag c).alloc = s.alloc := by
  unfold State.postStop State.postLane
  split <;> rfl

@[simp] theorem releaseChannel_alloc (s : State) (c : Option Nat) : (s.releaseChannel c).alloc = s.alloc := by
  cases c <;> rfl

@[simp] theorem handTarget_alloc (s : State) (b target : Nat) : (s.handTarget b target).alloc = s.alloc := by
  unfold State.handTarget
  dsimp only
  split
  · rfl
  · split <;> rfl

@[simp] theorem suspendJob_alloc (s : State) (j : Job) : (s.suspendJob j).alloc = s.alloc := by
  unfold State.suspendJob
  dsimp only
  rw [askNormal_alloc, post_alloc]
  dsimp only
  rw [dropJob_alloc, releaseChannel_alloc]
  split <;> simp

@[simp] theorem suspendBay_alloc (s : State) (b : Nat) : (s.suspendBay b).alloc = s.alloc := by
  unfold State.suspendBay
  split
  · rfl
  · split
    · exact suspendJob_alloc s _
    · rfl

@[simp] theorem suspendUnpowered_alloc (s : State) : s.suspendUnpowered.alloc = s.alloc :=
  forEach_alloc _ (fun s b => by split <;> simp) _ s

@[simp] theorem writeGrant_alloc (s : State) (g : Grant) : (s.writeGrant g).alloc = s.alloc := by
  unfold State.writeGrant
  dsimp only
  split <;> simp

@[simp] theorem writeNoDemand_alloc (s : State) (b : Nat) : (s.writeNoDemand b).alloc = s.alloc := by
  unfold State.writeNoDemand
  simp

theorem foldGrants_alloc (l : List Grant) : ∀ s : State, (l.foldl State.writeGrant s).alloc = s.alloc := by
  induction l with
  | nil => exact fun _ => rfl
  | cons g l ih => exact fun s => (ih _).trans (writeGrant_alloc s g)

/-! ## A pass -/

/-- The allocator after a pass whose figures are `m` (R64, R67, R79, R81), but for a schedule that the pass itself raised. -/
structure PassRan (s : State) (m : Summary) (t : State) : Prop where
  lastPass : t.alloc.lastPass = some s.now
  periodic : t.alloc.periodic = some (s.now + Config.periodicTime)
  summary : t.alloc.summary = some m
  origin : t.alloc.origin = s.alloc.origin % s.nBays + 1
  scheduled : t.alloc.scheduled = none ∨ t.alloc.scheduled = some (s.now + Config.passSpacing)

theorem nBays_of_geo {s t : State} (h : t.geo = s.geo) : t.nBays = s.nBays := by
  unfold State.nBays
  rw [h]

theorem passRan_recordPass {s u : State} (m : Summary) (ha : u.alloc = s.alloc) (hn : u.now = s.now) (hg : u.geo = s.geo) :
    PassRan s m (u.recordPass m) := by
  refine ⟨?_, ?_, rfl, ?_, .inl rfl⟩ <;> unfold State.recordPass <;> dsimp only
  · rw [hn]
  · rw [hn]
  · rw [ha, nBays_of_geo hg]

theorem PassRan.of_alloc {s t u : State} {m : Summary} (h : PassRan s m t) (ha : u.alloc = t.alloc) : PassRan s m u :=
  ⟨ha ▸ h.lastPass, ha ▸ h.periodic, ha ▸ h.summary, ha ▸ h.origin, ha ▸ h.scheduled⟩

theorem PassRan.spaceRaised {s t : State} {m : Summary} (h : PassRan s m t) (hn : t.now = s.now) : PassRan s m t.spaceRaised := by
  unfold State.spaceRaised
  split
  · exact h
  · exact ⟨h.lastPass, h.periodic, h.summary, h.origin, .inr (by dsimp only; rw [hn])⟩

/-- A pass after commit writes the allocator its results; before commit there is none. -/
theorem passRan_runPass {s : State} (hc : s.committed = true) (k : PassKind) :
    PassRan s (s.summaryOf k (s.grants k)) (s.runPass k) := by
  unfold State.runPass
  rw [if_neg (by simp [hc])]
  dsimp only
  have hk := (kept_foldGrants (s.grants k).flatten s).trans
    (kept_forEach _ ((s.bays.map (·.num)).filter fun b => !(s.grants k).flatten.any fun g => g.dem.bay == b)
      State.writeNoDemand kept_writeNoDemand)
  have ha := (forEach_alloc State.writeNoDemand writeNoDemand_alloc
    ((s.bays.map (·.num)).filter fun b => !(s.grants k).flatten.any fun g => g.dem.bay == b) _).trans
      (foldGrants_alloc (s.grants k).flatten s)
  have hr := (hk.trans (kept_recordPass _ (s.summaryOf k (s.grants k)))).trans (kept_suspendUnpowered _)
  have h := ((passRan_recordPass (s.summaryOf k (s.grants k)) ha hk.cart.now hk.cart.geo).of_alloc
    (suspendUnpowered_alloc _)).spaceRaised hr.cart.now
  split
  · exact h.of_alloc (askScan_alloc _)
  · exact h.of_alloc (askScan_alloc _)
  · exact h

theorem runPass_before_commit {s : State} (hc : s.committed = false) (k : PassKind) : s.runPass k = s := by
  unfold State.runPass
  simp [hc]

/-! ## The requests of an event (R65, R66) -/

/-- A normal request merges, is scheduled behind the latest pass, or runs now. -/
theorem takeNormal_cases (s : State) :
    ((∃ d, s.alloc.scheduled = some d) ∧ s.takeNormal = s)
    ∨ (s.alloc.scheduled = none ∧ (∀ p, s.alloc.lastPass = some p → p + Config.passSpacing ≤ s.now)
        ∧ s.takeNormal = s.runPass .normal)
    ∨ ∃ p, s.alloc.scheduled = none ∧ s.alloc.lastPass = some p ∧ s.now < p + Config.passSpacing
        ∧ s.takeNormal = { s with alloc := { s.alloc with scheduled := some (p + Config.passSpacing) } } := by
  unfold State.takeNormal
  split
  · rename_i d h
    exact .inl ⟨⟨d, h⟩, rfl⟩
  · rename_i h hp
    exact .inr (.inl ⟨h, by simp [hp], rfl⟩)
  · rename_i p h hp
    split
    · rename_i hle
      exact .inr (.inl ⟨h, fun q hq => by rw [hp] at hq; cases hq; exact hle, rfl⟩)
    · rename_i hlt
      exact .inr (.inr ⟨p, h, hp, by omega, rfl⟩)

end Sys2Proof.Laws
end

