-- ==== Sys2Proof/Laws/PerInstr.lean ====
section
/-! SUPPORT. The per-instruction family NoWord: the table gives no row bits, so no word spells a command (log 25). -/

namespace Sys2Proof.Laws

/-- No word spells the command. -/
def NoWord.Statement (i : Instr) : Prop := ∀ nbits w, decodeTableWord nbits w ≠ some i

/-- No word spells any command. -/
theorem noWord (i : Instr) : NoWord.Statement i := fun _ _ h => nomatch h

theorem NoWord.powerOn : NoWord.Statement (.powerOn) := noWord _
theorem NoWord.resetNLow : NoWord.Statement (.resetNLow) := noWord _
theorem NoWord.resetNHigh : NoWord.Statement (.resetNHigh) := noWord _
theorem NoWord.hubRxGapTimeout : NoWord.Statement (.hubRxGapTimeout) := noWord _
theorem NoWord.hubFrameCorrupt (run : RxRun) : NoWord.Statement (.hubFrameCorrupt run) := noWord _
theorem NoWord.hubRxByteFault (f : HubByteFault) : NoWord.Statement (.hubRxByteFault f) := noWord _
theorem NoWord.unknownKind (kind tag : Byte) (payload : Bytes) : NoWord.Statement (.unknownKind kind tag payload) := noWord _
theorem NoWord.hubFrameSent : NoWord.Statement (.hubFrameSent) := noWord _
theorem NoWord.getCart (tag : Byte) (payload : Bytes) : NoWord.Statement (.getCart tag payload) := noWord _
theorem NoWord.getBay (tag : Byte) (payload : Bytes) : NoWord.Statement (.getBay tag payload) := noWord _
theorem NoWord.resetPart (tag : Byte) (payload : Bytes) : NoWord.Statement (.resetPart tag payload) := noWord _
theorem NoWord.resetBay (tag : Byte) (payload : Bytes) : NoWord.Statement (.resetBay tag payload) := noWord _
theorem NoWord.commitGeometry (tag : Byte) (payload : Bytes) (inputs : Inputs) : NoWord.Statement (.commitGeometry tag payload inputs) := noWord _
theorem NoWord.setBays (tag : Byte) (payload : Bytes) : NoWord.Statement (.setBays tag payload) := noWord _
theorem NoWord.setMode (tag : Byte) (payload : Bytes) : NoWord.Statement (.setMode tag payload) := noWord _
theorem NoWord.renegotiate (tag : Byte) (payload : Bytes) : NoWord.Statement (.renegotiate tag payload) := noWord _
theorem NoWord.forceContract (tag : Byte) (payload : Bytes) : NoWord.Statement (.forceContract tag payload) := noWord _
theorem NoWord.wakeBay (tag : Byte) (payload : Bytes) : NoWord.Statement (.wakeBay tag payload) := noWord _
theorem NoWord.setLaneFlags (tag : Byte) (payload : Bytes) : NoWord.Statement (.setLaneFlags tag payload) := noWord _
theorem NoWord.setBudget (tag : Byte) (payload : Bytes) : NoWord.Statement (.setBudget tag payload) := noWord _
theorem NoWord.setThresholds (tag : Byte) (payload : Bytes) : NoWord.Statement (.setThresholds tag payload) := noWord _
theorem NoWord.setPolicy (tag : Byte) (payload : Bytes) : NoWord.Statement (.setPolicy tag payload) := noWord _
theorem NoWord.getBudget (tag : Byte) (payload : Bytes) : NoWord.Statement (.getBudget tag payload) := noWord _
theorem NoWord.clearFault (tag : Byte) (payload : Bytes) : NoWord.Statement (.clearFault tag payload) := noWord _
theorem NoWord.profileBegin (tag : Byte) (payload : Bytes) : NoWord.Statement (.profileBegin tag payload) := noWord _
theorem NoWord.profileData (tag : Byte) (payload : Bytes) : NoWord.Statement (.profileData tag payload) := noWord _
theorem NoWord.profileEnd (tag : Byte) (payload : Bytes) : NoWord.Statement (.profileEnd tag payload) := noWord _
theorem NoWord.profileDrop (tag : Byte) (payload : Bytes) : NoWord.Statement (.profileDrop tag payload) := noWord _
theorem NoWord.getProfiles (tag : Byte) (payload : Bytes) : NoWord.Statement (.getProfiles tag payload) := noWord _
theorem NoWord.catalogSet (tag : Byte) (payload : Bytes) : NoWord.Statement (.catalogSet tag payload) := noWord _
theorem NoWord.catalogDrop (tag : Byte) (payload : Bytes) : NoWord.Statement (.catalogDrop tag payload) := noWord _
theorem NoWord.queueJob (tag : Byte) (payload : Bytes) : NoWord.Statement (.queueJob tag payload) := noWord _
theorem NoWord.cancelJob (tag : Byte) (payload : Bytes) : NoWord.Statement (.cancelJob tag payload) := noWord _
theorem NoWord.declineAsk (tag : Byte) (payload : Bytes) : NoWord.Statement (.declineAsk tag payload) := noWord _
theorem NoWord.setChannels (tag : Byte) (payload : Bytes) : NoWord.Statement (.setChannels tag payload) := noWord _
theorem NoWord.getJobs (tag : Byte) (payload : Bytes) : NoWord.Statement (.getJobs tag payload) := noWord _
theorem NoWord.rosterPut (tag : Byte) (payload : Bytes) : NoWord.Statement (.rosterPut tag payload) := noWord _
theorem NoWord.rosterRemove (tag : Byte) (payload : Bytes) : NoWord.Statement (.rosterRemove tag payload) := noWord _
theorem NoWord.rosterGet (tag : Byte) (payload : Bytes) : NoWord.Statement (.rosterGet tag payload) := noWord _
theorem NoWord.present (tag : Byte) (payload : Bytes) : NoWord.Statement (.present tag payload) := noWord _
theorem NoWord.restoreCheckout (tag : Byte) (payload : Bytes) : NoWord.Statement (.restoreCheckout tag payload) := noWord _
theorem NoWord.acceptForeign (tag : Byte) (payload : Bytes) : NoWord.Statement (.acceptForeign tag payload) := noWord _
theorem NoWord.clearAlarm (tag : Byte) (payload : Bytes) (lpos : Bool) : NoWord.Statement (.clearAlarm tag payload lpos) := noWord _
theorem NoWord.setCustody (tag : Byte) (payload : Bytes) : NoWord.Statement (.setCustody tag payload) := noWord _
theorem NoWord.setNotices (tag : Byte) (payload : Bytes) : NoWord.Statement (.setNotices tag payload) := noWord _
theorem NoWord.readEvents (tag : Byte) (payload : Bytes) : NoWord.Statement (.readEvents tag payload) := noWord _
theorem NoWord.callSent (bay : Nat) : NoWord.Statement (.callSent bay) := noWord _
theorem NoWord.clash (bay : Nat) : NoWord.Statement (.clash bay) := noWord _
theorem NoWord.noAnswer (bay : Nat) : NoWord.Statement (.noAnswer bay) := noWord _
theorem NoWord.answerIncomplete (bay : Nat) : NoWord.Statement (.answerIncomplete bay) := noWord _
theorem NoWord.answerByteFault (bay : Nat) (f : LaneByteFault) : NoWord.Statement (.answerByteFault bay f) := noWord _
theorem NoWord.badAnswer (bay : Nat) (kind : Byte) (payload : Bytes) (crc : Byte) : NoWord.Statement (.badAnswer bay kind payload crc) := noWord _
theorem NoWord.retry (bay : Nat) : NoWord.Statement (.retry bay) := noWord _
theorem NoWord.wakeAttemptDue (bay : Nat) : NoWord.Statement (.wakeAttemptDue bay) := noWord _
theorem NoWord.wakeWindowEnd (bay : Nat) : NoWord.Statement (.wakeWindowEnd bay) := noWord _
theorem NoWord.quietEnd (bay : Nat) : NoWord.Statement (.quietEnd bay) := noWord _
theorem NoWord.wakePulseEnd (bay : Nat) : NoWord.Statement (.wakePulseEnd bay) := noWord _
theorem NoWord.ability (bay : Nat) (payload : Bytes) : NoWord.Statement (.ability bay payload) := noWord _
theorem NoWord.confirmAnswer (bay : Nat) (payload : Bytes) : NoWord.Statement (.confirmAnswer bay payload) := noWord _
theorem NoWord.status (bay : Nat) (payload : Bytes) : NoWord.Statement (.status bay payload) := noWord _
theorem NoWord.identityChunk (bay : Nat) (payload : Bytes) : NoWord.Statement (.identityChunk bay payload) := noWord _
theorem NoWord.chunkHandshake (bay : Nat) (payload : Bytes) : NoWord.Statement (.chunkHandshake bay payload) := noWord _
theorem NoWord.envelopeHandshake (bay : Nat) (payload : Bytes) : NoWord.Statement (.envelopeHandshake bay payload) := noWord _
theorem NoWord.stopHandshake (bay : Nat) (call : StopCall) (payload : Bytes) : NoWord.Statement (.stopHandshake bay call payload) := noWord _
theorem NoWord.receipt (bay : Nat) (payload : Bytes) : NoWord.Statement (.receipt bay payload) := noWord _
theorem NoWord.presenceChange (bay : Nat) (high : Bool) : NoWord.Statement (.presenceChange bay high) := noWord _
theorem NoWord.presenceDebounce (bay : Nat) : NoWord.Statement (.presenceDebounce bay) := noWord _
theorem NoWord.greetingHoldExpiry (bay : Nat) : NoWord.Statement (.greetingHoldExpiry bay) := noWord _
theorem NoWord.breakExpiry (bay : Nat) : NoWord.Statement (.breakExpiry bay) := noWord _
theorem NoWord.fallbackExpiry (bay : Nat) : NoWord.Statement (.fallbackExpiry bay) := noWord _
theorem NoWord.pollTimer (bay : Nat) : NoWord.Statement (.pollTimer bay) := noWord _
theorem NoWord.refreshExpiry (bay : Nat) : NoWord.Statement (.refreshExpiry bay) := noWord _
theorem NoWord.scheduledPass : NoWord.Statement (.scheduledPass) := noWord _
theorem NoWord.periodicTimer : NoWord.Statement (.periodicTimer) := noWord _
theorem NoWord.rampTick : NoWord.Statement (.rampTick) := noWord _
theorem NoWord.stageSample (bay : Nat) (draw : BitVec 16) (millivolts : Nat) : NoWord.Statement (.stageSample bay draw millivolts) := noWord _
theorem NoWord.trip (bay : Nat) : NoWord.Statement (.trip bay) := noWord _
theorem NoWord.coolOffExpiry (bay : Nat) : NoWord.Statement (.coolOffExpiry bay) := noWord _
theorem NoWord.tsenseSample (r : TempReading) : NoWord.Statement (.tsenseSample r) := noWord _
theorem NoWord.wsenseSample (w : BitVec 16) : NoWord.Statement (.wsenseSample w) := noWord _
theorem NoWord.chunkResendExpiry (bay : Nat) : NoWord.Statement (.chunkResendExpiry bay) := noWord _
theorem NoWord.scanTimer : NoWord.Statement (.scanTimer) := noWord _
theorem NoWord.settleExpiry (bay : Nat) : NoWord.Statement (.settleExpiry bay) := noWord _
theorem NoWord.envelopeResendExpiry (bay : Nat) : NoWord.Statement (.envelopeResendExpiry bay) := noWord _
theorem NoWord.stallExpiry (bay : Nat) : NoWord.Statement (.stallExpiry bay) := noWord _
theorem NoWord.timeLimitExpiry (bay : Nat) : NoWord.Statement (.timeLimitExpiry bay) := noWord _
theorem NoWord.drainExpiry (channel : Nat) : NoWord.Statement (.drainExpiry channel) := noWord _
theorem NoWord.motorPulseEnd (driver : DriverId) : NoWord.Statement (.motorPulseEnd driver) := noWord _
theorem NoWord.positionCheck (driver : DriverId) (high : Bool) : NoWord.Statement (.positionCheck driver high) := noWord _
theorem NoWord.retryWaitEnd (driver : DriverId) : NoWord.Statement (.retryWaitEnd driver) := noWord _
theorem NoWord.doorChange (unit : Nat) (high : Bool) : NoWord.Statement (.doorChange unit high) := noWord _
theorem NoWord.doorDebounce (unit : Nat) : NoWord.Statement (.doorDebounce unit) := noWord _
theorem NoWord.unlatchWindowExpiry (unit : Nat) : NoWord.Statement (.unlatchWindowExpiry unit) := noWord _
theorem NoWord.ajarLimit (unit : Nat) : NoWord.Statement (.ajarLimit unit) := noWord _

end Sys2Proof.Laws
end

