-- ==== Sys2Proof/Tests/Slice0.lean ====
section
/-! SUPPORT. Tests: ill-formed commands, one or two small facts for each command, and for every statement a state and operands
that meet its hypotheses together, at the boundaries of its clauses. -/

namespace Sys2Proof.Tests

open Sys2Proof.Machine

set_option maxRecDepth 8000

/-! ## Small states -/

def rank (t : Topology) : RankGeo := ⟨t, .p5, .activeHigh, .activeHigh, .activeHigh⟩

/-- A committed cart of two ranks, bay doors and a shelf, empty and locked, 1 s after the commit; no pass has run. -/
def cart : State :=
  { (State.reset.commit ⟨7, 2, [rank .bayDoors, rank .shelfDoor]⟩ ⟨0#36, 0#36, BitVec.allOnes 36⟩) with now := 1000 }

/-- A tablet whose serial is A1. -/
def tablet : Identity := ⟨[0x41#8, 0x31#8], 5, 3, 11, 1, 64, none, none⟩

/-- A session in force at P5. -/
def contracted : Session :=
  { Session.off with
    state := .contracted, ability := some ⟨15#4, 7#3⟩, contract := some ⟨.p5, .negotiated, 15#4, some 15#4⟩
    pollAt := some 2000 }

/-- The cart with a tablet in bay 1, its lane idle, and bay 1's record changed by `f`. -/
def docked (f : Bay → Bay) : State :=
  cart.updBay 1 fun r => f { r with
    present := true, cust := Cust.atCommit .stocked, sess := contracted, lane := { Lane.down with up := true } }

/-- Bay 1's lane and session as given. -/
def talking (l : Lane) (x : Session) : State := docked fun r => { r with lane := l, sess := x }

/-- A lane that sends or listens for call `c` under plan `p`. -/
def calling (act : LaneAct) (c : Call) (p : Plan) : Lane :=
  { Lane.down with up := true, act := act, flight := some ⟨c, p⟩, callEnd := 990, dueAt := 1010 }

/-- A session in state `st` with nothing negotiated. -/
def sessionIn (st : SessState) : Session := { Session.off with state := st, ability := some ⟨15#4, 7#3⟩ }

/-- A job of bay 1 on image 11. -/
def job (st : JobState) : Job where
  tag := 3
  bay := 1
  image := 11
  priority := 2
  origin := .hub
  state := st
  resume := false
  channel := some 1
  posted := true
  holds := 0
  progress := 0
  baseline := none
  settleAt := none
  resendAt := none
  stallAt := none
  limitAt := none

def image : Image := ⟨11, 2, 100, 30, [5], true⟩

/-- `s` with job `j` on channel 1. -/
def onChannel (s : State) (j : Job) : State :=
  ({ s with
    mode := .secure
    sched := { s.sched with catalog := [image], active := [j], channels := [⟨1, true, .assigned j.bay j.tag⟩] } }).lightLamps

/-- `s` with job `j` in the queue. -/
def inQueue (s : State) (j : Job) : State :=
  { s with sched := { s.sched with catalog := [image], queue := [{ j with channel := none, posted := false }] } }

/-- A cart with three credentials. -/
def staffed (s : State) : State :=
  { s with
    mode := .classMode
    roster := [⟨1, .student, 1, none, true⟩, ⟨2, .teacher, 36, none, true⟩, ⟨3, .technician, 36, none, true⟩] }

/-- A release group of credential 2 on bay 1 behind unit 1, its entry in state `e`. -/
def group (i : Intent) (e : EntryState) : Group := ⟨2, i, 1, [1], [⟨1, e, true, false, false, false⟩], false, 0, 0, 0⟩

def withGroup (s : State) (g : Group) : State :=
  ({ s with custody := { s.custody with groups := [g] } }).lightLamps

/-- Unit 1 changed by `f`. -/
def latched (s : State) (f : LatchUnit → LatchUnit) : State := (s.updUnit 1 f).lightLamps

/-- Driver A holds a move of unit 1. -/
def driving (s : State) (k : MoveKind) (p : MovePhase) (n : Nat) : State :=
  { s with latch := { s.latch with drvA := some ⟨⟨1, k⟩, p, n, 1100⟩ } }

/-- Every input pin low. -/
def lows : Inputs := ⟨0#36, 0#36, 0#36⟩

/-- What a command leaves, where it answers a next state. -/
def after (c : Instr) (s : State) : State :=
  match exec c s with
  | .next t => t
  | _ => s

/-- The payload of the frame that is being sent after a command. -/
def replyTo (c : Instr) (s : State) : Option Bytes := (after c s).hub.sending.map (·.2.payload)

/-- The step answers a next state. -/
def goesOn (s : State) : Bool :=
  match step s with
  | .next _ => true
  | _ => false

/-! ## Ill-formed commands -/

theorem test_corrupt_frame_is_corrupt :
    (Instr.hubFrameCorrupt ⟨Frame.wire ⟨0x01#8, 0x00#8, []⟩, lows⟩).wf = false
      ∧ (Instr.hubFrameCorrupt ⟨[0xA5#8, 0#8, 0#8, 1#8, 0#8, 0#8, 0#8], lows⟩).wf = true := by decide

theorem test_crc16 :
    crc16 [0x31#8, 0x32#8, 0x33#8, 0x34#8, 0x35#8, 0x36#8, 0x37#8, 0x38#8, 0x39#8] = 0x29B1#16 := by decide

theorem test_unknown_kind_is_unknown :
    (Instr.unknownKind 0x01#8 0x00#8 []).wf = false ∧ (Instr.unknownKind 0x70#8 0x00#8 []).wf = true := by decide

theorem test_hub_payload_limit :
    (Instr.rosterPut 0x00#8 (List.replicate 513 0#8)).wf = false
      ∧ (Instr.rosterPut 0x00#8 (List.replicate 512 0#8)).wf = true := by decide

theorem test_lane_payload_limit :
    (Instr.identityChunk 1 (List.replicate 65 0#8)).wf = false ∧ (Instr.identityChunk 1 (List.replicate 64 0#8)).wf = true := by
  decide

theorem test_bay_numbers :
    (Instr.callSent 0).wf = false ∧ (Instr.callSent 37).wf = false ∧ (Instr.callSent 1).wf = true
      ∧ (Instr.callSent 36).wf = true := by decide

theorem test_answer_bays : (Instr.ability 37 []).wf = false ∧ (Instr.badAnswer 0 0x81#8 [] 0#8).wf = false := by decide

theorem test_unit_numbers : (Instr.doorDebounce 37).wf = false ∧ (Instr.doorDebounce 36).wf = true := by decide

theorem test_channel_numbers :
    (Instr.drainExpiry 0).wf = false ∧ (Instr.drainExpiry 5).wf = false ∧ (Instr.drainExpiry 4).wf = true := by decide

theorem test_no_word_spells_a_command : decodeTableWord 8 1 = none := rfl

theorem test_small_states_are_quiet :
    cart.quiet = true ∧ (docked id).quiet = true ∧ (onChannel (docked id) (job .running)).quiet = true
      ∧ (inQueue (docked id) (job .queued)).quiet = true ∧ (staffed (docked id)).quiet = true
      ∧ (withGroup (staffed (docked id)) (group .take .pending)).quiet = true
      ∧ (driving cart .lock .pulse 1).quiet = true ∧ (talking (calling .listening (.poll none 0 0) .ordinary) contracted).quiet = true := by
  decide

/-! ## One command at a time -/

theorem test_power_on : after .powerOn cart = { State.reset with pins := cart.pins } := by decide

theorem test_reset_n :
    (after .resetNLow cart).resetN = false ∧ (after .resetNLow cart).geo = none
      ∧ after .resetNHigh (after .resetNLow cart) = after .powerOn cart ∧ after .resetNHigh cart = cart := by decide

theorem test_receiver_faults :
    (after .hubRxGapTimeout { cart with hub := { cart.hub with rx := [0xA5#8] } }) = cart
      ∧ (after (.hubRxByteFault .stopLow) { cart with hub := { cart.hub with rx := [0xA5#8] } }) = cart := by decide

theorem test_receiver_collects :
    (after (.hubFrameCorrupt ⟨[7#8, 0xA5#8, 1#8], lows⟩) cart).hub.rx = [0xA5#8, 1#8]
      ∧ (after (.hubFrameCorrupt ⟨[0xA5#8, 0#8, 0#8, 1#8, 0#8, 0#8, 0#8], lows⟩) cart) = cart
      ∧ (after (.hubFrameCorrupt ⟨[0xA5#8, 0#8, 2#8], lows⟩) cart).hub.rx = [0xA5#8, 0#8, 2#8]
      ∧ (after (.hubFrameCorrupt ⟨[0xA5#8, 1#8, 2#8], lows⟩) cart) = cart := by decide

theorem test_receiver_partial_spoils_request :
    (after (.getCart 1#8 []) { cart with hub := { cart.hub with rx := [0xA5#8] } }).hub.sending = none := by decide

/-- The cart with the bytes `l` in the hub receiver's buffer. -/
def hearing (l : Bytes) : State := { cart with hub := { cart.hub with rx := l } }

/-- The bytes of a GET_CART frame. -/
def getCartWire : Bytes := Frame.wire ⟨0x01#8, 0x01#8, []⟩

theorem test_frame_in_two_runs :
    after (.hubFrameCorrupt ⟨getCartWire.drop 4, lows⟩) (after (.hubFrameCorrupt ⟨getCartWire.take 4, lows⟩) cart)
      = after (.getCart 1#8 []) cart := by decide

theorem test_two_frames_in_one_run :
    let t := after (.hubFrameCorrupt ⟨getCartWire.drop 4 ++ Frame.wire ⟨0x70#8, 0x02#8, []⟩ ++ [0xA5#8], lows⟩)
      (hearing (getCartWire.take 4))
    t.hub.sending.map (·.2.kind) = some 0x81#8 ∧ t.hub.busy = some ⟨0xF0#8, 0x02#8, [1#8]⟩ ∧ t.hub.rx = [0xA5#8] := by decide

theorem test_bytes_behind_reset_part_are_dropped :
    after (.hubFrameCorrupt ⟨(Frame.wire ⟨0x03#8, 0x01#8, []⟩).drop 4 ++ getCartWire ++ [0xA5#8], lows⟩)
        (hearing ((Frame.wire ⟨0x03#8, 0x01#8, []⟩).take 4))
      = after (.resetPart 1#8 []) cart := by decide

theorem test_unknown_kind :
    (after (.unknownKind 0x70#8 9#8 []) cart).hub.sending = some (.reply, ⟨0xF0#8, 9#8, [2#8]⟩) := by decide

theorem test_busy :
    (after (.getCart 2#8 []) (after (.getCart 1#8 []) cart)).hub.busy = some ⟨0x81#8, 2#8, [1#8]⟩ := by decide

theorem test_frame_sent : after .hubFrameSent (after (.getCart 1#8 []) cart) = cart := by decide

theorem test_busy_is_sent :
    (after .hubFrameSent (after (.getCart 2#8 []) (after (.getCart 1#8 []) cart))).hub.sending
      = some (.busy, ⟨0x81#8, 2#8, [1#8]⟩) := by decide

theorem test_get_cart : replyTo (.getCart 1#8 []) cart = some (0#8 :: cart.cartBytes) := by decide

theorem test_get_cart_first : replyTo (.getCart 1#8 []) State.reset = some (0#8 :: State.reset.cartBytes) := by decide

theorem test_get_bay : (replyTo (.getBay 1#8 [7#8]) cart).map (·.take 5) = some [0#8, 7#8, 2#8, 7#8, 1#8] := by decide

theorem test_get_bay_length : (replyTo (.getBay 1#8 [12#8]) cart).map (·.length) = some 167 := by decide

theorem test_reset_part :
    after .hubFrameSent (after (.resetPart 1#8 []) cart) = { State.reset with pins := cart.pins } := by decide

theorem test_reset_bay :
    (after (.resetBay 1#8 [1#8]) (docked id)).bays.map (·.sess.state)
      = .breakWait :: List.replicate 11 .off := by decide

def geometry : Bytes := le4 7 ++ [2#8, 2#8] ++ [1#8, 5#8, 1#8, 1#8, 1#8] ++ [2#8, 5#8, 1#8, 1#8, 1#8]

theorem test_commit :
    let t := after (.commitGeometry 1#8 geometry ⟨1#36, 0#36, BitVec.allOnes 36⟩) State.reset
    t.geo = cart.geo ∧ t.bays.map (·.num) = cart.bays.map (·.num) ∧ (t.bay 1).sess.state = .greeting
      ∧ (t.bay 1).stage.state = .starting ∧ t.alloc.origin = 2 ∧ t.latch.units.map (·.num) = [1, 2, 3, 4, 5, 6, 7] := by decide

theorem test_commit_in_two_runs :
    let w := Frame.wire ⟨0x05#8, 0x01#8, geometry⟩
    let pins : Inputs := ⟨1#36, 0#36, BitVec.allOnes 36⟩
    after (.hubFrameCorrupt ⟨w.drop 9, pins⟩) (after (.hubFrameCorrupt ⟨w.take 9, lows⟩) State.reset)
      = after (.commitGeometry 1#8 geometry pins) State.reset := by decide

theorem test_commit_twice : replyTo (.commitGeometry 1#8 geometry ⟨0#36, 0#36, 0#36⟩) cart = some [6#8] := by decide

theorem test_set_bays :
    let t := after (.setBays 1#8 (leBytes 5 0xFFE ++ List.replicate 12 4#8)) (docked id)
    (t.bay 1).enabled = false ∧ (t.bay 1).sess.state = .off ∧ (t.bay 2).cap = .p4 := by decide

theorem test_set_mode : replyTo (.setMode 1#8 [3#8]) (withGroup (staffed cart) ⟨1, .take, 1, [1], [], false, 0, 0, 0⟩)
    = some [0#8, 3#8, 1#8] := by decide

theorem test_renegotiate : ((after (.renegotiate 1#8 [1#8]) (docked id)).bay 1).sess.breakAt = some 1800 := by decide

theorem test_force_contract :
    ((after (.forceContract 1#8 [1#8, 2#8]) (docked id)).bay 1).sess.forced = some .p2
      ∧ replyTo (.forceContract 1#8 [1#8, 6#8]) cart = some [4#8] := by decide

theorem test_wake_bay :
    ((after (.wakeBay 1#8 [1#8]) (docked fun r => { r with sess := sessionIn .asleep })).bay 1).lane.act = .wakePulse := by decide

theorem test_set_lane_flags :
    (after (.setLaneFlags 1#8 [0#8, 1#8, 0#8]) cart).bays.all (·.lane.hubDefer) = true
      ∧ replyTo (.setLaneFlags 1#8 [13#8, 1#8, 0#8]) cart = some [7#8] := by decide

theorem test_set_budget :
    replyTo (.setBudget 1#8 (le2 999 ++ le2 601 ++ [99#8, 5#8])) cart
      = some (0x0E#8 :: (le2 1000 ++ le2 600 ++ [98#8, 4#8])) := by decide

theorem test_set_thresholds :
    replyTo (.setThresholds 1#8 [50#8, 20#8, 101#8]) cart = some [0x0E#8, 50#8, 50#8, 100#8] := by decide

theorem test_set_policy :
    (after (.setPolicy 1#8 [2#8]) cart).alloc.policy = .rotate ∧ replyTo (.setPolicy 1#8 [3#8]) cart = some [4#8] := by decide

theorem test_get_budget : (replyTo (.getBudget 1#8 []) cart).map (·.take 5) = some (0#8 :: (le2 3000 ++ le2 150)) := by decide

theorem test_clear_fault :
    ((after (.clearFault 1#8 [1#8]) (docked fun r => { r with stage := { r.stage with state := .faulted } })).bay 1).stage.state
      ≠ .faulted ∧ replyTo (.clearFault 1#8 [1#8]) cart = some [0x0C#8] := by decide

/-- A cart whose slot 1 is LOADING profile 9, with `n` of 60 bytes. -/
def loading (n : Nat) : State :=
  { cart with store := cart.store.map fun k => if k.num = 1 then ⟨1, .loading, 9, 1, 60, List.replicate n 5#8, 0⟩ else k }

theorem test_profile_begin :
    (after (.profileBegin 1#8 ([1#8, 9#8] ++ le2 1 ++ le2 60)) cart).store = (loading 0).store
      ∧ replyTo (.profileBegin 1#8 ([1#8, 9#8] ++ le2 1 ++ le2 4097)) cart = some [4#8] := by decide

set_option maxRecDepth 30000 in
theorem test_profile_data :
    (after (.profileData 1#8 ([1#8] ++ le2 20 ++ List.replicate 40 5#8)) (loading 20)).store = (loading 60).store
      ∧ replyTo (.profileData 1#8 ([1#8] ++ le2 20 ++ List.replicate 41 5#8)) (loading 20) = some [4#8] := by decide

theorem test_profile_end :
    ((after (.profileEnd 1#8 [1#8]) (loading 60)).store.map (·.state)).head? = some .ready
      ∧ replyTo (.profileEnd 1#8 [1#8]) (loading 59) = some [0x0C#8] := by decide

theorem test_profile_drop : (after (.profileDrop 1#8 [1#8]) (loading 60)).store = cart.store := by decide

theorem test_get_profiles : (replyTo (.getProfiles 1#8 []) (loading 60)).map (·.take 7)
    = some ([0#8] ++ le2 60 ++ le2 16324 ++ [8#8, 2#8]) := by decide

def imageBody (id : Nat) : Bytes := le2 id ++ le4 2 ++ le4 100 ++ [30#8] ++ le2 5 ++ [1#8]

theorem test_catalog_set :
    (after (.catalogSet 1#8 (imageBody 11)) cart).sched.catalog = [image]
      ∧ replyTo (.catalogSet 1#8 (imageBody 0)) cart = some [4#8] := by decide

theorem test_catalog_drop :
    (after (.catalogDrop 1#8 (le2 11)) { cart with sched := { cart.sched with catalog := [image] } }).sched.catalog = []
      ∧ replyTo (.catalogDrop 1#8 (le2 11)) cart = some [0x0B#8] := by decide

def withCatalog (s : State) : State := { s with sched := { s.sched with catalog := [image] } }

theorem test_queue_job : replyTo (.queueJob 1#8 ([1#8] ++ le2 11 ++ [3#8])) (withCatalog (docked id)) = some (0#8 :: le2 1) := by
  decide

theorem test_queue_job_state :
    (after (.queueJob 1#8 ([1#8] ++ le2 11 ++ [3#8])) (withCatalog (docked id))).jobs.map (·.state) = [.queued] := by decide

theorem test_cancel_job :
    let t := after (.cancelJob 1#8 (le2 3)) (onChannel (docked id) (job .running))
    t.jobs = [] ∧ t.sched.channels.map (·.state) = [.draining 1050]
      ∧ (t.bay 1).lastJob = some ⟨3, 11, false, .cancelled⟩ := by decide

theorem test_decline_ask :
    ((after (.declineAsk 1#8 [1#8]) (talking { Lane.down with up := true }
      { contracted with ask := some ⟨.job, 11, .hold, true⟩ })).bay 1).sess.ask = some ⟨.job, 11, .refuse, true⟩ := by decide

theorem test_set_channels :
    (after (.setChannels 1#8 [2#8]) cart).sched.channels.map (·.enabled) = [false, true]
      ∧ replyTo (.setChannels 1#8 [4#8]) cart = some [4#8] := by decide

theorem test_job_state_codes : JobState.suspended.code = 6 ∧ JobState.receipt.code = 7 := by decide

theorem test_get_jobs : replyTo (.getJobs 1#8 [2#8, 0#8]) cart
    = some ([0#8] ++ le2 1 ++ [0#8] ++ [2#8, 1#8, 1#8, 1#8, 2#8, 1#8, 1#8] ++ [0#8]) := by decide

def entryBytes (num role limit assigned st : Nat) : Bytes :=
  le4 num ++ [byteOf role, byteOf limit, byteOf assigned, byteOf st]

theorem test_roster_put :
    (after (.rosterPut 1#8 (entryBytes 5 1 9 0 1)) cart).roster = [⟨5, .student, 4, none, true⟩]
      ∧ replyTo (.rosterPut 1#8 (entryBytes 5 1 9 0 1)) cart = some [0x0E#8, 1#8, 4#8] := by decide

theorem test_roster_put_refused :
    replyTo (.rosterPut 1#8 (entryBytes 5 1 4 0 1 ++ entryBytes 6 4 1 0 1)) cart = some [4#8, 2#8] := by decide

theorem test_roster_remove :
    (after (.rosterRemove 1#8 (le4 2)) (staffed cart)).roster.map (·.num) = [1, 3]
      ∧ replyTo (.rosterRemove 1#8 (le4 2)) (withGroup (staffed cart) (group .take .pending)) = some [9#8] := by decide

theorem test_roster_get : (replyTo (.rosterGet 1#8 (le4 2)) (staffed cart)).map (·.take 4) = some [0#8, 3#8, 0#8, 2#8] := by decide

/-- Bay 1 holds a tablet at 80 %. -/
def ready : State :=
  (staffed (docked fun r => { r with sess := { r.sess with status := some ⟨some 80, .charging, 25, 0#5, 0⟩ } })).lightLamps

theorem test_present :
    let t := after (.present 1#8 (le4 2 ++ [1#8, 1#8, 0#8, 0#8])) ready
    t.hub.sending.map (·.2.payload) = some [0#8, 1#8, 1#8, 1#8, 1#8, 0#8]
      ∧ t.latch.drvA.map (·.move) = some ⟨1, .unlock⟩ ∧ t.custody.groups.map (·.cred) = [2] := by decide

theorem test_present_refused :
    replyTo (.present 1#8 (le4 9 ++ [1#8, 1#8, 0#8, 0#8])) ready = some [0x0D#8, 1#8]
      ∧ replyTo (.present 1#8 (le4 1 ++ [1#8, 2#8, 0#8, 0#8])) ready = some [0x0D#8, 5#8] := by decide

theorem test_restore_checkout :
    ((after (.restoreCheckout 1#8 ([2#8] ++ le4 2 ++ [2#8, 0x41#8, 0x31#8])) (staffed cart)).bay 2).cust.borrower = some 2
      ∧ replyTo (.restoreCheckout 1#8 ([2#8] ++ le4 9 ++ [0#8])) (staffed cart) = some [0x0B#8] := by decide

/-- Bay 1 with the alarm set `a`. -/
def alarmed (a : BitVec 5) : State := (docked fun r => { r with cust := { r.cust with alarms := a } }).lightLamps

theorem test_accept_foreign :
    ((after (.acceptForeign 1#8 [1#8]) (alarmed 8#5)).bay 1).cust.alarms = 0#5
      ∧ ((after (.acceptForeign 1#8 [1#8]) ((alarmed 8#5).updCust 1 fun c => { c with
          state := .reconciling, unattended := true }).lightLamps).bay 1).cust.state = .stocked
      ∧ replyTo (.acceptForeign 1#8 [1#8]) cart = some [0x0C#8] := by decide

theorem test_clear_alarm_missing : ((after (.clearAlarm 1#8 [1#8, 3#8] true) (alarmed 4#5)).bay 1).cust.alarms = 0#5 := by decide

theorem test_clear_alarm_forced :
    ((after (.clearAlarm 1#8 [1#8, 1#8] true) (latched (alarmed 1#5) fun u => { u with state := .forced })).unit? 1).map (·.state)
      = some .locked := by decide

theorem test_set_custody :
    replyTo (.setCustody 1#8 (le2 29)) cart = some (0x0E#8 :: le2 30)
      ∧ (after (.setCustody 1#8 (le2 600)) cart).custody.ajarLimit = 600 := by decide

theorem test_set_notices :
    (after (.setNotices 1#8 (le2 8191)) cart).hub.mask = BitVec.allOnes 13
      ∧ replyTo (.setNotices 1#8 (le2 8192)) cart = some [4#8] := by decide

theorem test_read_events :
    let s := { cart with cartEvents := 5#3, hub := { cart.hub with noticeOutstanding := true } }
    replyTo (.readEvents 1#8 [0#8]) s = some [0#8, 5#8] ∧ (after (.readEvents 1#8 [0#8]) s).hub.noticeOutstanding = false := by
  decide

/-! ## Lanes and answers -/

def polling (act : LaneAct) : State := talking (calling act (.poll none 0 0) .ordinary) contracted

theorem test_call_sent : ((after (.callSent 1) (polling .sending)).bay 1).lane.act = .listening := by decide

theorem test_clash :
    let l := ((after (.clash 1) (polling .sending)).bay 1).lane
    l.act = .spacing ∧ l.attempts = 1 ∧ l.lastFail = some .clash ∧ l.dueAt = 1020 := by decide

theorem test_no_answer : ((after (.noAnswer 1) (polling .listening)).bay 1).lane.lastFail = some .noAnswer := by decide

theorem test_answer_incomplete :
    let t := after (.answerIncomplete 1) (polling .listening)
    t.now = 1005 ∧ (t.bay 1).lane.lastFail = some .short := by decide

theorem test_answer_byte_fault :
    ((after (.answerByteFault 1 .wrongStart) (polling .listening)).bay 1).lane.lastFail = some .corrupt
      ∧ ((after (.answerByteFault 1 .lengthOver) (polling .listening)).bay 1).lane.lastFail = some .short := by decide

theorem test_bad_answer :
    ((after (.badAnswer 1 0x83#8 [] 0#8) (polling .listening)).bay 1).lane.lastFail = some .corrupt
      ∧ ((after (.badAnswer 1 0x81#8 [] (crc8 (laneBody 0x81#8 []))) (polling .listening)).bay 1).lane.lastFail = some .stray := by
  decide

theorem test_retry : ((after (.retry 1) (polling .spacing)).bay 1).lane.act = .sending := by decide

/-- Bay 1 is WAKING, its window opened at 900, its lane as given. -/
def waking (act : LaneAct) : State :=
  talking { calling act (.poll none 0 0) .wake with wakeAt := some 900, attempts := 1 } (sessionIn .waking)

theorem test_wake_attempt_due : ((after (.wakeAttemptDue 1) (waking .spacing)).bay 1).lane.act = .sending := by decide

theorem test_wake_attempt_after_window :
    ((after (.wakeAttemptDue 1) { waking .spacing with now := 2900 }).bay 1).lane.act = .spacing
      ∧ ((after (.wakeAttemptDue 1) { waking .spacing with now := 2899 }).bay 1).lane.act = .sending := by decide

theorem test_wake_window_end :
    let t := after (.wakeWindowEnd 1) (waking .spacing)
    t.now = 2900 ∧ (t.bay 1).sess.state = .asleep ∧ (t.bay 1).sess.failedWakes = 1 := by decide

theorem test_quiet_end :
    ((after (.quietEnd 1) (talking { Lane.down with up := true, act := .quiet, dueAt := 1001, pollDue := true } contracted)).bay
      1).lane.act = .sending := by decide

theorem test_wake_pulse_end :
    let l := ((after (.wakePulseEnd 1) (talking { Lane.down with up := true, act := .wakePulse, dueAt := 1020 }
      (sessionIn .waking))).bay 1).lane
    l.act = .sending ∧ l.wakeAt = some 1020 := by decide

def greeting (st : SessState) : State := talking (calling .listening (.hello 7 1) .greeting) (sessionIn st)

theorem test_ability :
    ((after (.ability 1 [1#8, 1#8, 0#8, 15#8, 7#8]) (greeting .greeting)).bay 1).sess.proposal
      = some ⟨.p5, .negotiated, 15#4, some 15#4⟩
    ∧ ((after (.ability 1 [2#8, 1#8, 0#8, 15#8, 7#8]) (greeting .greeting)).bay 1).sess.greetAt = some 1200 := by decide

/-- Bay 1 has proposed P5 and listens for the answer. -/
def proposing : State :=
  talking (calling .listening (.confirm .p5 15#4 15#4) .ordinary)
    { sessionIn .confirming with proposal := some ⟨.p5, .negotiated, 15#4, some 15#4⟩ }

theorem test_confirm_answer :
    ((after (.confirmAnswer 1 [1#8, 5#8, 15#8, 1#8]) proposing).bay 1).sess.state = .identifying
      ∧ ((after (.confirmAnswer 1 [1#8, 5#8, 15#8, 0#8]) proposing).bay 1).sess.state = .breakWait := by decide

theorem test_status :
    ((after (.status 1 ([1#8, 60#8, 1#8, 25#8, 0#8, 0#8] ++ le2 0 ++ le2 0)) (polling .listening)).bay 1).sess.status
      = some ⟨some 60, .charging, 25, 0#5, 0⟩ := by decide

theorem test_status_late :
    ((after (.status 1 ([1#8, 60#8, 1#8, 25#8, 0#8, 0#8] ++ le2 0 ++ le2 0)) { polling .listening with now := 1006 }).bay 1).lane.lastFail
      = some .short := by decide

theorem test_status_ends_wake :
    ((after (.status 1 ([1#8, 255#8, 2#8, 25#8, 0#8, 0#8] ++ le2 0 ++ le2 0)) (waking .listening)).bay 1).sess.state
      = .contracted := by decide

/-- Bay 1 reads an identity from offset `n`, with the bytes before it held. -/
def reading (n : Nat) : State :=
  let buf : ReadBuf := ⟨if n = 0 then none else some tablet.record.length, tablet.record.take n, none⟩
  talking (calling .listening (.identRead n) .ordinary) { sessionIn .identifying with readBuf := some buf }

theorem test_identity_chunk :
    ((after (.identityChunk 1 (le2 tablet.record.length ++ tablet.record.take 48)) (reading 0)).bay 1).sess.identity
      = some tablet := by decide

/-- Bay 1's tablet is read again, held as `before` when the read began; a receipt has since installed version `v`. -/
def rereading (before : Identity) (v : Nat) : State :=
  (reading 0).updSess 1 fun x => { x with identity := some { before with version := v }, readBuf := some ⟨none, [], some before⟩ }

theorem test_identity_is_compared_with_the_one_before_the_read :
    let posted (s : State) : Bool :=
      ((after (.identityChunk 1 (le2 tablet.record.length ++ tablet.record)) s).bay 1).events.getLsbD 2
    posted (rereading tablet 9) = false ∧ posted (rereading { tablet with version := 9 } tablet.version) = true := by decide

/-- Bay 1 is served slot 1, profile 9, from `off`. -/
def serving (off : Nat) : State :=
  { (docked fun r => { r with
      serve := some ⟨1, off, 60 - off, 0, none⟩, sess := { contracted with ask := some ⟨.profile, 9, .accept, true⟩ }
      lane := calling .listening (.chunk 9 off (decide (60 - off ≤ 48)) (List.replicate (min 48 (60 - off)) 5#8)) .ordinary }) with
    store := (loading 60).store.map fun k => if k.num = 1 then { k with state := .ready, serves := 1 } else k }

theorem test_chunk_handshake :
    ((after (.chunkHandshake 1 [1#8]) (serving 0)).bay 1).serve = some ⟨1, 48, 12, 0, none⟩
      ∧ ((after (.chunkHandshake 1 [1#8]) (serving 48)).bay 1).lastServe = some ⟨9, 1, .complete, 60⟩ := by decide

/-- Bay 1 listens for the answer to a call about its job, which is in state `st`. -/
def jobCall (c : Call) (st : JobState) : State :=
  onChannel (docked fun r => { r with lane := calling .listening c .ordinary }) (job st)

theorem test_envelope_handshake :
    (after (.envelopeHandshake 1 [1#8]) (jobCall (.envelope 3 11 2 100 1 false) .offered)).jobs.map (fun j => (j.state, j.limitAt))
      = [(.running, some 1801000)] := by decide

theorem test_stop_handshake :
    ((after (.stopHandshake 1 .pause [1#8]) (jobCall (.pause 3) .running)).bay 1).lane.act = .quiet
      ∧ ((after (.stopHandshake 1 .abort [3#8]) (jobCall (.abort 3) .running)).bay 1).lane.act = .quiet := by decide

theorem test_receipt :
    ((after (.receipt 1 (le2 3 ++ [1#8] ++ le4 2 ++ le4 0)) (jobCall (.receiptRead 3) .receipt)).bay 1).lastJob
      = some ⟨3, 11, true, .ok⟩ := by decide

/-! ## Presence, session timers -/

theorem test_presence_change :
    ((after (.presenceChange 1 true) cart).bay 1).presAt = some 1200
      ∧ ((after (.presenceChange 1 true) (docked fun r => { r with presAt := some 1100 })).bay 1).presAt = none := by decide

theorem test_presence_debounce :
    let t := after (.presenceDebounce 1) (docked fun r => { r with presAt := some 1100 })
    t.now = 1100 ∧ (t.bay 1).present = false ∧ (t.bay 1).sess.state = .off ∧ (t.bay 1).cust.alarms = 4#5 := by decide

theorem test_presence_debounce_sends_no_limit :
    let s := docked fun r => { r with
      presAt := some 1100, power := ⟨some 2, 25, 150, 120, false⟩
      stage := { Stage.off 1100 with state := .on, applied := 120, volts := 9, setpoint := 1330 } }
    let x := ((after (.presenceDebounce 1) s.lightLamps).bay 1).stage
    x.state = .off ∧ x.volts = 5 ∧ x.setpoint = 1330 := by decide

theorem test_greeting_hold :
    ((after (.greetingHoldExpiry 1) (talking { Lane.down with up := true } { sessionIn .greeting with greetAt := some 1100 })).bay
      1).lane.flight = some ⟨.hello 7 1, .greeting⟩ := by decide

theorem test_break_expiry :
    let r := (after (.breakExpiry 1) (talking { Lane.down with up := true } { sessionIn .breakWait with breakAt := some 1100 })).bay 1
    r.sess.state = .greeting ∧ r.lane.act = .sending := by decide

theorem test_fallback_expiry :
    let r := (after (.fallbackExpiry 1) (talking { Lane.down with up := true } { sessionIn .fallback with fallAt := some 1100 })).bay 1
    r.sess.fallAt = some 31100 ∧ r.lane.flight = some ⟨.hello 7 1, .fallback⟩ := by decide

theorem test_poll_timer : ((after (.pollTimer 1) (docked id)).bay 1).lane.flight = some ⟨.poll none 0 0, .ordinary⟩ := by decide

theorem test_refresh_expiry :
    ((after (.refreshExpiry 1) (talking { Lane.down with up := true } { sessionIn .asleep with refreshAt := some 1100 })).bay
      1).sess.state = .waking := by decide

/-! ## Passes, stages, sensors -/

theorem test_scheduled_pass :
    let t := after .scheduledPass { cart with alloc := { cart.alloc with scheduled := some 1100, lastPass := some 1000 } }
    t.alloc.lastPass = some 1100 ∧ t.alloc.scheduled = none ∧ t.alloc.periodic = some 11100 ∧ t.alloc.origin = 2 := by decide

theorem test_periodic_timer :
    (after .periodicTimer { cart with alloc := { cart.alloc with periodic := some 11000, lastPass := some 1000 } }).alloc.lastPass
      = some 11000 := by decide

/-- Bay 1's stage is ON at 2.5 W of a target of 10.0 W. -/
def powered (f : Stage → Stage) : State :=
  (docked fun r => { r with
    power := ⟨some 2, 25, 150, 100, false⟩
    stage := (f { Stage.off 1100 with state := .on, applied := 25 }).sendLimit }).lightLamps

theorem test_ramp_tick : ((after .rampTick (powered id)).bay 1).stage.applied = 55 := by decide

theorem test_ramp_starts :
    let s := (docked fun r => { r with power := ⟨some 2, 25, 150, 100, false⟩, stage := { Stage.off 1100 with state := .starting } })
    ((after .rampTick { s.lightLamps with startQueue := [1] }).bay 1).stage.applied = 25 := by decide

theorem test_stage_sample :
    ((after (.stageSample 1 20#16 3999) (powered id)).bay 1).stage.tripAt = some 1600
      ∧ ((after (.stageSample 1 20#16 4000) (powered id)).bay 1).stage.tripAt = none := by decide

theorem test_stage_sample_cap :
    ((after (.stageSample 1 20#16 5000) (powered fun x => { x with applied := 100, window := List.replicate 99 20 })).bay
      1).stage.cap = some 50 := by decide

theorem test_trip :
    let t := after (.trip 1) (powered fun x => { x with tripAt := some 1500 })
    (t.bay 1).stage.state = .tripped ∧ (t.bay 1).stage.coolAt = some 6500 ∧ (t.bay 1).power.target = 0 := by decide

theorem test_trip_third :
    ((after (.trip 1) (powered fun x => { x with tripAt := some 1500, trips := [100, 900] })).bay 1).stage.state = .faulted := by
  decide

theorem test_cool_off_expiry :
    let s := docked fun r => { r with stage := { r.stage with state := .tripped, coolAt := some 6000 } }
    ((after (.coolOffExpiry 1) s).bay 1).stage.coolAt = none ∧ (after (.coolOffExpiry 1) s).now = 6000 := by decide

theorem test_tsense_sample :
    (after (.tsenseSample (.celsius 44)) cart).monitor.factor = 84 ∧ (after (.tsenseSample (.celsius 55)) cart).monitor.hold = true
      ∧ (after (.tsenseSample .openSensor) cart).monitor.sensorFault = true := by decide

theorem test_tsense_sample_edges :
    (after (.tsenseSample (.celsius (-20))) cart).monitor.hold = false
      ∧ (after (.tsenseSample (.celsius (-21))) cart).monitor.hold = true
      ∧ (after (.tsenseSample (.celsius 100)) cart).monitor.sensorFault = false := by decide

theorem test_wsense_sample : (after (.wsenseSample 3001#16) cart).monitor.win = 3001#16 := by decide

/-! ## Timers of serves, jobs and channels -/

theorem test_chunk_resend :
    let s := serving 0
    let q := s.updBay 1 fun r => { r with serve := some ⟨1, 0, 60, 1, some 1100⟩, lane := { Lane.down with up := true } }
    ((after (.chunkResendExpiry 1) q).bay 1).lane.flight = some ⟨.chunk 9 0 false (List.replicate 48 5#8), .ordinary⟩ := by decide

theorem test_scan_timer : (after .scanTimer cart).sched.scanAt = some 2000 := by decide

def offered (f : Job → Job) : State := onChannel (docked id) (f (job .offered))

theorem test_settle_expiry :
    ((after (.settleExpiry 1) (offered fun j => { j with settleAt := some 1100 })).bay 1).lane.flight
      = some ⟨.envelope 3 11 2 100 1 false, .ordinary⟩ := by decide

theorem test_envelope_resend :
    ((after (.envelopeResendExpiry 1) (offered fun j => { j with resendAt := some 1100 })).bay 1).lane.flight
      = some ⟨.envelope 3 11 2 100 1 false, .ordinary⟩ := by decide

theorem test_stall_expiry :
    ((after (.stallExpiry 1) (onChannel (docked id) { job .running with stallAt := some 1100 })).bay 1).lastJob
      = some ⟨3, 11, false, .stalled⟩ := by decide

theorem test_time_limit_expiry :
    ((after (.timeLimitExpiry 1) (onChannel (docked id) { job .running with limitAt := some 1100 })).bay 1).lastJob
      = some ⟨3, 11, false, .timeout⟩ := by decide

theorem test_drain_expiry :
    (after (.drainExpiry 1) { cart with sched := { cart.sched with channels := [⟨1, true, .draining 1050⟩] } }).sched.channels
      = [⟨1, true, .idle⟩] := by decide

/-! ## Latches and doors -/

theorem test_motor_pulse_end :
    (after (.motorPulseEnd .a) (driving cart .lock .pulse 1)).latch.drvA = some ⟨⟨1, .lock⟩, .checkWait, 1, 1150⟩ := by decide

/-- Driver A waits for the position check of a move of unit 1, the unit in the state the move gives it. -/
def checking (k : MoveKind) (n : Nat) : State :=
  driving (latched cart fun u => { u with state := k.drivenState }) k .checkWait n

theorem test_position_check :
    ((after (.positionCheck .a true) (checking .lock 1)).unit? 1).map (·.state) = some .locked
      ∧ (after (.positionCheck .a false) (checking .lock 1)).latch.drvA = some ⟨⟨1, .lock⟩, .retryWait, 1, 1600⟩ := by decide

theorem test_position_check_jams :
    let t := after (.positionCheck .a false) (checking .lock 2)
    (t.unit? 1).map (·.state) = some .jammed ∧ (t.bay 1).cust.alarms = 16#5 ∧ t.latch.drvA = none := by decide

theorem test_retry_wait_end :
    (after (.retryWaitEnd .a) (driving cart .lock .retryWait 1)).latch.drvA = some ⟨⟨1, .lock⟩, .pulse, 2, 1400⟩ := by decide

theorem test_door_change : ((after (.doorChange 1 true) cart).unit? 1).map (·.doorAt) = some (some 1050) := by decide

theorem test_door_debounce :
    ((after (.doorDebounce 1) (latched cart fun u => { u with doorAt := some 1050 })).unit? 1).map (·.state) = some .forced
      ∧ ((after (.doorDebounce 1) (latched cart fun u => { u with state := .unlatched, doorAt := some 1050 })).unit? 1).map
          (·.openedAt) = some (some 1050) := by decide

theorem test_unlatch_window :
    (after (.unlatchWindowExpiry 1) (latched cart fun u => { u with state := .unlatched, windowAt := some 9000 })).latch.drvA.map
      (·.move) = some ⟨1, .lock⟩ := by decide

theorem test_ajar_limit :
    let t := after (.ajarLimit 1) (latched cart fun u => { u with state := .opened, doorOpen := true, openedAt := some 500 })
    t.now = 120500 ∧ (t.bay 1).cust.alarms = 2#5 := by decide

/-! ## A state and operands for the hypotheses of each statement -/

/-- The request that a command is, and whether it is well formed. -/
def requested (c : Instr) (k : Byte) (p : Bytes) : Bool := c.wf && c.frame? == some (k, 1#8, p)

/-- Quiet, and the link takes requests. -/
def ready? (s : State) : Bool := s.quiet && s.listening

theorem witness_EveryCommandAnswers : State.reset.pending = [] := by decide

theorem witness_QuietIsKept :
    { cart with pending := [.getCart 1#8 []] }.quiet = true ∧ goesOn { cart with pending := [.getCart 1#8 []] } = true := by decide

theorem witness_BareIsKept :
    { State.reset with pending := [.setMode 1#8 [3#8]] }.bare = true
      ∧ goesOn { State.reset with pending := [.setMode 1#8 [3#8]] } = true := by decide

/-- A roster with a borrower and a release group. -/
def lent : State :=
  (withGroup (staffed cart) (group .take .pending)).updCust 2 fun c => { c with borrower := some 3 }

theorem witness_RosterSoundIsKept :
    { lent with pending := [.scanTimer] }.rosterSound ∧ goesOn { lent with pending := [.scanTimer] } = true := by
  constructor
  · unfold State.rosterSound
    decide
  · decide

theorem witness_ResetCausesReset :
    { cart with resetN := false }.resetN = false ∧ cart.resetN = true ∧ Instr.scanTimer ≠ .powerOn ∧ Instr.scanTimer ≠ .resetNLow
      ∧ Instr.scanTimer ≠ .resetNHigh := by decide

theorem witness_ReceiverFaultsDiscard :
    cart.resetN = true ∧ cart.hub.receiverOpen = true ∧ (after (.resetPart 1#8 []) cart).hub.receiverOpen = false
      ∧ cart.hub.rx = [] ∧ 0xA5#8 ∉ ([7#8] : Bytes)
      ∧ wholeFrameCorrupt [0xA5#8, 0#8, 0#8, 1#8, 0#8, 0#8, 0#8] = true
      ∧ ([0#8] : Bytes).length < 2 ∧ wordAt [0#8, 2#8] 0 = 512 ∧ ([0#8, 2#8] : Bytes).length < 512 + 6
      ∧ 512 < wordAt [1#8, 2#8] 0 ∧ (hearing [0xA5#8]).hub.rx ≠ [] ∧ (hearing [0xA5#8]).hub.rx.length + ([0#8] : Bytes).length < 3
      ∧ wordAt (hearing [0xA5#8, 0#8, 0#8]).hub.rx 1 = 0 ∧ (hearing [0xA5#8, 0#8, 0#8]).hub.rx.length = 3 ∧ 3 + 3 < 0 + 7
      ∧ 3 + 4 = 0 + 7 := by decide

theorem witness_ReceiverFaultsDiscard_completes :
    let s := hearing (getCartWire.take 4)
    let got := s.hub.rx ++ getCartWire.drop 4
    s.resetN = true ∧ s.hub.receiverOpen = true ∧ s.hub.rx.length = 4 ∧ wordAt s.hub.rx 1 = 0 ∧ (getCartWire.drop 4).length = 3
      ∧ got.drop 5 = crc16Bytes ((got.drop 1).take 4)
      ∧ (Instr.getCart 1#8 []).wf = true
      ∧ (Instr.getCart 1#8 []).frame? = some (got.getD 3 0#8, got.getD 4 0#8, (got.drop 5).take 0) := by decide

theorem witness_ReceiverFaultsDiscard_levels :
    (Instr.getCart 1#8 []).levelsAre lows cart ∧ (Instr.commitGeometry 1#8 geometry lows).levelsAre lows cart
      ∧ (Instr.clearAlarm 1#8 [1#8, 1#8] false).levelsAre lows cart := by
  unfold Instr.levelsAre
  decide

theorem witness_ReceiverFaultsDiscard_long :
    let p : Bytes := List.replicate 513 0#8
    (Instr.rosterPut 1#8 p).frame? = some (0x50#8, 1#8, p) ∧ cart.hunting = true ∧ 512 < p.length ∧ p.length < 65536
      ∧ 0xA5#8 ∉ 0x50#8 :: 1#8 :: p ++ crc16Bytes (Frame.mk 0x50#8 1#8 p).body
      ∧ (Frame.mk 1#8 1#8 (List.replicate 512 0#8)).payload.length ≤ 512 := by
  refine ⟨rfl, by decide, by decide, by decide, by decide +kernel, by decide⟩

theorem witness_FrameWhilePendingIsBusy :
    let s := after (.getCart 1#8 []) cart
    s.quiet = true ∧ s.hunting = true ∧ s.hub.replyPending = true
      ∧ requested (.getBay 1#8 [1#8]) 0x02#8 [1#8] = true := by decide

theorem witness_ResetPartClosesReceiver :
    ready? cart = true ∧ (after (.resetPart 1#8 []) cart).hub.receiverOpen = false
      ∧ (Instr.getCart 1#8 []).frame? = some (0x01#8, 1#8, []) := by decide

theorem witness_SentFrameFreesLine :
    cart.resetN = true ∧ cart.hub.sending = none
      ∧ (after (.resetPart 1#8 []) cart).hub.sending = some (.reply, ⟨0x83#8, 1#8, [0#8]⟩)
      ∧ (after (.resetPart 1#8 []) cart).hub.resetDue = true
      ∧ (after (.resetBay 1#8 [1#8]) cart).hub.sending = some (.reply, ⟨0x84#8, 1#8, [0#8]⟩)
      ∧ (after (.resetBay 1#8 [1#8]) cart).hub.resetDue = false := by decide

theorem witness_LateRequestsWaitForCommit :
    State.reset.listening = true ∧ State.reset.committed = false ∧ requested (.getBay 1#8 [1#8]) 0x02#8 [1#8] = true
      ∧ 0x02#8 ∈ lateKinds ∧ requested (.readEvents 1#8 []) 0x61#8 [] = true ∧ 0x61#8 ∈ lateKinds := by decide

theorem witness_MalformedRequestsAreRefused_kind :
    cart.listening = true ∧ ([] : Bytes).length ≤ 512 ∧ isRequestKind 0x70#8 = false := by decide

theorem witness_MalformedRequestsAreRefused_length :
    cart.listening = true ∧ requested (.getBay 1#8 []) 0x02#8 [] = true ∧ cart.committed = true
      ∧ fixedLength 0x02#8 = some 1 ∧ ([] : Bytes).length ≠ 1
      ∧ State.reset.listening = true ∧ requested (.getCart 1#8 [0#8]) 0x01#8 [0#8] = true ∧ 0x01#8 ∉ lateKinds
      ∧ fixedLength 0x01#8 = some 0 := by decide

theorem witness_MalformedRequestsAreRefused_bay :
    cart.listening = true ∧ cart.committed = true
      ∧ requested (.getBay 1#8 [0#8]) 0x02#8 [0#8] = true ∧ fixedLength 0x02#8 = some [0#8].length ∧ 0x02#8 ∈ bayKinds
      ∧ requested (.getBay 1#8 [13#8]) 0x02#8 [13#8] = true ∧ cart.nBays < byteAt [13#8] 0
      ∧ requested (.readEvents 1#8 [13#8]) 0x61#8 [13#8] = true ∧ fixedLength 0x61#8 = some [13#8].length := by decide

theorem witness_ReadRequestsReport :
    cart.listening = true ∧ cart.committed = true ∧ (le4 0).length = 4
      ∧ 1 ≤ byteAt [1#8] 0 ∧ byteAt [12#8] 0 ≤ cart.nBays
      ∧ ([3#8, 47#8] : Bytes).length = 2 ∧ byteAt [3#8, 47#8] 0 = 3 ∧ byteAt [3#8, 47#8] 1 ≤ 47 ∧ byteAt [0#8, 0#8] 0 = 0
      ∧ 3 < byteAt [4#8, 0#8] 0 ∧ 47 < byteAt [3#8, 48#8] 1 ∧ byteAt [1#8, 0#8] 0 = 1 ∧ byteAt [2#8, 0#8] 0 = 2 := by decide

/-- A bay with every optional part present. -/
def full : State :=
  (docked fun r => { r with
    sess := { contracted with status := some ⟨none, .full, -5, 0#5, 0⟩, identity := some tablet, ask := some ⟨.job, 11, .hold, true⟩ }
    lastJob := some ⟨3, 11, true, .ok⟩, serve := some ⟨1, 0, 60, 0, none⟩, lastServe := some ⟨9, 1, .complete, 60⟩
    cust := { r.cust with
      taken := some ⟨4294967295, .none⟩, note := some ⟨.checkout, some 2, none, none, false⟩
      release := some ⟨2, .take, .taken, 1, 0, 0⟩ } })

theorem witness_BaySummaryLayout :
    let r := full.bay 1
    r.sess.contract.isSome = true ∧ r.sess.status.isSome = true ∧ r.sess.ask.isSome = true ∧ r.lastJob.isSome = true
      ∧ r.serve.isSome = true ∧ r.lastServe.isSome = true ∧ r.cust.taken = some ⟨4294967295, .none⟩ ∧ r.cust.note.isSome = true
      ∧ r.cust.release.isSome = true ∧ (full.unit? r.unit).isSome = true ∧ r.sess.identity = some tablet
      ∧ (cart.bay 1).sess.identity = none ∧ (cart.bay 1).cust.taken = none := by decide

theorem witness_BaySummaryLayout_moves :
    let o := latched cart fun u => { u with state := .opened, openedAt := some 500 }
    let d := driving cart .lock .retryWait 2
    let q := { d with latch := { d.latch with drvB := some ⟨⟨2, .unlock⟩, .pulse, 1, 1100⟩, queue := [⟨3, .lock⟩] } }
    (o.unit? 1).map (·.openedAt) = some (some 500) ∧ (o.now - 500) / 1000 < 65536 ∧ (cart.unit? 1).map (·.openedAt) = some none
      ∧ d.latch.driver .a = some ⟨⟨1, .lock⟩, .retryWait, 2, 1100⟩ ∧ q.latch.driver .b = some ⟨⟨2, .unlock⟩, .pulse, 1, 1100⟩
      ∧ q.latch.queue.find? (fun m => m.unit == 3) = some ⟨3, .lock⟩ ∧ cart.latch.drvA = none ∧ cart.latch.drvB = none
      ∧ cart.latch.queue.find? (fun m => m.unit == 1) = none := by decide

theorem witness_SetModeCancelsGroups :
    let s := withGroup (staffed cart) ⟨1, .take, 1, [1], [⟨1, .pending, false, false, false, false⟩], false, 0, 0, 0⟩
    ready? s = true ∧ s.mode = .classMode ∧ s.mode ≠ .night ∧ ¬ byteAt [0#8] 0 ≥ 1 ∧ ¬ byteAt [4#8] 0 ≤ 3
      ∧ ready? cart = true ∧ cart.custody.groups = [] ∧ cart.mode ≠ .classMode := by decide

/-- A pupil's group over units 1 and 4: unit 1's UNLOCK waits behind two busy drivers, unit 4 is UNLATCHED, its entry in state
`e`; unit 5 belongs to the teacher. -/
def pupils (e : EntryState) : State :=
  let s := (cart.updUnit 1 fun u => { u with state := .unlockPending }).updUnit 4 fun u => { u with state := .unlatched }
  withGroup (withGroup (staffed { s with latch := { s.latch with
      drvA := some ⟨⟨2, .unlock⟩, .pulse, 1, 1100⟩, drvB := some ⟨⟨3, .unlock⟩, .pulse, 1, 1100⟩, queue := [⟨1, .unlock⟩] } })
    (group .take .pending)) ⟨1, .take, 1, [1], [⟨1, .pending, false, false, false, false⟩, ⟨4, e, false, false, false, false⟩],
      false, 0, 0, 0⟩

theorem witness_SetModeCancelsGroups_units :
    let t (e : EntryState) : State := after (.setMode 1#8 [3#8]) (pupils e)
    ready? (pupils .opened) = true ∧ (pupils .opened).mode ≠ .night ∧ (pupils .opened).groupsSound
      ∧ ((pupils .opened).latch.units.map (·.num)).Nodup ∧ (pupils .opened).noMove 4
      ∧ ((t .opened).unit? 1).map (·.state) = some .locked ∧ ((t .opened).unit? 4).map (·.state) = some .lockPending
      ∧ (t .opened).latch.queue = [⟨4, .lock⟩]
      ∧ ((t .opened).groupOfCred 1).map (fun g => (g.cancelled, g.entries.map (·.state))) = some (true, [.withdrawn, .opened])
      ∧ ready? (pupils .closed) = true ∧ (pupils .closed).groupsSound ∧ (t .closed).custody.groups = []
      ∧ ((t .closed).bay 1).cust.release.map (·.outcome) = some .cancelled := by
  unfold State.groupsSound State.noMove
  decide

/-- Unit 1, handed back out of the pupil's group, is in the teacher's; both groups end in one change of mode. -/
def sharing : State :=
  let s := pupils .closed
  { s with custody := { s.custody with groups := [
    ⟨1, .take, 1, [1], [⟨1, .failed, false, true, false, true⟩, ⟨4, .pending, false, false, false, false⟩], false, 0, 0, 0⟩,
    group .take .pending] } }

theorem witness_SetModeCancelsGroups_bays_apart :
    let s := pupils .closed
    let t := after (.setMode 1#8 [1#8]) { sharing with
      latch := { sharing.latch with
        units := sharing.latch.units.map fun u => if u.num = 4 then { u with state := .unlockPending } else u
        queue := [⟨1, .unlock⟩, ⟨4, .unlock⟩] } }
    (∀ h ∈ s.custody.groups, h.cred ≠ 1 → ∀ x ∈ h.entries, ∀ y ∈ s.groupOfCred 1 |>.map (·.entries) |>.getD [],
        ∀ b ∈ s.baysOf x.unit, b ∉ s.baysOf y.unit)
      ∧ sharing.groupsSound ∧ (sharing.custody.groups.map fun g => g.entries.map (·.unit)) = [[1, 4], [1]]
      ∧ t.custody.groups = [] := by
  unfold State.groupsSound
  decide

theorem witness_HubRestartsSession_renegotiate :
    ready? (docked id) = true ∧ (docked id).names 1 = true ∧ ((docked id).bay 1).enabled = true
      ∧ ((docked id).bay 1).sess.state = .contracted ∧ (cart.bay 1).sess.state = .off ∧ cart.names 1 = true
      ∧ ready? (talking { Lane.down with up := true } (sessionIn .asleep)) = true
      ∧ ready? (greeting .greeting) = true ∧ ready? proposing = true
      ∧ (docked fun r => { r with enabled := false }).names 1 = true := by decide

theorem witness_HubRestartsSession_force :
    ([1#8, 5#8] : Bytes).length = 2 ∧ ¬ 5 < byteAt [1#8, 5#8] 1 ∧ 5 < byteAt [1#8, 6#8] 1
      ∧ ((docked id).bay 1).sess.forced = none ∧ Level.ofNum 0 = none
      ∧ (Level.ofNum 5).map (·.min (((docked id).rankMax 1).min ((docked id).bay 1).cap)) = some .p5 := by decide

theorem witness_WakeBegins :
    let s := talking { Lane.down with up := true } { sessionIn .asleep with refreshAt := some 1100 }
    ready? s = true ∧ s.names 1 = true ∧ s.resetN = true ∧ (s.bay 1).sess.state = .asleep ∧ (s.bay 1).sess.refreshAt = some 1100
      ∧ (s.bay 1).enabled = true ∧ ready? (waking .listening) = true ∧ ready? cart = true ∧ (cart.bay 1).sess.state = .off
      ∧ ready? (docked fun r => { r with enabled := false, sess := sessionIn .asleep }) = true := by decide

theorem witness_SetLaneFlagsWritesFlags :
    ready? cart = true ∧ cart.committed = true ∧ ([12#8, 1#8, 1#8] : Bytes).length = 3 ∧ ¬ cart.nBays < byteAt [12#8, 1#8, 1#8] 0
      ∧ cart.nBays < byteAt [13#8, 0#8, 0#8] 0 ∧ 1 < byteAt [1#8, 2#8, 0#8] 1
      ∧ (cart.bays.map (·.num)).Nodup ∧ (cart.store.map (·.num)).Nodup ∧ ∀ r ∈ cart.bays, r.sess.ask = none := by decide

/-- Bay 1 holds an undecided ask of kind `k` for `id` behind hub defer; slot 1 is READY with profile 9. -/
def held (k : AskKind) (id : Nat) : State :=
  { (talking { Lane.down with up := true, hubDefer := true } { contracted with ask := some ⟨k, id, .hold, false⟩ }) with
    store := (loading 60).store.map fun k => if k.num = 1 then { k with state := .ready } else k }

theorem witness_SetLaneFlagsWritesFlags_decides :
    let s := held .profile 9
    ready? s = true ∧ s.committed = true ∧ ([1#8, 0#8, 0#8] : Bytes).length = 3 ∧ (s.bays.map (·.num)).Nodup
      ∧ (s.store.map (·.num)).Nodup
      ∧ (s.bay 1).lane.hubDefer = true ∧ (s.bay 1).sess.ask = some ⟨.profile, 9, .hold, false⟩
      ∧ ((after (.setLaneFlags 1#8 [1#8, 0#8, 0#8]) s).bay 1).serve = some ⟨1, 0, 60, 0, none⟩ := by decide

/-- Bays 1 and 2 hold undecided asks behind hub defer: for profile 9, and for image 11 of the catalog. -/
def heldTwice : State :=
  { withCatalog ((held .profile 9).updBay 2 fun r => { r with
      present := true, cust := Cust.atCommit .stocked, lane := { Lane.down with up := true, hubDefer := true }
      sess := { contracted with ask := some ⟨.job, 11, .hold, false⟩ } }) with mode := .classMode }

theorem witness_SetLaneFlagsWritesFlags_decides_each :
    let s := heldTwice.lightLamps
    let t := after (.setLaneFlags 1#8 [0#8, 0#8, 0#8]) s
    ready? s = true ∧ s.committed = true ∧ (s.bays.map (·.num)).Nodup ∧ (s.store.map (·.num)).Nodup
      ∧ (s.bays.filter fun r => r.enabled && r.lane.hubDefer).map (fun r => (r.num, r.sess.ask))
        = [(1, some ⟨.profile, 9, .hold, false⟩), (2, some ⟨.job, 11, .hold, false⟩)]
      ∧ (t.bay 1).serve = some ⟨1, 0, 60, 0, none⟩ ∧ (t.bay 1).sess.ask = some ⟨.profile, 9, .accept, true⟩
      ∧ t.jobOf 2 = some (newJob 1 2 11 1 .ask) ∧ (t.bay 2).sess.ask = some ⟨.job, 11, .accept, true⟩ := by decide

theorem witness_AskDecided_profile :
    (held .profile 9).servable 1 9 = true ∧ (held .profile 8).servable 1 8 = false
      ∧ ((held .profile 9).store.find? fun k => k.state == .ready && k.id == 9).map (·.num) = some 1
      ∧ ((held .profile 9).bay 1).sess.state = .contracted ∧ ((held .profile 9).updSess 1 fun _ => sessionIn .waking).quiet = true := by
  decide

theorem witness_AskDecided_job :
    let s := { withCatalog (held .job 11) with mode := .classMode }
    let crowded := { s with sched := { s.sched with queue := List.replicate 48 { job .queued with bay := 2, channel := none } } }
    (onChannel (held .job 11) (job .running)).jobOf 1 = some (job .running) ∧ (job .running).image = 11
      ∧ s.jobOf 1 = none ∧ s.image? 11 = some image ∧ (s.bay 1).sess.identity = none ∧ s.jobs.length < 48 ∧ (held .job 11).image? 11 = none
      ∧ crowded.jobOf 1 = none ∧ 48 ≤ crowded.jobs.length ∧ crowded.image? 11 = some image
      ∧ (after (.setLaneFlags 1#8 [1#8, 0#8, 0#8]) s).jobOf 1 = some (newJob 1 1 11 1 .ask) := by decide

theorem witness_SetBudgetWritesSettings :
    ready? cart = true ∧ cart.committed = true ∧ ready? State.reset = true ∧ State.reset.committed = false
      ∧ (le2 1000 ++ le2 600 ++ [98#8, 4#8]).length = 6 ∧ (le2 1000).length ≠ 6 := by decide

theorem witness_SettingsAreWritten :
    ready? cart = true ∧ ([100#8, 100#8, 100#8] : Bytes).length = 3 ∧ Policy.ofCode (byteAt [2#8] 0) = some .rotate
      ∧ Policy.ofCode (byteAt [3#8] 0) = none ∧ cart.alloc.policy ≠ .rotate ∧ cart.alloc.low ≠ 100
      ∧ (le2 600).length = 2 ∧ cart.latch.units.any (fun r => (r.ajarDue 600).any fun d => decide (d ≤ cart.now)) = false
      ∧ ¬ 8192 ≤ wordAt (le2 8191) 0 ∧ 8192 ≤ wordAt (le2 8192) 0 := by decide

theorem witness_SettingsAreWritten_ajar :
    let s := { latched cart fun u => { u with state := .opened, doorOpen := true, openedAt := some 500 } with now := 40000 }
    ready? s = true ∧ (s.unit? 1).map (fun u => (u.ajarDue 30).any fun d => decide (d ≤ s.now)) = some true ∧ s.hasBay 1 = true := by
  decide

/-- Bay 1's stage is in state `st`, its cool-off ending at 6000. -/
def stopped (st : StageState) : State :=
  (docked fun r => { r with stage := { r.stage with state := st, coolAt := some 6000 } }).lightLamps

theorem witness_ClearedStageGoesOff :
    ready? (stopped .faulted) = true ∧ (stopped .faulted).names 1 = true ∧ ((stopped .faulted).bay 1).stage.state = .faulted
      ∧ ready? (stopped .tripped) = true ∧ ((stopped .tripped).bay 1).stage.state = .tripped
      ∧ ((stopped .tripped).bay 1).stage.coolAt = some 6000 ∧ (stopped .tripped).resetN = true
      ∧ (cart.bay 12).stage.state ≠ .faulted ∧ cart.names 12 = true := by decide

theorem witness_ReadEventsClearsFlags :
    let s := { cart with cartEvents := 1#3, hub := { cart.hub with noticeOutstanding := true } }
    ready? s = true ∧ s.committed = true ∧ byteAt [0#8] 0 = 0 ∧ s.names (byteAt [12#8] 0) = true := by decide

theorem witness_ProfileSlotsLoad :
    ready? (loading 20) = true ∧ ([8#8, 9#8] ++ le2 1 ++ le2 4096).length = 6 ∧ (cart.slot? 8).map (·.serves) = some 0
      ∧ ((loading 20).slot? 1).map (·.state) = some .loading ∧ wordAt ([1#8] ++ le2 20 ++ [0#8]) 1 = 20
      ∧ ((loading 60).slot? 1).map (fun k => decide (k.content.length = k.length)) = some true
      ∧ ready? (serving 0) = true ∧ ((serving 0).slot? 1).map (·.serves) = some 1 ∧ byteAt [0#8] 0 = 0 ∧ 8 < byteAt [9#8] 0 := by
  decide

theorem witness_CatalogHolds :
    ready? cart = true ∧ ready? (withCatalog cart) = true ∧ ([] : Bytes).length ∉ [14, 16, 18, 20] ∧ cart.image? 11 = none
      ∧ (withCatalog cart).image? 11 = some image ∧ cart.sched.catalog.length < 16 ∧ wordAt (le2 11) 0 = 11
      ∧ ready? (onChannel (docked id) (job .running)) = true
      ∧ (∃ j ∈ (onChannel (docked id) (job .running)).jobs, j.image = 11 ∧ j.state.onChannel = true)
      ∧ (∀ m ∈ [65535], m < 65536) := by decide

theorem witness_QueuedJobJoinsItsBand :
    let s := withCatalog (docked id)
    let p := [1#8] ++ le2 11 ++ [3#8]
    ready? s = true ∧ p.length = 4 ∧ s.names (byteAt p 0) = true ∧ ¬ 3 < byteAt p 3 ∧ (s.bay 1).enabled = true
      ∧ (s.bay 1).present = true ∧ s.image? (wordAt p 1) = some image ∧ s.jobOf 1 = none ∧ (s.bay 1).sess.identity = none
      ∧ s.jobs.length < 48 ∧ s.mode = .secure ∧ 1 ≤ s.sched.nextTag := by decide

/-- CLASS mode; a job of priority 3 and one of priority 1 wait for bays 2 and 3. -/
def waiting : State :=
  let q (τ b pr : Nat) : Job := { job .queued with tag := τ, bay := b, priority := pr, channel := none, posted := false }
  { withCatalog (docked id) with
    mode := .classMode
    sched := { (withCatalog (docked id)).sched with queue := [q 7 2 3, q 8 3 1] } }

theorem witness_QueuedJobJoinsItsBand_waiting :
    let t := after (.queueJob 1#8 ([1#8] ++ le2 11 ++ [2#8])) waiting
    ready? waiting = true ∧ waiting.mode = .classMode ∧ waiting.jobOf 1 = none
      ∧ waiting.sched.queue.Pairwise (fun x y => y.priority ≤ x.priority)
      ∧ t.sched.queue.map (fun j => (j.bay, j.priority)) = [(2, 3), (1, 2), (3, 1)] ∧ (t.jobOf 1).map (·.channel) = some none := by
  decide

theorem witness_EndedJobsLeaveScheduler :
    let s := onChannel (docked id) { job .running with stallAt := some 1100, limitAt := some 1200 }
    ready? s = true ∧ s.committed = true ∧ (s.jobTagged (wordAt (le2 3) 0)).isSome = true ∧ s.jobTagged (wordAt (le2 4) 0) = none
      ∧ s.resetN = true ∧ (s.jobOf 1).map (·.stallAt) = some (some 1100) ∧ (s.jobOf 1).map (·.limitAt) = some (some 1200) := by decide

theorem witness_JobEnded_calls :
    let s := onChannel (docked id) (job .running)
    let busy := onChannel (docked fun r => { r with lane := { calling .listening (.poll none 0 3) .ordinary with
      job := some (.receiptRead 3) } }) (job .receipt)
    let l := ((after (.cancelJob 1#8 (le2 3)) busy).bay 1).lane
    s.onlyJob (job .running) ∧ s.hasBay 1 = true ∧ (s.bay 1).sess.state.dropsPosts = false ∧ (s.bay 1).sendsStop = true
      ∧ ((after (.cancelJob 1#8 (le2 3)) s).bay 1).lane.flight = some ⟨.abort 3, .ordinary⟩
      ∧ ready? busy = true ∧ busy.onlyJob (job .receipt) ∧ (busy.bay 1).sendsStop = false ∧ l.stop = some (.abort 3)
      ∧ l.job = none := by
  unfold State.onlyJob
  decide

/-- Bay 1 with an outstanding ask of kind `k`. -/
def asking (k : AskKind) : State :=
  talking { Lane.down with up := true } { contracted with ask := some ⟨k, 11, .hold, true⟩ }

theorem witness_AsksAndChannelsFollowHub :
    ready? (asking .job) = true ∧ (asking .job).committed = true ∧ (asking .job).names 1 = true
      ∧ ready? (asking .profile) = true ∧ ready? cart = true ∧ (cart.bay 12).sess.ask = none
      ∧ ([3#8] : Bytes).headD 0#8 >>> cart.sched.channels.length = 0#8
      ∧ ([4#8] : Bytes).headD 0#8 >>> cart.sched.channels.length ≠ 0#8 := by decide

theorem witness_AsksAndChannelsFollowHub_suspends :
    let s := onChannel (docked id) (job .running)
    ready? s = true ∧ s.committed = true ∧ s.mode = .secure ∧ s.sched.channels = [⟨1, true, .assigned 1 3⟩]
      ∧ (([0#8] : Bytes).headD 0#8).getLsbD 0 = false ∧ s.jobOf 1 = some (job .running) ∧ s.onlyJob (job .running)
      ∧ (job .running).state.onChannel = true ∧ (s.bay 1).sess.state = .contracted ∧ (job .running).posted = true
      ∧ s.scanPasses (job .running) False := by
  unfold State.onlyJob
  exact ⟨by decide, by decide, by decide, by decide, by decide, by decide, by decide, by decide, by decide, by decide,
    Or.inl (Or.inl (by decide))⟩

theorem witness_JobSuspended :
    let s := onChannel (docked id) (job .running)
    let t := after (.setChannels 1#8 [0#8]) s
    t.jobOf 1 = some (job .running).suspended ∧ t.sched.channels = [⟨1, false, .draining 1050⟩]
      ∧ (t.bay 1).lane.flight = some ⟨.pause 3, .ordinary⟩ ∧ (t.bay 1).events.getLsbD 6 = true ∧ t.alloc.lastPass = some 1000 := by
  decide

/-- Bay 1's job is on channel 1 in CLASS mode, where its priority is permitted and only the channel keeps it waiting. -/
def permitted : State :=
  let j : Job := { job .running with priority := 3 }
  { onChannel (docked fun r => { r with sess := { contracted with identity := some tablet } }) j with mode := .classMode }

theorem witness_JobSuspended_permitted :
    let s := permitted
    let j : Job := { job .running with priority := 3 }
    ready? s = true ∧ s.onlyJob j ∧ (∀ q ∈ s.sched.channels, q.state = .idle → ([0#8] : Bytes).headD 0#8 = 0#8)
      ∧ (s.bay 1).sess.identity = some tablet ∧ s.image? j.image = some image ∧ tablet.model ∈ image.models
      ∧ ((after (.setChannels 1#8 [0#8]) s).jobOf 1) = some j.suspended := by
  unfold State.onlyJob
  decide

theorem witness_RosterRequestsKeepRoster :
    ready? (staffed cart) = true ∧ ¬ ([] : Bytes).length ≥ 8 ∧ (entryBytes 5 1 9 0 1).length = 8 * 1
      ∧ (List.replicate 256 0#8).length = 8 * 32 ∧ Role.ofCode 3 = some .technician ∧ Role.ofCode 4 = none
      ∧ (staffed cart).cred? 5 = none ∧ (le4 2).length = 4 ∧ ((staffed cart).cred? (longAt (le4 2) 0)).isSome = true
      ∧ (staffed cart).checkouts 2 = 0 ∧ (staffed cart).groupOfCred 2 = none := by decide

/-- A roster of 256 credentials, 1 to 256. -/
def crowd : State := { cart with roster := (List.range 256).map fun i => ⟨i + 1, .teacher, 4, none, true⟩ }

theorem witness_RosterRequestsKeepRoster_first :
    replyTo (.rosterPut 1#8 (entryBytes 5 4 1 0 1 ++ entryBytes 2 2 0 0 1)) lent = some [4#8, 1#8]
      ∧ replyTo (.rosterPut 1#8 (entryBytes 5 1 4 36 1 ++ entryBytes 2 2 0 0 1)) lent = some [9#8, 2#8]
      ∧ replyTo (.rosterPut 1#8 (entryBytes 5 1 4 36 2 ++ entryBytes 5 1 4 0 1)) lent = some [4#8, 2#8]
      ∧ replyTo (.rosterPut 1#8 (entryBytes 5 1 4 0 1 ++ entryBytes 6 1 4 37 1)) lent = some [4#8, 2#8]
      ∧ replyTo (.rosterPut 1#8 (entryBytes 5 1 4 0 1 ++ entryBytes 2 2 1 0 1)) lent = some [0#8] := by decide

theorem witness_RosterRequestsKeepRoster_full :
    crowd.quiet = true ∧ crowd.listening = true ∧ crowd.roster.length = 256
      ∧ replyTo (.rosterPut 1#8 (entryBytes 256 2 4 0 1 ++ entryBytes 257 2 4 0 1)) crowd = some [0x0A#8, 2#8] := by decide

/-- A selection, and the reason for none. -/
def chosen (r : Except Reason (List Nat × Nat)) : Option (List Nat × Nat) :=
  match r with
  | .ok x => some x
  | .error _ => none

def denied (r : Except Reason (List Nat × Nat)) : Option Reason :=
  match r with
  | .ok _ => none
  | .error e => some e

/-- A TAKE of one tablet by the teacher. -/
def takeOne : Bytes := le4 2 ++ [1#8, 1#8, 0#8, 0#8]

theorem witness_PresentCreatesReleaseGroup :
    ready? ready = true ∧ ready.committed = true ∧ takeOne.length = 8 ∧ Intent.ofCode (byteAt takeOne 4) = some .take
      ∧ ready.cred? (longAt takeOne 0) = some ⟨2, .teacher, 36, none, true⟩ ∧ ready.mode = .classMode ∧ ready.groupOfCred 2 = none
      ∧ chosen (ready.select ⟨2, .teacher, 36, none, true⟩ .take 0 1 false) = some ([1], 0)
      ∧ (ready.unit? 1).map (·.state) = some .locked ∧ ready.latch.queue = [] ∧ Intent.ofCode 4 = none
      ∧ ¬ ready.nBays < 12 ∧ ready.nBays < 13 ∧ ready.cred? 9 = none := by decide

theorem witness_PresentCreatesReleaseGroup_jobs :
    let s := inQueue ready (job .queued)
    let j := { job .queued with channel := none, posted := false }
    ready? s = true ∧ s.onlyJob j ∧ j.state.onChannel = false ∧ s.hasBay j.bay = true
      ∧ chosen (s.select ⟨2, .teacher, 36, none, true⟩ .take 0 1 false) = some ([1], 0) := by
  unfold State.onlyJob
  decide

theorem witness_PresentCreatesReleaseGroup_override :
    let s := { onChannel ready (job .running) with mode := .classMode }
    ready? s = true ∧ s.onlyJob (job .running) ∧ s.jobsSound ∧ flagAt (le4 3 ++ [3#8, 1#8, 1#8, 1#8]) 7 = true
      ∧ chosen (s.select ⟨3, .technician, 36, none, true⟩ .service 1 36 true) = some ([1], 0) ∧ 1 ∈ s.baysOf 1 := by
  unfold State.onlyJob State.jobsSound
  decide

/-- The shelf of bays 7 to 12: bay 7's tablet is READY, bay 8's is on channel 1. -/
def shelf : State :=
  let s := ready.updBay 8 fun r => { r with
    present := true, cust := Cust.atCommit .stocked, sess := contracted, lane := { Lane.down with up := true } }
  { onChannel (s.updBay 7 fun r => { r with
      present := true, cust := Cust.atCommit .stocked, lane := { Lane.down with up := true }
      sess := { contracted with status := some ⟨some 80, .charging, 25, 0#5, 0⟩ } }) { job .running with bay := 8 } with
    mode := .classMode }

theorem witness_PresentCreatesReleaseGroup_suspends :
    let t := after (.present 1#8 (le4 2 ++ [1#8, 1#8, 7#8, 0#8])) shelf
    shelf.lightLamps.quiet = true ∧ shelf.onlyJob { job .running with bay := 8 } ∧ (shelf.latch.units.map (·.num)).Nodup
      ∧ chosen (shelf.select ⟨2, .teacher, 36, none, true⟩ .take 7 1 false) = some ([7], 0)
      ∧ (shelf.unit? 7).map (fun u => (u.state, u.bays)) = some (.locked, [7, 8, 9, 10, 11, 12]) ∧ (shelf.bay 8).unit = 7
      ∧ (t.jobOf 8).map (fun j => (j.state, j.resume, j.channel)) = some (.queued, true, none)
      ∧ (t.bay 8).lane.flight = some ⟨.pause 3, .ordinary⟩ := by
  unfold State.onlyJob
  decide

theorem witness_SelectionFollowsIntent :
    let c : Credential := ⟨2, .teacher, 36, none, true⟩
    (ready.bay? 1).isSome = true ∧ cart.bay? 13 = none ∧ ready.hasActiveJob 1 = false
      ∧ chosen (ready.select c .take 1 1 false) = some ([1], 0) ∧ denied (ready.select c .take 2 1 false) = some .noneReady
      ∧ chosen ((docked id).select c .take 1 1 false) = some ([1], 2) ∧ chosen (ready.select c .take 0 2 false) = some ([1], 1)
      ∧ denied (ready.select c .returnIt 0 0 false) = some .nothingOut
      ∧ chosen (lent.select ⟨3, .technician, 36, none, true⟩ .returnIt 0 0 false) = some ([2], 0) := by decide

theorem witness_CheckoutsFollowHub :
    let s := staffed cart
    let p := [2#8] ++ le4 2 ++ [2#8, 0x21#8, 0x7E#8]
    ready? s = true ∧ s.committed = true ∧ 6 ≤ p.length ∧ p.length = 6 + byteAt p 5 ∧ (p.drop 6).length ≤ 20
      ∧ s.cred? (longAt p 1) = some ⟨2, .teacher, 36, none, true⟩ ∧ (s.bay 2).cust.state = .vacant ∧ (s.bay 2).cust.borrower = none
      ∧ s.checkouts 2 + s.pendingAllowance 2 < 36 ∧ ([] : Bytes).length < 6
      ∧ ready? (alarmed 8#5) = true ∧ (alarmed 8#5).committed = true ∧ (alarmed 8#5).names 1 = true
      ∧ ((alarmed 8#5).bay 1).cust.has .foreign = true ∧ (cart.bay 12).cust.has .foreign = false := by decide

theorem witness_ClearedAlarmsReturnToService :
    let s := latched (alarmed 1#5) fun u => { u with state := .forced }
    ready? s = true ∧ s.names 1 = true ∧ Alarm.ofCode 1 = some .forced ∧ (s.bay 1).cust.has .forced = true
      ∧ (s.unit? 1).map (·.doorOpen) = some false ∧ s.latch.queue = [] ∧ (s.rankGeo 1).isSome = true
      ∧ Alarm.ofCode 0 = none ∧ Alarm.ofCode 6 = none ∧ Alarm.ofCode 5 = some .latch
      ∧ ready? (latched (alarmed 16#5) fun u => { u with state := .jammed }) = true
      ∧ ((alarmed 16#5).bay 1).cust.has .latch = true ∧ ready? (alarmed 4#5) = true
      ∧ ((alarmed 4#5).bay 1).cust.has .missing = true := by decide

theorem witness_ClearedAlarmsReturnToService_group :
    let g : Group := ⟨2, .take, 1, [1, 2], [⟨1, .withdrawn, true, false, false, false⟩, ⟨2, .pending, false, false, false, false⟩], false,
      0, 0, 0⟩
    let s := withGroup (staffed (latched (alarmed 1#5) fun u => { u with state := .forced })) g
    let t := after (.clearAlarm 1#8 [1#8, 1#8] true) s
    ready? s = true ∧ s.names 1 = true ∧ (s.groupOfUnit 1).isSome = true ∧ (s.bay 1).cust.has .forced = true
      ∧ s.latch.queue = [] ∧ t.custody.groups.length = 1 ∧ t.groupOfUnit 1 = none ∧ (t.groupOfUnit 2).isSome = true := by decide

theorem witness_CommitCreatesCart :
    ready? cart = true ∧ cart.committed = true ∧ ready? State.reset = true ∧ State.reset.committed = false
      ∧ geometry.length = 6 + 5 * 2 ∧ byteAt geometry 4 = 2 ∧ ([0#8] : Bytes).length ≠ 6 + 5 * 0 := by decide

theorem witness_CommitCreatesCart_wrong :
    let p : Bytes := le4 7 ++ [0#8, 1#8]
    ¬ (2 ≤ byteAt p 4 ∧ byteAt p 4 ≤ 6) ∧ 6 ≤ p.length ∧ (p.length - 6) % 5 = 0 ∧ p.length ≤ 512 ∧ byteAt p 4 ∉ [2, 3, 4, 5, 6]
      ∧ replyTo (.commitGeometry 1#8 p lows) State.reset = some [4#8]
      ∧ (6 + 5 * 102 - 6) % 5 = 0 ∧ ¬ 6 + 5 * 102 ≤ 512 ∧ 6 + 5 * 101 ≤ 512 := by decide

theorem witness_CommitCreatesCart_geometry :
    let g : Geometry := ⟨4294967295, 4, List.replicate 6 (rank .bayDoors)⟩
    g.cartId < 4294967296 ∧ 2 ≤ g.ranks.length ∧ g.ranks.length ≤ 6 ∧ 1 ≤ g.channels ∧ g.channels ≤ 4
      ∧ (∀ r ∈ g.ranks, 3 ≤ r.maxLevel.num) := by decide

/-- `OffBay` as a check. -/
def isOff (r : Bay) : Bool :=
  r.sess == { Session.off with forced := r.sess.forced } && r.lane == { Lane.down with hubDefer := r.lane.hubDefer }

theorem offBay_of_isOff (r : Bay) (h : isOff r = true) : OffBay r := by
  unfold isOff at h
  simp only [Bool.and_eq_true, beq_iff_eq] at h
  obtain ⟨hs, hl⟩ := h
  constructor <;> first | exact hs | (rw [hl]; simp [Lane.down])

/-- `baysSound` as a check. -/
def isSound (s : State) : Bool :=
  s.bays.map (·.num) == (List.range s.nBays).map (· + 1)
    && s.bays.all fun r =>
      (!(r.enabled && r.present) || (r.sess.state != .off && r.lane.up)) && (!(!r.enabled || !r.present) || isOff r)

theorem baysSound_of_isSound (s : State) (h : isSound s = true) : s.baysSound := by
  unfold isSound at h
  simp only [Bool.and_eq_true, beq_iff_eq, List.all_eq_true] at h
  refine ⟨h.1, fun r hr => ?_⟩
  obtain ⟨h1, h2⟩ := h.2 r hr
  refine ⟨fun he hp => ?_, fun hx => ?_⟩
  · rw [he, hp] at h1
    simpa using h1
  · refine offBay_of_isOff r ?_
    rcases hx with hx | hx <;> rw [hx] at h2 <;> simpa using h2

theorem witness_BaysSoundIsKept :
    { docked id with pending := [.scanTimer] }.baysSound ∧ goesOn { docked id with pending := [.scanTimer] } = true :=
  ⟨baysSound_of_isSound _ (by decide), by decide⟩

theorem witness_BaysSoundIsKept_jobs :
    let s := { onChannel (docked id) (job .running) with pending := [.scanTimer] }
    s.jobsSound ∧ goesOn s = true := by
  unfold State.jobsSound
  decide

theorem witness_BaysSoundIsKept_numbers :
    let s := { docked id with pending := [.scanTimer] }
    s.nBays ≤ 36 ∧ s.store.map (·.num) = [1, 2, 3, 4, 5, 6, 7, 8] ∧ State.reset.nBays ≤ 36
      ∧ State.reset.store.map (·.num) = [1, 2, 3, 4, 5, 6, 7, 8] ∧ goesOn s = true := by decide

theorem witness_SetBaysWritesEnablesAndCaps :
    ready? (docked id) = true ∧ (docked id).committed = true ∧ (docked id).baysSound ∧ (docked id).nBays ≤ 36
      ∧ (leBytes 5 0xFFE ++ List.replicate 12 4#8).length = 5 + (docked id).nBays ∧ ((docked id).bay 1).enabled = true
      ∧ (docked fun r => { r with enabled := false, sess := Session.off, lane := Lane.down }).baysSound :=
  ⟨by decide, by decide, baysSound_of_isSound _ (by decide), by decide, by decide, by decide, baysSound_of_isSound _ (by decide)⟩

theorem witness_SetBaysWritesEnablesAndCaps_wrong :
    Level.ofNum (byteAt (leBytes 5 0xFFF ++ List.replicate 12 6#8) 5) = none
      ∧ (byteAt (leBytes 5 0x1000) 1).testBit 4 = true ∧ (leBytes 5 0x1000 ++ List.replicate 11 5#8).length ≠ 5 + 12 := by decide

theorem witness_SetBaysWritesEnablesAndCaps_two_causes :
    let s := docked fun r => { r with power := { r.power with target := 600 } }
    let t := after (.setBays 1#8 (leBytes 5 0xFFF ++ [1#8, 4#8] ++ List.replicate 10 5#8)) s
    s.baysSound ∧ (Level.p1).power < (s.bay 1).power.target ∧ (Level.p4).num < (s.bay 2).cap.num
      ∧ ¬ (Level.p4).power < (s.bay 2).power.target ∧ t.alloc.lastPass = some 1000 ∧ t.alloc.scheduled = some 1100 :=
  ⟨baysSound_of_isSound _ (by decide), by decide⟩

/-- Bay 1 is served and its stage, capped, is in state `st`. -/
def powering (st : StageState) : State :=
  ((serving 0).updBay 1 fun r => { r with
    stage := ({ Stage.off 1100 with state := st, applied := if st = .on then 25 else 0, cap := some 40, trips := [900] } : Stage).sendLimit
  }).lightLamps

theorem witness_SessionEnded :
    let t (st : StageState) : State := after (.setBays 1#8 (leBytes 5 0xFFE ++ List.replicate 12 5#8)) (powering st)
    ready? (powering .on) = true ∧ ready? (powering .tripped) = true ∧ ready? (powering .faulted) = true
      ∧ ((powering .on).bay 1).serve.isSome = true ∧ (powering .on).hasBay 1 = true ∧ ((powering .on).bay 1).stage.state = .on
      ∧ ((t .on).bay 1).stage.state = .off ∧ ((t .on).bay 1).stage.cap = none ∧ ((t .on).bay 1).stage.trips = [900]
      ∧ ((t .on).bay 1).lastServe = some ⟨9, 1, .abandoned, 0⟩ ∧ ((t .on).slot? 1).map (·.serves) = some 0
      ∧ ((t .tripped).bay 1).stage.state = .tripped ∧ ((t .faulted).bay 1).stage.state = .faulted := by decide

theorem witness_BayResetStartsBayOver :
    ready? (onChannel (docked id) (job .running)) = true ∧ (onChannel (docked id) (job .running)).names 1 = true
      ∧ (onChannel (docked id) (job .running)).onlyJob (job .running) ∧ ready? cart = true ∧ cart.names 12 = true := by
  unfold State.onlyJob
  decide

theorem witness_LaneStepsFollowLine :
    (polling .sending).quiet = true ∧ (polling .sending).laneIs 1 .sending = true
      ∧ (polling .sending).laneIs 1 .listening = false ∧ (polling .spacing).quiet = true
      ∧ (polling .spacing).laneIs 1 .spacing = true ∧ ((polling .spacing).bay 1).lane.flight = some ⟨.poll none 0 0, .ordinary⟩
      ∧ (waking .spacing).quiet = true ∧ (waking .spacing).laneIs 1 .spacing = true
      ∧ ((waking .spacing).bay 1).lane.flight = some ⟨.poll none 0 0, .wake⟩ ∧ ((waking .spacing).bay 1).lane.wakeAt = some 900
      ∧ ({ waking .spacing with now := 2899 }.reach 1010).now < 900 + 2000
      ∧ ¬ ({ waking .spacing with now := 2900 }.reach 1010).now < 900 + 2000 := by decide

theorem witness_LaneStepsFollowLine_pulse_and_quiet :
    let s := talking { Lane.down with up := true, act := .wakePulse, dueAt := 1020 } (sessionIn .waking)
    let q := talking { Lane.down with up := true, act := .quiet, dueAt := 1001, pollDue := true } contracted
    s.quiet = true ∧ s.laneIs 1 .wakePulse = true ∧ q.quiet = true ∧ q.laneIs 1 .quiet = true ∧ (q.bay 1).lane.flight = none
      ∧ (q.bays.map (·.num)).Nodup := by decide

theorem witness_PollCarriesAskReply :
    (asking .job).quiet = true ∧ (((asking .job).bay 1).sess.ask).isSome = true ∧ (cart.bay 1).sess.ask = none
      ∧ (polling .spacing).quiet = true ∧ (polling .spacing).laneIs 1 .spacing = true
      ∧ ((polling .spacing).bay 1).lane.flight = some ⟨.poll none 0 0, .ordinary⟩ := by decide

/-- The bay and the failure kind of a judged attempt. -/
def judgedAs (s : State) (c : Instr) : Option (Nat × FailKind) := (s.judged? c).map fun x => (x.1, x.2.1)

theorem witness_FailedAttemptIsSpaced :
    (polling .listening).quiet = true ∧ judgedAs (polling .listening) (.noAnswer 1) = some (1, .noAnswer)
      ∧ ((polling .listening).bay 1).lane.attempts + 1 < 3
      ∧ (greeting .greeting).quiet = true ∧ judgedAs (greeting .greeting) (.answerByteFault 1 .stopLow) = some (1, .corrupt)
      ∧ (waking .listening).quiet = true ∧ judgedAs (waking .listening) (.answerIncomplete 1) = some (1, .short)
      ∧ ((waking .listening).bay 1).lane.wakeAt = some 900 ∧ ((waking .listening).bay 1).lane.attempts + 1 < 8
      ∧ judgedAs (polling .sending) (.clash 1) = some (1, .clash)
      ∧ judgedAs (polling .listening) (.badAnswer 1 0x83#8 [] 0#8) = some (1, .corrupt) := by decide

theorem witness_FailedAttemptIsSpaced_late :
    (polling .listening).hears 1 = true ∧ { polling .listening with now := 1005 }.hears 1 = true
      ∧ { polling .listening with now := 1006 }.laneIs 1 .listening = true ∧ { polling .listening with now := 1006 }.quiet = true
      ∧ judgedAs { polling .listening with now := 1005 } (.status 1 []) = none
      ∧ judgedAs { polling .listening with now := 1006 } (.status 1 []) = some (1, .short)
      ∧ judgedAs { polling .listening with now := 1005 } (.answerByteFault 1 .stopLow) = some (1, .corrupt)
      ∧ judgedAs { polling .listening with now := 1006 } (.answerByteFault 1 .stopLow) = some (1, .short)
      ∧ judgedAs { polling .listening with now := 1006 } (.badAnswer 1 0x83#8 [] 0#8) = some (1, .short) := by decide

/-- Bay 1 has failed twice in state `st` and listens. -/
def failing (st : SessState) (c : Call) (p : Plan) (n : Nat) : State :=
  talking { calling .listening c p with attempts := n } { sessionIn st with restarts := 1 }

theorem witness_FailedCallMovesSession :
    let g := failing .greeting (.hello 7 1) .greeting 2
    let c := failing .contracted (.poll none 0 0) .ordinary 2
    let f := failing .fallback (.hello 7 1) .fallback 0
    g.quiet = true ∧ g.committed = true ∧ (g.bays.map (·.num)).Nodup ∧ (c.bays.map (·.num)).Nodup
      ∧ (f.bays.map (·.num)).Nodup ∧ judgedAs g (.noAnswer 1) = some (1, .noAnswer) ∧ 3 ≤ (g.bay 1).lane.attempts + 1
      ∧ c.quiet = true ∧ judgedAs c (.noAnswer 1) = some (1, .noAnswer) ∧ min 3 ((c.bay 1).sess.restarts + 1) ≠ 3
      ∧ f.quiet = true ∧ judgedAs f (.noAnswer 1) = some (1, .noAnswer) ∧ (f.bay 1).lane.greeting = none := by decide

theorem witness_FailedCallMovesSession_wake :
    let s := talking { calling .listening (.poll none 0 0) .wake with wakeAt := some 900, attempts := 7 } (sessionIn .waking)
    let late := { s with now := 2900 }
    s.quiet = true ∧ s.resetN = true ∧ (s.bays.map (·.num)).Nodup ∧ judgedAs s (.noAnswer 1) = some (1, .noAnswer) ∧ 8 ≤ (s.bay 1).lane.attempts + 1
      ∧ (s.bay 1).lane.wakeAsked = false ∧ late.quiet = true ∧ judgedAs late (.noAnswer 1) = some (1, .noAnswer)
      ∧ 900 + 2000 ≤ late.now ∧ (waking .spacing).quiet = true ∧ ((waking .spacing).bay 1).lane.act = .spacing
      ∧ ((waking .listening).bay 1).lane.flight.isSome = true
      ∧ (talking { Lane.down with up := true, wakeAt := some 900 } (sessionIn .waking)).quiet = true := by decide

theorem witness_NegotiationFollowsAnswers :
    (greeting .greeting).quiet = true ∧ (greeting .greeting).committed = true ∧ (greeting .greeting).hears 1 = true
      ∧ ((greeting .greeting).store.map (·.num)).Nodup
      ∧ ((greeting .greeting).bay 1).lane.flight = some ⟨.hello 7 1, .greeting⟩
      ∧ ((greeting .greeting).bay 1).sess.forced = none ∧ ((greeting .greeting).bay 1).sess.holds + 1 < 3
      ∧ (greeting .fallback).quiet = true ∧ (greeting .fallback).hears 1 = true := by decide

theorem witness_NegotiationFollowsAnswers_forced_and_held :
    let s := talking (calling .listening (.hello 7 1) .greeting) { sessionIn .greeting with forced := some .p2, holds := 2 }
    s.quiet = true ∧ (s.store.map (·.num)).Nodup ∧ s.hears 1 = true ∧ (s.bay 1).sess.forced = some .p2 ∧ 3 ≤ (s.bay 1).sess.holds + 1
      ∧ (s.bay 1).sess.ask = none := by decide

theorem witness_NegotiationFollowsAnswers_confirm :
    proposing.quiet = true ∧ proposing.committed = true ∧ (proposing.store.map (·.num)).Nodup ∧ proposing.hears 1 = true
      ∧ (proposing.bay 1).lane.flight = some ⟨.confirm .p5 15#4 15#4, .ordinary⟩
      ∧ (proposing.bay 1).sess.proposal = some ⟨.p5, .negotiated, 15#4, some 15#4⟩
      ∧ (proposing.bay 1).sess.state = .confirming
      ∧ ((after (.confirmAnswer 1 [1#8, 5#8, 15#8, 1#8]) (proposing.updLane 1 fun l => { l with
          greeting := some ⟨.hello 7 1, .fallback⟩ })).bay 1).lane.greeting = none
      ∧ ((after (.confirmAnswer 1 [1#8, 5#8, 15#8, 3#8]) proposing).bay 1).sess.contract = some ⟨.p5, .negotiated, 15#4, some 15#4⟩
      ∧ ((after (.confirmAnswer 1 [1#8, 5#8, 15#8, 2#8]) proposing).bay 1).sess.contract = none := by decide

/-- A STATUS with attention flags `f`. -/
def statusBytes (f : Byte) : Bytes := [1#8, 60#8, 1#8, 25#8, f, 2#8] ++ le2 11 ++ le2 1000

theorem witness_StatusIsRecordedAndActedOn :
    (polling .listening).quiet = true ∧ (polling .listening).committed = true ∧ (polling .listening).hears 1 = true
      ∧ ((polling .listening).store.map (·.num)).Nodup
      ∧ ((polling .listening).bay 1).lane.flight = some ⟨.poll none 0 0, .ordinary⟩ ∧ (statusBytes 0#8).length = 10
      ∧ ((polling .listening).bay 1).sess.ask = none ∧ ((polling .listening).bay 1).sess.state = .contracted
      ∧ ((polling .listening).bay 1).serve = none ∧ (polling .listening).jobOf 1 = none
      ∧ BitVec.ofNat 5 (byteAt (statusBytes 16#8) 4) = 16#5 ∧ BitVec.ofNat 5 (byteAt (statusBytes 1#8) 4) = 1#5
      ∧ (BitVec.ofNat 5 (byteAt (statusBytes 8#8) 4)).getLsbD 3 = true := by decide

theorem witness_StatusIsRecordedAndActedOn_receipt :
    let s := jobCall (.poll none 0 3) .running
    s.quiet = true ∧ (s.store.map (·.num)).Nodup ∧ s.hears 1 = true ∧ (s.bay 1).lane.flight = some ⟨.poll none 0 3, .ordinary⟩
      ∧ s.jobOf 1 = some (job .running) ∧ BitVec.ofNat 5 (byteAt (statusBytes 4#8) 4) = 4#5 := by decide

/-- Bay 1 has the ask `a` and listens for the answer to a POLL, its hub defer as given. -/
def polled (a : Option Ask) (hubDefer : Bool) : State :=
  talking { calling .listening (.poll none 0 0) .ordinary with hubDefer := hubDefer } { contracted with ask := a }

theorem witness_StatusIsRecordedAndActedOn_ask :
    let s := polled none true
    s.quiet = true ∧ (s.store.map (·.num)).Nodup ∧ s.hears 1 = true
      ∧ (s.bay 1).lane.hubDefer = true ∧ (s.bay 1).lane.hubRefuse = false
      ∧ AskKind.ofCode (byteAt (statusBytes 2#8) 5) = some .job ∧ BitVec.ofNat 5 (byteAt (statusBytes 2#8) 4) = 2#5
      ∧ (polled none false).quiet = true ∧ ((after (.status 1 (statusBytes 2#8)) s).bay 1).sess.ask = some ⟨.job, 11, .hold, false⟩ := by
  decide

theorem witness_StatusIsRecordedAndActedOn_asks :
    let same := polled (some ⟨.job, 11, .refuse, true⟩) false
    let other := polled (some ⟨.profile, 9, .accept, true⟩) false
    same.quiet = true ∧ same.hears 1 = true ∧ other.quiet = true
      ∧ ((after (.status 1 (statusBytes 0#8)) same).bay 1).sess.ask = none
      ∧ ((after (.status 1 (statusBytes 2#8)) same).bay 1).sess.ask = some ⟨.job, 11, .refuse, true⟩
      ∧ ((after (.status 1 (statusBytes 2#8)) other).bay 1).sess.ask = some ⟨.job, 11, .hold, true⟩
      ∧ ((after (.status 1 (statusBytes 2#8)) other).bay 1).lane.autoDefer = true
      ∧ (serving 0).quiet = true ∧ ((serving 0).slot? 1).isSome = true := by decide

/-- A STATUS with attention flags `f` and the PROFILE ask for 9. -/
def servedBytes (f : Byte) : Bytes := [1#8, 60#8, 1#8, 25#8, f, 1#8] ++ le2 9 ++ le2 1000

/-- Bay 1 is served and listens for the answer to a POLL. -/
def servedPoll : State := (serving 0).updBay 1 fun r => { r with lane := calling .listening (.poll none 0 0) .ordinary }

theorem witness_StatusIsRecordedAndActedOn_serve :
    let t (f : Byte) : Bay := (after (.status 1 (servedBytes f)) servedPoll).bay 1
    servedPoll.quiet = true ∧ (servedPoll.store.map (·.num)).Nodup ∧ servedPoll.hears 1 = true ∧ AskKind.ofCode (byteAt (servedBytes 2#8) 5) = some .profile
      ∧ (servedPoll.bay 1).sess.ask = some ⟨.profile, 9, .accept, true⟩
      ∧ (t 18#8).sess.state = .contracted ∧ (t 18#8).serve.isSome = true ∧ (t 16#8).sess.state = .asleep
      ∧ (t 10#8).lastServe = some ⟨9, 1, .abandoned, 0⟩ ∧ (t 10#8).sess.state = .breakWait
      ∧ (t 3#8).lastServe = some ⟨9, 1, .abandoned, 0⟩ ∧ (t 3#8).sess.state = .identifying
      ∧ (t 3#8).sess.ask = some ⟨.profile, 9, .hold, false⟩ ∧ (t 1#8).lastServe = some ⟨9, 1, .withdrawn, 0⟩ := by decide

theorem witness_StatusIsRecordedAndActedOn_wake :
    (waking .listening).quiet = true ∧ ((waking .listening).store.map (·.num)).Nodup ∧ (waking .listening).hears 1 = true
      ∧ ((waking .listening).bay 1).lane.flight = some ⟨.poll none 0 0, .wake⟩
      ∧ ((waking .listening).bay 1).sess.state = .waking ∧ ((waking .listening).bay 1).sess.hubRestart = false
      ∧ (talking (calling .listening (.poll none 0 0) .wake) { sessionIn .waking with hubRestart := true }).quiet = true := by decide

theorem witness_IdentityIsRead :
    let p := le2 tablet.record.length ++ tablet.record
    (reading 0).quiet = true ∧ ((reading 0).store.map (·.num)).Nodup ∧ (reading 0).hears 1 = true
      ∧ ((reading 0).bay 1).lane.flight = some ⟨.identRead 0, .ordinary⟩ ∧ 2 ≤ p.length ∧ p.length ≤ 50
      ∧ ((reading 0).bay 1).sess.readBuf = some ⟨none, [], none⟩ ∧ ((reading 0).bay 1).sess.state = .identifying
      ∧ 18 ≤ tablet.record.length ∧ tablet.record.length ≤ 56 ∧ (reading 0).mode = .secure := by decide

/-- The event that ends bay 1's identity read with the serial A1, or with a record of 0 bytes. -/
def readEnd (whole : Bool) (s : State) : State :=
  after (.identityChunk 1 (if whole then le2 tablet.record.length ++ tablet.record else le2 0)) s

/-- Bay 1's tablet is read while bay 1's custody is as given and bay 2 waits for serial `other`. -/
def custodyOf (st : CustState) (borrower : Option Nat) (expected other : Option Bytes) : State :=
  ((reading 0).updCust 1 fun c => { c with state := st, borrower := borrower, expected := expected }).updCust 2 fun c =>
    { c with borrower := other.map fun _ => 3, expected := other }

/-- The kind of bay 1's note and its other bay after the read, and bay 2's borrower. -/
def settled (whole : Bool) (s : State) : Option (NoteKind × Option Nat) × Option Nat :=
  let t := readEnd whole s
  ((t.bay 1).cust.note.map fun n => (n.kind, n.other), (t.bay 2).cust.borrower)

/-- The serial of bay 1's tablet, and another. -/
def a1 : Option Bytes := some [0x41#8, 0x31#8]

def b2 : Option Bytes := some [0x42#8, 0x32#8]

theorem witness_IdentityIsRead_custody :
    (custodyOf .reconciling (some 2) a1 a1).quiet = true ∧ ((custodyOf .vacant none none none).bays.map (·.num)).Pairwise (· < ·) := by
  decide

theorem witness_IdentityIsRead_reconciles :
    settled true (custodyOf .reconciling (some 2) a1 a1) = (some (.returned, none), some 3)
      ∧ settled true (custodyOf .reconciling (some 2) b2 a1) = (some (.foreign, some 2), none)
      ∧ settled true (custodyOf .reconciling none none a1) = (some (.returnedElsewhere, some 2), none) := by decide

theorem witness_IdentityIsRead_reconciles_alone :
    settled true (custodyOf .reconciling (some 2) none b2) = (some (.unverified, none), some 3)
      ∧ settled true (custodyOf .reconciling (some 2) b2 none) = (some (.foreign, none), none)
      ∧ settled true (custodyOf .reconciling none none b2) = (some (.foreign, none), some 3) := by decide

theorem witness_IdentityIsRead_custody_rest :
    settled false (custodyOf .reconciling (some 2) a1 a1) = (some (.unverified, none), some 3)
      ∧ settled true (custodyOf .stocked none none a1) = (some (.returnedElsewhere, some 2), none)
      ∧ settled true (custodyOf .stocked none none none) = (none, none)
      ∧ settled false (custodyOf .stocked none none a1) = (none, some 3)
      ∧ settled true (custodyOf .vacant none none a1) = (none, some 3)
      ∧ ((readEnd false (custodyOf .stocked none none a1)).bay 1).cust.seen = .absent := by decide

theorem witness_IdentityIsRead_checkin :
    let s := { withCatalog (reading 0) with mode := .classMode }
    let hand := { s with sched := { s.sched with catalog := [{ image with auto := false }] } }
    let crowded := { s with sched := { s.sched with queue := List.replicate 48 { job .queued with bay := 2, channel := none } } }
    s.quiet = true ∧ s.committed = true ∧ (s.bay 1).enabled = true ∧ s.jobOf 1 = none
      ∧ (readEnd true s).jobOf 1 = some (newJob 1 1 11 1 .checkin)
      ∧ hand.quiet = true ∧ (readEnd true hand).jobOf 1 = none
      ∧ crowded.quiet = true ∧ 48 ≤ crowded.jobs.length ∧ (readEnd true crowded).jobOf 1 = none
      ∧ (readEnd true crowded).cartEvents = crowded.cartEvents ||| 4#3
      ∧ (readEnd true { s with sched := { s.sched with catalog := [{ image with version := 1 }] } }).jobOf 1 = none := by decide

theorem witness_IdentityIsRead_ask :
    let s (id : Nat) : State := { (held .profile id) with bays := (reading 0).bays.map fun r =>
      if r.num = 1 then { r with sess := { r.sess with ask := some ⟨.profile, id, .hold, true⟩ } } else r }
    (s 9).quiet = true ∧ ((s 9).store.map (·.num)).Nodup ∧ (s 9).askAgain 1 = some ⟨.profile, 9, .hold, true⟩ ∧ (s 9).servable 1 9 = true
      ∧ ((readEnd true (s 9)).bay 1).serve = some ⟨1, 0, 60, 0, none⟩
      ∧ (s 8).servable 1 8 = false ∧ ((readEnd true (s 8)).bay 1).sess.ask = some ⟨.profile, 8, .refuse, true⟩ := by decide

theorem witness_IdentityIsRead_record :
    let layout : Bytes := [0x01#8, 2#8, 0x41#8, 0x31#8] ++ le2 tablet.model ++ le2 tablet.agent ++ le2 tablet.image
      ++ le4 tablet.version ++ le2 tablet.capacity ++ [0x00#8, 0x00#8]
    tablet.serial = [0x41#8, 0x31#8] ∧ tablet.asset = none ∧ tablet.enrolled = none
      ∧ tablet.model < 65536 ∧ tablet.agent < 65536 ∧ tablet.image < 65536 ∧ tablet.version < 4294967296 ∧ tablet.capacity < 65536
      ∧ tablet.record = layout ++ [crc8 layout] ∧ parseIdentity (layout ++ [crc8 layout]) = some tablet
      ∧ parseIdentity (layout ++ [crc8 layout + 1#8]) = none ∧ parseIdentity (layout ++ [0x00#8, crc8 (layout ++ [0x00#8])]) = none
      ∧ parseIdentity [] = none := by decide

theorem witness_ServeFollowsHandshakes :
    (serving 0).quiet = true ∧ ((serving 0).bay 1).serve = some ⟨1, 0, 60, 0, none⟩ ∧ ((serving 0).slot? 1).map (·.id) = some 9
      ∧ ((serving 0).bays.map (·.num)).Nodup ∧ ((serving 0).bay 1).sess.state = .contracted
      ∧ (serving 0).hears 1 = true
      ∧ ((serving 0).bay 1).lane.flight = some ⟨.chunk 9 0 false (List.replicate 48 5#8), .ordinary⟩
      ∧ (serving 48).quiet = true ∧ ((serving 48).bay 1).serve = some ⟨1, 48, 12, 0, none⟩ := by decide

theorem witness_ServeFollowsHandshakes_none :
    let s := (serving 0).updBay 1 fun r => { r with serve := none }
    s.quiet = true ∧ s.hears 1 = true ∧ (s.bay 1).serve = none
      ∧ (s.bay 1).lane.flight = some ⟨.chunk 9 0 false (List.replicate 48 5#8), .ordinary⟩ := by decide

theorem witness_ServeFollowsHandshakes_resend :
    let s := (serving 0).updBay 1 fun r => { r with serve := some ⟨1, 0, 60, 9, some 1100⟩ }
    s.quiet = true ∧ s.resetN = true ∧ (s.bay 1).serve = some ⟨1, 0, 60, 9, some 1100⟩ ∧ 10 ≤ 9 + 1 := by decide

theorem witness_JobFollowsHandshakes :
    let s := jobCall (.envelope 3 11 2 100 1 false) .offered
    s.quiet = true ∧ s.committed = true ∧ s.hears 1 = true
      ∧ (s.bay 1).lane.flight = some ⟨.envelope 3 11 2 100 1 false, .ordinary⟩ ∧ s.jobOf 1 = some (job .offered)
      ∧ (jobCall (.receiptRead 3) .receipt).quiet = true ∧ (jobCall (.receiptRead 3) .receipt).jobOf 1 = some (job .receipt)
      ∧ (le2 3 ++ [1#8] ++ le4 2 ++ le4 0).length = 11 ∧ (jobCall (.pause 3) .running).quiet = true
      ∧ (jobCall (.abort 3) .running).quiet = true := by decide

theorem witness_JobFollowsHandshakes_withdraws :
    let s := (jobCall (.envelope 3 11 2 100 1 false) .offered).updLane 1 fun l => { l with job := some (.envelope 3 11 2 100 1 true) }
    s.quiet = true ∧ s.hears 1 = true ∧ ((after (.envelopeHandshake 1 [1#8]) s).bay 1).lane.job = none := by decide

theorem witness_LevelChangesAreDebounced :
    cart.quiet = true ∧ cart.resetN = true ∧ cart.bay? 13 = none ∧ (cart.bay? 12).isSome = true ∧ (cart.rankGeo 2).isSome = true
      ∧ cart.unit? 8 = none ∧ (cart.unit? 7).isSome = true := by decide

/-- Bay 1's presence timer ends at 1100. -/
def moving : State := docked fun r => { r with presAt := some 1100 }

theorem witness_RemovalAndInsertionMoveBay :
    moving.quiet = true ∧ moving.resetN = true ∧ moving.committed = true ∧ moving.baysSound ∧ moving.names 1 = true
      ∧ (moving.bay 1).presAt = some 1100 ∧ (moving.bay 1).present = true ∧ moving.inOpenPeriod 1 = false
      ∧ (withGroup (staffed moving) (group .take .opened)).inOpenPeriod 1 = true :=
  ⟨by decide, by decide, by decide, baysSound_of_isSound _ (by decide), by decide, by decide, by decide, by decide, by decide⟩

theorem witness_RemovalAndInsertionMoveBay_insertion :
    let s := cart.updBay 1 fun r => { r with presAt := some 1100 }
    s.quiet = true ∧ s.committed = true ∧ s.baysSound ∧ s.names 1 = true ∧ (s.bay 1).presAt = some 1100
      ∧ (s.bay 1).present = false ∧ (s.bay 1).enabled = true :=
  ⟨by decide, by decide, baysSound_of_isSound _ (by decide), by decide, by decide, by decide, by decide⟩

theorem witness_SessionTimersGreetAndPoll :
    let free : Lane := { Lane.down with up := true }
    (talking free { sessionIn .greeting with greetAt := some 1100 }).quiet = true
      ∧ (talking free { sessionIn .breakWait with breakAt := some 1100 }).quiet = true
      ∧ (talking free { sessionIn .fallback with fallAt := some 1100 }).quiet = true
      ∧ (docked id).quiet = true ∧ ((docked id).bay 1).sess.pollAt = some 2000 ∧ ((docked id).bays.map (·.num)).Nodup := by decide

theorem witness_PassesRunWhenDue :
    let s := { cart with alloc := { cart.alloc with scheduled := some 1100, periodic := some 11000, lastPass := some 1000 } }
    s.quiet = true ∧ s.resetN = true ∧ s.committed = true ∧ s.alloc.scheduled = some 1100 ∧ s.alloc.periodic = some 11000
      ∧ s.mode = .secure ∧ s.names 12 = true ∧ s.hasDemand (s.bay 12) = false := by decide

theorem witness_BudgetFigures :
    { cart with monitor := { cart.monitor with hold := true } }.kT = 0
      ∧ { cart with monitor := { cart.monitor with temp := some 40 } }.kT = 100
      ∧ { cart with monitor := { cart.monitor with temp := some 41 } }.kT = 96
      ∧ { cart with monitor := { cart.monitor with temp := some 54 } }.kT = 44
      ∧ cart.alloc.overhead < cart.derated
      ∧ { cart with alloc := { cart.alloc with overhead := 3000 } }.available = 0 := by decide

theorem witness_BudgetFigures_kept :
    let s := { cart with pending := [.tsenseSample (.celsius 54)] }
    let hot := { cart with monitor := { cart.monitor with temp := some 55, hold := true } }
    s.alloc.trim ≤ 10 ∧ s.monitor.hold = false ∧ s.monitor.temp = none ∧ goesOn s = true
      ∧ (after (.tsenseSample (.celsius 54)) hot).monitor.hold = true
      ∧ (after (.tsenseSample (.celsius 50)) hot).monitor.hold = false := by decide

theorem witness_TargetsStayWithinBudget :
    let s := { powered id with alloc := { cart.alloc with scheduled := some 1100, lastPass := some 1000 } }
    s.baysSound ∧ s.quiet = true ∧ s.committed = true ∧ s.mode = .secure ∧ s.alloc.scheduled = some 1100
      ∧ goesOn { s with pending := [.scheduledPass] } = true ∧ s.names 1 = true :=
  ⟨baysSound_of_isSound _ (by decide), by decide, by decide, by decide, by decide, by decide, by decide⟩

theorem witness_StagesRampAndSample :
    let s := powered id
    let w := powered fun x => { x with applied := 100, window := List.replicate 99 20 }
    let c := powered fun x => { x with cap := some 40, capCount := 19 }
    s.quiet = true ∧ s.resetN = true ∧ s.committed = true ∧ s.rampAt = some 250 ∧ s.names 1 = true ∧ (s.bay 1).stage.state = .on
      ∧ (s.bay 2).stage.state ≠ .on ∧ (s.bays.map (·.num)).Nodup
      ∧ w.quiet = true ∧ (w.bay 1).stage.applied = (w.bay 1).power.target ∧ (List.replicate 100 20).sum / 100 + 30 < 100
      ∧ c.quiet = true ∧ (c.bay 1).stage.cap = some 40 ∧ (c.bay 1).power.target ≤ 95 + 5 := by decide

theorem witness_TripsAndSensorSamples :
    let s := powered fun x => { x with tripAt := some 1500, trips := [100, 900] }
    s.quiet = true ∧ s.resetN = true ∧ s.committed = true ∧ s.names 1 = true ∧ (s.bay 1).stage.tripAt = some 1500
      ∧ (powered fun x => { x with tripAt := some 1500 }).quiet = true ∧ cart.alloc.summary = none
      ∧ (onChannel (docked id) (job .running)).onlyJob (job .running) ∧ (onChannel (docked id) (job .running)).mode = .secure := by
  unfold State.onlyJob
  decide

theorem witness_TripsAndSensorSamples_bare :
    State.reset.quiet = true ∧ State.reset.resetN = true ∧ State.reset.bare = true ∧ State.reset.committed = false
      ∧ (after (.tsenseSample (.celsius 55)) State.reset).monitor.hold = true
      ∧ (after (.tsenseSample (.celsius 41)) State.reset).monitor.factor = 96
      ∧ (after (.wsenseSample 9#16) State.reset).monitor.win = 9#16 := by decide

theorem witness_TripsAndSensorSamples_hold :
    let t := after (.tsenseSample (.celsius 55)) permitted
    permitted.quiet = true ∧ permitted.hasBay 1 = true ∧ (t.jobOf 1).map (·.state) = some .queued
      ∧ (t.bay 1).lane.flight = some ⟨.pause 3, .ordinary⟩ ∧ t.sched.channels.map (·.state) = [.draining 1050]
      ∧ t.alloc.lastPass = some 1000 := by decide

/-- The cart after its first pass, with `n` overruns counted. -/
def overrunning (n : Nat) : State :=
  let s := after .scheduledPass { cart with alloc := { cart.alloc with scheduled := some 1100, lastPass := some 1000 } }
  { s with monitor := { s.monitor with overruns := n } }

theorem witness_TripsAndSensorSamples_wall :
    (overrunning 19).quiet = true ∧ (overrunning 19).alloc.summary.map (·.derated) = some 3000
      ∧ (overrunning 19).monitor.hold = false ∧ (overrunning 19).monitor.armed = true ∧ min 20 (19 + 1) = 20
      ∧ (overrunning 18).quiet = true ∧ 3000 < 3001 := by decide

theorem witness_JobTimersPostEnvelopeAndScan :
    let s := offered fun j => { j with settleAt := some 1100, resendAt := some 1100 }
    let d := { cart with sched := { cart.sched with channels := [⟨1, true, .draining 1050⟩] } }
    s.quiet = true ∧ s.resetN = true ∧ s.jobsSound ∧ (s.jobOf 1).map (·.settleAt) = some (some 1100) ∧ s.image? 11 = some image
      ∧ (s.bays.map (·.num)).Nodup ∧ (s.bay 1).sess.state = .contracted ∧ cart.sched.scanAt = some 1000 ∧ cart.mode = .secure
      ∧ d.quiet = true ∧ d.jobsSound := by
  unfold State.jobsSound
  decide

/-- The scan finds bay 1's queued job of priority 3, and bay 1 in session `x`. -/
def scanning (x : Session) : State :=
  { inQueue (docked fun r => { r with sess := x }) { job .queued with priority := 3 } with mode := .classMode }

/-- A tablet of image 11's model, in force at P5. -/
def known : Session := { contracted with identity := some tablet }

/-- The reason of bay 1's last job, and what bay 1's job is in, after a scan. -/
def scanned (s : State) : Option JobReason × Option JobState :=
  let t := after .scanTimer s
  ((t.bay 1).lastJob.map (·.reason), (t.jobOf 1).map (·.state))

theorem witness_JobTimersPostEnvelopeAndScan_rows :
    (scanning known).quiet = true ∧ (scanning known).committed = true ∧ (scanning known).resetN = true ∧ (scanning known).sched.scanAt = some 1000
      ∧ (scanning (sessionIn .asleep)).quiet = true
      ∧ scanned (scanning { sessionIn .asleep with wakeFailed := true }) = (some .wakeFailed, none)
      ∧ scanned (scanning (sessionIn .asleep)) = (none, some .waking)
      ∧ scanned (scanning (sessionIn .identifying)) = (none, some .queued)
      ∧ scanned (scanning contracted) = (some .noIdentity, none)
      ∧ scanned (scanning { known with identity := some { tablet with model := 6 } }) = (some .wrongModel, none)
      ∧ scanned (scanning { known with ability := some ⟨15#4, 3#3⟩ }) = (some .refused, none)
      ∧ scanned (scanning { known with contract := some ⟨.p1, .negotiated, 1#4, some 1#4⟩ }) = (none, some .queued) := by decide

theorem witness_JobTimersPostEnvelopeAndScan_admission :
    let s := scanning known
    let poor := { s with alloc := { s.alloc with ceiling := 1000, overhead := 600, eta := 70, slots := 4 } }
    let j : Job := { job .queued with priority := 3, channel := none, posted := false }
    s.committed = true ∧ s.onlyJob j ∧ s.sched.queue = [j] ∧ s.jobsSound ∧ s.baysSound ∧ s.names 1 = true ∧ 75 ≤ (s.bay 1).rawCeiling ∧ 75 ≤ s.distributable
      ∧ s.sched.channels.map (·.state) = [.idle, .idle] ∧ (s.sched.channels.map (·.num)).Pairwise (· < ·)
      ∧ scanned s = (none, some .offered) ∧ (after .scanTimer s).chan? 1 = some ⟨1, true, .assigned 1 3⟩
      ∧ poor.quiet = true ∧ poor.distributable < 75 ∧ scanned poor = (none, some .queued)
      ∧ (after .scanTimer poor).alloc.summary.map (fun m => (m.kind, m.admitted)) = some (.admission 1, false) := by
  unfold State.onlyJob State.jobsSound
  exact ⟨by decide, by decide, by decide, by decide, baysSound_of_isSound _ (by decide), by decide, by decide, by decide, by decide,
    by decide, by decide, by decide, by decide, by decide, by decide, by decide⟩

theorem witness_DriversMoveLatches :
    (driving cart .lock .pulse 1).quiet = true ∧ (driving cart .lock .pulse 1).resetN = true
      ∧ (driving cart .lock .pulse 1).latch.driver .a = some ⟨⟨1, .lock⟩, .pulse, 1, 1100⟩
      ∧ (driving cart .lock .retryWait 1).quiet = true ∧ (checking .lock 1).quiet = true ∧ (checking .lock 2).quiet = true
      ∧ ((checking .lock 1).unit? 1).map (·.state) = some .locking ∧ ((checking .lock 1).rankGeo 1).isSome = true
      ∧ (checking .lock 1).latch.queue = [] ∧ (checking .unlock 1).quiet = true ∧ (checking .unlock 1).releaseCancelled 1 = false := by
  decide

theorem witness_DriversMoveLatches_groups :
    let s := withGroup (staffed (checking .unlock 1)) (group .take .pending)
    let c := withGroup (staffed (checking .unlock 1)) { group .take .pending with cancelled := true }
    s.quiet = true ∧ (s.entryOf 1).map (·.state) = some .pending ∧ c.quiet = true ∧ c.releaseCancelled 1 = true := by decide

theorem witness_DriversMoveLatches_jam :
    let g (e : EntryState) : Group := ⟨2, .take, 1, [1, 2], [⟨1, .pending, false, false, false, false⟩, ⟨2, e, false, false, false, false⟩],
      false, 0, 0, 0⟩
    let s (e : EntryState) : State := withGroup (staffed (checking .unlock 2)) (g e)
    let t (e : EntryState) : State := after (.positionCheck .a true) (s e)
    (s .pending).quiet = true ∧ ((s .pending).groupOfUnit 1).map (·.cred) = some 2 ∧ (s .pending).groupsSound
      ∧ ((g .pending).entries.map (·.unit)).Nodup ∧ (s .closed).groupsSound
      ∧ ((t .pending).entryOf 1).map (fun e => (e.state, e.latchFault)) = some (.failed, true)
      ∧ (t .pending).custody.groups.length = 1
      ∧ (s .closed).quiet = true ∧ (t .closed).custody.groups = []
      ∧ ((t .closed).bay 2).cust.release = some ⟨2, .take, .latchFault, 0, 0, 0⟩
      ∧ ((t .closed).bay 1).cust.alarms = 16#5 ∧ (t .closed).latch.drvA = none := by
  unfold State.groupsSound
  decide

theorem witness_DriversMoveLatches_next :
    let s := checking .lock 1
    let q := (s.updUnit 3 fun u => { u with state := .lockPending }).updUnit 4 fun u => { u with state := .unlockPending }
    let f := { q with latch := { q.latch with drvB := some ⟨⟨2, .unlock⟩, .pulse, 1, 1100⟩, queue := [⟨4, .unlock⟩, ⟨3, .lock⟩] } }
    f.quiet = true ∧ f.noMove 1 ∧ (after (.positionCheck .a true) f).latch.drvA = some ⟨⟨3, .lock⟩, .pulse, 1, 1400⟩
      ∧ (after (.positionCheck .a true) f).latch.queue = [⟨4, .unlock⟩] := by
  unfold State.noMove
  decide

/-- The LOCK of unit 1 is at its check, its group's entry open and bay 1's tablet taken. -/
def closing (remaining : Nat) : State :=
  withGroup (staffed ((checking .lock 1).updCust 1 fun c => { c with taken := some ⟨1, .none⟩ }))
    { group .take .opened with remaining := remaining }

theorem witness_ClosedPeriodSettlesBay :
    let s := closing 1
    s.quiet = true ∧ s.resetN = true ∧ s.latch.driver .a = some ⟨⟨1, .lock⟩, .checkWait, 1, 1100⟩
      ∧ (s.unit? 1).map (·.bays) = some [1] ∧ s.names 1 = true ∧ (s.rankGeo 1).map (·.lposPol.active true) = some true
      ∧ s.custody.groups.length = 1 ∧ (s.bay 1).cust.taken = some ⟨1, .none⟩ ∧ (s.bay 1).cust.inserted = false
      ∧ (s.bay 1).cust.borrower = none ∧ (closing 0).quiet = true
      ∧ ((after (.positionCheck .a true) s).bay 1).cust.borrower = some 2
      ∧ ((after (.positionCheck .a true) (closing 0)).bay 1).cust.alarms = 4#5 := by decide

/-- The LOCK of the shelf is at its check: bays 8 and 7 were emptied in this order, bay 9 was filled, and `remaining` are left. -/
def closingShelf (remaining : Nat) : State :=
  let s := (cart.updUnit 7 fun u => { u with state := .locking }).updCust 7 fun c => { c with taken := some ⟨2, .serial [0x41#8]⟩ }
  let s := (s.updCust 8 fun c => { c with taken := some ⟨1, .none⟩ }).updCust 9 fun c => { c with inserted := true }
  withGroup (staffed { s with latch := { s.latch with drvB := some ⟨⟨7, .lock⟩, .checkWait, 1, 1100⟩ } })
    ⟨2, .take, remaining, [7, 8], [⟨7, .opened, true, false, false, false⟩], false, 0, 0, 0⟩

theorem witness_ClosedPeriodSettlesBay_shelf :
    let s := closingShelf 1
    let t := after (.positionCheck .b true) s
    s.quiet = true ∧ s.latch.driver .b = some ⟨⟨7, .lock⟩, .checkWait, 1, 1100⟩
      ∧ (s.unit? 7).map (·.bays) = some [7, 8, 9, 10, 11, 12] ∧ (s.groupOfUnit 7).map (·.cred) = some 2
      ∧ (s.entryOf 7).map (·.state) = some .opened ∧ (s.custody.groups.map (·.cred)).Nodup ∧ (s.bays.map (·.num)).Nodup
      ∧ (t.bay 8).cust.borrower = some 2 ∧ (t.bay 7).cust.borrower = none ∧ (t.bay 7).cust.alarms = 4#5
      ∧ (t.bay 9).cust.state = .reconciling ∧ (t.bay 9).cust.inserted = false
      ∧ (t.bay 10).cust.release = some ⟨2, .take, .taken, 1, 1, 1⟩ ∧ t.custody.groups = [] := by decide

/-- The shelf's LOCK is at its second check, and the outcome of bay 9's tablet is at hand: serial A1, which bay 10 expects back. -/
def closingKnown : State :=
  let s := (closingShelf 1).updCust 9 fun c => { c with inserted := true, seen := .serial [0x41#8, 0x31#8] }
  let s := s.updCust 10 fun c => { c with borrower := some 3, expected := a1 }
  { s with latch := { s.latch with drvB := some ⟨⟨7, .lock⟩, .checkWait, 2, 1100⟩ } }

theorem witness_ClosedPeriodSettlesBay_at_once :
    let t := after (.positionCheck .b true) closingKnown
    closingKnown.quiet = true ∧ (closingKnown.bay 9).cust.seen = .serial [0x41#8, 0x31#8]
      ∧ (t.bay 9).cust.state = .stocked ∧ (t.bay 9).cust.note = some ⟨.returnedElsewhere, none, none, some 10, false⟩
      ∧ (t.bay 10).cust.borrower = none
      ∧ (t.bay 10).cust.note = some ⟨.returnedElsewhere, some 3, some [0x41#8, 0x31#8], some 9, false⟩ := by decide

theorem witness_ClosedPeriodSettlesBay_jam :
    let t := after (.positionCheck .b false) closingKnown
    closingKnown.quiet = true ∧ (closingKnown.bay 8).cust.has .latch = false ∧ (t.bay 8).events.getLsbD 8 = true
      ∧ (t.unit? 7).map (·.state) = some .jammed ∧ (t.bay 8).cust.borrower = some 2
      ∧ (t.bay 8).cust.alarms = 16#5 ∧ (t.bay 7).cust.alarms = 20#5
      ∧ (t.bay 12).cust.release = some ⟨2, .take, .latchFault, 1, 1, 1⟩ ∧ t.custody.groups = [] := by decide

theorem witness_ClosedPeriodSettlesBay_group_goes_on :
    let s := closing 1
    let g : Group := { group .take .opened with entries := (group .take .opened).entries ++ [⟨2, .pending, false, false, false, false⟩] }
    let q := withGroup s g
    let t := after (.positionCheck .a true) q
    q.quiet = true ∧ (g.entries.map (·.unit)).Nodup ∧ t.custody.groups.map (fun h => (h.remaining, h.taken)) = [(0, 1)]
      ∧ (t.bay 1).cust.release = none := by decide

theorem witness_UnlatchedAndOpenUnitsTimeOut :
    let s := latched cart fun u => { u with state := .unlatched, windowAt := some 9000 }
    let o := latched cart fun u => { u with state := .opened, doorOpen := true, openedAt := some 500 }
    s.quiet = true ∧ s.resetN = true ∧ (s.unit? 1).map (·.windowAt) = some (some 9000) ∧ s.latch.queue = []
      ∧ o.quiet = true ∧ (o.unit? 1).map (fun u => (u.state, u.openedAt, u.ajarReported)) = some (.opened, some 500, false)
      ∧ 500 + o.custody.ajarLimit * 1000 = 120500 := by decide

theorem witness_DoorsMoveUnits :
    let s := latched cart fun u => { u with doorAt := some 1050 }
    let c := latched cart fun u => { u with state := .opened, doorOpen := true, openedAt := some 500, doorAt := some 1050 }
    s.quiet = true ∧ s.resetN = true ∧ (s.unit? 1).map (fun u => (u.state, u.doorOpen, u.doorAt)) = some (.locked, false, some 1050)
      ∧ s.latch.queue = [] ∧ c.quiet = true ∧ (c.unit? 1).map (fun u => (u.state, u.doorOpen)) = some (.opened, true) := by decide

theorem witness_DoorsMoveUnits_groups :
    let s (st : UnitState) (e : EntryState) : State :=
      withGroup (staffed (latched cart fun u => { u with state := st, doorAt := some 1050 })) (group .take e)
    let t (st : UnitState) (e : EntryState) : State := after (.doorDebounce 1) (s st e)
    let mark (st : UnitState) (e : EntryState) := ((t st e).entryOf 1).map fun e => (e.state, e.doorOpened)
    (s .unlatched .opened).quiet = true ∧ mark .unlatched .opened = some (.opened, true)
      ∧ (s .locking .opened).quiet = true ∧ mark .locking .opened = some (.opened, true)
      ∧ (s .unlocking .pending).quiet = true ∧ (t .unlocking .pending).custody.groups = []
      ∧ ((t .unlocking .pending).bay 1).cust.release = some ⟨2, .take, .latchFault, 0, 0, 0⟩ := by decide

theorem witness_DoorsMoveUnits_jobs :
    let s := latched permitted fun u => { u with doorAt := some 1050 }
    let t := after (.doorDebounce 1) s
    s.quiet = true ∧ (s.unit? 1).map (·.bays) = some [1] ∧ (s.bay 1).unit = 1 ∧ (t.jobOf 1).map (·.state) = some .queued
      ∧ (t.bay 1).lane.flight = some ⟨.pause 3, .ordinary⟩ := by decide

theorem witness_LampsShowFirstRow :
    goesOn { cart with pending := [.scanTimer] } = true ∧ { cart with pending := [.scanTimer] }.quiet = true
      ∧ (after .scanTimer cart).hasBay 12 = true := by decide

end Sys2Proof.Tests
end

