-- ==== Sys2Proof/Proofs/Forms.lean ====
section
/-! PROOF. What each form of a command keeps, for any predicate of the state. -/

namespace Sys2Proof.Dock

open Machine Laws

/-- A command that keeps `P`. -/
def Keeps (P : State → Prop) (a : State → Answer) : Prop := ∀ s t, a s = .next t → P s → P t

section
variable {P : State → Prop}

theorem keeps_next : Keeps P .next := by
  rintro s t ⟨⟩ hs
  exact hs

theorem keeps_ite (p : State → Prop) [∀ s, Decidable (p s)] {a c : State → Answer} (ha : Keeps P a) (hc : Keeps P c) :
    Keeps P fun s => if p s then a s else c s := by
  intro s t h hs
  dsimp only at h
  split at h
  · exact ha s t h hs
  · exact hc s t h hs

theorem keeps_whenLive {f : State → State} (hf : ∀ s, P s → P (f s)) : Keeps P fun s => whenLive s f := by
  intro s t h hs
  obtain hr | hr := Bool.eq_false_or_eq_true s.resetN
  · cases (whenLive_live hr f).symm.trans h
    exact hf s hs
  · cases (whenLive_held hr f).symm.trans h
    exact hs

theorem keeps_timerEvent {due : State → Option Nat} {f : State → State}
    (hf : ∀ s d, due s = some d → P s → P (f (s.reach d)).conclude) : Keeps P fun s => timerEvent s (due s) f :=
  fun s _ h hs => timerEvent_cases h hs fun d hd _ => hf s d hd hs

theorem keeps_laneEvent {b : Nat} {act : LaneAct} {f : State → State}
    (hf : ∀ s, (s.bay b).lane.up = true → P s → P (f s).conclude) : Keeps P fun s => laneEvent s b act f := by
  intro s t h hs
  cases hu : (s.bay b).lane.up
  · unfold laneEvent at h
    simp only [hu] at h
    cases h
    exact hs
  · exact laneEvent_cases h hs fun _ => hf s hu hs

theorem keeps_jobTimer {b : Nat} {due : Job → Option Nat} {f : State → Job → State}
    (hf : ∀ s j d, s.jobOf b = some j → P s → P (f (s.reach d) j).conclude) : Keeps P fun s => jobTimer s b due f := by
  intro s t h hs
  dsimp only [jobTimer] at h
  split at h
  · cases h; exact hs
  · exact timerEvent_cases h hs fun d _ _ => hf s _ d ‹_› hs

theorem keeps_driveEvent {d : DriverId} {ph : MovePhase} {f : State → Drive → State}
    (hf : ∀ s v n, P s → P (f (s.reach n) v).conclude) : Keeps P fun s => driveEvent s d ph f := by
  intro s t h hs
  dsimp only [driveEvent] at h
  split at h
  · cases h; exact hs
  · exact timerEvent_cases h hs fun n _ _ => hf s _ n hs

/-- A change of an input pin, taken where the pin exists. -/
theorem keeps_pin {m : State → Option Bool} {f : State → Bool → State} (hf : ∀ s v, P s → P (f s v).conclude) :
    Keeps P fun s => match m s with
      | none => .next s
      | some v => event s fun s => f s v := by
  intro s t h hs
  dsimp only at h
  split at h
  · cases h; exact hs
  · exact event_cases h hs fun _ => hf s _ hs

end

end Sys2Proof.Dock
end

