-- ==== Sys2Proof/Proofs/Quiet.lean ====
section
/-! PROOF. Every step leaves a quiet state (O4): an event's operation leaves the hub link alone, and the end of the event settles the
rest; bytes at the receiver are the laws' `hearBytes_quiet`. -/

namespace Sys2Proof.Dock

open Machine Laws

/-! ## The operation of an event -/

theorem conclude_quiet_of_hub {s u : State} (h : u.hub = s.hub) (hq : s.quiet = true) : u.conclude.quiet = true :=
  conclude_quiet (linkRight_of_hub h (quiet_linkRight hq))

/-- A command that leaves a quiet state quiet. -/
abbrev KeepsQuiet (a : State → Answer) : Prop := Keeps (fun s => s.quiet = true) a

/-- An operation that leaves `outer` alone. -/
def LeavesOuter (f : State → State) : Prop := ∀ s, outer (f s) = outer s

theorem LeavesOuter.concludes {f : State → State} (hf : LeavesOuter f) (s : State) (hq : s.quiet = true) :
    (f s).conclude.quiet = true := conclude_quiet_of_outer hq (hf s)

theorem quietTimer {due : State → Option Nat} {f : State → State} (hf : LeavesOuter f) :
    KeepsQuiet fun s => timerEvent s (due s) f :=
  keeps_timerEvent fun s d _ hq => conclude_quiet_of_outer hq ((hf _).trans (outer_reach s d))

theorem quietLane {b : Nat} {act : LaneAct} {f : State → State} (hf : LeavesOuter f) : KeepsQuiet fun s => laneEvent s b act f :=
  keeps_laneEvent fun s _ => hf.concludes s

theorem quietJobTimer {b : Nat} {due : Job → Option Nat} {f : State → Job → State} (hf : ∀ j, LeavesOuter fun s => f s j) :
    KeepsQuiet fun s => jobTimer s b due f :=
  keeps_jobTimer fun s j d _ hq => conclude_quiet_of_outer hq ((hf j _).trans (outer_reach s d))

theorem quietDrive {d : DriverId} {ph : MovePhase} {f : State → Drive → State} (hf : ∀ v, LeavesOuter fun s => f s v) :
    KeepsQuiet fun s => driveEvent s d ph f :=
  keeps_driveEvent fun s v n hq => conclude_quiet_of_outer hq ((hf v _).trans (outer_reach s n))

/-! ## The clock, the reset and the output queue -/

/-- The clock has no part in what a quiet state owes. -/
theorem quiet_tick {s : State} (n : Nat) (hq : s.quiet = true) : State.quiet { s with now := n } = true := by
  obtain ⟨w, d, l, i, m, no, o, r⟩ := (quiet_iff s).1 hq
  refine (quiet_iff _).2 ⟨w, d, ?_, i, m, no, o, r⟩
  unfold State.lanesQuiet at l ⊢
  rw [List.all_eq_true] at l ⊢
  intro b hb
  simpa only [Bool.not_eq_true', laneNext_isSome _ s b.num b.num] using l b hb

theorem reset_quiet : State.reset.quiet = true := by decide

theorem partReset_quiet (s : State) : s.partReset.quiet = true := reset_quiet

/-- The last byte of a frame has left, and the next frame starts on the free line (R174). -/
theorem startOutput_quiet {s u : State} (hq : s.quiet = true) (hu : u.sameButLink s) (hm : u.hub.mask = s.hub.mask)
    (hn : u.hub.notice = s.hub.notice) (ho : u.hub.noticeOutstanding = s.hub.noticeOutstanding) (hr : u.replyRight = true) :
    u.startOutput.quiet = true := by
  have hl : linkRight u := ⟨fun h => by rw [ho]; exact (quiet_linkRight hq).1 (hn ▸ h), hr⟩
  have hnq : u.queueNotice = u := by
    obtain ⟨_, _, _, _, _, n, _, _⟩ := (quiet_iff s).1 hq
    obtain ⟨a, rfl⟩ := (sameButLink_iff _ _).1 hu
    dsimp only at hm hn ho
    unfold State.noticeQuiet State.anyEnabled State.enabledCart State.committed at n
    unfold State.queueNotice State.anyEnabled State.enabledCart State.committed
    dsimp only
    rw [hm, hn, ho]
    rw [Bool.and_eq_true, Bool.not_eq_true'] at n
    rw [if_neg (by rw [n.1]; decide)]
  have ha := announce_quiet (inner_sameButLink hu (quiet_inner hq)) hl
  unfold State.announce at ha
  rwa [hnq] at ha

/-- Reply-pending stands while an ordinary reply is sent, and no second one waits. -/
theorem replyRight_iff (s : State) : s.replyRight = true ↔
    s.hub.replyPending = (s.hub.reply.isSome || s.sendingReply) ∧ (s.hub.reply.isSome && s.sendingReply) = false := by
  unfold State.replyRight
  rw [Bool.and_eq_true, beq_iff_eq, Bool.not_eq_true']

theorem frameSent_quiet {s : State} (hq : s.quiet = true) : s.frameSent.quiet = true := by
  obtain ⟨hr, h2⟩ := (replyRight_iff s).1 (quiet_linkRight hq).2
  unfold State.frameSent
  cases hs : s.hub.sending with
  | none => exact hq
  | some x =>
    obtain ⟨c, f⟩ := x
    unfold State.sendingReply at hr h2
    rw [hs] at hr h2
    cases c with
    | reply =>
      have hn : s.hub.reply = none := by simpa using h2
      dsimp only
      split
      · exact partReset_quiet _
      · exact startOutput_quiet hq rfl rfl rfl rfl ((replyRight_iff _).2 (by simp [State.sendingReply, hn]))
    | busy => exact startOutput_quiet hq rfl rfl rfl rfl ((replyRight_iff _).2 ⟨hr, h2⟩)
    | notice => exact startOutput_quiet hq rfl rfl rfl rfl ((replyRight_iff _).2 ⟨hr, h2⟩)

/-! ## Every command -/

/-! ### Reset causes and the hub link -/

theorem quiet_execPowerOn : KeepsQuiet execPowerOn := by
  rintro s t ⟨⟩ _
  exact partReset_quiet s

theorem quiet_execResetNLow : KeepsQuiet execResetNLow := by
  rintro s t ⟨⟩ _
  exact partReset_quiet s

theorem quiet_execResetNHigh : KeepsQuiet execResetNHigh := by
  rintro s t ⟨⟩ hq
  split
  exacts [hq, partReset_quiet s]

theorem quiet_execHubRxGapTimeout : KeepsQuiet execHubRxGapTimeout :=
  keeps_whenLive fun _ => quiet_rx []

theorem quiet_execHubFrameCorrupt (run : RxRun) : KeepsQuiet (execHubFrameCorrupt run) :=
  keeps_whenLive fun _ hq => hearBytes_quiet hq _ _

theorem quiet_execHubRxByteFault (f : HubByteFault) : KeepsQuiet (execHubRxByteFault f) :=
  keeps_whenLive fun _ => quiet_rx []

theorem quiet_execUnknownKind (kind tag : Byte) (p : Bytes) : KeepsQuiet (execUnknownKind kind tag p) :=
  keeps_whenLive fun s hq => by
    split
    exacts [hq, hearBytes_quiet hq _ _]

theorem quiet_execHubFrameSent : KeepsQuiet execHubFrameSent :=
  keeps_whenLive fun _ => frameSent_quiet

/-! ### Lanes and answers -/

theorem quiet_execCallSent (b : Nat) : KeepsQuiet (execCallSent b) :=
  quietLane fun _ => by simp

theorem quiet_execClash (b : Nat) : KeepsQuiet (execClash b) :=
  quietLane fun _ => by simp

theorem quiet_execNoAnswer (b : Nat) : KeepsQuiet (execNoAnswer b) :=
  quietLane fun _ => by simp

theorem quiet_execAnswerIncomplete (b : Nat) : KeepsQuiet (execAnswerIncomplete b) :=
  quietLane fun _ => by simp

theorem quiet_execAnswerByteFault (b : Nat) (f : LaneByteFault) : KeepsQuiet (execAnswerByteFault b f) :=
  quietLane fun _ => by simp

theorem quiet_execBadAnswer (b : Nat) (kind : Byte) (p : Bytes) (crc : Byte) : KeepsQuiet (execBadAnswer b kind p crc) :=
  keeps_ite _ keeps_next <| quietLane fun _ => by
    split
    · simp
    · split <;> simp

theorem quiet_execRetry (b : Nat) : KeepsQuiet (execRetry b) :=
  keeps_ite _ keeps_next <| quietLane fun _ => by simp

theorem quiet_execWakeAttemptDue (b : Nat) : KeepsQuiet (execWakeAttemptDue b) :=
  keeps_ite _ (quietLane fun _ => by unfold State.wakeAttempt; split <;> simp) keeps_next

theorem quiet_execWakeWindowEnd (b : Nat) : KeepsQuiet (execWakeWindowEnd b) :=
  quietTimer fun _ => by simp

theorem quiet_execQuietEnd (b : Nat) : KeepsQuiet (execQuietEnd b) :=
  quietLane fun _ => by simp

theorem quiet_execWakePulseEnd (b : Nat) : KeepsQuiet (execWakePulseEnd b) :=
  quietLane fun _ => by simp

theorem quiet_execAbility (b : Nat) (p : Bytes) : KeepsQuiet (execAbility b p) :=
  quietLane fun _ => by simp

theorem quiet_execConfirmAnswer (b : Nat) (p : Bytes) : KeepsQuiet (execConfirmAnswer b p) :=
  quietLane fun _ => by simp

theorem quiet_execStatus (b : Nat) (p : Bytes) : KeepsQuiet (execStatus b p) :=
  quietLane fun _ => by simp

theorem quiet_execIdentityChunk (b : Nat) (p : Bytes) : KeepsQuiet (execIdentityChunk b p) :=
  quietLane fun _ => by simp

theorem quiet_execChunkHandshake (b : Nat) (p : Bytes) : KeepsQuiet (execChunkHandshake b p) :=
  quietLane fun _ => by simp

theorem quiet_execEnvelopeHandshake (b : Nat) (p : Bytes) : KeepsQuiet (execEnvelopeHandshake b p) :=
  quietLane fun _ => by simp

theorem quiet_execStopHandshake (b : Nat) (call : StopCall) (p : Bytes) : KeepsQuiet (execStopHandshake b call p) :=
  quietLane fun _ => by simp

theorem quiet_execReceipt (b : Nat) (p : Bytes) : KeepsQuiet (execReceipt b p) :=
  quietLane fun _ => by simp

/-! ### Presence and session timers -/

theorem quiet_execPresenceChange (b : Nat) (high : Bool) : KeepsQuiet (execPresenceChange b high) :=
  keeps_pin (m := fun s => s.presMeans b high) (f := fun s level => s.presenceLevel b high level)
    fun _ _ hq => conclude_quiet_of_outer hq (by simp)

theorem quiet_execPresenceDebounce (b : Nat) : KeepsQuiet (execPresenceDebounce b) :=
  quietTimer fun _ => by simp

theorem quiet_execGreetingHoldExpiry (b : Nat) : KeepsQuiet (execGreetingHoldExpiry b) :=
  quietTimer fun _ => by simp

theorem quiet_execBreakExpiry (b : Nat) : KeepsQuiet (execBreakExpiry b) :=
  quietTimer fun _ => by simp

theorem quiet_execFallbackExpiry (b : Nat) : KeepsQuiet (execFallbackExpiry b) :=
  quietTimer fun _ => by simp

theorem quiet_execPollTimer (b : Nat) : KeepsQuiet (execPollTimer b) :=
  quietTimer fun _ => by simp

theorem quiet_execRefreshExpiry (b : Nat) : KeepsQuiet (execRefreshExpiry b) :=
  quietTimer fun _ => by simp

/-! ### The allocator, the stages and the cart monitor -/

theorem quiet_execScheduledPass : KeepsQuiet execScheduledPass :=
  quietTimer fun _ => by simp

theorem quiet_execPeriodicTimer : KeepsQuiet execPeriodicTimer :=
  quietTimer fun _ => by simp

theorem quiet_execRampTick : KeepsQuiet execRampTick :=
  keeps_timerEvent fun _ _ _ =>
    conclude_quiet_of_hub ((outer_iff _ _).1 (outer_rampTick _)).2.2.1

theorem quiet_execStageSample (b : Nat) (draw : BitVec 16) (mv : Nat) : KeepsQuiet (execStageSample b draw mv) :=
  quietTimer fun _ => by simp

theorem quiet_execTrip (b : Nat) : KeepsQuiet (execTrip b) :=
  quietTimer fun _ => by simp

theorem quiet_execCoolOffExpiry (b : Nat) : KeepsQuiet (execCoolOffExpiry b) :=
  quietTimer fun _ => by simp

theorem quiet_execTsenseSample (r : TempReading) : KeepsQuiet (execTsenseSample r) :=
  quietTimer fun _ => by simp

theorem quiet_execWsenseSample (w : BitVec 16) : KeepsQuiet (execWsenseSample w) :=
  quietTimer fun _ => by simp

/-! ### Serves, jobs and channels -/

theorem quiet_execChunkResendExpiry (b : Nat) : KeepsQuiet (execChunkResendExpiry b) :=
  quietTimer fun _ => by simp

theorem quiet_execScanTimer : KeepsQuiet execScanTimer :=
  keeps_timerEvent fun _ _ _ =>
    conclude_quiet_of_hub ((outer_iff _ _).1 (outer_askScan _)).2.2.1

theorem quiet_execSettleExpiry (b : Nat) : KeepsQuiet (execSettleExpiry b) :=
  quietJobTimer fun _ _ => by simp

theorem quiet_execEnvelopeResendExpiry (b : Nat) : KeepsQuiet (execEnvelopeResendExpiry b) :=
  quietJobTimer fun _ _ => by simp

theorem quiet_execStallExpiry (b : Nat) : KeepsQuiet (execStallExpiry b) :=
  quietJobTimer fun _ _ => by simp

theorem quiet_execTimeLimitExpiry (b : Nat) : KeepsQuiet (execTimeLimitExpiry b) :=
  quietJobTimer fun _ _ => by simp

theorem quiet_execDrainExpiry (c : Nat) : KeepsQuiet (execDrainExpiry c) :=
  quietTimer fun _ => by simp

/-! ### Latches -/

theorem quiet_execMotorPulseEnd (d : DriverId) : KeepsQuiet (execMotorPulseEnd d) :=
  quietDrive fun _ _ => by simp

theorem quiet_execPositionCheck (d : DriverId) (high : Bool) : KeepsQuiet (execPositionCheck d high) :=
  quietDrive fun _ _ => by simp

theorem quiet_execRetryWaitEnd (d : DriverId) : KeepsQuiet (execRetryWaitEnd d) :=
  quietDrive fun _ _ => by simp

theorem quiet_execDoorChange (u : Nat) (high : Bool) : KeepsQuiet (execDoorChange u high) :=
  keeps_pin (m := fun s => s.doorMeans u high) (f := fun s level => s.doorLevel u high level)
    fun _ _ hq => conclude_quiet_of_outer hq (by simp)

theorem quiet_execDoorDebounce (u : Nat) : KeepsQuiet (execDoorDebounce u) :=
  quietTimer fun _ => by simp

theorem quiet_execUnlatchWindowExpiry (u : Nat) : KeepsQuiet (execUnlatchWindowExpiry u) :=
  quietTimer fun _ => by simp

theorem quiet_execAjarLimit (u : Nat) : KeepsQuiet (execAjarLimit u) :=
  quietTimer fun _ => by simp

theorem exec_quiet {c : Instr} {s t : State} (h : exec c s = .next t) (hq : s.quiet = true) : t.quiet = true := by
  cases c with
  | powerOn => exact quiet_execPowerOn s t h hq
  | resetNLow => exact quiet_execResetNLow s t h hq
  | resetNHigh => exact quiet_execResetNHigh s t h hq
  | hubRxGapTimeout => exact quiet_execHubRxGapTimeout s t h hq
  | hubFrameCorrupt run => exact quiet_execHubFrameCorrupt run s t h hq
  | hubRxByteFault f => exact quiet_execHubRxByteFault f s t h hq
  | unknownKind kind tag p => exact quiet_execUnknownKind kind tag p s t h hq
  | hubFrameSent => exact quiet_execHubFrameSent s t h hq
  | callSent b => exact quiet_execCallSent b s t h hq
  | clash b => exact quiet_execClash b s t h hq
  | noAnswer b => exact quiet_execNoAnswer b s t h hq
  | answerIncomplete b => exact quiet_execAnswerIncomplete b s t h hq
  | answerByteFault b f => exact quiet_execAnswerByteFault b f s t h hq
  | badAnswer b kind p crc => exact quiet_execBadAnswer b kind p crc s t h hq
  | retry b => exact quiet_execRetry b s t h hq
  | wakeAttemptDue b => exact quiet_execWakeAttemptDue b s t h hq
  | wakeWindowEnd b => exact quiet_execWakeWindowEnd b s t h hq
  | quietEnd b => exact quiet_execQuietEnd b s t h hq
  | wakePulseEnd b => exact quiet_execWakePulseEnd b s t h hq
  | ability b p => exact quiet_execAbility b p s t h hq
  | confirmAnswer b p => exact quiet_execConfirmAnswer b p s t h hq
  | status b p => exact quiet_execStatus b p s t h hq
  | identityChunk b p => exact quiet_execIdentityChunk b p s t h hq
  | chunkHandshake b p => exact quiet_execChunkHandshake b p s t h hq
  | envelopeHandshake b p => exact quiet_execEnvelopeHandshake b p s t h hq
  | stopHandshake b call p => exact quiet_execStopHandshake b call p s t h hq
  | receipt b p => exact quiet_execReceipt b p s t h hq
  | presenceChange b high => exact quiet_execPresenceChange b high s t h hq
  | presenceDebounce b => exact quiet_execPresenceDebounce b s t h hq
  | greetingHoldExpiry b => exact quiet_execGreetingHoldExpiry b s t h hq
  | breakExpiry b => exact quiet_execBreakExpiry b s t h hq
  | fallbackExpiry b => exact quiet_execFallbackExpiry b s t h hq
  | pollTimer b => exact quiet_execPollTimer b s t h hq
  | refreshExpiry b => exact quiet_execRefreshExpiry b s t h hq
  | scheduledPass => exact quiet_execScheduledPass s t h hq
  | periodicTimer => exact quiet_execPeriodicTimer s t h hq
  | rampTick => exact quiet_execRampTick s t h hq
  | stageSample b draw mv => exact quiet_execStageSample b draw mv s t h hq
  | trip b => exact quiet_execTrip b s t h hq
  | coolOffExpiry b => exact quiet_execCoolOffExpiry b s t h hq
  | tsenseSample r => exact quiet_execTsenseSample r s t h hq
  | wsenseSample w => exact quiet_execWsenseSample w s t h hq
  | chunkResendExpiry b => exact quiet_execChunkResendExpiry b s t h hq
  | scanTimer => exact quiet_execScanTimer s t h hq
  | settleExpiry b => exact quiet_execSettleExpiry b s t h hq
  | envelopeResendExpiry b => exact quiet_execEnvelopeResendExpiry b s t h hq
  | stallExpiry b => exact quiet_execStallExpiry b s t h hq
  | timeLimitExpiry b => exact quiet_execTimeLimitExpiry b s t h hq
  | drainExpiry c => exact quiet_execDrainExpiry c s t h hq
  | motorPulseEnd d => exact quiet_execMotorPulseEnd d s t h hq
  | positionCheck d high => exact quiet_execPositionCheck d high s t h hq
  | retryWaitEnd d => exact quiet_execRetryWaitEnd d s t h hq
  | doorChange u high => exact quiet_execDoorChange u high s t h hq
  | doorDebounce u => exact quiet_execDoorDebounce u s t h hq
  | unlatchWindowExpiry u => exact quiet_execUnlatchWindowExpiry u s t h hq
  | ajarLimit u => exact quiet_execAjarLimit u s t h hq
  | _ => exact (request_quiet h).2 hq

/-- Settles O4: the end of every event settles the part and starts the hub link's next frame. -/
theorem quietIsKept : Obligations.QuietIsKept := by
  intro s t hq h
  unfold step at h
  split at h
  · cases h; exact quiet_tick _ hq
  · exact exec_quiet h hq

end Sys2Proof.Dock
end

