-- ==== Sys2Proof/Proofs/Jobs.lean ====
section
/-! PROOF. The scheduler's jobs stay apart (R111 to R113, R117): what leaves, joins and changes in its two lists. -/

namespace Sys2Proof.Dock

open Machine Laws

/-! ## The two lists -/

/-- A queued job waits without a channel; an active one has one. -/
def Waits (j : Job) : Prop := (j.state = .queued ∨ j.state = .waking) ∧ j.channel = none

def Holds (j : Job) : Prop := (j.state = .offered ∨ j.state = .running ∨ j.state = .receipt) ∧ j.channel.isSome = true

/-- What `jobsSound` says of the queue and of the active jobs. -/
structure ListsSound (q a : List Job) : Prop where
  waits : ∀ j ∈ q, Waits j
  holds : ∀ j ∈ a, Holds j
  few : (a ++ q).length ≤ 48
  bays : ((a ++ q).map (·.bay)).Nodup
  tags : ((a ++ q).map (·.tag)).Nodup

theorem jobsSound_iff (s : State) : s.jobsSound ↔
    ListsSound s.sched.queue s.sched.active ∧ 1 ≤ s.sched.nextTag ∧ s.sched.nextTag ≤ 65535 :=
  ⟨fun ⟨q, a, n, b, t, h⟩ => ⟨⟨q, a, n, b, t⟩, h⟩, fun ⟨⟨q, a, n, b, t⟩, h⟩ => ⟨q, a, n, b, t, h⟩⟩

/-- A job that leaves OFFERED, RUNNING or RECEIPT is none that waits. -/
theorem onChannel_of_holds {j : Job} (h : Holds j) : j.state.onChannel = true := by
  obtain ⟨h | h | h, _⟩ := h <;> rw [h] <;> rfl

theorem onChannel_of_waits {j : Job} (h : Waits j) : j.state.onChannel = false := by
  obtain ⟨h | h, _⟩ := h <;> rw [h] <;> rfl

/-- Within lists that are sound a tag, or a bay, names one job. -/
theorem ListsSound.tag_unique {q a : List Job} (h : ListsSound q a) {i j : Job} (hi : i ∈ a ++ q) (hj : j ∈ a ++ q)
    (he : i.tag = j.tag) : i = j := List.inj_on_of_nodup_map h.tags hi hj he

theorem ListsSound.bay_unique {q a : List Job} (h : ListsSound q a) {i j : Job} (hi : i ∈ a ++ q) (hj : j ∈ a ++ q)
    (he : i.bay = j.bay) : i = j := List.inj_on_of_nodup_map h.bays hi hj he

/-- The lists without the jobs of a tag. -/
theorem ListsSound.drop {q a : List Job} (h : ListsSound q a) (t : Nat) :
    ListsSound (q.filter (·.tag != t)) (a.filter (·.tag != t)) := by
  have hs : List.Sublist (a.filter (·.tag != t) ++ q.filter (·.tag != t)) (a ++ q) :=
    List.Sublist.append List.filter_sublist List.filter_sublist
  exact {
    waits := fun j hj => h.waits j (List.mem_of_mem_filter hj)
    holds := fun j hj => h.holds j (List.mem_of_mem_filter hj)
    few := hs.length_le.trans h.few
    bays := h.bays.sublist (hs.map _)
    tags := h.tags.sublist (hs.map _) }

/-- Without the jobs of `j`'s tag there is room for `j`, and no other job has its tag or its bay. -/
theorem ListsSound.room {q a : List Job} (h : ListsSound q a) {j : Job} (hj : ∃ i ∈ a ++ q, i.tag = j.tag ∧ i.bay = j.bay) :
    (a.filter (·.tag != j.tag) ++ q.filter (·.tag != j.tag)).length < 48
      ∧ (∀ i ∈ a.filter (·.tag != j.tag) ++ q.filter (·.tag != j.tag), i.tag ≠ j.tag ∧ i.bay ≠ j.bay) := by
  obtain ⟨k, hk, ht, hb⟩ := hj
  rw [← List.filter_append]
  constructor
  · refine lt_of_lt_of_le (List.length_filter_lt_length_iff_exists.2 ⟨k, hk, ?_⟩) h.few
    simp [ht]
  · intro i hi
    obtain ⟨hm, hne⟩ := List.mem_filter.1 hi
    have hne : i.tag ≠ j.tag := by simpa using hne
    exact ⟨hne, fun he => hne (by rw [h.bay_unique hm hk (he.trans hb.symm), ht])⟩

/-- A job of another tag and another bay joins the queue. -/
theorem ListsSound.queue {q a q' : List Job} (h : ListsSound q a) {j : Job} (hp : List.Perm q' (j :: q)) (hw : Waits j)
    (hn : (a ++ q).length < 48) (hf : ∀ i ∈ a ++ q, i.tag ≠ j.tag ∧ i.bay ≠ j.bay) : ListsSound q' a := by
  have hpa : List.Perm (a ++ q') (j :: (a ++ q)) := (hp.append_left a).trans List.perm_middle
  exact {
    waits := fun i hi => by
      rcases List.mem_cons.1 (hp.mem_iff.1 hi) with rfl | hi
      · exact hw
      · exact h.waits i hi
    holds := h.holds
    few := by rw [hpa.length_eq]; simpa using hn
    bays := (hpa.map _).nodup_iff.2 (List.nodup_cons.2
      ⟨fun hm => by obtain ⟨i, hi, he⟩ := List.mem_map.1 hm; exact (hf i hi).2 he, h.bays⟩)
    tags := (hpa.map _).nodup_iff.2 (List.nodup_cons.2
      ⟨fun hm => by obtain ⟨i, hi, he⟩ := List.mem_map.1 hm; exact (hf i hi).1 he, h.tags⟩) }

/-- A job of another tag and another bay takes a channel. -/
theorem ListsSound.activate {q a : List Job} (h : ListsSound q a) {j : Job} (hw : Holds j)
    (hn : (a ++ q).length < 48) (hf : ∀ i ∈ a ++ q, i.tag ≠ j.tag ∧ i.bay ≠ j.bay) : ListsSound q (a ++ [j]) := by
  have hpa : List.Perm (a ++ [j] ++ q) (j :: (a ++ q)) := by
    rw [List.append_assoc]
    exact List.perm_middle
  exact {
    waits := h.waits
    holds := fun i hi => by
      rcases List.mem_append.1 hi with hi | hi
      · exact h.holds i hi
      · rw [List.mem_singleton.1 hi]; exact hw
    few := by rw [hpa.length_eq]; simpa using hn
    bays := (hpa.map _).nodup_iff.2 (List.nodup_cons.2
      ⟨fun hm => by obtain ⟨i, hi, he⟩ := List.mem_map.1 hm; exact (hf i hi).2 he, h.bays⟩)
    tags := (hpa.map _).nodup_iff.2 (List.nodup_cons.2
      ⟨fun hm => by obtain ⟨i, hi, he⟩ := List.mem_map.1 hm; exact (hf i hi).1 he, h.tags⟩) }

/-- A change of the jobs of a tag that keeps tags and bays, and each job's side. -/
theorem ListsSound.change {q a : List Job} (h : ListsSound q a) (t : Nat) (f : Job → Job)
    (hk : ∀ j, (f j).tag = j.tag ∧ (f j).bay = j.bay) (hq : ∀ j ∈ q, j.tag = t → Waits (f j))
    (ha : ∀ j ∈ a, j.tag = t → Holds (f j)) :
    ListsSound (q.map fun j => if j.tag = t then f j else j) (a.map fun j => if j.tag = t then f j else j) := by
  have hkey : ∀ j, (if j.tag = t then f j else j).tag = j.tag ∧ (if j.tag = t then f j else j).bay = j.bay := fun j => by
    split
    exacts [hk j, ⟨rfl, rfl⟩]
  exact {
    waits := fun i hi => by
      obtain ⟨j, hj, rfl⟩ := List.mem_map.1 hi
      split
      exacts [hq j hj ‹_›, h.waits j hj]
    holds := fun i hi => by
      obtain ⟨j, hj, rfl⟩ := List.mem_map.1 hi
      split
      exacts [ha j hj ‹_›, h.holds j hj]
    few := by simpa using h.few
    bays := by
      rw [← List.map_append, List.map_map]
      exact (List.map_congr_left fun j _ => (hkey j).2) ▸ h.bays
    tags := by
      rw [← List.map_append, List.map_map]
      exact (List.map_congr_left fun j _ => (hkey j).1) ▸ h.tags }

theorem insertBack_perm (j : Job) : ∀ q, List.Perm (insertBack j q) (j :: q)
  | [] => List.Perm.refl _
  | x :: xs => by
    unfold insertBack
    split
    · exact ((insertBack_perm j xs).cons x).trans (List.Perm.swap ..)
    · exact List.Perm.refl _

theorem insertFront_perm (l : List Nat) (j : Job) : ∀ q, List.Perm (insertFront l j q) (j :: q)
  | [] => List.Perm.refl _
  | x :: xs => by
    unfold insertFront
    split
    · exact ((insertFront_perm l j xs).cons x).trans (List.Perm.swap ..)
    · exact List.Perm.refl _

/-! ## Tags (R113) -/

theorem tagAfter_range {t : Nat} (h : 1 ≤ t) : 1 ≤ tagAfter t ∧ tagAfter t ≤ 65535 := by
  unfold tagAfter
  split <;> omega

/-- The tag `k` places after `t` on the counter's way round. -/
def tagsOn (t k : Nat) : Nat := (t - 1 + k) % 65535 + 1

theorem tagsOn_tagAfter {t : Nat} (h1 : 1 ≤ t) (h2 : t ≤ 65535) (k : Nat) : tagsOn (tagAfter t) k = tagsOn t (k + 1) := by
  unfold tagsOn tagAfter
  split <;> omega

theorem tagsOn_zero {t : Nat} (h1 : 1 ≤ t) (h2 : t ≤ 65535) : tagsOn t 0 = t := by
  unfold tagsOn
  omega

/-- The picked tag is in the counter's range, and free unless every tag tried was used. -/
theorem pickTag_spec (used : List Nat) : ∀ (k t : Nat), 1 ≤ t → t ≤ 65535 →
    (1 ≤ pickTag used k t ∧ pickTag used k t ≤ 65535) ∧ (pickTag used k t ∉ used ∨ ∀ i < k, tagsOn t i ∈ used)
  | 0, t, h1, h2 => ⟨⟨h1, h2⟩, .inr fun i hi => absurd hi (by omega)⟩
  | k + 1, t, h1, h2 => by
    unfold pickTag
    split
    · rename_i hu
      obtain ⟨hr, hf⟩ := pickTag_spec used k (tagAfter t) (tagAfter_range h1).1 (tagAfter_range h1).2
      refine ⟨hr, hf.imp_right fun h i hi => ?_⟩
      cases i with
      | zero => rwa [tagsOn_zero h1 h2]
      | succ i => rw [← tagsOn_tagAfter h1 h2]; exact h i (by omega)
    · exact ⟨⟨h1, h2⟩, .inl ‹_›⟩

/-- At most 48 used tags leave one of 49 free (R113). -/
theorem pickTag_free {used : List Nat} (hn : used.length ≤ 48) {t : Nat} (h1 : 1 ≤ t) (h2 : t ≤ 65535) :
    pickTag used 49 t ∉ used := by
  rcases (pickTag_spec used 49 t h1 h2).2 with h | h
  · exact h
  · have hnd : ((List.range 49).map (tagsOn t)).Nodup := by
      refine List.Nodup.map_on (fun i hi j hj he => ?_) List.nodup_range
      simp only [List.mem_range] at hi hj
      unfold tagsOn at he
      omega
    have := (hnd.subperm fun x hx => by
      obtain ⟨i, hi, rfl⟩ := List.mem_map.1 hx
      exact h i (List.mem_range.1 hi)).length_le
    simp at this
    omega

end Sys2Proof.Dock
end

