-- ==== Sys2Proof/Proofs/Sound.lean ====
section
/-! PROOF. The invariants of O35, carried through an event together: the bays and their sessions, the jobs, the size of the cart and
the slots. An operation on bay `b` needs to know that `b` has a session, so each bay bears a mark while an event runs. -/

namespace Sys2Proof.Dock

open Machine Laws

/-! ## Bays -/

/-- What an event knows of a bay: nothing but the invariant; that it has a session; or that its session is about to start or to end,
so that until then the invariant need not hold of it. -/
inductive Mark where
  | any | live | starting | ending
deriving DecidableEq

/-- What the invariant says of one bay (R18, R38, R39). -/
def BaySound (r : Bay) : Prop :=
  (r.enabled = true → r.present = true → r.sess.state ≠ .off ∧ r.lane.up = true)
    ∧ (r.enabled = false ∨ r.present = false → OffBay r)

/-- An enabled bay that is PRESENT, with a session on an UP lane. -/
def BayLive (r : Bay) : Prop := r.enabled = true ∧ r.present = true ∧ r.sess.state ≠ .off ∧ r.lane.up = true

def Mark.holds (r : Bay) : Mark → Prop
  | .any => BaySound r
  | .live => BayLive r
  | .starting => r.enabled = true ∧ r.present = true
  | .ending => r.enabled = false ∨ r.present = false

theorem BayLive.sound {r : Bay} (h : BayLive r) : BaySound r := by
  obtain ⟨he, hp, hs, hu⟩ := h
  exact ⟨fun _ _ => ⟨hs, hu⟩, fun hn => by simp [he, hp] at hn⟩

theorem BaySound.live {r : Bay} (h : BaySound r) (hs : r.sess.state ≠ .off ∨ r.lane.up = true) : BayLive r := by
  have hon : ¬ (r.enabled = false ∨ r.present = false) := fun hn => by
    have ho := h.2 hn
    rcases hs with hs | hu
    · exact hs (by rw [ho.sess]; rfl)
    · rw [ho.up] at hu; cases hu
  have he : r.enabled = true := by simpa using fun h => hon (.inl h)
  have hp : r.present = true := by simpa using fun h => hon (.inr h)
  exact ⟨he, hp, h.1 he hp⟩

/-- A lane DOWN with nothing in flight or pending (R18). -/
structure LaneOff (l : Lane) : Prop where
  up : l.up = false
  act : l.act = .idle
  flight : l.flight = none
  slots : l.greeting = none ∧ l.stop = none ∧ l.job = none ∧ l.pollDue = false ∧ l.ident = none ∧ l.serve = none
  wake : l.wakeAsked = false ∧ l.wakeAt = none
  autoDefer : l.autoDefer = false

/-- A session that is OFF, of which the forced level alone stands. -/
def SessOff (x : Session) : Prop := x = { Session.off with forced := x.forced }

theorem offBay_iff (r : Bay) : OffBay r ↔ SessOff r.sess ∧ LaneOff r.lane :=
  ⟨fun ⟨s, u, a, f, l, w, d⟩ => ⟨s, u, a, f, l, w, d⟩, fun ⟨s, u, a, f, l, w, d⟩ => ⟨s, u, a, f, l, w, d⟩⟩

theorem SessOff.state {x : Session} (h : SessOff x) : x.state = .off := by rw [h]; rfl

theorem SessOff.ask {x : Session} (h : SessOff x) : x.ask = none := by rw [h]; rfl

theorem SessOff.identity {x : Session} (h : SessOff x) : x.identity = none := by rw [h]; rfl

/-! ## The invariant inside an event -/

/-- Which of O35's invariants are carried. -/
structure Wanted where
  bays : Prop
  jobs : Prop
  size : Prop
  slots : Prop

/-- The wanted invariants, bay by bay as far as the marks say. -/
structure Sound (w : Wanted) (m : Nat → Mark) (s : State) : Prop where
  nums : w.bays → s.bays.map (·.num) = (List.range s.nBays).map (· + 1)
  marks : w.bays → ∀ r ∈ s.bays, (m r.num).holds r
  jobs : w.jobs → s.jobsSound
  size : w.size → s.nBays ≤ 36
  slots : w.slots → s.store.map (·.num) = [1, 2, 3, 4, 5, 6, 7, 8]

/-- No bay is known to have a session. -/
def unmarked : Nat → Mark := fun _ => .any

/-- The marks with bay `b`'s changed. -/
def remark (m : Nat → Mark) (b : Nat) (k : Mark) : Nat → Mark := fun c => if c = b then k else m c

@[simp] theorem remark_self (m : Nat → Mark) (b : Nat) (k : Mark) : remark m b k b = k := if_pos rfl

theorem remark_ne {m : Nat → Mark} {b c : Nat} (h : c ≠ b) (k : Mark) : remark m b k c = m c := if_neg h

variable {w : Wanted} {m : Nat → Mark} {s t : State}

theorem Sound.ite {p : Prop} [Decidable p] (hs : p → Sound w m s) (ht : ¬ p → Sound w m t) :
    Sound w m (if p then s else t) := by
  split
  exacts [hs ‹_›, ht ‹_›]

/-- Bay numbers stand once. -/
theorem nodup_of_nums (h : s.bays.map (·.num) = (List.range s.nBays).map (· + 1)) : (s.bays.map (·.num)).Nodup := by
  rw [h]
  exact List.nodup_range.map fun _ _ h => by simpa using h

/-- Where no bay number stands twice, a record of the list is the one its number finds. -/
theorem bay_of_mem (hn : (s.bays.map (·.num)).Nodup) {r : Bay} (hr : r ∈ s.bays) : s.bay r.num = r := by
  unfold State.bay State.bay?
  revert hn hr
  induction s.bays with
  | nil => exact fun _ hr => absurd hr (by simp)
  | cons x l ih =>
    intro hn hr
    obtain ⟨hx, hl⟩ := List.nodup_cons.1 hn
    rcases List.mem_cons.1 hr with rfl | hr
    · simp
    · have : x.num ≠ r.num := fun h => hx (List.mem_map.2 ⟨r, hr, h.symm⟩)
      simpa [this] using ih hl hr

/-! ## Marks -/

/-- Every record of bay `b` has `P`. -/
def AtBay (s : State) (b : Nat) (P : Bay → Prop) : Prop := ∀ r ∈ s.bays, r.num = b → P r

theorem atBay_of_bay (hn : s.bays.map (·.num) = (List.range s.nBays).map (· + 1)) {b : Nat} {P : Bay → Prop} (h : P (s.bay b)) :
    AtBay s b P := fun r hr hb => by
  rw [← bay_of_mem (nodup_of_nums hn) hr, hb]
  exact h

/-- A bay takes the mark that its record deserves. -/
theorem Sound.become (h : Sound w m s) {b : Nat} {k : Mark} (hk : w.bays → AtBay s b k.holds) : Sound w (remark m b k) s where
  nums := h.nums
  jobs := h.jobs
  size := h.size
  slots := h.slots
  marks hw r hr := by
    unfold remark
    split
    · exact hk hw r hr ‹_›
    · exact h.marks hw r hr

/-- A bay whose session is not OFF, or whose lane is UP, has a session. -/
theorem Sound.enliven (h : Sound w m s) {b : Nat} (hb : (s.bay b).sess.state ≠ .off ∨ (s.bay b).lane.up = true)
    (hm : m b = .any) : Sound w (remark m b .live) s :=
  h.become fun hw r hr he => by
    have hs := h.marks hw r hr
    rw [he, hm] at hs
    rw [← he, bay_of_mem (nodup_of_nums (h.nums hw)) hr] at hb
    exact BaySound.live hs hb

/-- A bay that is marked again as it was. -/
theorem remark_remark (m : Nat → Mark) (b : Nat) (k : Mark) : remark (remark m b k) b (m b) = m := by
  funext c
  unfold remark
  split
  · rw [‹c = b›]
  · rfl

/-- A bay with a session is sound. -/
theorem Sound.forget {b : Nat} (h : Sound w (remark m b .live) s) (hm : m b = .any) : Sound w m s := by
  rw [← remark_remark m b .live, hm]
  exact h.become fun hw r hr he => by
    have := h.marks hw r hr
    rw [he, remark_self] at this
    exact BayLive.sound this

/-- An operation on bay `b` that a mark of `b` allows may run where `b`'s session is not OFF or its lane is UP. -/
theorem Sound.on (h : Sound w m s) {b : Nat} (hb : (s.bay b).sess.state ≠ .off ∨ (s.bay b).lane.up = true)
    (f : ∀ n : Nat → Mark, n b ≠ .any → Sound w n s → Sound w n t) : Sound w m t := by
  by_cases hm : m b = .any
  · exact (f _ (by simp) (h.enliven hb hm)).forget hm
  · exact f m hm h

/-! ## What leaves the invariants alone -/

/-- What the invariants read of a bay. -/
def Bay.key (r : Bay) : Nat × Bool × Bool × Session × Lane := (r.num, r.enabled, r.present, r.sess, r.lane)

/-- What the invariants read of the state. -/
def view (s : State) :
    Nat × List (Nat × Bool × Bool × Session × Lane) × List Job × List Job × Nat × List Nat :=
  (s.nBays, s.bays.map Bay.key, s.sched.queue, s.sched.active, s.sched.nextTag, s.store.map (·.num))

theorem holds_of_key {r r' : Bay} (h : Bay.key r' = Bay.key r) (k : Mark) (hk : k.holds r) : k.holds r' := by
  simp only [Bay.key, Prod.mk.injEq] at h
  obtain ⟨_, he, hp, hs, hl⟩ := h
  cases k with
  | any =>
    unfold Mark.holds BaySound at *
    rw [offBay_iff] at *
    rwa [he, hp, hs, hl]
  | live =>
    unfold Mark.holds BayLive at *
    rwa [he, hp, hs, hl]
  | starting => unfold Mark.holds at *; rwa [he, hp]
  | ending => unfold Mark.holds at *; rwa [he, hp]

theorem Sound.of_view (h : Sound w m s) (hv : view t = view s) : Sound w m t := by
  simp only [view, Prod.mk.injEq] at hv
  obtain ⟨hn, hb, hq, ha, ht, hk⟩ := hv
  have hnums : t.bays.map (·.num) = s.bays.map (·.num) := by
    simpa [Bay.key, Function.comp_def] using congrArg (List.map Prod.fst) hb
  exact {
    nums := fun hw => by rw [hnums, hn]; exact h.nums hw
    marks := fun hw r hr => by
      obtain ⟨r₀, hr₀, he⟩ := List.mem_map.1 (hb ▸ List.mem_map_of_mem (f := Bay.key) hr)
      have := holds_of_key he.symm _ (h.marks hw r₀ hr₀)
      rwa [show r₀.num = r.num from congrArg Prod.fst he] at this
    jobs := fun hw => by
      rw [jobsSound_iff, hq, ha, ht]
      exact (jobsSound_iff s).1 (h.jobs hw)
    size := fun hw => by rw [hn]; exact h.size hw
    slots := fun hw => by rw [hk]; exact h.slots hw }

/-! ## Updates of a bay -/

theorem updBay_nums (s : State) (b : Nat) (f : Bay → Bay) (hn : ∀ r, (f r).num = r.num) :
    (s.updBay b f).bays.map (·.num) = s.bays.map (·.num) := by
  unfold State.updBay
  rw [List.map_map]
  refine List.map_congr_left fun r _ => ?_
  simp only [Function.comp]
  split
  exacts [hn r, rfl]

/-- An update of bay `b` that keeps its mark. -/
theorem Sound.updBay (h : Sound w m s) {b : Nat} {f : Bay → Bay} (hn : ∀ r, (f r).num = r.num)
    (hf : w.bays → ∀ r ∈ s.bays, r.num = b → (m b).holds r → (m b).holds (f r)) : Sound w m (s.updBay b f) where
  nums hw := by
    rw [show (s.updBay b f).nBays = s.nBays from rfl, ← h.nums hw, updBay_nums s b f hn]
  marks hw r hr := by
    obtain ⟨q, hq, rfl⟩ := List.mem_map.1 hr
    have := h.marks hw q hq
    split
    · rename_i hb
      rw [hn, hb]
      rw [hb] at this
      exact hf hw q hq hb this
    · exact this
  jobs := h.jobs
  size := h.size
  slots := h.slots

/-- An update of bay `b` after which it deserves another mark. -/
theorem Sound.updBayTo (h : Sound w m s) {b : Nat} {f : Bay → Bay} {k : Mark} (hn : ∀ r, (f r).num = r.num)
    (hf : w.bays → AtBay s b fun r => k.holds (f r)) : Sound w (remark m b k) (s.updBay b f) where
  nums hw := by
    rw [show (s.updBay b f).nBays = s.nBays from rfl, ← h.nums hw, updBay_nums s b f hn]
  marks hw r hr := by
    obtain ⟨q, hq, rfl⟩ := List.mem_map.1 hr
    have := h.marks hw q hq
    by_cases hb : q.num = b
    · rw [if_pos hb, hn, hb, remark_self]
      exact hf hw q hq hb
    · rw [if_neg hb, remark_ne hb]
      exact this
  jobs := h.jobs
  size := h.size
  slots := h.slots

/-- A change of bay `b`'s session: one that goes on goes on, and, where `b` may have none, OFF stays OFF. -/
theorem Sound.updSess (h : Sound w m s) {b : Nat} {f : Session → Session}
    (hl : ∀ x, x.state ≠ .off → (f x).state ≠ .off) (ho : m b ≠ .any ∨ ∀ x, SessOff x → SessOff (f x)) :
    Sound w m (s.updSess b f) := by
  refine h.updBay (fun _ => rfl) fun _ r _ _ hr => ?_
  revert hr ho
  generalize m b = k
  cases k with
  | any =>
    rintro (h | ho) ⟨hlive, hoff⟩
    · exact absurd rfl h
    · exact ⟨fun he hp => ⟨hl _ (hlive he hp).1, (hlive he hp).2⟩, fun hn => by
        have := (offBay_iff _).1 (hoff hn)
        exact (offBay_iff _).2 ⟨ho _ this.1, this.2⟩⟩
  | live => rintro _ ⟨he, hp, hs, hu⟩; exact ⟨he, hp, hl _ hs, hu⟩
  | starting => exact fun _ hr => hr
  | ending => exact fun _ hr => hr

/-- A change of bay `b`'s lane that keeps its power, and, where `b` may have no session, keeps a lane off. -/
theorem Sound.updLane (h : Sound w m s) {b : Nat} {f : Lane → Lane} (hu : ∀ l, (f l).up = l.up)
    (ho : m b ≠ .any ∨ ∀ l, LaneOff l → LaneOff (f l)) : Sound w m (s.updLane b f) := by
  refine h.updBay (fun _ => rfl) fun _ r _ _ hr => ?_
  revert hr ho
  generalize m b = k
  cases k with
  | any =>
    rintro (h | ho) ⟨hlive, hoff⟩
    · exact absurd rfl h
    · exact ⟨fun he hp => ⟨(hlive he hp).1, (hu _).trans (hlive he hp).2⟩, fun hn => by
        have := (offBay_iff _).1 (hoff hn)
        exact (offBay_iff _).2 ⟨this.1, ho _ this.2⟩⟩
  | live => rintro _ ⟨he, hp, hs, h⟩; exact ⟨he, hp, hs, (hu _).trans h⟩
  | starting => exact fun _ hr => hr
  | ending => exact fun _ hr => hr

/-- A change of the session of a marked bay. -/
theorem Sound.updSessLive (h : Sound w m s) {b : Nat} (hb : m b ≠ .any) {f : Session → Session}
    (hl : ∀ x, x.state ≠ .off → (f x).state ≠ .off := by simp) : Sound w m (s.updSess b f) := h.updSess hl (.inl hb)

/-- A change of the lane of a marked bay. -/
theorem Sound.updLaneLive (h : Sound w m s) {b : Nat} (hb : m b ≠ .any) {f : Lane → Lane}
    (hu : ∀ l, (f l).up = l.up := by intro; rfl) : Sound w m (s.updLane b f) := h.updLane hu (.inl hb)

/-- A post is discarded on a bay without a session (R28). -/
theorem Sound.postLane (h : Sound w m s) (b : Nat) {f : Lane → Lane} (hu : ∀ l, (f l).up = l.up) : Sound w m (s.postLane b f) := by
  unfold State.postLane
  split
  · exact h
  · rename_i hd
    refine h.on (b := b) (.inl fun he => hd (by rw [he]; rfl)) fun n hb hn => hn.updLane hu (.inl hb)

end Sys2Proof.Dock
end

