-- ==== Sys2Proof/Proofs/View.lean ====
section
/-! PROOF. The operations that neither a session, a lane, a job nor a slot's number has a part in: one law for each. -/

namespace Sys2Proof.Dock

open Machine Laws

section
variable (s : State)

/-! ## Updates -/

theorem view_updBay (b : Nat) (f : Bay → Bay) (hf : ∀ r, Bay.key (f r) = Bay.key r) : view (s.updBay b f) = view s := by
  have : (s.updBay b f).bays.map Bay.key = s.bays.map Bay.key := by
    unfold State.updBay
    rw [List.map_map]
    refine List.map_congr_left fun r _ => ?_
    simp only [Function.comp]
    split
    exacts [hf r, rfl]
  unfold view
  rw [this]
  rfl

theorem view_mapBays (f : Bay → Bay) (hf : ∀ r, Bay.key (f r) = Bay.key r) : view { s with bays := s.bays.map f } = view s := by
  unfold view
  simp [Function.comp_def, hf, State.nBays]

theorem view_updSlot (k : Nat) (f : Slot → Slot) (hf : ∀ r, r.num = k → (f r).num = r.num) : view (s.updSlot k f) = view s := by
  unfold view
  rw [updSlot_nums s k f hf]
  rfl

@[simp] theorem view_forEach (f : State → Nat → State) (hf : ∀ s b, view (f s b) = view s) (l : List Nat) :
    view (s.forEach l f) = view s :=
  forEach_keeps (P := fun v => view v = view s) f (fun v b h => (hf v b).trans h) l s rfl

@[simp] theorem view_work (w : Work) : view { s with work := w } = view s := rfl
@[simp] theorem view_alloc (a : Alloc) : view { s with alloc := a } = view s := rfl
@[simp] theorem view_startQueue (q : List Nat) : view { s with startQueue := q } = view s := rfl
@[simp] theorem view_latch (l : Latch) : view { s with latch := l } = view s := rfl
@[simp] theorem view_custody (c : CustodyCart) : view { s with custody := c } = view s := rfl
@[simp] theorem view_monitor (mo : Monitor) : view { s with monitor := mo } = view s := rfl
@[simp] theorem view_pins (p : Inputs) : view { s with pins := p } = view s := rfl
@[simp] theorem view_hub (h : Hub) : view { s with hub := h } = view s := rfl
@[simp] theorem view_now (n : Nat) : view { s with now := n } = view s := rfl
@[simp] theorem view_pending (p : List Instr) : view { s with pending := p } = view s := rfl
@[simp] theorem view_mode (mo : Mode) : view { s with mode := mo } = view s := rfl
@[simp] theorem view_rampAt (r : Option Nat) : view { s with rampAt := r } = view s := rfl
@[simp] theorem view_roster (r : List Credential) : view { s with roster := r } = view s := rfl
@[simp] theorem view_cartEvents (e : BitVec 3) : view { s with cartEvents := e } = view s := rfl
@[simp] theorem view_reach (d : Nat) : view (s.reach d) = view s := rfl
@[simp] theorem view_updUnit (u : Nat) (f : LatchUnit → LatchUnit) : view (s.updUnit u f) = view s := rfl
@[simp] theorem view_updChan (c : Nat) (f : Channel → Channel) : view (s.updChan c f) = view s := rfl
@[simp] theorem view_updGroup (c : Nat) (f : Group → Group) : view (s.updGroup c f) = view s := rfl
@[simp] theorem view_updEntry (u : Nat) (f : UnitEntry → UnitEntry) : view (s.updEntry u f) = view s := rfl
@[simp] theorem view_dropMove (u : Nat) : view (s.dropMove u) = view s := rfl
@[simp] theorem view_stopDrive (u : Nat) : view (s.stopDrive u) = view s := rfl
@[simp] theorem view_updStage (b : Nat) (f : Stage → Stage) : view (s.updStage b f) = view s :=
  view_updBay s b _ fun _ => rfl
@[simp] theorem view_updPower (b : Nat) (f : Power → Power) : view (s.updPower b f) = view s :=
  view_updBay s b _ fun _ => rfl
@[simp] theorem view_updCust (b : Nat) (f : Cust → Cust) : view (s.updCust b f) = view s :=
  view_updBay s b _ fun _ => rfl
@[simp] theorem view_post (b : Nat) (e : BayEvent) : view (s.post b e) = view s :=
  view_updBay s b _ fun _ => rfl

end

/-! ## Operations -/

section
variable (s : State)

@[simp] theorem view_postCart (e : CartEvent) :
    view (s.postCart e) = view s := by
  unfold State.postCart
  split <;> simp

@[simp] theorem view_askNormal :
    view (s.askNormal) = view s := by
  unfold State.askNormal
  split <;> simp

@[simp] theorem view_askUrgent :
    view (s.askUrgent) = view s := by
  unfold State.askUrgent
  split <;> simp

@[simp] theorem view_askScan :
    view (s.askScan) = view s := by
  unfold State.askScan
  split <;> simp

@[simp] theorem view_releaseChannel (c : Option Nat) :
    view (s.releaseChannel c) = view s := by
  unfold State.releaseChannel
  split <;> simp

@[simp] theorem view_handTarget (b target : Nat) :
    view (s.handTarget b target) = view s := by
  have h : view (s.updBay b fun r =>
      { r with power := { r.power with target := target }, stage := r.stage.takeTarget target }) = view s :=
    view_updBay s b _ fun _ => rfl
  unfold State.handTarget
  dsimp only
  split
  · exact h
  · split <;> exact h

@[simp] theorem view_clearCap (b : Nat) :
    view (s.clearCap b) = view s := by
  unfold State.clearCap
  split <;> simp

@[simp] theorem view_contractChanged (b : Nat) :
    view (s.contractChanged b) = view s := by
  simp [State.contractChanged]

@[simp] theorem view_rampTick :
    view (s.rampTick) = view s := by
  unfold State.rampTick
  dsimp only
  exact (view_forEach _ _ (by simp) _).trans (view_mapBays s _ fun _ => rfl)

@[simp] theorem view_stageSample (b draw mv : Nat) :
    view (s.stageSample b draw mv) = view s := by
  unfold State.stageSample
  dsimp only
  split
  · split <;> split <;> simp
  · simp

@[simp] theorem view_tripStage (b : Nat) :
    view (s.tripStage b) = view s := by
  unfold State.tripStage
  dsimp only
  simp only [view_askUrgent, view_post]
  exact view_updBay s b _ fun _ => rfl

@[simp] theorem view_passFor (n k : Nat) :
    view (s.passFor n k) = view s := by
  unfold State.passFor
  split
  · simp
  · split <;> simp

@[simp] theorem view_sessionMoved (b : Nat) (x : Session) (q : Bool) :
    view (s.sessionMoved b x q) = view s := by
  unfold State.sessionMoved
  dsimp only
  split <;> split <;> simp

@[simp] theorem view_addAlarm (b : Nat) (a : Alarm) :
    view (s.addAlarm b a) = view s := by
  unfold State.addAlarm
  split <;> simp

@[simp] theorem view_removeAlarm (b : Nat) (a : Alarm) :
    view (s.removeAlarm b a) = view s := by
  simp [State.removeAlarm]

@[simp] theorem view_alarmUnit (u : Nat) (a : Alarm) :
    view (s.alarmUnit u a) = view s := by
  simp [State.alarmUnit]

@[simp] theorem view_quietUnit (u : Nat) (a : Alarm) :
    view (s.quietUnit u a) = view s := by
  simp [State.quietUnit]

@[simp] theorem view_handBack (u : Nat) :
    view (s.handBack u) = view s := by
  simp [State.handBack]

@[simp] theorem view_endGroup (c : Nat) :
    view (s.endGroup c) = view s := by
  unfold State.endGroup
  split
  · rfl
  · split
    · exact view_forEach _ _ (by simp) _
    · rfl

@[simp] theorem view_endGroupOfUnit (u : Nat) :
    view (s.endGroupOfUnit u) = view s := by
  unfold State.endGroupOfUnit
  split <;> simp

@[simp] theorem view_closeCheckout (c : Nat) (n : Note) :
    view (s.closeCheckout c n) = view s := by
  simp [State.closeCheckout]

@[simp] theorem view_returnElsewhere (c b : Nat) (serial : Bytes) :
    view (s.returnElsewhere c b serial) = view s := by
  simp [State.returnElsewhere]

@[simp] theorem view_stock (b : Nat) (keep : Bool) (kind : NoteKind) (cred : Option Nat) (serial : Option Bytes)
    (other : Option Nat) :
    view (s.stock b keep kind cred serial other) = view s := by
  simp [State.stock]

@[simp] theorem view_reconcile (b : Nat) (outcome : Seen) :
    view (s.reconcile b outcome) = view s := by
  unfold State.reconcile
  dsimp only
  split
  · rfl
  · split
    · simp
    · split
      · split <;> simp
      · split <;> simp
  · simp

@[simp] theorem view_matchStocked (b : Nat) (outcome : Seen) :
    view (s.matchStocked b outcome) = view s := by
  unfold State.matchStocked
  split
  · rfl
  · rfl
  · split <;> simp

@[simp] theorem view_identityReport (b : Nat) (outcome : Seen) :
    view (s.identityReport b outcome) = view s := by
  unfold State.identityReport
  dsimp only
  split <;> simp

@[simp] theorem view_removalInPeriod (b : Nat) :
    view (s.removalInPeriod b) = view s := by
  unfold State.removalInPeriod
  dsimp only
  split <;> simp

@[simp] theorem view_insertionInPeriod (b : Nat) :
    view (s.insertionInPeriod b) = view s := by
  unfold State.insertionInPeriod
  dsimp only
  split <;> simp

@[simp] theorem view_removalOutside (b : Nat) :
    view (s.removalOutside b) = view s := by
  simp [State.removalOutside]

@[simp] theorem view_insertionOutside (b : Nat) :
    view (s.insertionOutside b) = view s := by
  simp [State.insertionOutside]

@[simp] theorem view_custodyRemoval (b : Nat) :
    view (s.custodyRemoval b) = view s := by
  unfold State.custodyRemoval
  split <;> simp

@[simp] theorem view_custodyInsertion (b : Nat) :
    view (s.custodyInsertion b) = view s := by
  unfold State.custodyInsertion
  split <;> simp

@[simp] theorem view_settleTaken (cred b : Nat) :
    view (s.settleTaken cred b) = view s := by
  unfold State.settleTaken
  dsimp only
  split
  · rfl
  · split <;> simp

@[simp] theorem view_settleInserted (cred b : Nat) :
    view (s.settleInserted cred b) = view s := by
  unfold State.settleInserted
  split <;> simp

@[simp] theorem view_closePeriod (u : Nat) (fault : Bool) :
    view (s.closePeriod u fault) = view s := by
  unfold State.closePeriod
  split
  · rfl
  · simp

@[simp] theorem view_reportUnlocked (u : Nat) :
    view (s.reportUnlocked u) = view s := by
  simp [State.reportUnlocked]

@[simp] theorem view_reportReleaseFailed (u : Nat) :
    view (s.reportReleaseFailed u) = view s := by
  simp [State.reportReleaseFailed]

@[simp] theorem view_reportDoorOpened (u : Nat) :
    view (s.reportDoorOpened u) = view s := by
  simp [State.reportDoorOpened]

@[simp] theorem view_reportLapsed (u : Nat) :
    view (s.reportLapsed u) = view s := by
  simp [State.reportLapsed]

@[simp] theorem view_reportRelocked (u : Nat) (jam : Bool) :
    view (s.reportRelocked u jam) = view s := by
  unfold State.reportRelocked
  split <;> simp

@[simp] theorem view_writeGrant (g : Grant) :
    view (s.writeGrant g) = view s := by
  unfold State.writeGrant
  dsimp only
  split <;> simp

@[simp] theorem view_writeNoDemand (b : Nat) :
    view (s.writeNoDemand b) = view s := by
  simp [State.writeNoDemand]

@[simp] theorem view_recordPass (sum : Summary) :
    view (s.recordPass sum) = view s := by
  simp [State.recordPass]

@[simp] theorem view_spaceRaised :
    view (s.spaceRaised) = view s := by
  unfold State.spaceRaised
  split <;> rfl

@[simp] theorem view_lightLamps :
    view (s.lightLamps) = view s := by
  exact view_mapBays s _ fun _ => rfl

@[simp] theorem view_sendLimits :
    view (s.sendLimits) = view s := by
  exact view_mapBays s _ fun _ => rfl

@[simp] theorem view_reportAjar (u : Nat) :
    view (s.reportAjar u) = view s := by
  simp [State.reportAjar]

@[simp] theorem view_reportOverdue :
    view (s.reportOverdue) = view s := by
  unfold State.reportOverdue
  refine view_forEach s _ (fun t u => ?_) _
  split
  · rfl
  · split
    · rfl
    · split <;> simp

@[simp] theorem view_readLpos (u : Nat) (high : Bool) :
    view (s.readLpos u high) = view s := by
  simp [State.readLpos]

@[simp] theorem view_restore (b c : Nat) (serial : Bytes) :
    view (s.restore b c serial) = view s := by
  simp [State.restore]

@[simp] theorem view_acceptForeign (b : Nat) :
    view (s.acceptForeign b) = view s := by
  simp [State.acceptForeign]

@[simp] theorem view_setPolicy (v : Policy) :
    view (s.setPolicy v) = view s := by
  unfold State.setPolicy
  split <;> simp

@[simp] theorem view_writeBudget (c o eta slots : Nat) :
    view (s.writeBudget c o eta slots) = view s := by
  simp [State.writeBudget]

@[simp] theorem view_budgetPass :
    view (s.budgetPass) = view s := by
  unfold State.budgetPass
  split
  · simp
  · split <;> simp

@[simp] theorem view_setThresholds (low ready rel : Nat) :
    view (s.setThresholds low ready rel) = view s := by
  unfold State.setThresholds
  dsimp only
  split
  · exact view_askNormal _
  · rfl

@[simp] theorem view_beginEpisode :
    view (s.beginEpisode) = view s := by
  unfold State.beginEpisode
  dsimp only
  rw [view_askUrgent, view_postCart]
  rfl

@[simp] theorem view_wallSample (w : BitVec 16) :
    view (s.wallSample w) = view s := by
  unfold State.wallSample
  dsimp only
  split
  · rfl
  · split
    · rfl
    · split
      · exact view_beginEpisode _
      · rfl

@[simp] theorem view_presenceLevel (b : Nat) (high level : Bool) :
    view (s.presenceLevel b high level) = view s := by
  unfold State.presenceLevel
  exact view_updBay _ b _ fun r => by split <;> rfl

@[simp] theorem view_doorLevel (u : Nat) (high level : Bool) :
    view (s.doorLevel u high level) = view s := by
  simp [State.doorLevel]

@[simp] theorem view_setAjarLimit (limit : Nat) :
    view (s.setAjarLimit limit) = view s := by
  simp [State.setAjarLimit]

end

end Sys2Proof.Dock
end

