-- ==== Sys2Proof/Proofs/Carried.lean ====
section
/-! PROOF. Every operation of the blocks carries the invariants of O35. One that starts or moves something on bay `b` needs a mark of
`b` that says more than the invariant; the others run on any bay. -/

namespace Sys2Proof.Dock

open Machine Laws

variable {w : Wanted} {m : Nat → Mark} {s : State}

theorem Sound.forEach (h : Sound w m s) (l : List Nat) {f : State → Nat → State}
    (hf : ∀ t, ∀ b ∈ l, Sound w m t → Sound w m (f t b)) : Sound w m (s.forEach l f) :=
  forEach_keeps_mem (P := Sound w m) f l hf s h

/-! ## Posts (R28) -/

theorem LaneOff.withdrawJob {l : Lane} (h : LaneOff l) (t : Nat) : LaneOff (l.withdrawJob t) := by
  unfold Lane.withdrawJob
  rw [h.slots.2.2.1]
  exact h

theorem withdrawJob_up (l : Lane) (t : Nat) : (l.withdrawJob t).up = l.up := by
  unfold Lane.withdrawJob
  split
  · rfl
  · split <;> rfl

theorem Sound.withdrawJob (h : Sound w m s) (b t : Nat) : Sound w m (s.updLane b fun l => l.withdrawJob t) :=
  h.updLane (fun l => withdrawJob_up l t) (.inr fun _ hl => hl.withdrawJob t)

theorem Sound.postStop (h : Sound w m s) (b t : Nat) (c : Call) : Sound w m (s.postStop b t c) :=
  h.postLane b fun l => withdrawJob_up l t

theorem Sound.postJob (h : Sound w m s) (b : Nat) (c : Call) : Sound w m (s.postJob b c) := h.postLane b fun _ => rfl

theorem Sound.postIdent (h : Sound w m s) (b n : Nat) : Sound w m (s.postIdent b n) := h.postLane b fun _ => rfl

theorem Sound.postServe (h : Sound w m s) (b : Nat) (c : Call) : Sound w m (s.postServe b c) := h.postLane b fun _ => rfl

theorem Sound.pollDue (h : Sound w m s) (b : Nat) : Sound w m (s.pollDue b) := h.postLane b fun _ => rfl

theorem Sound.postGreeting (h : Sound w m s) {b : Nat} (hb : m b ≠ .any) (c : Call) (p : Plan) :
    Sound w m (s.postGreeting b c p) := h.updLane (fun _ => rfl) (.inl hb)

theorem Sound.withdrawGreeting (h : Sound w m s) (b : Nat) : Sound w m (s.withdrawGreeting b) :=
  h.updLane (fun _ => rfl) (.inr fun _ hl => { hl with slots := ⟨rfl, hl.slots.2⟩ })

theorem Sound.withdrawIdent (h : Sound w m s) (b : Nat) : Sound w m (s.withdrawIdent b) :=
  h.updLane (fun _ => rfl) (.inr fun _ ⟨u, a, f, ⟨h1, h2, h3, h4, _, h6⟩, k, d⟩ => ⟨u, a, f, ⟨h1, h2, h3, h4, rfl, h6⟩, k, d⟩)

/-! ## Jobs (R111 to R117, R127, R128) -/

theorem jobOf_mem {b : Nat} {j : Job} (h : s.jobOf b = some j) : j ∈ s.sched.active ++ s.sched.queue :=
  List.mem_of_find?_eq_some h

/-- A change of the scheduler that keeps its jobs apart. -/
theorem Sound.sched (h : Sound w m s) {c : Sched}
    (hj : s.jobsSound → ListsSound c.queue c.active ∧ 1 ≤ c.nextTag ∧ c.nextTag ≤ 65535) :
    Sound w m { s with sched := c } where
  nums := h.nums
  marks := h.marks
  jobs hw := (jobsSound_iff _).2 (hj (h.jobs hw))
  size := h.size
  slots := h.slots

theorem Sound.dropJob (h : Sound w m s) (t : Nat) : Sound w m (s.dropJob t) :=
  h.sched fun hj => ⟨((jobsSound_iff s).1 hj).1.drop t, ((jobsSound_iff s).1 hj).2⟩

/-- A change of one of the scheduler's jobs that leaves it on its side. -/
theorem Sound.updJob (h : Sound w m s) {b : Nat} {j : Job} (hj : s.jobOf b = some j) {f : Job → Job}
    (hk : ∀ i, (f i).tag = i.tag ∧ (f i).bay = i.bay) (hw : Waits j → Waits (f j)) (hh : Holds j → Holds (f j)) :
    Sound w m (s.updJob j.tag f) :=
  h.sched fun hs => by
    obtain ⟨hl, ht⟩ := (jobsSound_iff s).1 hs
    have hone : ∀ i ∈ s.sched.active ++ s.sched.queue, i.tag = j.tag → i = j := fun i hi he =>
      hl.tag_unique hi (jobOf_mem hj) he
    refine ⟨hl.change j.tag f hk (fun i hi he => ?_) fun i hi he => ?_, ht⟩
    · obtain rfl := hone i (List.mem_append_right _ hi) he
      exact hw (hl.waits i hi)
    · obtain rfl := hone i (List.mem_append_left _ hi) he
      exact hh (hl.holds i hi)

/-- A change of the jobs of a tag that keeps every job's state and channel. -/
theorem Sound.updJob_same (h : Sound w m s) (t : Nat) {f : Job → Job}
    (hf : ∀ i, (f i).tag = i.tag ∧ (f i).bay = i.bay ∧ (f i).state = i.state ∧ (f i).channel = i.channel) :
    Sound w m (s.updJob t f) :=
  h.sched fun hs => by
    obtain ⟨hl, ht⟩ := (jobsSound_iff s).1 hs
    refine ⟨hl.change t f (fun i => ⟨(hf i).1, (hf i).2.1⟩) (fun i hi _ => ?_) fun i hi _ => ?_, ht⟩
    · unfold Waits
      rw [(hf i).2.2.1, (hf i).2.2.2]
      exact hl.waits i hi
    · unfold Holds
      rw [(hf i).2.2.1, (hf i).2.2.2]
      exact hl.holds i hi

theorem Sound.endJob (h : Sound w m s) (j : Job) (done : Bool) (r : JobReason) (tell : Bool) :
    Sound w m (s.endJob j done r tell) := by
  unfold State.endJob
  dsimp only
  have h1 : Sound w m (if tell = true then
      (s.updLane j.bay fun l => l.withdrawJob j.tag).postStop j.bay j.tag (.abort j.tag)
      else s.updLane j.bay fun l => l.withdrawJob j.tag) :=
    .ite (fun _ => (h.withdrawJob _ _).postStop _ _ _) fun _ => h.withdrawJob _ _
  have h2 := h1.of_view (view_releaseChannel _ j.channel)
  have h3 := (Sound.ite (p := j.channel.isSome = true) (fun _ => h2.of_view (view_askNormal _)) fun _ => h2).dropJob j.tag
  have h4 := h3.of_view (view_updBay _ j.bay (fun x => { x with lastJob := some ⟨j.tag, j.image, done, r⟩ }) fun _ => rfl)
  exact h4.of_view (view_post _ j.bay .job)

theorem Sound.abortBay (h : Sound w m s) (b : Nat) (r : JobReason) (tell : Bool) : Sound w m (s.abortBay b r tell) := by
  unfold State.abortBay
  split
  · exact h
  · exact h.endJob _ _ _ _

theorem postStop_sched (s : State) (b t : Nat) (c : Call) : (s.postStop b t c).sched = s.sched := by
  unfold State.postStop State.postLane
  split <;> rfl

theorem releaseChannel_lists (s : State) (c : Option Nat) :
    (s.releaseChannel c).sched.queue = s.sched.queue ∧ (s.releaseChannel c).sched.active = s.sched.active := by
  cases c <;> exact ⟨rfl, rfl⟩

/-- One of the scheduler's jobs is taken out and queued again. -/
theorem Sound.requeue (h : Sound w m s) {j i : Job} (hj : j ∈ s.sched.active ++ s.sched.queue) (hi : Waits i)
    (hk : i.tag = j.tag ∧ i.bay = j.bay) (l r : List Nat) :
    Sound w m { s.dropJob j.tag with
      sched := { (s.dropJob j.tag).sched with queue := insertFront l i (s.dropJob j.tag).sched.queue }
      work := { (s.dropJob j.tag).work with returned := r } } :=
  (Sound.sched h (c := { (s.dropJob j.tag).sched with queue := insertFront l i (s.dropJob j.tag).sched.queue }) fun hs => by
    obtain ⟨hl, hn⟩ := (jobsSound_iff s).1 hs
    obtain ⟨hroom, hfree⟩ := hl.room (j := i) ⟨j, hj, hk.1.symm, hk.2.symm⟩
    rw [hk.1] at hroom hfree
    exact ⟨(hl.drop j.tag).queue (insertFront_perm _ _ _) hi hroom (hk.1 ▸ hfree), hn⟩).of_view rfl

/-- One of the scheduler's jobs is suspended (R127). -/
theorem Sound.suspendJob (h : Sound w m s) {j : Job} (hj : j ∈ s.sched.active ++ s.sched.queue) : Sound w m (s.suspendJob j) := by
  unfold State.suspendJob
  dsimp only
  have h1 : Sound w m (if j.posted = true then
      (s.updLane j.bay fun l => l.withdrawJob j.tag).postStop j.bay j.tag (.pause j.tag)
      else s.updLane j.bay fun l => l.withdrawJob j.tag) :=
    .ite (fun _ => (h.withdrawJob _ _).postStop _ _ _) fun _ => h.withdrawJob _ _
  have hs : (if j.posted = true then
      (s.updLane j.bay fun l => l.withdrawJob j.tag).postStop j.bay j.tag (.pause j.tag)
      else s.updLane j.bay fun l => l.withdrawJob j.tag).sched = s.sched := by
    split
    exacts [postStop_sched .., rfl]
  generalize (if j.posted = true then _ else _ : State) = t at h1 hs ⊢
  have h2 := h1.of_view (view_releaseChannel t j.channel)
  obtain ⟨hq, ha⟩ := releaseChannel_lists t j.channel
  have h3 := h2.requeue (j := j)
    (i := { j.stopTimers with state := .queued, channel := none, resume := true, posted := false, holds := 0 })
    (by rw [hq, ha, hs]; exact hj) ⟨.inl rfl, rfl⟩ ⟨rfl, rfl⟩
    ((t.releaseChannel j.channel).dropJob j.tag).work.returned
    (j.tag :: ((t.releaseChannel j.channel).dropJob j.tag).work.returned)
  exact (h3.of_view (view_post _ j.bay .job)).of_view (view_askNormal _)

theorem Sound.suspendBay (h : Sound w m s) (b : Nat) : Sound w m (s.suspendBay b) := by
  unfold State.suspendBay
  split
  · exact h
  · exact .ite (fun _ => h.suspendJob (jobOf_mem ‹_›)) fun _ => h

theorem jobOf_none_lists {b : Nat} (h : s.jobOf b = none) : ∀ i ∈ s.sched.active ++ s.sched.queue, i.bay ≠ b :=
  (jobOf_none_iff s b).1 h

/-- A bay without a job gets one where there is room (R112 to R114). -/
theorem Sound.createJob (h : Sound w m s) {b : Nat} (hb : s.jobOf b = none) (hf : s.jobsFull = false) (image priority : Nat)
    (o : Origin) : Sound w m (s.createJob b image priority o) := by
  unfold State.createJob
  refine (Sound.sched h fun hs => ?_).of_view (view_askScan _)
  obtain ⟨hl, h1, h2⟩ := (jobsSound_iff s).1 hs
  have hlen : s.jobs.length < 48 := by
    unfold State.jobsFull Config.jobLimit at hf
    simpa using hf
  have hr := (pickTag_spec (s.jobs.map (·.tag)) 49 s.sched.nextTag h1 h2).1
  refine ⟨hl.queue (insertBack_perm _ _) ⟨.inl rfl, rfl⟩ hlen fun i hi => ⟨fun he => ?_, jobOf_none_lists hb i hi⟩,
    tagAfter_range hr.1⟩
  exact pickTag_free (by simpa using hl.few) h1 h2 (List.mem_map.2 ⟨i, hi, he⟩)

theorem Sound.checkIn (h : Sound w m s) (b : Nat) : Sound w m (s.checkIn b) := by
  unfold State.checkIn
  split
  · exact h
  · split
    · rename_i hc
      simp only [Bool.and_eq_true, Option.isNone_iff_eq_none] at hc
      split
      · exact h.of_view (view_postCart _ _)
      · rename_i hf
        exact h.createJob hc.1.2 (by simpa using hf) _ _ _
    · exact h

/-! ## Asks (R36, R54, R103, R115) -/

theorem Sound.replyAsk (h : Sound w m s) (b : Nat) (r : Reply) : Sound w m (s.replyAsk b r) :=
  h.updSess (fun _ hx => hx) (.inr fun x hx => by rw [hx]; rfl)

theorem Sound.deferAsk (h : Sound w m s) {b : Nat} (hb : m b ≠ .any) : Sound w m (s.deferAsk b) := by
  refine Sound.of_view (Sound.updLane (h.replyAsk b .hold) ?_ (.inl hb)) (view_post _ _ _)
  exact fun _ => rfl

theorem Sound.decideJobAsk (h : Sound w m s) {b : Nat} (hb : m b ≠ .any) (id : Nat) : Sound w m (s.decideJobAsk b id) := by
  unfold State.decideJobAsk
  split
  · exact .ite (fun _ => h.replyAsk _ _) fun _ => h.deferAsk hb
  · exact h.deferAsk hb
  · rename_i e hj he
    refine .ite (fun _ => h.deferAsk hb) fun _ => .ite (fun _ => (h.deferAsk hb).of_view (view_postCart _ _)) fun hf => ?_
    exact (h.replyAsk b .accept).createJob hj (by simpa using hf : s.jobsFull = false) _ _ _

/-! ## Wakes, envelopes, progress, receipts (R123 to R126) -/

theorem Sound.wakeOver (h : Sound w m s) (b : Nat) : Sound w m (s.wakeOver b) := by
  unfold State.wakeOver
  split
  · exact h
  · rename_i j hj
    refine .ite (fun hw => ?_) fun _ => h
    exact h.updJob hj (fun _ => ⟨rfl, rfl⟩) (fun hi => ⟨.inl rfl, hi.2⟩) fun hi => by
      have := onChannel_of_holds hi
      rw [hw] at this
      cases this

theorem Sound.wakeFailedJob (h : Sound w m s) (b : Nat) : Sound w m (s.wakeFailedJob b) := by
  unfold State.wakeFailedJob
  split
  · exact h
  · exact .ite (fun _ => h.endJob _ _ _ _) fun _ => h

theorem Sound.postEnvelope (h : Sound w m s) (j : Job) : Sound w m (s.postEnvelope j) := by
  unfold State.postEnvelope
  split
  · exact h
  · exact (h.postJob _ _).updJob_same _ fun _ => ⟨rfl, rfl, rfl, rfl⟩

/-- A job on a channel that stays there. -/
theorem Sound.stayOn (h : Sound w m s) {b : Nat} {j : Job} (hj : s.jobOf b = some j) (ho : j.state.onChannel = true) {f : Job → Job}
    (hk : ∀ i, (f i).tag = i.tag ∧ (f i).bay = i.bay ∧ (f i).channel = i.channel)
    (hs : (f j).state = .offered ∨ (f j).state = .running ∨ (f j).state = .receipt) : Sound w m (s.updJob j.tag f) := by
  refine h.updJob hj (fun i => ⟨(hk i).1, (hk i).2.1⟩) (fun hi => ?_) fun hi => ⟨hs, by rw [(hk j).2.2]; exact hi.2⟩
  rw [onChannel_of_waits hi] at ho
  cases ho

theorem Sound.envelopeAnswer (h : Sound w m s) (b tag : Nat) (r : Reply) : Sound w m (s.envelopeAnswer b tag r) := by
  unfold State.envelopeAnswer
  split
  · exact h
  · rename_i j hj
    refine .ite (fun hc => ?_) fun _ => h
    obtain ⟨rfl, ho⟩ := hc
    cases r with
    | accept =>
      refine Sound.withdrawJob (Sound.stayOn h hj (by rw [ho]; rfl) ?_ ?_) _ _
      · exact fun _ => ⟨rfl, rfl, rfl⟩
      · exact .inr (.inl rfl)
    | hold =>
      exact .ite (fun _ => h.endJob _ _ _ _) fun _ => h.updJob_same _ fun _ => ⟨rfl, rfl, rfl, rfl⟩
    | refuse => exact h.endJob _ _ _ _

theorem Sound.takeProgress (h : Sound w m s) (b n : Nat) : Sound w m (s.takeProgress b n) := by
  unfold State.takeProgress
  split
  · exact h
  · refine .ite (fun _ => ?_) fun _ => h
    refine h.updJob_same _ fun i => ?_
    split <;> split <;> exact ⟨rfl, rfl, rfl, rfl⟩

theorem Sound.receiptReady (h : Sound w m s) (b : Nat) : Sound w m (s.receiptReady b) := by
  unfold State.receiptReady
  split
  · exact h
  · rename_i j hj
    refine .ite (fun hr => ?_) fun _ => h
    refine Sound.postJob (Sound.stayOn h hj (by rw [hr]; rfl) ?_ ?_) _ _
    · exact fun _ => ⟨rfl, rfl, rfl⟩
    · exact .inr (.inr rfl)

theorem Sound.installVersion (h : Sound w m s) (b v : Nat) : Sound w m (s.installVersion b v) := by
  unfold State.installVersion
  split
  · exact h
  · refine Sound.of_view (Sound.updSess h ?_ ?_) (view_post _ _ _)
    · exact fun _ hx => hx
    · exact .inr fun x hx => by rw [hx]; rfl

theorem Sound.receiptAnswer (h : Sound w m s) (b c tag result v : Nat) : Sound w m (s.receiptAnswer b c tag result v) := by
  unfold State.receiptAnswer
  split
  · exact h
  · refine .ite (fun _ => .ite (fun _ => h.endJob _ _ _ _) fun _ => ?_) fun _ => h
    split
    · exact (h.endJob _ _ _ _).installVersion _ _
    · exact h.endJob _ _ _ _
    · exact h.endJob _ _ _ _
    · exact h.endJob _ _ _ _

end Sys2Proof.Dock
end

