-- ==== Sys2Proof/Proofs/CarriedSessions.lean ====
section
/-! PROOF. Serves, sessions and lanes carry the invariants of O35. -/

namespace Sys2Proof.Dock

open Machine Laws

variable {w : Wanted} {m : Nat → Mark} {s : State}

/-! ## Serves and PROFILE asks (R103 to R107) -/

theorem Sound.clearAsk (h : Sound w m s) (b : Nat) : Sound w m (s.clearAsk b) := by
  refine Sound.updLane (Sound.updSess h ?_ ?_) ?_ ?_
  · exact fun _ hx => hx
  · exact .inr fun x hx => by rw [hx]; rfl
  · exact fun _ => rfl
  · exact .inr fun _ hl => { hl with autoDefer := rfl }

theorem Sound.postChunk (h : Sound w m s) (b : Nat) : Sound w m (s.postChunk b) := by
  unfold State.postChunk
  split
  · exact h
  · split
    · exact h
    · exact h.postServe _ _

theorem Sound.startServe (h : Sound w m s) (b : Nat) (k : Slot) : Sound w m (s.startServe b k) := by
  have h1 := h.of_view (view_updBay s b (fun r => { r with serve := some ⟨k.num, 0, k.length, 0, none⟩ }) fun _ => rfl)
  exact (h1.of_view (view_updSlot _ k.num (fun k => { k with serves := k.serves + 1 }) fun _ _ => rfl)).postChunk b

theorem Sound.settleAsk (h : Sound w m s) (b : Nat) (o : ServeEnd) (q : Bool) : Sound w m (s.settleAsk b o q) := by
  cases o with
  | complete => exact h.clearAsk b
  | heldOut => exact h.replyAsk b _
  | declined => exact h.replyAsk b _
  | withdrawn => exact h
  | abandoned =>
    refine .ite (fun _ => h.updSess ?_ ?_) fun _ => h
    · exact fun _ hx => hx
    · exact .inr fun x hx => by rw [hx]; rfl

theorem Sound.endServe (h : Sound w m s) (b : Nat) (o : ServeEnd) (q : Bool) : Sound w m (s.endServe b o q) := by
  unfold State.endServe
  split
  · exact h
  · rename_i v _
    have h1 : Sound w m (s.updLane b fun l => { l with serve := none }) :=
      h.updLane (fun _ => rfl) (.inr fun _ ⟨u, a, f, ⟨g1, g2, g3, g4, g5, _⟩, k, d⟩ => ⟨u, a, f, ⟨g1, g2, g3, g4, g5, rfl⟩, k, d⟩)
    have h2 := h1.of_view (view_updSlot _ v.slot (fun k => { k with serves := k.serves - 1 }) fun _ _ => rfl)
    have h3 := h2.of_view (view_updBay _ b (fun r => { r with
      serve := none
      lastServe := some ⟨((s.slot? v.slot).getD (Slot.reset v.slot)).id, ((s.slot? v.slot).getD (Slot.reset v.slot)).version, o,
        v.offset⟩ }) fun _ => rfl)
    exact (h3.of_view (view_post _ b .profile)).settleAsk b o q

theorem Sound.abandonServe (h : Sound w m s) (b : Nat) : Sound w m (s.abandonServe b) := h.endServe b _ _

theorem Sound.chunkAnswer (h : Sound w m s) (b id offset : Nat) (r : Reply) : Sound w m (s.chunkAnswer b id offset r) := by
  unfold State.chunkAnswer
  split
  · exact h
  · rename_i v _
    split
    · exact h
    · refine .ite (fun _ => ?_) fun _ => h
      have hv (v' : Serve) : Sound w m (s.updBay b fun r => { r with serve := some v' }) :=
        h.of_view (view_updBay _ _ _ fun _ => rfl)
      cases r with
      | accept => exact .ite (fun _ => (hv _).endServe _ _ _) fun _ => (hv _).postChunk _
      | hold => exact .ite (fun _ => (hv _).endServe _ _ _) fun _ => hv _
      | refuse => exact h.endServe _ _ _

theorem Sound.decideProfileAsk (h : Sound w m s) (b id : Nat) : Sound w m (s.decideProfileAsk b id) := by
  refine .ite (fun _ => h) fun _ => .ite (fun _ => h.replyAsk _ _) fun _ => .ite (fun _ => h.replyAsk _ _) fun _ => ?_
  split
  · exact h.replyAsk _ _
  · exact (h.replyAsk _ _).startServe _ _

theorem Sound.consultOwner (h : Sound w m s) {b : Nat} (hb : m b ≠ .any) (a : Ask) : Sound w m (s.consultOwner b a) := by
  unfold State.consultOwner
  split
  · exact h.decideProfileAsk _ _
  · exact h.decideJobAsk hb _

theorem Sound.consultProfile (h : Sound w m s) {b : Nat} (hb : m b ≠ .any) : Sound w m (s.consultProfile b) := by
  unfold State.consultProfile
  split
  · exact h
  · exact .ite (fun _ => h.consultOwner hb _) fun _ => h

theorem Sound.recordAsk (h : Sound w m s) {b : Nat} (hb : m b ≠ .any) (k : AskKind) (id : Nat) : Sound w m (s.recordAsk b k id) := by
  have h1 : Sound w m (((s.endServe b .withdrawn false).clearAsk b).updSess b fun x => { x with ask := some ⟨k, id, .hold, false⟩ }) :=
    ((h.endServe b .withdrawn false).clearAsk b).updSessLive hb
  exact .ite (fun _ => h1.consultOwner hb _) fun _ => h1.of_view (view_post _ _ _)

theorem Sound.takeAsk (h : Sound w m s) {b : Nat} (hb : m b ≠ .any) (a : Option (AskKind × Nat)) : Sound w m (s.takeAsk b a) := by
  unfold State.takeAsk
  split
  · exact h
  · exact (h.endServe b .withdrawn false).clearAsk b
  · exact h.recordAsk hb _ _
  · exact .ite (fun _ => h) fun _ => h.recordAsk hb _ _

/-! ## BREAK, FALLBACK, restarts (R45, R46, R55) -/

theorem abandon_up (l : Lane) (n : Nat) : (l.abandon n).up = l.up := by
  unfold Lane.abandon
  dsimp only
  split <;> try rfl
  split <;> rfl

theorem Sound.abandonLane (h : Sound w m s) {b : Nat} (hb : m b ≠ .any) (n : Nat) :
    Sound w m (s.updLane b fun l => (l.abandon n).emptySlots) := h.updLane (fun l => abandon_up l n) (.inl hb)

theorem Sound.sessionMoved (h : Sound w m s) (b : Nat) (x : Session) (q : Bool) : Sound w m (s.sessionMoved b x q) :=
  h.of_view (view_sessionMoved s b x q)

theorem Sound.enterBreak (h : Sound w m s) {b : Nat} (hb : m b ≠ .any) (q : Bool) : Sound w m (s.enterBreak b q) := by
  have h1 : Sound w m (((s.wakeOver b).abandonServe b).updSess b fun x => { x with
      state := .breakWait, contract := none, proposal := none, readBuf := none, holds := 0, hubRestart := false
      greetAt := none, fallAt := none, pollAt := none, refreshAt := none
      breakAt := some (((s.wakeOver b).abandonServe b).now + Config.breakTime) }) :=
    ((h.wakeOver b).abandonServe b).updSessLive hb
  exact ((h1.clearAsk b).abandonLane hb _).sessionMoved b _ q

theorem Sound.enterFallback (h : Sound w m s) {b : Nat} (hb : m b ≠ .any) : Sound w m (s.enterFallback b) := by
  have h1 : Sound w m (((s.wakeOver b).abandonServe b).updSess b fun x => { x with
      state := .fallback, contract := some (State.fallbackContract x.forced), proposal := none, readBuf := none, status := none
      greetAt := none, breakAt := none, pollAt := none, refreshAt := none
      fallAt := some (((s.wakeOver b).abandonServe b).now + Config.fallbackTime) }) :=
    ((h.wakeOver b).abandonServe b).updSessLive hb
  have h2 := (h1.clearAsk b).abandonLane hb (((s.wakeOver b).abandonServe b).now)
  refine Sound.sessionMoved (Sound.of_view (.ite (fun _ => ?_) fun _ => h2) (view_post _ b .session)) b _ false
  exact h2.of_view (view_identityReport _ _ _)

theorem Sound.countedRestart (h : Sound w m s) {b : Nat} (hb : m b ≠ .any) : Sound w m (s.countedRestart b) := by
  have h1 : Sound w m (s.updSess b fun x => { x with restarts := min 3 ((s.bay b).sess.restarts + 1) }) :=
    h.updSessLive hb
  exact .ite (fun _ => h1.enterFallback hb) fun _ => h1.enterBreak hb _

theorem Sound.lostSession (h : Sound w m s) {b : Nat} (hb : m b ≠ .any) : Sound w m (s.lostSession b) :=
  (((h.of_view (view_post s b .lost)).abortBay b _ _).abandonServe b).countedRestart hb

/-! ## Identity (R50) -/

theorem Sound.enterContracted (h : Sound w m s) {b : Nat} (hb : m b ≠ .any) (q : Bool) : Sound w m (s.enterContracted b q) := by
  have h1 : Sound w m (s.updSess b fun x => { x with
      state := .contracted, restarts := 0, readBuf := none, pollAt := some (s.now + Config.pollTime) }) :=
    h.updSessLive hb
  have h2 := Sound.ite (p := q = true) (fun _ => h1) fun _ => h1.pollDue b
  exact ((h2.of_view (view_post _ b .session)).of_view (view_askScan _)).consultProfile hb

theorem Sound.endRead (h : Sound w m s) {b : Nat} (hb : m b ≠ .any) (x y : Option Identity) : Sound w m (s.endRead b x y) := by
  have h1 : Sound w m (s.updSess b fun x => { x with identity := y, readBuf := none }) := h.updSessLive hb
  have h2 := (h1.withdrawIdent b).enterContracted hb false
  have h3 := Sound.ite (p := x = y) (fun _ => h2) fun _ => h2.of_view (view_post _ b .identity)
  cases y with
  | none => exact h3.of_view (view_identityReport _ _ _)
  | some i => exact (h3.checkIn b).of_view (view_identityReport _ _ _)

theorem Sound.enterIdentifying (h : Sound w m s) {b : Nat} (hb : m b ≠ .any) : Sound w m (s.enterIdentifying b) := by
  have h1 : Sound w m ((s.withdrawGreeting b).updSess b fun x => { x with
      state := .identifying, proposal := none, greetAt := none, fallAt := none, pollAt := none }) :=
    (h.withdrawGreeting b).updSessLive hb
  exact .ite (fun _ => (h1.updSessLive hb).postIdent b 0) fun _ => h1.endRead hb _ _

theorem Sound.identityAnswer (h : Sound w m s) {b : Nat} (hb : m b ≠ .any) (n : Nat) (p : Bytes) :
    Sound w m (s.identityAnswer b n p) := by
  unfold State.identityAnswer
  dsimp only
  split
  · refine .ite (fun _ => h) fun _ => .ite (fun _ => .ite (fun _ => ?_) fun _ => h.endRead hb _ _) fun _ => h.endRead hb _ _
    exact (h.updSessLive hb).postIdent b _
  · exact h

/-! ## Greeting and negotiation (R42 to R44, R48) -/

theorem Sound.proceed (h : Sound w m s) {b : Nat} (hb : m b ≠ .any) (a : Ability) : Sound w m (s.proceed b a) := by
  have h1 : Sound w m (s.updSess b fun x => { x with ability := some a, holds := 0, greetAt := none, fallAt := none }) :=
    h.updSessLive hb
  unfold State.proceed
  dsimp only
  split
  · exact Sound.sessionMoved (Sound.enterIdentifying (h1.updSessLive hb) hb) b _ false
  · exact Sound.sessionMoved (Sound.postGreeting (h1.updSessLive hb) hb _ _) b _ false

theorem Sound.greetingHeld (h : Sound w m s) {b : Nat} (hb : m b ≠ .any) : Sound w m (s.greetingHeld b) := by
  have h1 : Sound w m (s.updSess b fun x => { x with holds := (s.bay b).sess.holds + 1 }) := h.updSessLive hb
  exact .ite (fun _ => h1.updSessLive hb) fun _ => h1.enterFallback hb

theorem Sound.abilityAnswer (h : Sound w m s) {b : Nat} (hb : m b ≠ .any) (p : Bytes) : Sound w m (s.abilityAnswer b p) := by
  unfold State.abilityAnswer
  dsimp only
  split
  · exact h.proceed hb _
  · exact h.greetingHeld hb
  · exact h.enterFallback hb
  · exact h.proceed hb _
  · exact h

theorem Sound.confirmAnswer (h : Sound w m s) {b : Nat} (hb : m b ≠ .any) (p : Bytes) : Sound w m (s.confirmAnswer b p) := by
  unfold State.confirmAnswer
  dsimp only
  split
  · refine .ite (fun _ => ?_) fun _ => h.countedRestart hb
    exact Sound.sessionMoved (Sound.enterIdentifying (h.updSessLive hb) hb) b _ false
  · exact h

/-! ## STATUS, sleep and wake (R52, R53, R57, R58) -/

theorem Sound.writeStatus (h : Sound w m s) {b : Nat} (hb : m b ≠ .any) (st : Status) : Sound w m (s.writeStatus b st) := by
  have h1 : Sound w m (s.updSess b fun x => { x with status := some st }) := h.updSessLive hb
  have h2 := h1.of_view (view_passFor _ (heatLimit (s.bay b).sess.status) (heatLimit (some st)))
  exact Sound.takeProgress (.ite (fun _ => h2.of_view (view_askNormal _)) fun _ => h2) _ _

theorem Sound.enterAsleep (h : Sound w m s) {b : Nat} (hb : m b ≠ .any) : Sound w m (s.enterAsleep b) := by
  unfold State.enterAsleep
  exact (h.updSessLive hb).updLaneLive hb

theorem Sound.identAgain (h : Sound w m s) {b : Nat} (hb : m b ≠ .any) : Sound w m (s.identAgain b) := by
  unfold State.identAgain
  exact ((h.endServe b .abandoned true).updLaneLive hb).enterIdentifying hb

theorem Sound.actOnFlags (h : Sound w m s) {b : Nat} (hb : m b ≠ .any) (p : Bytes) : Sound w m (s.actOnFlags b p) := by
  have h1 := h.takeAsk hb (State.askOf p)
  have h2 := Sound.ite (p := (State.statusOf p).receiptReady = true) (fun _ => h1.receiptReady b) fun _ => h1
  exact .ite (fun _ => h2.countedRestart hb) fun _ => .ite (fun _ => h2.identAgain hb) fun _ =>
    .ite (fun _ => h2.enterAsleep hb) fun _ => h2

theorem Sound.statusAnswer (h : Sound w m s) {b : Nat} (hb : m b ≠ .any) (p : Bytes) : Sound w m (s.statusAnswer b p) := by
  unfold State.statusAnswer
  dsimp only
  split <;> try exact h
  · exact (h.writeStatus hb _).actOnFlags hb p
  · have h1 : Sound w m ((s.updSess b fun x => { x with failedWakes := 0, wakeFailed := false }).updLane b
        fun l => { l with wakeAt := none }) :=
      (h.updSessLive hb).updLaneLive hb
    exact .ite (fun _ => (h1.writeStatus hb _).enterBreak hb _) fun _ =>
      (((h1.wakeOver b).enterContracted hb true).writeStatus hb _).actOnFlags hb p

theorem Sound.beginWake (h : Sound w m s) {b : Nat} (hb : m b ≠ .any) : Sound w m (s.beginWake b) := by
  unfold State.beginWake
  exact (h.updSessLive hb).updLaneLive hb

theorem Sound.wakeFails (h : Sound w m s) {b : Nat} (hb : m b ≠ .any) : Sound w m (s.wakeFails b) := by
  have h1 : Sound w m (s.updLane b fun l => { l with wakeAsked := false, wakeAt := none }) := h.updLaneLive hb
  unfold State.wakeFails
  dsimp only
  exact Sound.wakeFailedJob (.ite (fun _ => Sound.of_view (h1.updSessLive hb) (view_post _ _ _)) fun _ =>
    h1.updSessLive hb) b

/-! ## Attempts (R23 to R27) -/

theorem Sound.callFailed (h : Sound w m s) {b : Nat} (hb : m b ≠ .any) : Sound w m (s.callFailed b) := by
  unfold State.callFailed
  split <;> try exact h
  · exact h.enterFallback hb
  · exact h.lostSession hb
  · exact h.lostSession hb
  · exact h.lostSession hb
  · exact .ite (fun _ => h.wakeFails hb) fun _ => h

theorem Sound.nextAttempt (h : Sound w m s) {b : Nat} (hb : m b ≠ .any) : Sound w m (s.nextAttempt b) := by
  unfold State.nextAttempt
  split
  · exact h
  · exact h.updLaneLive hb

theorem Sound.failAttempt (h : Sound w m s) {b : Nat} (hb : m b ≠ .any) (k : FailKind) : Sound w m (s.failAttempt b k) := by
  unfold State.failAttempt
  dsimp only
  split
  · exact h
  · have h1 : Sound w m (s.updLane b fun l => { l with attempts := (s.bay b).lane.attempts + 1, lastFail := some k }) :=
      h.updLaneLive hb
    exact .ite (fun _ => Sound.callFailed (h1.updLaneLive hb) hb) fun _ =>
      .ite (fun _ => h1.nextAttempt hb) fun _ => h1.updLaneLive hb

theorem Sound.deliver (h : Sound w m s) {b : Nat} (hb : m b ≠ .any) (c : Call) (p : Bytes) : Sound w m (s.deliver b c p) := by
  cases c with
  | hello => exact h.abilityAnswer hb p
  | confirm => exact h.confirmAnswer hb p
  | poll => exact h.statusAnswer hb p
  | identRead => exact h.identityAnswer hb _ p
  | chunk => exact h.chunkAnswer _ _ _ _
  | envelope => exact h.envelopeAnswer _ _ _
  | pause => exact h
  | abort => exact h
  | receiptRead => exact h.receiptAnswer _ _ _ _ _

theorem Sound.judgeAnswer (h : Sound w m s) {b : Nat} (hb : m b ≠ .any) (kind : Byte) (p : Bytes) :
    Sound w m (s.judgeAnswer b kind p) := by
  unfold State.judgeAnswer
  dsimp only
  split
  · exact .ite (fun _ => h.failAttempt hb _) fun _ => .ite (fun _ => h.failAttempt hb _) fun _ =>
      .ite (fun _ => h.failAttempt hb _) fun _ => Sound.deliver (h.updLaneLive hb) hb _ _
  · exact h

theorem Sound.closeWindow (h : Sound w m s) {b : Nat} (hb : m b ≠ .any) : Sound w m (s.closeWindow b) := by
  unfold State.closeWindow
  split
  · exact h
  · exact h
  · exact Sound.wakeFails (h.updLaneLive hb) hb
  · exact h.wakeFails hb

theorem Sound.releasePulse (h : Sound w m s) {b : Nat} (hb : m b ≠ .any) : Sound w m (s.releasePulse b) :=
  h.updLaneLive hb

end Sys2Proof.Dock
end

