-- ==== Sys2Proof/Proofs/CarriedPresence.lean ====
section
/-! PROOF. Starts and ends of sessions: what asks, presence, the enable flag and the hub's restarts do to the invariants of O35. -/

namespace Sys2Proof.Dock

open Machine Laws

variable {w : Wanted} {m : Nat → Mark} {s : State}

/-! ## The records of one bay -/

theorem Sound.atBay (h : Sound w m s) (hw : w.bays) (b : Nat) : AtBay s b (m b).holds := fun r hr hb => hb ▸ h.marks hw r hr

theorem AtBay.updBay {b : Nat} {f : Bay → Bay} {P : Bay → Prop} (h : AtBay s b fun r => P (f r)) : AtBay (s.updBay b f) b P := by
  rintro r hr hb
  obtain ⟨q, hq, rfl⟩ := List.mem_map.1 hr
  by_cases hn : q.num = b
  · rw [if_pos hn]
    exact h q hq hn
  · rw [if_neg hn] at hb
    exact absurd hb hn

/-- What an update leaves alone reads the same in the bay's record. -/
theorem bay_updBay_same {α : Type} (g : Bay → α) (s : State) {b : Nat} {f : Bay → Bay} (hn : ∀ r, (f r).num = r.num)
    (hg : ∀ r, g (f r) = g r) : g ((s.updBay b f).bay b) = g (s.bay b) := by
  unfold State.bay
  rw [bay?_updBay s b f hn, if_pos rfl]
  cases s.bay? b with
  | none => rfl
  | some r => exact hg r

theorem remark_again (m : Nat → Mark) (b : Nat) (j k : Mark) : remark (remark m b j) b k = remark m b k := by
  funext c
  unfold remark
  split <;> rfl

/-- A bay whose mark is what it was. -/
theorem Sound.back {b : Nat} {k : Mark} (h : Sound w (remark (remark m b k) b .any) s) (hm : m b = .any) : Sound w m s := by
  rwa [remark_again, ← hm, show remark m b (m b) = m from funext fun c => by unfold remark; split <;> simp_all] at h

/-! ## Start and end (R38, R59, R13) -/

theorem Sound.startSession (h : Sound w m s) {b : Nat} (hb : m b = .starting) : Sound w (remark m b .live) (s.startSession b) := by
  have h1 : Sound w m (s.updSess b fun x => { Session.off with state := .greeting, forced := x.forced }) :=
    h.updSessLive (by simp [hb])
  have hat (hw : w.bays) : AtBay (s.updSess b fun x => { Session.off with state := .greeting, forced := x.forced }) b
      fun r => BayLive { r with lane := r.lane.goUp } :=
    AtBay.updBay fun r hr he => by
      have hon := h.atBay hw b r hr he
      rw [hb] at hon
      exact ⟨hon.1, hon.2, by simp, rfl⟩
  have h2 := Sound.updBayTo (k := .live) h1 (f := fun r => { r with lane := r.lane.goUp }) (fun _ => rfl) hat
  exact Sound.sessionMoved (h2.postGreeting (by simp) _ _) b _ false

theorem laneOff_goDown (l : Lane) (n : Nat) : LaneOff (l.goDown n) := by
  have ha : (l.abandon n).flight = none ∧ (l.abandon n).wakeAsked = false ∧ (l.abandon n).wakeAt = none := by
    unfold Lane.abandon
    dsimp only
    split <;> try simp_all
    split <;> simp
  obtain ⟨hf, hw⟩ := ha
  exact ⟨rfl, rfl, hf, ⟨rfl, rfl, rfl, rfl, rfl, rfl⟩, hw, rfl⟩

theorem Sound.endSession (h : Sound w m s) {b : Nat} (hb : m b = .ending) : Sound w (remark m b .any) (s.endSession b) := by
  have h1 : Sound w m (s.updSess b fun x => { Session.off with forced := x.forced }) :=
    h.updBay (fun _ => rfl) fun _ r _ _ hr => by
      rw [hb] at hr ⊢
      exact hr
  have hat (hw : w.bays) : AtBay (s.updSess b fun x => { Session.off with forced := x.forced }) b
      fun r => BaySound { r with lane := r.lane.goDown s.now } :=
    AtBay.updBay fun r hr he => by
      have hoff := h.atBay hw b r hr he
      rw [hb] at hoff
      refine ⟨fun hen hp => ?_, fun _ => (offBay_iff _).2 ⟨rfl, laneOff_goDown _ _⟩⟩
      rcases hoff with ho | ho
      exacts [Bool.noConfusion (ho.symm.trans hen), Bool.noConfusion (ho.symm.trans hp)]
  have h2 := Sound.updBayTo (k := .any) h1 (f := fun r => { r with lane := r.lane.goDown s.now }) (fun _ => rfl) hat
  exact (Sound.sessionMoved h2 b (s.bay b).sess true).of_view (view_clearCap _ _)

/-! ## Presence and enable (R37, R59, R13, R14) -/

/-- The session of a bay that is no longer enabled and PRESENT ends, its job and its serve before it. -/
theorem Sound.close (h : Sound w m s) {b : Nat} (hb : m b = .any) {f : Bay → Bay} (hn : ∀ r, (f r).num = r.num)
    (hf : ∀ r, (f r).enabled = false ∨ (f r).present = false) (r : JobReason) :
    Sound w m (((s.updBay b f).abortBay b r false).abandonServe b |>.endSession b) := by
  have h1 := Sound.updBayTo (b := b) (k := .ending) h hn fun _ r _ _ => hf r
  exact (Sound.endSession ((h1.abortBay b r false).abandonServe b) (remark_self ..)).back hb

theorem Sound.removal (h : Sound w m s) {b : Nat} (hb : m b = .any) : Sound w m (s.removal b) := by
  have h1 := h.close hb (f := fun r => { r with present := false }) (fun _ => rfl) (fun _ => .inr rfl) .tabletRemoved
  have h2 := h1.of_view (view_handTarget _ b 0)
  have h3 := h2.of_view (view_updStage _ b fun st => { st with trips := [] })
  exact ((h3.of_view (view_custodyRemoval _ b)).of_view (view_post _ b .session)).of_view (view_askNormal _)

theorem Sound.disable (h : Sound w m s) {b : Nat} (hb : m b = .any) : Sound w m (s.disable b) := by
  have h1 := h.close hb (f := fun r => { r with enabled := false }) (fun _ => rfl) (fun _ => .inl rfl) .bayDisabled
  have h2 := h1.of_view (view_handTarget _ b 0)
  exact (h2.of_view (view_updPower _ b fun p => { p with starved := false })).of_view (view_askNormal _)

/-- A bay becomes enabled, or PRESENT: its session starts if it is both. -/
theorem Sound.openUp (h : Sound w m s) {b : Nat} (hb : m b = .any) {f : Bay → Bay} (hn : ∀ r, (f r).num = r.num) {p : Bay → Bool}
    (hp : ∀ r, p (f r) = p r) (hon : ∀ r, p r = true → (f r).enabled = true ∧ (f r).present = true)
    (hoff : ∀ r, p r = false → BaySound r → BaySound (f r)) :
    Sound w m (if p ((s.updBay b f).bay b) = true then (s.updBay b f).startSession b else s.updBay b f) := by
  rw [bay_updBay_same p s hn hp]
  refine .ite (fun ht => ?_) fun hf => ?_
  · have h1 := Sound.updBayTo (k := .starting) h hn fun hw r hr he =>
      hon r (atBay_of_bay (h.nums hw) (P := fun r => p r = true) ht r hr he)
    have h2 := Sound.startSession h1 (remark_self ..)
    rw [remark_again] at h2
    exact h2.forget hb
  · refine h.updBay hn fun hw r hr he hs => ?_
    rw [hb] at hs ⊢
    exact hoff r (by simpa using atBay_of_bay (h.nums hw) (P := fun r => ¬ p r = true) hf r hr he) hs

theorem Sound.insertion (h : Sound w m s) {b : Nat} (hb : m b = .any) : Sound w m (s.insertion b) := by
  have h1 := h.openUp hb (f := fun r => { r with present := true }) (p := (·.enabled)) (fun _ => rfl) (fun _ => rfl)
    (fun _ he => ⟨he, rfl⟩) fun r he hs => ⟨fun hen => by simp [he] at hen, fun _ =>
      (offBay_iff _).2 ((offBay_iff r).1 (hs.2 (.inl he)))⟩
  exact (h1.of_view (view_custodyInsertion _ b)).of_view (view_askNormal _)

theorem Sound.enable (h : Sound w m s) {b : Nat} (hb : m b = .any) : Sound w m (s.enable b) := by
  have h1 := h.openUp hb (f := fun r => { r with enabled := true }) (p := (·.present)) (fun _ => rfl) (fun _ => rfl)
    (fun _ he => ⟨rfl, he⟩) fun r he hs => ⟨fun _ hp => by simp [he] at hp, fun _ =>
      (offBay_iff _).2 ((offBay_iff r).1 (hs.2 (.inr he)))⟩
  exact h1.of_view (view_askNormal _)

theorem Sound.presenceTaken (h : Sound w m s) {b : Nat} (hb : m b = .any) : Sound w m (s.presenceTaken b) := by
  have h1 := h.of_view (view_updBay s b (fun r => { r with presAt := none }) fun _ => rfl)
  exact .ite (fun _ => h1.removal hb) fun _ => h1.insertion hb

theorem Sound.setEnable (h : Sound w m s) {b : Nat} (hb : m b = .any) (mask : BitVec 40) : Sound w m (s.setEnable mask b) :=
  .ite (fun _ => h) fun _ => .ite (fun _ => h.enable hb) fun _ => h.disable hb

@[simp] theorem view_askForCaps (s : State) (old : List Bay) : view (s.askForCaps old) = view s := by
  unfold State.askForCaps
  dsimp only
  split <;> split <;> simp

theorem Sound.setBays (h : Sound w unmarked s) (mask : BitVec 40) (caps : List Level) :
    Sound w unmarked (s.setBays mask caps) := by
  have h1 := h.of_view (view_mapBays s (fun r => { r with cap := s.capFor caps r }) fun _ => rfl)
  exact Sound.of_view (h1.forEach _ fun _ _ _ ht => ht.setEnable rfl mask) (view_askForCaps _ _)

/-! ## RESET_BAY (R16) -/

/-- A bay that is enabled and PRESENT takes the mark of a session, any other the mark of one about to end. -/
theorem Sound.sort (h : Sound w m s) {b : Nat} (hb : m b = .any) :
    Sound w (remark m b (if ((s.bay b).enabled && (s.bay b).present) = true then .live else .ending)) s := by
  refine h.become fun hw => ?_
  split
  · rename_i hon
    intro r hr he
    have hs := h.atBay hw b r hr he
    obtain ⟨hen, hp⟩ := atBay_of_bay (h.nums hw) (P := fun r => r.enabled = true ∧ r.present = true)
      (by simpa [Bool.and_eq_true] using hon) r hr he
    rw [hb] at hs
    exact ⟨hen, hp, hs.1 hen hp⟩
  · rename_i hoff
    refine atBay_of_bay (h.nums hw) (P := fun r => r.enabled = false ∨ r.present = false) ?_
    simpa [Bool.and_eq_true, imp_iff_not_or] using hoff

theorem Sound.resetBay (h : Sound w m s) {b : Nat} (hb : m b = .any) : Sound w m (s.resetBay b) := by
  have h1 := ((h.abortBay b .bayReset false).abandonServe b).of_view (view_updStage _ b Stage.resetFaults)
  unfold State.resetBay
  dsimp only
  generalize (((s.abortBay b .bayReset false).abandonServe b).updStage b Stage.resetFaults) = t at h1 ⊢
  have h2 : Sound w m (if ((t.bay b).enabled && (t.bay b).present) = true then t.enterBreak b true else t.endSession b) := by
    have hm := h1.sort hb
    split
    · rename_i hon
      rw [if_pos hon] at hm
      exact Sound.forget (Sound.enterBreak hm (by simp) true) hb
    · rename_i hoff
      rw [if_neg hoff] at hm
      exact (Sound.endSession hm (remark_self ..)).back hb
  refine Sound.of_view (Sound.of_view (Sound.updLane (Sound.updSess h2 ?_ (.inr ?_)) ?_ (.inr ?_)) (view_clearCap _ b))
    (view_askUrgent _)
  · exact fun _ hx => hx
  · intro x hx
    rw [hx]
    rfl
  · exact fun _ => rfl
  · exact fun _ hl => { hl with autoDefer := rfl }

/-! ## The hub's restart, forced levels, wakes, flags (R45, R47, R34, R57) -/

theorem Sound.onState (h : Sound w m s) {b : Nat} {t : State} (hb : (s.bay b).sess.state ≠ .off)
    (f : ∀ n : Nat → Mark, n b ≠ .any → Sound w n s → Sound w n t) : Sound w m t := h.on (.inl hb) f

theorem Sound.hubRestart (h : Sound w m s) (b : Nat) : Sound w m (s.hubRestart b) := by
  by_cases hoff : (s.bay b).sess.state = .off
  · unfold State.hubRestart
    rw [hoff]
    exact h
  · refine h.onState hoff fun n hb hn => ?_
    unfold State.hubRestart
    split <;> first | exact hn.enterBreak hb false | exact hn | exact hn.updSessLive hb

theorem Sound.forceContract (h : Sound w m s) (b : Nat) (l : Option Level) : Sound w m (s.forceContract b l) := by
  refine .ite (fun _ => h) fun _ => Sound.hubRestart (h.updSess ?_ (.inr ?_)) b
  · exact fun _ hx => hx
  · intro x hx
    rw [hx]
    rfl

theorem Sound.wake (h : Sound w m s) {b : Nat} (hb : (s.bay b).sess.state ≠ .off) : Sound w m (s.beginWake b) :=
  h.onState hb fun _ hn hs => hs.beginWake hn

/-- A bay whose session shows what no session that is OFF shows has one. -/
theorem Sound.onSess (h : Sound w m s) {b : Nat} {P : Session → Prop} {t : State} (hp : P (s.bay b).sess)
    (hoff : ∀ x, SessOff x → ¬ P x) (f : ∀ n : Nat → Mark, n b ≠ .any → Sound w n s → Sound w n t) : Sound w m t := by
  by_cases hm : m b = .any
  · refine Sound.forget (f (remark m b .live) (by simp) (h.become fun hw r hr he => ?_)) hm
    have hs := h.atBay hw b r hr he
    have hra := atBay_of_bay (h.nums hw) (P := fun r => P r.sess) hp r hr he
    rw [hm] at hs
    have hon : ¬ (r.enabled = false ∨ r.present = false) := fun hn => hoff _ ((offBay_iff r).1 (hs.2 hn)).1 hra
    have hen : r.enabled = true := by simpa using fun h => hon (.inl h)
    have hpr : r.present = true := by simpa using fun h => hon (.inr h)
    exact ⟨hen, hpr, hs.1 hen hpr⟩
  · exact f m hm h

/-- A bay with an ask has a session. -/
theorem Sound.onAsk (h : Sound w m s) {b : Nat} {a : Ask} {t : State} (ha : (s.bay b).sess.ask = some a)
    (f : ∀ n : Nat → Mark, n b ≠ .any → Sound w n s → Sound w n t) : Sound w m t :=
  h.onSess (P := fun x => x.ask = some a) ha (fun x hx he => by rw [hx.ask] at he; cases he) f

theorem Sound.consultUndecided (h : Sound w m s) (b : Nat) : Sound w m (s.consultUndecided b) := by
  unfold State.consultUndecided
  split
  · exact h
  · rename_i a ha
    exact .ite (fun _ => h.onAsk ha fun _ hn hs => hs.consultOwner hn a) fun _ => h

theorem Sound.setLaneFlags (h : Sound w m s) (b : Nat) (d r : Bool) : Sound w m (s.setLaneFlags b d r) := by
  have h1 : Sound w m (s.updLane b fun l => { l with hubDefer := d, hubRefuse := r }) :=
    h.updLane (fun _ => rfl) (.inr fun _ ⟨u, a, f, g, k, o⟩ => ⟨u, a, f, g, k, o⟩)
  exact .ite (fun _ => h1.consultUndecided b) fun _ => h1

theorem Sound.hubReply (h : Sound w m s) (b : Nat) (r : Reply) : Sound w m (s.hubReply b r) := by
  unfold State.hubReply
  split
  · exact h
  · split
    · exact h
    · refine Sound.updLane (h.replyAsk b r) ?_ (.inr ?_)
      · exact fun _ => rfl
      · exact fun _ hl => { hl with autoDefer := rfl }

end Sys2Proof.Dock
end

