-- ==== Sys2Proof/Proofs/CarriedSettle.lean ====
section
/-! PROOF. What the end of an event does to the invariants of O35: the passes, the admission scan, the drivers, the lanes. -/

namespace Sys2Proof.Dock

open Machine Laws

variable {w : Wanted} {m : Nat → Mark} {s : State}

/-! ## A job that a walk or a pass still knows by its tag and its bay -/

/-- One of the jobs of a list has `j`'s tag and bay. -/
def Keyed (l : List Job) (j : Job) : Prop := ∃ i ∈ l, i.tag = j.tag ∧ i.bay = j.bay

theorem Keyed.mono {l l' : List Job} {j : Job} (h : Keyed l j) (hl : ∀ i ∈ l, i ∈ l') : Keyed l' j :=
  h.imp fun _ ⟨hi, hk⟩ => ⟨hl _ hi, hk⟩

/-- Dropping another tag leaves it in its place. -/
theorem Keyed.filter {l : List Job} {j : Job} (h : Keyed l j) {t : Nat} (ht : j.tag ≠ t) : Keyed (l.filter (·.tag != t)) j := by
  obtain ⟨i, hi, he, hb⟩ := h
  exact ⟨i, List.mem_filter.2 ⟨hi, by simpa [he] using ht⟩, he, hb⟩

/-- A change of jobs that keeps their tags and bays. -/
theorem Keyed.map {l : List Job} {j : Job} (h : Keyed l j) {f : Job → Job} (hf : ∀ i, (f i).tag = i.tag ∧ (f i).bay = i.bay) :
    Keyed (l.map f) j := by
  obtain ⟨i, hi, he, hb⟩ := h
  exact ⟨f i, List.mem_map_of_mem hi, (hf i).1.trans he, (hf i).2.trans hb⟩

theorem endJob_queue (s : State) (j : Job) (done : Bool) (r : JobReason) (tell : Bool) :
    (s.endJob j done r tell).sched.queue = s.sched.queue.filter (·.tag != j.tag) := by
  unfold State.endJob
  dsimp only
  have h1 : (if tell = true then (s.updLane j.bay fun l => l.withdrawJob j.tag).postStop j.bay j.tag (.abort j.tag)
      else s.updLane j.bay fun l => l.withdrawJob j.tag).sched = s.sched := by
    split
    exacts [postStop_sched .., rfl]
  generalize (if tell = true then _ else _ : State) = t at h1 ⊢
  have h2 : (if j.channel.isSome = true then (t.releaseChannel j.channel).askNormal else t.releaseChannel j.channel).sched.queue
      = s.sched.queue := by
    rw [← h1, ← (releaseChannel_lists t j.channel).1]
    split
    · unfold State.askNormal
      split <;> rfl
    · rfl
  exact congrArg (List.filter fun i => i.tag != j.tag) h2

/-- A suspended job keeps its tag and bay (R127). -/
theorem suspendJob_keyed {i j : Job} (hi : i ∈ s.sched.active ++ s.sched.queue) (hs : s.jobsSound)
    (h : Keyed (s.sched.active ++ s.sched.queue) j) :
    Keyed ((s.suspendJob i).sched.active ++ (s.suspendJob i).sched.queue) j := by
  unfold State.suspendJob
  dsimp only
  have h1 : (if i.posted = true then (s.updLane i.bay fun l => l.withdrawJob i.tag).postStop i.bay i.tag (.pause i.tag)
      else s.updLane i.bay fun l => l.withdrawJob i.tag).sched = s.sched := by
    split
    exacts [postStop_sched .., rfl]
  generalize (if i.posted = true then _ else _ : State) = t at h1 ⊢
  have hlists : ∀ u : State, u.askNormal.sched = u.sched := fun u => by
    unfold State.askNormal
    split <;> rfl
  rw [hlists]
  obtain ⟨hq, ha⟩ := releaseChannel_lists t i.channel
  rw [h1] at hq ha
  change Keyed ((t.releaseChannel i.channel).sched.active.filter (·.tag != i.tag)
    ++ insertFront _ _ ((t.releaseChannel i.channel).sched.queue.filter (·.tag != i.tag))) j
  rw [hq, ha]
  by_cases ht : j.tag = i.tag
  · obtain ⟨k, hk, hkt, hkb⟩ := h
    obtain rfl := ((jobsSound_iff s).1 hs).1.tag_unique hk hi (hkt.trans ht)
    exact ⟨_, List.mem_append_right _ ((insertFront_perm _ _ _).mem_iff.2 (List.mem_cons_self ..)), hkt, hkb⟩
  · have := h.filter ht
    rw [List.filter_append] at this
    exact this.mono fun x hx => (List.mem_append.1 hx).elim (fun hx => List.mem_append_left _ hx) fun hx =>
      List.mem_append_right _ ((insertFront_perm _ _ _).mem_iff.2 (List.mem_cons_of_mem _ hx))

theorem suspendBay_keyed {j : Job} (b : Nat) (hs : s.jobsSound) (h : Keyed (s.sched.active ++ s.sched.queue) j) :
    Keyed ((s.suspendBay b).sched.active ++ (s.suspendBay b).sched.queue) j := by
  unfold State.suspendBay
  split
  · exact h
  · split
    · exact suspendJob_keyed (jobOf_mem ‹_›) hs h
    · exact h

/-- The invariants of O35, and a job still known by its tag and its bay. -/
def SoundWith (w : Wanted) (m : Nat → Mark) (j : Job) (s : State) : Prop :=
  Sound w m s ∧ (w.jobs → Keyed (s.sched.active ++ s.sched.queue) j)

theorem SoundWith.of_view {j : Job} {t : State} (h : SoundWith w m j s) (hv : view t = view s) : SoundWith w m j t := by
  refine ⟨h.1.of_view hv, fun hw => ?_⟩
  simp only [view, Prod.mk.injEq] at hv
  rw [hv.2.2.1, hv.2.2.2.1]
  exact h.2 hw

theorem SoundWith.suspendBay {j : Job} (h : SoundWith w m j s) (b : Nat) : SoundWith w m j (s.suspendBay b) :=
  ⟨h.1.suspendBay b, fun hw => suspendBay_keyed b (h.1.jobs hw) (h.2 hw)⟩

/-! ## Passes (R64 to R66, R78) -/

/-- What the suspensions of a pass keep, a pass keeps that leaves `view` alone otherwise. -/
theorem runPass_keeps {P : State → Prop} (hv : ∀ {s t : State}, view t = view s → P s → P t)
    (hb : ∀ (s : State) (b : Nat), P s → P (s.suspendBay b)) {s : State} (h : P s) (k : PassKind) : P (s.runPass k) := by
  unfold State.runPass
  split
  · exact h
  · dsimp only
    have hfold : ∀ (l : List Grant) (s : State), view (l.foldl State.writeGrant s) = view s := by
      intro l
      induction l with
      | nil => exact fun _ => rfl
      | cons g l ih => exact fun s => (ih _).trans (view_writeGrant s g)
    have h1 : P (((s.grants k).flatten.foldl State.writeGrant s).forEach ((s.bays.map (·.num)).filter fun b =>
        !(s.grants k).flatten.any fun g => g.dem.bay == b) State.writeNoDemand) :=
      hv (view_forEach _ State.writeNoDemand (fun s b => view_writeNoDemand s b) _) (hv (hfold _ _) h)
    have h2 := forEach_keeps (P := P)
      (fun s b => if (s.bay b).power.target < Config.jobFloor then s.suspendBay b else s)
      (fun s b hs => by
        split
        exacts [hb s b hs, hs])
      (((((s.grants k).flatten.foldl State.writeGrant s).forEach ((s.bays.map (·.num)).filter fun b =>
        !(s.grants k).flatten.any fun g => g.dem.bay == b) State.writeNoDemand).recordPass (s.summaryOf k (s.grants k))).bays.map (·.num))
      _ (hv (view_recordPass _ (s.summaryOf k (s.grants k))) h1)
    have h3 := hv (view_spaceRaised _) h2
    cases k with
    | normal => exact hv (view_askScan _) h3
    | urgent => exact hv (view_askScan _) h3
    | admission => exact h3

theorem Sound.runPass (h : Sound w m s) (k : PassKind) : Sound w m (s.runPass k) :=
  runPass_keeps (fun hv hs => Sound.of_view hs hv) (fun _ b hs => hs.suspendBay b) h k

theorem SoundWith.runPass {j : Job} (h : SoundWith w m j s) (k : PassKind) : SoundWith w m j (s.runPass k) :=
  runPass_keeps (P := SoundWith w m j) (fun hv hs => hs.of_view hv) (fun _ b hs => hs.suspendBay b) h k

theorem Sound.takeNormal (h : Sound w m s) : Sound w m s.takeNormal := by
  unfold State.takeNormal
  split
  · exact h
  · exact h.runPass _
  · exact .ite (fun _ => h.runPass _) fun _ => h.of_view (view_alloc s _)

theorem Sound.servePasses (h : Sound w m s) : Sound w m s.servePasses := by
  unfold State.servePasses
  have : ∀ (l : List PassRequest) (s : State), Sound w m s → Sound w m (l.foldl State.servePass s) := by
    intro l
    induction l with
    | nil => exact fun _ h => h
    | cons r l ih =>
      refine fun s h => ih _ ?_
      cases r with
      | normal => exact h.takeNormal
      | urgent => exact h.runPass .urgent
  exact this _ _ (h.of_view rfl)

/-! ## The scan (R119 to R122) -/

theorem Sound.takeChannel {j : Job} (h : SoundWith w m j s) (c : Channel) : Sound w m (s.takeChannel j c) := by
  obtain ⟨h, hk⟩ := h
  unfold State.takeChannel
  dsimp only
  refine Sound.of_view (Sound.of_view (s := { s.dropJob j.tag with
    sched := { (s.dropJob j.tag).sched with active := (s.dropJob j.tag).sched.active ++ [{ j with
      state := .offered, channel := some c.num, posted := false, holds := 0, baseline := none
      settleAt := some ((s.dropJob j.tag).now + Config.settleTime) }] } }) ?_ (view_updChan _ _ _)) (view_post _ _ _)
  refine ⟨h.nums, h.marks, fun hw => ?_, h.size, h.slots⟩
  obtain ⟨hl, hn⟩ := (jobsSound_iff s).1 (h.jobs hw)
  obtain ⟨hroom, hfree⟩ := hl.room (hk hw)
  exact (jobsSound_iff _).2 ⟨(hl.drop j.tag).activate (j := { j with
      state := .offered, channel := some c.num, posted := false, holds := 0, baseline := none
      settleAt := some ((s.dropJob j.tag).now + Config.settleTime) }) ⟨.inl rfl, rfl⟩ hroom hfree, hn⟩

theorem Sound.tryAdmit {j : Job} (h : SoundWith w m j s) : Sound w m (s.tryAdmit j) := by
  have h1 := h.runPass (.admission j.bay)
  unfold State.tryAdmit
  dsimp only
  split
  · exact Sound.takeChannel h1 _
  · exact h1.1
  · exact h1.1

/-- The queued jobs of a tag begin to wait for a wake. -/
theorem Sound.startWaking (h : Sound w m s) {j : Job} (hq : w.jobs → Keyed s.sched.queue j) :
    Sound w m (s.updJob j.tag fun j => { j with state := .waking }) := by
  refine ⟨h.nums, h.marks, fun hw => ?_, h.size, h.slots⟩
  obtain ⟨hl, hn⟩ := (jobsSound_iff s).1 (h.jobs hw)
  obtain ⟨k, hk, hkt, _⟩ := hq hw
  refine (jobsSound_iff _).2 ⟨hl.change j.tag _ (fun _ => ⟨rfl, rfl⟩) (fun i hi _ => ⟨.inr rfl, (hl.waits i hi).2⟩)
    fun i hi he => ?_, hn⟩
  have := hl.tag_unique (List.mem_append_left _ hi) (List.mem_append_right _ hk) (he.trans hkt.symm)
  have hon := onChannel_of_holds (hl.holds i hi)
  rw [this, onChannel_of_waits (hl.waits k hk)] at hon
  cases hon

/-- What one turn of the walk keeps: the invariants, and, while it goes on, the other jobs of the queue. -/
theorem Sound.scanJob (h : Sound w m s) {j : Job} (hq : w.jobs → Keyed s.sched.queue j) :
    Sound w m (s.scanJob j).1
      ∧ ((s.scanJob j).2 = false → ∀ k, k.tag ≠ j.tag → Keyed s.sched.queue k → Keyed (s.scanJob j).1.sched.queue k) := by
  have hend (r : JobReason) : Sound w m (s.endJob j false r false)
      ∧ (false = false → ∀ k : Job, k.tag ≠ j.tag → Keyed s.sched.queue k →
        Keyed (s.endJob j false r false).sched.queue k) :=
    ⟨h.endJob _ _ _ _, fun _ k hk hkq => by
      rw [endJob_queue]
      exact hkq.filter hk⟩
  have hstay : Sound w m s ∧ (false = false → ∀ k : Job, k.tag ≠ j.tag → Keyed s.sched.queue k → Keyed s.sched.queue k) :=
    ⟨h, fun _ _ _ hk => hk⟩
  unfold State.scanJob
  dsimp only
  split
  · exact hstay
  · split
    · rename_i ha
      split
      · exact hend _
      · refine ⟨Sound.startWaking (h.wake (by rw [ha]; simp)) hq, fun _ k _ hk => hk.map fun i => ?_⟩
        split <;> exact ⟨rfl, rfl⟩
    · split
      · exact hend _
      · split
        · exact hend _
        · split
          · exact hend _
          · split
            · exact ⟨Sound.tryAdmit ⟨h, fun hw => (hq hw).mono fun _ hi => List.mem_append_right _ hi⟩, fun hf => nomatch hf⟩
            · exact hstay
    all_goals exact hstay

theorem Sound.scanWalk : ∀ (js : List Job) {s : State}, Sound w m s → (w.jobs → (js.map (·.tag)).Nodup) →
    (w.jobs → ∀ j ∈ js, Keyed s.sched.queue j) → Sound w m (State.scanWalk js s)
  | [], _, h, _, _ => h
  | j :: js, s, h, hn, hk => by
    obtain ⟨h1, h2⟩ := h.scanJob (j := j) fun hw => hk hw j (List.mem_cons_self ..)
    unfold State.scanWalk
    dsimp only
    split
    · exact h1
    · rename_i hgo
      refine Sound.scanWalk js h1 (fun hw => (List.nodup_cons.1 (hn hw)).2) fun hw i hi => ?_
      refine h2 (by simpa using hgo) i (fun he => ?_) (hk hw i (List.mem_cons_of_mem _ hi))
      exact (List.nodup_cons.1 (hn hw)).1 (List.mem_map.2 ⟨i, hi, he⟩)

theorem Sound.runScan (h : Sound w m s) : Sound w m s.runScan := by
  refine Sound.scanWalk _ h (fun hw => ?_) fun _ j hj => ⟨j, hj, rfl, rfl⟩
  have := ((jobsSound_iff s).1 (h.jobs hw)).1.tags
  rw [List.map_append] at this
  exact (List.nodup_append.1 this).2.1

theorem Sound.payWork (h : Sound w m s) : Sound w m s.payWork :=
  Sound.servePasses (.ite (fun _ => h.servePasses.runScan) fun _ => h.servePasses)

/-! ## Latch units and drivers (R153 to R155) -/

theorem Sound.suspendUnit (h : Sound w m s) (u : Nat) : Sound w m (s.suspendUnit u) :=
  h.forEach _ fun _ _ _ ht => ht.suspendBay _

theorem Sound.setUnit (h : Sound w m s) (u : Nat) (st : UnitState) : Sound w m (s.setUnit u st) := by
  unfold State.setUnit
  split
  · exact h
  · rename_i r _
    refine .ite (fun _ => h) fun _ => ?_
    have h1 : Sound w m ((s.updUnit u fun r => r.become st s.now).forEach r.bays fun s b => s.post b .latch) :=
      Sound.forEach (h.of_view (view_updUnit s u _)) _ fun t b _ ht => ht.of_view (view_post t b .latch)
    have h2 := Sound.ite (p := r.state = .locked) (fun _ => h1.suspendUnit u) fun _ => h1
    exact .ite (fun _ => h2.of_view (view_askScan _)) fun _ => h2

theorem Sound.driverTakes (h : Sound w m s) (d : DriverId) : Sound w m (s.driverTakes d) := by
  unfold State.driverTakes
  split
  · exact Sound.setUnit ((h.of_view (view_dropMove s _)).of_view (view_latch _ _)) _ _
  · exact h
  · exact h

theorem Sound.driversTake (h : Sound w m s) : Sound w m s.driversTake := (h.driverTakes .a).driverTakes .b

/-! ## Lanes (R29) -/

theorem kickLane_bay (s : State) (r : Bay) : (s.kickLane r).num = r.num ∧ (s.kickLane r).enabled = r.enabled
    ∧ (s.kickLane r).present = r.present ∧ (s.kickLane r).sess = r.sess ∧ (s.kickLane r).lane.up = r.lane.up
    ∧ (r.lane.up = false → s.kickLane r = r) := by
  unfold State.kickLane
  split
  · rename_i hf
    have hup : r.lane.up = true := by
      unfold Lane.free at hf
      simp_all
    split
    · exact ⟨rfl, rfl, rfl, rfl, rfl, fun _ => rfl⟩
    · rename_i l hl
      exact ⟨rfl, rfl, rfl, rfl, (sameLane_laneNext hf hl).up, fun hn => by simp [hup] at hn⟩
  · exact ⟨rfl, rfl, rfl, rfl, rfl, fun _ => rfl⟩

theorem Sound.kickLanes (h : Sound w unmarked s) : Sound w unmarked s.kickLanes where
  nums hw := by
    refine Eq.trans ?_ (h.nums hw)
    unfold State.kickLanes
    rw [List.map_map]
    exact List.map_congr_left fun r _ => (kickLane_bay s r).1
  marks hw r hr := by
    obtain ⟨q, hq, rfl⟩ := List.mem_map.1 hr
    have hs : BaySound q := h.marks hw q hq
    obtain ⟨_, hen, hp, hse, hu, hsame⟩ := kickLane_bay s q
    cases hup : q.lane.up with
    | false =>
      rw [hsame hup]
      exact hs
    | true =>
      obtain ⟨h1, h2, h3, _⟩ := hs.live (.inr hup)
      exact BayLive.sound ⟨hen.trans h1, hp.trans h2, hse ▸ h3, hu.trans hup⟩
  jobs := h.jobs
  size := h.size
  slots := h.slots

/-! ## The end of an event -/

theorem Sound.settle (h : Sound w unmarked s) : Sound w unmarked s.settle :=
  ((h.payWork.driversTake.kickLanes.of_view (view_lightLamps _)).of_view (view_sendLimits _)).of_view (view_work _ _)

/-- The hub link has no part in the invariants. -/
theorem view_of_sameButLink {t : State} (h : t.sameButLink s) : view t = view s := by
  obtain ⟨a, rfl⟩ := (sameButLink_iff _ _).1 h
  rfl

theorem Sound.announce (h : Sound w m s) : Sound w m s.announce := h.of_view (view_of_sameButLink (announce_sameButLink s))

theorem Sound.conclude (h : Sound w unmarked s) : Sound w unmarked s.conclude := h.settle.announce

end Sys2Proof.Dock
end

