-- ==== Sys2Proof/Proofs/CarriedRequests.lean ====
section
/-! PROOF. The latch controller's operations, the cart monitor and every request carry the invariants of O35. -/

namespace Sys2Proof.Dock

open Machine Laws

variable {w : Wanted} {m : Nat → Mark} {s : State}

/-! ## The latch controller (R154 to R163) -/

theorem Sound.queueMove (h : Sound w m s) (u : Nat) (k : MoveKind) : Sound w m (s.queueMove u k) :=
  (h.setUnit u k.pendingState).of_view (view_latch _ _)

theorem Sound.completeMove (h : Sound w m s) (mv : Move) : Sound w m (s.completeMove mv) := by
  unfold State.completeMove
  split
  · exact (h.setUnit _ _).of_view (view_reportRelocked _ _ _)
  · have h1 := h.of_view (view_reportUnlocked s mv.unit)
    exact .ite (fun _ => h1.queueMove _ _) fun _ => h1.setUnit _ _

theorem Sound.jamMove (h : Sound w m s) (mv : Move) : Sound w m (s.jamMove mv) := by
  have h1 := (h.setUnit mv.unit .jammed).of_view (view_alarmUnit _ mv.unit .latch)
  unfold State.jamMove
  dsimp only
  split
  · exact h1.of_view (view_reportRelocked _ _ _)
  · exact h1.of_view (view_reportReleaseFailed _ _)

theorem Sound.positionRead (h : Sound w m s) (d : DriverId) (v : Drive) (locked : Bool) :
    Sound w m (s.positionRead d v locked) := by
  have h1 := h.of_view (view_updUnit s v.move.unit fun r => { r with posLocked := locked })
  refine .ite (fun _ => ?_) fun _ => .ite (fun _ => h1.of_view (view_latch _ _)) fun _ => ?_
  · exact (h1.of_view (view_latch _ _)).completeMove _
  · exact (h1.of_view (view_latch _ _)).jamMove _

theorem Sound.forceUnit (h : Sound w m s) (u : Nat) : Sound w m (s.forceUnit u) :=
  (h.setUnit u .forced).of_view (view_alarmUnit _ _ _)

theorem Sound.doorOpening (h : Sound w m s) (u : Nat) (st : UnitState) : Sound w m (s.doorOpening u st) := by
  have h1 := h.suspendUnit u
  cases st with
  | locked => exact h1.forceUnit u
  | unlockPending => exact ((h1.of_view (view_dropMove _ u)).forceUnit u).of_view (view_reportReleaseFailed _ _)
  | unlocking => exact ((h1.of_view (view_stopDrive _ u)).forceUnit u).of_view (view_reportReleaseFailed _ _)
  | unlatched => exact (h1.setUnit u .opened).of_view (view_reportDoorOpened _ _)
  | lockPending => exact ((h1.of_view (view_dropMove _ u)).setUnit u .opened).of_view (view_reportDoorOpened _ _)
  | locking => exact ((h1.of_view (view_stopDrive _ u)).setUnit u .opened).of_view (view_reportDoorOpened _ _)
  | opened => exact h1
  | forced => exact h1
  | jammed => exact h1

theorem Sound.doorClosing (h : Sound w m s) (u : Nat) (st : UnitState) : Sound w m (s.doorClosing u st) := by
  unfold State.doorClosing
  split
  · exact (h.queueMove u .lock).of_view (view_quietUnit _ _ _)
  all_goals exact h

theorem Sound.doorChanged (h : Sound w m s) (u : Nat) : Sound w m (s.doorChanged u) := by
  unfold State.doorChanged
  split
  · exact h
  · have h1 := h.of_view (view_updUnit s u fun r => { r with doorOpen := !r.doorOpen, doorAt := none })
    exact .ite (fun _ => h1.doorClosing _ _) fun _ => h1.doorOpening _ _

theorem Sound.windowLapses (h : Sound w m s) (u : Nat) : Sound w m (s.windowLapses u) :=
  (h.queueMove u .lock).of_view (view_reportLapsed _ _)

theorem Sound.forcedCleared (h : Sound w m s) (u : Nat) (locked : Bool) : Sound w m (s.forcedCleared u locked) := by
  have h1 := h.of_view (view_handBack s u)
  exact .ite (fun _ => h1.setUnit _ _) fun _ => h1.queueMove _ _

theorem Sound.latchCleared (h : Sound w m s) (u : Nat) : Sound w m (s.latchCleared u) := by
  unfold State.latchCleared
  split
  · exact h
  · have h1 := h.of_view (view_handBack s u)
    exact .ite (fun _ => .ite (fun _ => h1.setUnit _ _) fun _ => h1.queueMove _ _) fun _ => h

theorem Sound.cancelUnit (h : Sound w m s) (u : Nat) : Sound w m (s.cancelUnit u) := by
  unfold State.cancelUnit
  split
  · exact h
  · split
    · have h1 := (h.of_view (view_dropMove s u)).setUnit u .locked
      exact (h1.of_view (view_updEntry _ u fun e => if e.state = .pending then { e with state := .withdrawn } else e)).of_view
        (view_endGroupOfUnit _ _)
    · exact h.queueMove u .lock
    all_goals exact h

theorem Sound.changeMode (h : Sound w m s) (mo : Mode) : Sound w m (s.changeMode mo) := by
  have h1 := (h.of_view (view_mode s mo)).forEach ((s.toCancel mo).map (·.cred))
    (f := fun s c => s.updGroup c fun g => { g with cancelled := true }) fun t c _ ht => ht.of_view (view_updGroup t c _)
  exact (h1.forEach _ fun _ u _ ht => ht.cancelUnit u).of_view (view_askScan _)

/-! ## The cart monitor (R95) -/

theorem Sound.tempSample (h : Sound w m s) (v : Option Int) : Sound w m (s.tempSample v) := by
  have h1 := h.of_view (view_monitor s (s.monitor.sampled v (s.now + Config.tempSampleTime)))
  have h2 := Sound.ite (p := ((s.monitor.sampled v (s.now + Config.tempSampleTime)).hold && !s.monitor.hold) = true)
    (fun _ => h1.forEach (s.bays.map (·.num)) fun _ b _ ht => ht.suspendBay b) fun _ => h1
  unfold State.tempSample
  dsimp only
  refine Sound.of_view ?_ (view_passFor _ _ _)
  exact .ite (fun _ => h2.of_view (view_postCart _ _)) fun _ => h2

/-! ## Channels and presentations (R118, R140) -/

theorem Sound.channelSwitched (h : Sound w m s) (c : Channel) (on : Bool) : Sound w m (s.channelSwitched c on) := by
  refine .ite (fun _ => h) fun _ => ?_
  split
  · exact .ite (fun _ => h.of_view (view_askScan _)) fun _ => h
  · exact .ite (fun _ => h) fun _ => h.suspendBay _
  · exact h

theorem Sound.setChannels (h : Sound w m s) (mask : BitVec 8) : Sound w m (s.setChannels mask) := by
  have hfold : ∀ (l : List Channel) {s : State}, Sound w m s →
      Sound w m (l.foldl (fun s c => s.channelSwitched c (mask.getLsbD (c.num - 1))) s) := by
    intro l
    induction l with
    | nil => exact fun h => h
    | cons c l ih => exact fun h => ih (h.channelSwitched c _)
  exact hfold _ (h.of_view rfl)

theorem Sound.abortForRelease (h : Sound w m s) (i : Intent) (bays units : List Nat) (override : Bool) :
    Sound w m (s.abortForRelease i bays units override) := by
  have h1 := Sound.ite (p := i = .take) (fun _ => h.forEach bays
    (f := fun s b => if s.hasActiveJob b then s else s.abortBay b .cancelled false) fun _ _ _ ht =>
      .ite (fun _ => ht) fun _ => ht.abortBay _ _ _) fun _ => h
  exact .ite (fun _ => h1.forEach _ fun _ _ _ ht => .ite (fun _ => ht.abortBay _ _ _) fun _ => ht) fun _ => h1

theorem Sound.release (h : Sound w m s) (c : Nat) (i : Intent) (bays : List Nat) (allowance : Nat) (override : Bool) :
    Sound w m (s.release c i bays allowance override) := by
  have h1 := h.abortForRelease i bays (s.unitsOf bays) override
  exact (h1.of_view (view_custody _ _)).forEach _ fun _ _ _ ht => ht.queueMove _ _

/-! ## The rules of the requests -/

/-- A rule that carries the invariants. -/
def SoundRule (w : Wanted) (f : State → Decision) : Prop := ∀ s, Sound w unmarked s → Sound w unmarked (f s).1

theorem soundRule_sized {right : State → Bool} {f : State → Decision} (hf : SoundRule w f) :
    SoundRule w fun s => s.sized (right s) f := fun s h => by
  unfold State.sized
  dsimp only
  split
  exacts [hf s h, h]

theorem soundRule_onBay {b : Nat} {f : State → Decision} (hf : SoundRule w f) : SoundRule w fun s => s.onBay b f :=
  fun s h => by
    unfold State.onBay
    dsimp only
    split
    exacts [hf s h, h]

theorem soundRule_onBayOrZero {b : Nat} {f : State → Decision} (hf : SoundRule w f) :
    SoundRule w fun s => s.onBayOrZero b f := fun s h => by
  unfold State.onBayOrZero
  dsimp only
  split
  exacts [hf s h, h]

/-- A rule that either changes nothing or decides as `f`. -/
theorem soundRule_ite {p : State → Prop} [∀ s, Decidable (p s)] {f g : State → Decision} (hf : SoundRule w f)
    (hg : SoundRule w g) : SoundRule w fun s => if p s then f s else g s := fun s h => by
  dsimp only
  split
  exacts [hf s h, hg s h]

theorem soundRule_deny (r : Result) : SoundRule w fun s => s.deny r := fun _ h => h

theorem soundRule_report (body : State → Bytes) : SoundRule w fun s => s.report (body s) := fun _ h => h

/-- An accepted request: its operation, then the end of its event. -/
theorem soundRule_accept {f : State → State} {body : State → Bytes} (hf : ∀ s, Sound w unmarked s → Sound w unmarked (f s)) :
    SoundRule w fun s => (f s).accept (body s) := fun s h => (hf s h).settle

theorem Sound.accept (h : Sound w unmarked s) (body : Bytes) : Sound w unmarked (s.accept body).1 := h.settle

/-! ### Setup -/

theorem soundRule_resetBay (p : Bytes) : SoundRule w (decideResetBay p) :=
  soundRule_sized (right := fun _ => _) <| soundRule_onBay fun _ h =>
    Sound.of_view (h.resetBay rfl).settle (view_updBay _ _ _ fun _ => rfl)

theorem soundRule_setBays (p : Bytes) : SoundRule w (decideSetBays p) :=
  soundRule_sized (right := fun s => p.length == 5 + s.nBays) fun s h => by
    dsimp only
    split
    · exact h
    · split
      exacts [h, (h.setBays _ _).settle]

theorem soundRule_setMode (p : Bytes) : SoundRule w (decideSetMode p) :=
  soundRule_sized (right := fun _ => _) fun s h => by
    split
    · exact h
    · split
      exacts [h, (h.changeMode _).settle]

/-! ### Sessions and lanes -/

theorem soundRule_renegotiate (p : Bytes) : SoundRule w (decideRenegotiate p) :=
  soundRule_sized (right := fun _ => _) <| soundRule_onBay <| soundRule_ite (soundRule_deny _) <| soundRule_ite (soundRule_deny _) <|
    soundRule_accept (body := fun _ => _) fun _ h => h.hubRestart _

theorem soundRule_forceContract (p : Bytes) : SoundRule w (decideForceContract p) :=
  soundRule_sized (right := fun _ => _) <| soundRule_onBay <| soundRule_ite (p := fun _ => _) (soundRule_deny _) fun _ h =>
    (h.forceContract _ _).settle

theorem soundRule_wakeBay (p : Bytes) : SoundRule w (decideWakeBay p) :=
  soundRule_sized (right := fun _ => _) <| soundRule_onBay <| soundRule_ite (soundRule_deny _) fun s h => by
    split
    · rename_i ha
      exact (h.wake (by rw [ha]; simp)).settle
    all_goals exact h

theorem soundRule_setLaneFlags (p : Bytes) : SoundRule w (decideSetLaneFlags p) :=
  soundRule_sized (right := fun _ => _) <| soundRule_ite (p := fun _ => _) (soundRule_deny _) <| soundRule_onBayOrZero fun _ h =>
    (h.forEach _ fun _ b _ ht => ht.setLaneFlags b _ _).settle

/-! ### The budget and the stages -/

theorem soundRule_setBudget (p : Bytes) : SoundRule w (decideSetBudget p) :=
  soundRule_sized (right := fun _ => _) fun _ h =>
    ((h.of_view (view_writeBudget _ _ _ _ _)).of_view (view_budgetPass _)).settle

theorem soundRule_setThresholds (p : Bytes) : SoundRule w (decideSetThresholds p) :=
  soundRule_sized (right := fun _ => _) fun _ h => (h.of_view (view_setThresholds _ _ _ _)).settle

theorem soundRule_setPolicy (p : Bytes) : SoundRule w (decideSetPolicy p) :=
  soundRule_sized (right := fun _ => _) fun s h => by
    split
    exacts [h, (h.of_view (view_setPolicy _ _)).settle]

theorem soundRule_clearFault (p : Bytes) : SoundRule w (decideClearFault p) :=
  soundRule_sized (right := fun _ => _) <| soundRule_onBay fun s h => by
    split
    · exact Sound.settle ((h.of_view (view_updStage s _ _)).of_view (view_askNormal _))
    · exact h

/-! ### The profile store -/

theorem Sound.updSlot (h : Sound w m s) (k : Nat) (f : Slot → Slot) (hf : ∀ r, r.num = k → (f r).num = r.num) :
    Sound w m (s.updSlot k f) := h.of_view (view_updSlot s k f hf)

theorem soundRule_profileBegin (p : Bytes) : SoundRule w (decideProfileBegin p) :=
  soundRule_sized (right := fun _ => _) <| soundRule_ite (p := fun _ => _) (soundRule_deny _) fun s h => by
    split
    · exact h
    · split
      · exact h
      · split
        · exact h
        · split
          · exact h
          · refine Sound.accept (Sound.updSlot h _ _ ?_) _
            exact fun _ _ => rfl

theorem soundRule_profileData (p : Bytes) : SoundRule w (decideProfileData p) :=
  soundRule_sized (right := fun _ => _) <| soundRule_ite (p := fun _ => _) (soundRule_deny _) fun s h => by
    split
    · exact h
    · split
      · exact h
      · split
        · exact h
        · refine Sound.accept (Sound.updSlot h _ _ ?_) _
          exact fun _ _ => rfl

theorem soundRule_profileEnd (p : Bytes) : SoundRule w (decideProfileEnd p) :=
  soundRule_sized (right := fun _ => _) <| soundRule_ite (p := fun _ => _) (soundRule_deny _) fun s h => by
    split
    · exact h
    · split
      · refine Sound.accept (Sound.updSlot h _ _ ?_) _
        exact fun _ _ => rfl
      · exact h

theorem soundRule_profileDrop (p : Bytes) : SoundRule w (decideProfileDrop p) :=
  soundRule_sized (right := fun _ => _) <| soundRule_ite (p := fun _ => _) (soundRule_deny _) fun s h => by
    split
    · exact h
    · split
      exacts [h, (h.updSlot _ (fun _ => Slot.reset _) fun _ he => he.symm).settle]

/-! ### The job scheduler -/

theorem soundRule_catalogSet (p : Bytes) : SoundRule w (decideCatalogSet p) :=
  soundRule_sized (right := fun _ => _) <| soundRule_ite (p := fun _ => _) (soundRule_deny _) fun s h => by
    dsimp only
    split
    · split
      exacts [h, Sound.settle (h.of_view rfl)]
    · split
      exacts [h, Sound.settle (h.of_view rfl)]

theorem soundRule_catalogDrop (p : Bytes) : SoundRule w (decideCatalogDrop p) :=
  soundRule_sized (right := fun _ => _) fun s h => by
    dsimp only
    split
    · exact h
    · split
      exacts [h, Sound.settle (h.of_view rfl)]

theorem soundRule_queueJob (p : Bytes) : SoundRule w (decideQueueJob p) :=
  soundRule_sized (right := fun _ => _) <| soundRule_onBay <| soundRule_ite (p := fun _ => _) (soundRule_deny _) <|
    soundRule_ite (soundRule_deny _) <| soundRule_ite (soundRule_deny _) fun s h => by
      split
      · exact h
      · split
        · exact h
        · rename_i hj
          split
          · exact h
          · split
            · exact h
            · rename_i hf
              exact Sound.settle ((h.createJob (by simpa using hj) (by simpa using hf) _ _ _).hubReply _ _)

theorem soundRule_cancelJob (p : Bytes) : SoundRule w (decideCancelJob p) :=
  soundRule_sized (right := fun _ => _) fun s h => by
    split
    exacts [h, (h.endJob _ _ _ _).settle]

theorem soundRule_declineAsk (p : Bytes) : SoundRule w (decideDeclineAsk p) :=
  soundRule_sized (right := fun _ => _) <| soundRule_onBay fun s h => by
    split
    · exact h
    · split
      exacts [h, (h.hubReply _ _).settle]

theorem soundRule_setChannels (p : Bytes) : SoundRule w (decideSetChannels p) :=
  soundRule_sized (right := fun _ => _) fun s h => by
    dsimp only
    split
    exacts [h, (h.setChannels _).settle]

theorem soundRule_getJobs (p : Bytes) : SoundRule w (decideGetJobs p) :=
  soundRule_sized (right := fun _ => _) <| soundRule_ite (p := fun _ => _) (soundRule_deny _) fun s h => by
    split
    exacts [h, h]

/-! ### Roster and custody -/

theorem soundRule_rosterPut (p : Bytes) : SoundRule w (decideRosterPut p) :=
  soundRule_sized (right := fun _ => _) fun s h => by
    split
    exacts [h, Sound.settle (h.of_view (view_roster _ _))]

theorem soundRule_rosterRemove (p : Bytes) : SoundRule w (decideRosterRemove p) :=
  soundRule_sized (right := fun _ => _) <| soundRule_ite (soundRule_deny _) <| soundRule_ite (soundRule_deny _) fun _ h =>
    Sound.settle (h.of_view (view_roster _ _))

theorem soundRule_present (p : Bytes) : SoundRule w (decidePresent p) :=
  soundRule_sized (right := fun _ => _) fun s h => by
    dsimp only
    split
    · exact h
    · refine soundRule_ite (p := fun _ => _) (soundRule_deny _) (soundRule_onBayOrZero fun s h => ?_) s h
      split
      exacts [h, (h.release _ _ _ _ _).settle]

theorem soundRule_restoreCheckout (p : Bytes) : SoundRule w (decideRestoreCheckout p) :=
  soundRule_sized (right := fun _ => _) <| soundRule_ite (p := fun _ => _) (soundRule_deny _) <| soundRule_onBay fun s h => by
    dsimp only
    split
    · exact h
    · split
      · exact h
      · split
        · exact h
        · split
          exacts [h, (h.of_view (view_restore _ _ _ _)).settle]

theorem soundRule_acceptForeign (p : Bytes) : SoundRule w (decideAcceptForeign p) :=
  soundRule_sized (right := fun _ => _) <| soundRule_onBay <|
    soundRule_ite (fun _ h => (h.of_view (view_acceptForeign _ _)).settle) (soundRule_deny _)

theorem soundRule_clearAlarm (p : Bytes) (high : Nat → Bool) : SoundRule w (decideClearAlarm p high) :=
  soundRule_sized (right := fun _ => _) <| soundRule_onBay fun s h => by
    dsimp only
    split
    · exact h
    · split
      · exact h
      · split
        · exact h
        · split
          · exact h
          · exact Sound.settle (Sound.forcedCleared ((h.of_view (view_readLpos _ _ _)).of_view (view_quietUnit _ _ _)) _ _)
        · exact Sound.settle (Sound.latchCleared (h.of_view (view_quietUnit _ _ _)) _)
        · exact Sound.settle (h.of_view (view_removeAlarm _ _ _))
        · exact Sound.settle (h.of_view (view_removeAlarm _ _ _))

theorem soundRule_setCustody (p : Bytes) : SoundRule w (decideSetCustody p) :=
  soundRule_sized (right := fun _ => _) fun _ h => (h.of_view (view_setAjarLimit _ _)).settle

/-! ### Notices -/

theorem soundRule_setNotices (p : Bytes) : SoundRule w (decideSetNotices p) :=
  soundRule_sized (right := fun _ => _) <| soundRule_ite (p := fun _ => _) (soundRule_deny _) fun s h =>
    Sound.settle (h.of_view (view_hub s _))

theorem soundRule_readEvents (p : Bytes) : SoundRule w (decideReadEvents p) :=
  soundRule_sized (right := fun _ => _) <| soundRule_onBayOrZero fun s h => by
    unfold State.readSet
    split
    · exact h.of_view rfl
    · exact h.of_view ((view_hub _ _).trans (view_updBay s _ _ fun _ => rfl))

end Sys2Proof.Dock
end

