-- ==== Sys2Proof/Proofs/CarriedCommit.lean ====
section
/-! PROOF. The commit makes the invariants of O35: bays 1 to 6n, of which the PRESENT ones are about to have a session. -/

namespace Sys2Proof.Dock

open Machine Laws

variable {w : Wanted} {s : State}

theorem newBay_num (n : Nat) (inp : Inputs) (g : RankGeo) (k b : Nat) : (newBay n inp g k b).num = b := by
  unfold newBay
  dsimp only
  split <;> rfl

/-- Rank `k + 1`'s bays follow the `6 * k` before them. -/
theorem rankBays_eq (k : Nat) : rankBays (k + 1) = (List.range 6).map (6 * k + 1 + ·) := by
  unfold rankBays
  exact List.map_congr_left fun i _ => by omega

/-- The numbers of the ranks' bays, in order (00, "Numbering of bays and ranks"). -/
theorem ranks_nums (n : Nat) (inp : Inputs) : ∀ (rs : List RankGeo) (k : Nat),
    ((rs.zipIdx (k + 1)).map fun x => (rankBays x.2).map (newBay n inp x.1 x.2)).flatten.map (·.num)
      = (List.range (6 * rs.length)).map (6 * k + 1 + ·)
  | [], _ => rfl
  | r :: rs, k => by
    have ih := ranks_nums n inp rs (k + 1)
    rw [List.zipIdx_cons, List.map_cons, List.flatten_cons, List.map_append, ih, List.length_cons,
      show 6 * (rs.length + 1) = 6 + 6 * rs.length by omega, List.range_add, List.map_append, List.map_map, rankBays_eq,
      List.map_map, List.map_map]
    refine congrArg₂ (· ++ ·) (List.map_congr_left fun i _ => newBay_num ..) (List.map_congr_left fun i _ => ?_)
    simp only [Function.comp]
    omega

/-- A new bay is enabled and has no session. -/
theorem newBay_holds (n : Nat) (inp : Inputs) (g : RankGeo) (k b : Nat) :
    (newBay n inp g k b).enabled = true ∧ OffBay (newBay n inp g k b) := by
  unfold newBay
  dsimp only
  split <;> exact ⟨rfl, rfl, rfl, rfl, rfl, ⟨rfl, rfl, rfl, rfl, rfl, rfl⟩, ⟨rfl, rfl⟩, rfl⟩

/-- The bays of a list are about to start their sessions, and of every other the invariant is known. -/
def toStart (l : List Nat) : Nat → Mark := fun c => if c ∈ l then .starting else .any

theorem Sound.startAll : ∀ (l : List Nat) {s : State}, l.Nodup → Sound w (toStart l) s →
    Sound w unmarked (s.forEach l fun s b => s.startSession b)
  | [], _, _, h => by
    have : toStart [] = unmarked := funext fun c => if_neg (by simp)
    exact this ▸ h
  | b :: l, s, hn, h => by
    obtain ⟨hb, hl⟩ := List.nodup_cons.1 hn
    have h1 := Sound.startSession h (b := b) (if_pos (List.mem_cons_self ..))
    have h2 : Sound w (remark (remark (toStart (b :: l)) b .live) b .any) (s.startSession b) :=
      h1.become fun hw r hr he => by
        have := h1.atBay hw b r hr he
        rw [remark_self] at this
        exact this.sound
    rw [remark_again, show remark (toStart (b :: l)) b .any = toStart l from funext fun c => by
      unfold remark toStart
      by_cases hc : c = b
      · rw [if_pos hc, if_neg (hc ▸ hb)]
      · simp [hc]] at h2
    exact Sound.startAll l hl h2

theorem Sound.commit (h : Sound w unmarked s) (g : Geometry) (inp : Inputs) (hg : g.ranks.length ≤ 6) :
    Sound w (toStart (((s.commit g inp).bays.filter (·.present)).map (·.num))) (s.commit g inp) where
  nums _ := by
    refine (ranks_nums s.now inp g.ranks 0).trans (List.map_congr_left fun i _ => ?_)
    omega
  marks _ r hr := by
    obtain ⟨l, hl, hrl⟩ := List.mem_flatten.1 hr
    obtain ⟨x, _, rfl⟩ := List.mem_map.1 hl
    obtain ⟨b, _, rfl⟩ := List.mem_map.1 hrl
    obtain ⟨hen, hoff⟩ := newBay_holds s.now inp x.1 x.2 b
    unfold toStart
    split
    · rename_i hm
      obtain ⟨q, hq, he⟩ := List.mem_map.1 hm
      obtain ⟨hq, hp⟩ := List.mem_filter.1 hq
      have hnd : ((s.commit g inp).bays.map (·.num)).Nodup := by
        rw [show (s.commit g inp).bays.map (·.num) = _ from ranks_nums s.now inp g.ranks 0]
        exact List.nodup_range.map fun _ _ h => by simpa using h
      exact ⟨hen, List.inj_on_of_nodup_map hnd hq hr he ▸ hp⟩
    · rename_i hm
      refine ⟨fun _ hp => absurd (List.mem_map.2 ⟨_, List.mem_filter.2 ⟨hr, hp⟩, rfl⟩) hm, fun _ => hoff⟩
  jobs hw := (jobsSound_iff _).2 ⟨⟨(fun _ hj => nomatch hj), (fun _ hj => nomatch hj), Nat.zero_le _, List.nodup_nil,
    List.nodup_nil⟩, ((jobsSound_iff s).1 (h.jobs hw)).2⟩
  size _ := show 6 * g.ranks.length ≤ 36 by omega
  slots := h.slots

theorem parseRanks_length : ∀ (k : Nat) (p : Bytes) (rs : List RankGeo), parseRanks k p = some rs → rs.length = k
  | 0, _, rs, h => by
    cases h
    rfl
  | k + 1, p, rs, h => by
    unfold parseRanks at h
    split at h
    · rename_i hr
      cases h
      rw [List.length_cons, parseRanks_length k _ _ hr]
    · cases h

theorem parseGeometry_ranks {p : Bytes} {g : Geometry} (h : parseGeometry p = some g) : g.ranks.length ≤ 6 := by
  unfold parseGeometry at h
  dsimp only at h
  split at h
  · rename_i hr
    obtain ⟨rs, hrs, rfl⟩ := Option.map_eq_some_iff.1 h
    rw [parseRanks_length _ _ _ hrs]
    exact hr.2.1
  · cases h

theorem soundRule_commit (p : Bytes) (inp : Inputs) : SoundRule w (decideCommit p inp) :=
  soundRule_ite (soundRule_deny _) <| soundRule_sized (right := fun _ => _) fun s h => by
    split
    · exact h
    · rename_i g hg
      have h1 := h.commit g inp (parseGeometry_ranks hg)
      have hn : (((s.commit g inp).bays.filter (·.present)).map (·.num)).Nodup := by
        refine List.Nodup.sublist ((List.filter_sublist (p := fun r : Bay => r.present)).map _) ?_
        rw [show (s.commit g inp).bays.map (·.num) = _ from ranks_nums s.now inp g.ranks 0]
        exact List.nodup_range.map fun _ _ h => by simpa using h
      exact Sound.accept (Sound.of_view (Sound.startAll _ hn h1) (view_askNormal _)) _

/-! ## The hub link -/

theorem soundRule_frame (f : Frame) (l : Levels) : SoundRule w (decideFrame f l) := fun s h => by
  unfold decideFrame
  split
  · exact h
  · rename_i k _
    split
    · exact h
    · cases k with
      | getCart => exact soundRule_sized (right := fun _ => _) (soundRule_report _) s h
      | getBay => exact soundRule_sized (right := fun _ => _) (soundRule_onBay (soundRule_report _)) s h
      | resetPart => exact soundRule_sized (right := fun _ => _) (fun s h => h.of_view (view_hub s _)) s h
      | resetBay => exact soundRule_resetBay _ s h
      | commitGeometry => exact soundRule_commit _ _ s h
      | setBays => exact soundRule_setBays _ s h
      | setMode => exact soundRule_setMode _ s h
      | renegotiate => exact soundRule_renegotiate _ s h
      | forceContract => exact soundRule_forceContract _ s h
      | wakeBay => exact soundRule_wakeBay _ s h
      | setLaneFlags => exact soundRule_setLaneFlags _ s h
      | setBudget => exact soundRule_setBudget _ s h
      | setThresholds => exact soundRule_setThresholds _ s h
      | setPolicy => exact soundRule_setPolicy _ s h
      | getBudget => exact soundRule_sized (right := fun _ => _) (soundRule_report _) s h
      | clearFault => exact soundRule_clearFault _ s h
      | profileBegin => exact soundRule_profileBegin _ s h
      | profileData => exact soundRule_profileData _ s h
      | profileEnd => exact soundRule_profileEnd _ s h
      | profileDrop => exact soundRule_profileDrop _ s h
      | getProfiles => exact soundRule_sized (right := fun _ => _) (soundRule_report _) s h
      | catalogSet => exact soundRule_catalogSet _ s h
      | catalogDrop => exact soundRule_catalogDrop _ s h
      | queueJob => exact soundRule_queueJob _ s h
      | cancelJob => exact soundRule_cancelJob _ s h
      | declineAsk => exact soundRule_declineAsk _ s h
      | setChannels => exact soundRule_setChannels _ s h
      | getJobs => exact soundRule_getJobs _ s h
      | rosterPut => exact soundRule_rosterPut _ s h
      | rosterRemove => exact soundRule_rosterRemove _ s h
      | rosterGet => exact soundRule_sized (right := fun _ => _) (soundRule_report _) s h
      | present => exact soundRule_present _ s h
      | restoreCheckout => exact soundRule_restoreCheckout _ s h
      | acceptForeign => exact soundRule_acceptForeign _ s h
      | clearAlarm => exact soundRule_clearAlarm _ _ s h
      | setCustody => exact soundRule_setCustody _ s h
      | setNotices => exact soundRule_setNotices _ s h
      | readEvents => exact soundRule_readEvents _ s h

theorem Sound.startOutput {m : Nat → Mark} (h : Sound w m s) : Sound w m s.startOutput :=
  h.of_view (view_of_sameButLink (startOutput_sameButLink s))

theorem Sound.takeFrame (h : Sound w unmarked s) (f : Frame) (l : Levels) :
    Sound w unmarked (s.takeFrame f (decideFrame f l)) := by
  refine .ite (fun _ => Sound.startOutput ?_) fun _ => Sound.announce ?_
  · unfold State.busyReply
    split
    exacts [h, h.of_view (view_hub s _)]
  · exact (soundRule_frame f l _ (h.of_view (view_hub s _))).of_view (view_hub _ _)

theorem Sound.hearBytes (h : Sound w unmarked s) (l : Levels) (bytes : Bytes) : Sound w unmarked (s.hearBytes l bytes) :=
  hearBytes_keeps (fun _ _ hs => hs.of_view (view_hub _ _)) (fun _ f hs => hs.takeFrame f l) h bytes

end Sys2Proof.Dock
end

