-- ==== Sys2Proof/Proofs/CarriedEvents.lean ====
section
/-! PROOF. Every command carries the invariants of O35. -/

namespace Sys2Proof.Dock

open Machine Laws

variable {w : Wanted}

/-! ## Forms -/

/-- A command that carries the wanted invariants. -/
abbrev KeepsSound (w : Wanted) (a : State → Answer) : Prop := Keeps (Sound w unmarked) a

theorem soundTimer {due : State → Option Nat} {f : State → State}
    (hf : ∀ s, Sound w unmarked s → Sound w unmarked (f s)) : KeepsSound w fun s => timerEvent s (due s) f :=
  keeps_timerEvent fun s d _ h => (hf _ (h.of_view (view_reach s d))).conclude

/-- A timer of a session, which is one that is not OFF. -/
theorem soundSessTimer {b : Nat} {due : Session → Option Nat} {f : State → State} (hoff : ∀ x, SessOff x → due x = none)
    (hf : ∀ (n : Nat → Mark) (s : State), n b ≠ .any → Sound w n s → Sound w n (f s)) :
    KeepsSound w fun s => timerEvent s (due (s.bay b).sess) f :=
  keeps_timerEvent fun s d hd h => by
    have hp : (due ((s.reach d).bay b).sess).isSome = true := by
      rw [show (s.reach d).bay b = s.bay b from rfl, hd]
      rfl
    exact Sound.conclude <| Sound.onSess (h.of_view (view_reach s d)) (P := fun x => (due x).isSome = true) hp
      (fun x hx hs => by rw [hoff x hx] at hs; cases hs) fun n hb hn => hf n _ hb hn

theorem soundLane {b : Nat} {act : LaneAct} {f : State → State}
    (hf : ∀ (n : Nat → Mark) (s : State), n b ≠ .any → Sound w n s → Sound w n (f s)) :
    KeepsSound w fun s => laneEvent s b act f :=
  keeps_laneEvent fun _ hu h => (h.on (.inr hu) fun n hb hn => hf n _ hb hn).conclude

theorem soundJobTimer {b : Nat} {due : Job → Option Nat} {f : State → Job → State}
    (hf : ∀ s j, Sound w unmarked s → Sound w unmarked (f s j)) : KeepsSound w fun s => jobTimer s b due f :=
  keeps_jobTimer fun s _ d _ h => (hf _ _ (h.of_view (view_reach s d))).conclude

theorem soundDrive {d : DriverId} {ph : MovePhase} {f : State → Drive → State}
    (hf : ∀ s v, Sound w unmarked s → Sound w unmarked (f s v)) : KeepsSound w fun s => driveEvent s d ph f :=
  keeps_driveEvent fun s _ n h => (hf _ _ (h.of_view (view_reach s n))).conclude

theorem sound_of_request {s t : State} {k : ReqKind} {tag : Byte} {p : Bytes} {l : Levels}
    (h : request s k tag p l = .next t) (hs : Sound w unmarked s) : Sound w unmarked t :=
  keeps_whenLive (fun _ hs => hs.hearBytes l _) s t h hs

/-! ## Reset causes and the hub link -/

/-- At reset there are no bays and no jobs, and the slots are empty. -/
theorem sound_reset : Sound w unmarked State.reset where
  nums _ := rfl
  marks _ _ hr := nomatch hr
  jobs _ := (jobsSound_iff _).2 ⟨⟨(fun _ hj => nomatch hj), (fun _ hj => nomatch hj), Nat.zero_le _, List.nodup_nil,
    List.nodup_nil⟩, by decide⟩
  size _ := Nat.zero_le _
  slots _ := rfl

theorem sound_partReset (s : State) : Sound w unmarked s.partReset := sound_reset.of_view rfl

theorem Sound.frameSent {s : State} (h : Sound w unmarked s) : Sound w unmarked s.frameSent := by
  unfold State.frameSent
  split
  · exact h
  · dsimp only
    split
    · split
      · exact sound_partReset _
      · exact Sound.startOutput ((h.of_view (view_hub _ _)).of_view (view_hub _ _))
    · exact Sound.startOutput (h.of_view (view_hub _ _))
    · exact Sound.startOutput (h.of_view (view_hub _ _))

theorem sound_execPowerOn : KeepsSound w execPowerOn := by
  rintro s t ⟨⟩ _
  exact sound_partReset s

theorem sound_execResetNLow : KeepsSound w execResetNLow := by
  rintro s t ⟨⟩ _
  exact (sound_partReset s).of_view rfl

theorem sound_execResetNHigh : KeepsSound w execResetNHigh := by
  rintro s t ⟨⟩ h
  split
  exacts [h, (sound_partReset s).of_view rfl]

theorem sound_execHubRxGapTimeout : KeepsSound w execHubRxGapTimeout := keeps_whenLive fun s h => h.of_view (view_hub s _)

theorem sound_execHubFrameCorrupt (run : RxRun) : KeepsSound w (execHubFrameCorrupt run) :=
  keeps_whenLive fun _ h => h.hearBytes _ _

theorem sound_execHubRxByteFault (f : HubByteFault) : KeepsSound w (execHubRxByteFault f) :=
  keeps_whenLive fun s h => h.of_view (view_hub s _)

theorem sound_execUnknownKind (kind tag : Byte) (p : Bytes) : KeepsSound w (execUnknownKind kind tag p) :=
  keeps_whenLive fun _ h => .ite (fun _ => h) fun _ => h.hearBytes _ _

theorem sound_execHubFrameSent : KeepsSound w execHubFrameSent := keeps_whenLive fun _ h => h.frameSent

/-! ## Lanes and answers -/

theorem sound_execCallSent (b : Nat) : KeepsSound w (execCallSent b) :=
  soundLane fun _ _ hb hs => hs.updLaneLive hb

theorem sound_execClash (b : Nat) : KeepsSound w (execClash b) :=
  soundLane fun _ _ hb hs => (hs.updLaneLive hb).failAttempt hb .clash

theorem sound_execNoAnswer (b : Nat) : KeepsSound w (execNoAnswer b) :=
  soundLane fun _ _ hb hs => (hs.of_view (view_reach _ _)).failAttempt hb .noAnswer

theorem sound_execAnswerIncomplete (b : Nat) : KeepsSound w (execAnswerIncomplete b) :=
  soundLane fun _ _ hb hs => (hs.of_view (view_reach _ _)).failAttempt hb .short

theorem sound_execAnswerByteFault (b : Nat) (f : LaneByteFault) : KeepsSound w (execAnswerByteFault b f) :=
  soundLane fun _ _ hb hs => hs.failAttempt hb _

theorem sound_execQuietEnd (b : Nat) : KeepsSound w (execQuietEnd b) :=
  soundLane fun _ _ hb hs => (hs.of_view (view_reach _ _)).updLaneLive hb

theorem sound_execWakePulseEnd (b : Nat) : KeepsSound w (execWakePulseEnd b) :=
  soundLane fun _ _ hb hs => (hs.of_view (view_reach _ _)).releasePulse hb

theorem sound_execAbility (b : Nat) (p : Bytes) : KeepsSound w (execAbility b p) :=
  soundLane fun _ _ hb hs => hs.judgeAnswer hb _ p

theorem sound_execConfirmAnswer (b : Nat) (p : Bytes) : KeepsSound w (execConfirmAnswer b p) :=
  soundLane fun _ _ hb hs => hs.judgeAnswer hb _ p

theorem sound_execStatus (b : Nat) (p : Bytes) : KeepsSound w (execStatus b p) :=
  soundLane fun _ _ hb hs => hs.judgeAnswer hb _ p

theorem sound_execIdentityChunk (b : Nat) (p : Bytes) : KeepsSound w (execIdentityChunk b p) :=
  soundLane fun _ _ hb hs => hs.judgeAnswer hb _ p

theorem sound_execChunkHandshake (b : Nat) (p : Bytes) : KeepsSound w (execChunkHandshake b p) :=
  soundLane fun _ _ hb hs => hs.judgeAnswer hb _ p

theorem sound_execEnvelopeHandshake (b : Nat) (p : Bytes) : KeepsSound w (execEnvelopeHandshake b p) :=
  soundLane fun _ _ hb hs => hs.judgeAnswer hb _ p

theorem sound_execReceipt (b : Nat) (p : Bytes) : KeepsSound w (execReceipt b p) :=
  soundLane fun _ _ hb hs => hs.judgeAnswer hb _ p

theorem sound_execStopHandshake (b : Nat) (call : StopCall) (p : Bytes) : KeepsSound w (execStopHandshake b call p) :=
  soundLane fun _ _ hb hs => hs.judgeAnswer hb _ p

theorem sound_execBadAnswer (b : Nat) (kind : Byte) (p : Bytes) (crc : Byte) : KeepsSound w (execBadAnswer b kind p crc) :=
  keeps_ite _ keeps_next <| soundLane fun _ _ hb hs =>
    .ite (fun _ => hs.failAttempt hb _) fun _ => .ite (fun _ => hs.failAttempt hb _) fun _ => hs.judgeAnswer hb kind p

theorem sound_execRetry (b : Nat) : KeepsSound w (execRetry b) :=
  keeps_ite _ keeps_next <| soundLane fun _ _ hb hs => (hs.of_view (view_reach _ _)).nextAttempt hb

theorem sound_execWakeAttemptDue (b : Nat) : KeepsSound w (execWakeAttemptDue b) :=
  keeps_ite _ (soundLane fun _ s hb hs => .ite (fun _ => hs.of_view (view_reach s _)) fun _ =>
    (hs.of_view (view_reach s _)).nextAttempt hb) keeps_next

theorem sound_execWakeWindowEnd (b : Nat) : KeepsSound w (execWakeWindowEnd b) :=
  keeps_timerEvent (due := fun s => s.wakeEnd b) fun s d hd h => by
    have hw : (s.bay b).sess.state = .waking := by
      unfold State.wakeEnd at hd
      split at hd
      · assumption
      · cases hd
    exact Sound.conclude <| Sound.onState (h.of_view (view_reach s d)) (b := b)
      (by rw [show (s.reach d).bay b = s.bay b from rfl, hw]; simp) fun _ hb hn => hn.closeWindow hb

/-! ## Presence and session timers -/

theorem sound_execPresenceChange (b : Nat) (high : Bool) : KeepsSound w (execPresenceChange b high) :=
  keeps_pin (m := fun s => s.presMeans b high) (f := fun s level => s.presenceLevel b high level)
    fun _ _ h => (h.of_view (view_presenceLevel _ b high _)).conclude

/-- A greeting of bay `b` after a change of its session that goes on. -/
theorem Sound.greet {n : Nat → Mark} {s : State} (h : Sound w n s) {b : Nat} (hb : n b ≠ .any) {f : Session → Session}
    (hl : ∀ x, x.state ≠ .off → (f x).state ≠ .off) (c : Call) (p : Plan) :
    Sound w n ((s.updSess b f).postGreeting b c p) := (h.updSessLive hb hl).postGreeting hb c p

theorem sound_execGreetingHoldExpiry (b : Nat) : KeepsSound w (execGreetingHoldExpiry b) :=
  soundSessTimer (due := (·.greetAt)) (fun x hx => by rw [hx]; rfl) fun _ _ hb hs => by
    refine Sound.greet hs hb ?_ _ _
    exact fun _ hx => hx

theorem sound_execBreakExpiry (b : Nat) : KeepsSound w (execBreakExpiry b) :=
  soundSessTimer (due := (·.breakAt)) (fun x hx => by rw [hx]; rfl) fun _ _ hb hs => by
    refine Sound.greet hs hb ?_ _ _
    simp

theorem sound_execFallbackExpiry (b : Nat) : KeepsSound w (execFallbackExpiry b) :=
  soundSessTimer (due := (·.fallAt)) (fun x hx => by rw [hx]; rfl) fun _ _ hb hs => by
    refine Sound.greet hs hb ?_ _ _
    exact fun _ hx => hx

theorem sound_execPollTimer (b : Nat) : KeepsSound w (execPollTimer b) :=
  soundSessTimer (due := (·.pollAt)) (fun x hx => by rw [hx]; rfl) fun _ _ hb hs => by
    refine Sound.pollDue (Sound.updSessLive hs hb ?_) b
    exact fun _ hx => hx

theorem sound_execRefreshExpiry (b : Nat) : KeepsSound w (execRefreshExpiry b) :=
  soundSessTimer (due := (·.refreshAt)) (fun x hx => by rw [hx]; rfl) fun _ _ hb hs => hs.beginWake hb

/-! ## The other timers and samples -/

theorem sound_execPeriodicTimer : KeepsSound w execPeriodicTimer :=
  soundTimer fun _ h => (h.of_view (view_alloc _ _)).of_view (view_askNormal _)

theorem sound_execScheduledPass : KeepsSound w execScheduledPass :=
  soundTimer fun _ h => h.runPass .normal

theorem sound_execStageSample (b : Nat) (draw : BitVec 16) (mv : Nat) : KeepsSound w (execStageSample b draw mv) :=
  soundTimer fun _ h => (h.of_view (view_updStage _ _ _)).of_view (view_stageSample _ _ _ _)

theorem sound_execTrip (b : Nat) : KeepsSound w (execTrip b) :=
  soundTimer fun _ h => h.of_view (view_tripStage _ b)

theorem sound_execCoolOffExpiry (b : Nat) : KeepsSound w (execCoolOffExpiry b) :=
  soundTimer fun _ h => (h.of_view (view_updStage _ b _)).of_view (view_askNormal _)

theorem sound_execTsenseSample (r : TempReading) : KeepsSound w (execTsenseSample r) :=
  soundTimer fun _ h => h.tempSample _

theorem sound_execWsenseSample (v : BitVec 16) : KeepsSound w (execWsenseSample v) :=
  soundTimer fun _ h => h.of_view (view_wallSample _ v)

theorem sound_execChunkResendExpiry (b : Nat) : KeepsSound w (execChunkResendExpiry b) :=
  soundTimer fun s h => by
    refine Sound.postChunk (h.of_view (view_updBay s b _ ?_)) b
    exact fun _ => rfl

theorem sound_execScanTimer : KeepsSound w execScanTimer :=
  soundTimer fun _ h => (h.of_view rfl).of_view (view_askScan _)

theorem sound_execRampTick : KeepsSound w execRampTick :=
  soundTimer fun _ h => (h.of_view (view_rampAt _ _)).of_view (view_rampTick _)

theorem sound_execPresenceDebounce (b : Nat) : KeepsSound w (execPresenceDebounce b) :=
  soundTimer fun _ h => h.presenceTaken rfl

theorem sound_execDoorDebounce (u : Nat) : KeepsSound w (execDoorDebounce u) :=
  soundTimer fun _ h => h.doorChanged u

theorem sound_execUnlatchWindowExpiry (u : Nat) : KeepsSound w (execUnlatchWindowExpiry u) :=
  soundTimer fun _ h => h.windowLapses u

theorem sound_execAjarLimit (u : Nat) : KeepsSound w (execAjarLimit u) :=
  soundTimer fun _ h => h.of_view (view_reportAjar _ u)

theorem sound_execSettleExpiry (b : Nat) : KeepsSound w (execSettleExpiry b) :=
  soundJobTimer fun _ j h => by
    refine Sound.postEnvelope (h.updJob_same j.tag ?_) j
    exact fun _ => ⟨rfl, rfl, rfl, rfl⟩

theorem sound_execEnvelopeResendExpiry (b : Nat) : KeepsSound w (execEnvelopeResendExpiry b) :=
  soundJobTimer fun _ j h => by
    refine Sound.postEnvelope (h.updJob_same j.tag ?_) j
    exact fun _ => ⟨rfl, rfl, rfl, rfl⟩

theorem sound_execStallExpiry (b : Nat) : KeepsSound w (execStallExpiry b) :=
  soundJobTimer fun _ j h => h.endJob j _ _ _

theorem sound_execTimeLimitExpiry (b : Nat) : KeepsSound w (execTimeLimitExpiry b) :=
  soundJobTimer fun _ j h => h.endJob j _ _ _

theorem sound_execDrainExpiry (c : Nat) : KeepsSound w (execDrainExpiry c) :=
  soundTimer (due := fun s => (s.chan? c).bind Channel.drainAt) fun s h => by
    have h1 := h.of_view (view_updChan s c fun r => { r with state := .idle })
    unfold State.drained
    dsimp only
    split
    · exact h1
    · exact .ite (fun _ => h1.of_view (view_askScan _)) fun _ => h1

theorem sound_execMotorPulseEnd (d : DriverId) : KeepsSound w (execMotorPulseEnd d) :=
  soundDrive fun s _ h => h.of_view (view_latch s _)

theorem sound_execPositionCheck (d : DriverId) (high : Bool) : KeepsSound w (execPositionCheck d high) :=
  soundDrive fun _ _ h => (h.of_view (view_readLpos _ _ _)).positionRead _ _ _

theorem sound_execRetryWaitEnd (d : DriverId) : KeepsSound w (execRetryWaitEnd d) :=
  soundDrive fun s _ h => h.of_view (view_latch s _)

theorem sound_execDoorChange (u : Nat) (high : Bool) : KeepsSound w (execDoorChange u high) :=
  keeps_pin (m := fun s => s.doorMeans u high) (f := fun s level => s.doorLevel u high level)
    fun _ _ h => (h.of_view (view_doorLevel _ u high _)).conclude

/-! ## Every command -/

theorem exec_sound {c : Instr} {s t : State} (h : exec c s = .next t) (hs : Sound w unmarked s) : Sound w unmarked t := by
  cases c with
  | powerOn => exact sound_execPowerOn s t h hs
  | resetNLow => exact sound_execResetNLow s t h hs
  | resetNHigh => exact sound_execResetNHigh s t h hs
  | hubRxGapTimeout => exact sound_execHubRxGapTimeout s t h hs
  | hubFrameCorrupt run => exact sound_execHubFrameCorrupt run s t h hs
  | hubRxByteFault f => exact sound_execHubRxByteFault f s t h hs
  | unknownKind kind tag p => exact sound_execUnknownKind kind tag p s t h hs
  | hubFrameSent => exact sound_execHubFrameSent s t h hs
  | callSent b => exact sound_execCallSent b s t h hs
  | clash b => exact sound_execClash b s t h hs
  | noAnswer b => exact sound_execNoAnswer b s t h hs
  | answerIncomplete b => exact sound_execAnswerIncomplete b s t h hs
  | answerByteFault b f => exact sound_execAnswerByteFault b f s t h hs
  | badAnswer b kind p crc => exact sound_execBadAnswer b kind p crc s t h hs
  | retry b => exact sound_execRetry b s t h hs
  | wakeAttemptDue b => exact sound_execWakeAttemptDue b s t h hs
  | wakeWindowEnd b => exact sound_execWakeWindowEnd b s t h hs
  | quietEnd b => exact sound_execQuietEnd b s t h hs
  | wakePulseEnd b => exact sound_execWakePulseEnd b s t h hs
  | ability b p => exact sound_execAbility b p s t h hs
  | confirmAnswer b p => exact sound_execConfirmAnswer b p s t h hs
  | status b p => exact sound_execStatus b p s t h hs
  | identityChunk b p => exact sound_execIdentityChunk b p s t h hs
  | chunkHandshake b p => exact sound_execChunkHandshake b p s t h hs
  | envelopeHandshake b p => exact sound_execEnvelopeHandshake b p s t h hs
  | stopHandshake b call p => exact sound_execStopHandshake b call p s t h hs
  | receipt b p => exact sound_execReceipt b p s t h hs
  | presenceChange b high => exact sound_execPresenceChange b high s t h hs
  | presenceDebounce b => exact sound_execPresenceDebounce b s t h hs
  | greetingHoldExpiry b => exact sound_execGreetingHoldExpiry b s t h hs
  | breakExpiry b => exact sound_execBreakExpiry b s t h hs
  | fallbackExpiry b => exact sound_execFallbackExpiry b s t h hs
  | pollTimer b => exact sound_execPollTimer b s t h hs
  | refreshExpiry b => exact sound_execRefreshExpiry b s t h hs
  | scheduledPass => exact sound_execScheduledPass s t h hs
  | periodicTimer => exact sound_execPeriodicTimer s t h hs
  | rampTick => exact sound_execRampTick s t h hs
  | stageSample b draw mv => exact sound_execStageSample b draw mv s t h hs
  | trip b => exact sound_execTrip b s t h hs
  | coolOffExpiry b => exact sound_execCoolOffExpiry b s t h hs
  | tsenseSample r => exact sound_execTsenseSample r s t h hs
  | wsenseSample w => exact sound_execWsenseSample w s t h hs
  | chunkResendExpiry b => exact sound_execChunkResendExpiry b s t h hs
  | scanTimer => exact sound_execScanTimer s t h hs
  | settleExpiry b => exact sound_execSettleExpiry b s t h hs
  | envelopeResendExpiry b => exact sound_execEnvelopeResendExpiry b s t h hs
  | stallExpiry b => exact sound_execStallExpiry b s t h hs
  | timeLimitExpiry b => exact sound_execTimeLimitExpiry b s t h hs
  | drainExpiry c => exact sound_execDrainExpiry c s t h hs
  | motorPulseEnd d => exact sound_execMotorPulseEnd d s t h hs
  | positionCheck d high => exact sound_execPositionCheck d high s t h hs
  | retryWaitEnd d => exact sound_execRetryWaitEnd d s t h hs
  | doorChange u high => exact sound_execDoorChange u high s t h hs
  | doorDebounce u => exact sound_execDoorDebounce u s t h hs
  | unlatchWindowExpiry u => exact sound_execUnlatchWindowExpiry u s t h hs
  | ajarLimit u => exact sound_execAjarLimit u s t h hs
  | _ => exact sound_of_request h hs

theorem step_sound {s t : State} (h : step s = .next t) (hs : Sound w unmarked s) : Sound w unmarked t := by
  unfold step at h
  split at h
  · cases h
    exact hs.of_view (view_now s _)
  · exact exec_sound h (hs.of_view (view_pending s _))

/-- No invariant is carried but the one named. -/
def Wanted.none : Wanted := ⟨False, False, False, False⟩

theorem sound_of_baysSound {s : State} (h : s.baysSound) : Sound { Wanted.none with bays := True } unmarked s :=
  ⟨fun _ => h.1, fun _ => h.2, False.elim, False.elim, False.elim⟩

theorem sound_of_jobsSound {s : State} (h : s.jobsSound) : Sound { Wanted.none with jobs := True } unmarked s :=
  ⟨False.elim, False.elim, fun _ => h, False.elim, False.elim⟩

theorem sound_of_size {s : State} (h : s.nBays ≤ 36) : Sound { Wanted.none with size := True } unmarked s :=
  ⟨False.elim, False.elim, False.elim, fun _ => h, False.elim⟩

theorem sound_of_slots {s : State} (h : s.store.map (·.num) = [1, 2, 3, 4, 5, 6, 7, 8]) :
    Sound { Wanted.none with slots := True } unmarked s := ⟨False.elim, False.elim, False.elim, False.elim, fun _ => h⟩

/-- Settles O35: each of the four invariants is one that every command carries. -/
theorem baysSoundIsKept : Obligations.BaysSoundIsKept := by
  refine ⟨fun s t h hst => ?_, fun s t h hst => ?_, fun s t h hst => ?_, fun s t h hst => ?_⟩
  · have := step_sound hst (sound_of_baysSound h)
    exact ⟨this.nums trivial, this.marks trivial⟩
  · exact (step_sound hst (sound_of_jobsSound h)).jobs trivial
  · exact (step_sound hst (sound_of_size h)).size trivial
  · exact (step_sound hst (sound_of_slots h)).slots trivial

end Sys2Proof.Dock
end

