-- ==== Sys2Proof/Proofs/Kick.lean ====
section
/-! PROOF. An event that changes one bay's session and lane in a quiet state: the end of the event lets that one lane act (R29), and
nothing else is owed. -/

namespace Sys2Proof.Dock

open Machine Laws

variable {s t : State}

/-! ## The output (R174) -/

/-- `v` with what `u`'s hub link sends and has waiting. -/
def withOutput (u v : State) : State := { v with
  hub := { v.hub with
    replyPending := u.hub.replyPending, noticeOutstanding := u.hub.noticeOutstanding, sending := u.hub.sending
    reply := u.hub.reply, busy := u.hub.busy, notice := u.hub.notice } }

theorem sameButOutput_trans {s t u : State} (h : s.sameButOutput t) (k : t.sameButOutput u) : s.sameButOutput u :=
  (congrArg (withOutput u) h).trans k

/-- The end of an event changes of the hub link what it sends and has waiting alone. -/
theorem announce_sameButOutput (s : State) : s.announce.sameButOutput s := by
  have hq : s.queueNotice.sameButOutput s := by
    unfold State.queueNotice
    split <;> rfl
  have ho (u : State) : u.startOutput.sameButOutput u := by
    unfold State.startOutput
    split <;> try rfl
    split
    · split <;> rfl
    · rfl
  exact sameButOutput_trans (ho _) hq

/-- A live event whose operation settles to `u` leaves `u`. -/
theorem leaves_of_settle {c : Instr} {v u : State} (h : exec c s = .next v.conclude) (hu : v.settle = u) : Leaves c s u :=
  ⟨_, h, hu ▸ announce_sameButOutput _⟩

/-! ## The parts of the end of an event -/

theorem payWork_of_none (h : s.work = Work.none) : s.payWork = s := by
  have hs : s.servePasses = s := by
    unfold State.servePasses
    rw [h]
    show { s with work := Work.none } = s
    rw [← h]
  unfold State.payWork
  simp [hs, h, Work.none]

theorem driversTake_of_quiet (h : s.driversQuiet = true) : s.driversTake = s := by
  unfold State.driversTake
  rw [driverTakes_quiet h, driverTakes_quiet h]

theorem sendLimits_of_right (h : s.limitsRight = true) : s.sendLimits = s := by
  have : s.bays.map (fun r => { r with stage := r.stage.sendLimit }) = s.bays := by
    conv => rhs; rw [← List.map_id s.bays]
    refine List.map_congr_left fun r hr => ?_
    have hr := (List.all_eq_true.1 h) r hr
    have : r.stage.sendLimit = r.stage := by
      unfold Stage.sendLimit
      split
      · rename_i ho
        simp only [ho, bne_self_eq_false, Bool.false_or, beq_iff_eq] at hr
        rw [← hr]
      · rfl
    rw [this]
    rfl
  unfold State.sendLimits
  rw [this]

theorem lightLamps_of_right (h : s.lampsRight = true) : s.lightLamps = s := by
  have : s.bays.map (fun r => { r with indicator := s.indicatorOf r }) = s.bays := by
    conv => rhs; rw [← List.map_id s.bays]
    refine List.map_congr_left fun r hr => ?_
    have hr := (List.all_eq_true.1 h) r hr
    rw [beq_iff_eq] at hr
    rw [← hr]
    rfl
  unfold State.lightLamps
  rw [this]

/-! ## Changes of sessions and lanes -/

/-- A record that differs in its session, its lane and its events alone, and not in the session's STATUS. -/
def Edited (r r' : Bay) : Prop :=
  ∃ x l e, r' = { r with sess := x, lane := l, events := e } ∧ x.status = r.sess.status

theorem Edited.of_lane (r : Bay) (l : Lane) : Edited r { r with lane := l } := ⟨r.sess, l, r.events, rfl, rfl⟩

theorem Edited.refl (r : Bay) : Edited r r := Edited.of_lane r r.lane

theorem Edited.trans {r r' r'' : Bay} (h : Edited r r') (h' : Edited r' r'') : Edited r r'' := by
  obtain ⟨_, _, _, rfl, hx⟩ := h
  obtain ⟨x, l, e, rfl, hx'⟩ := h'
  exact ⟨x, l, e, rfl, hx'.trans hx⟩

theorem Edited.num {r r' : Bay} (h : Edited r r') : r'.num = r.num := by
  obtain ⟨_, _, _, rfl, _⟩ := h
  rfl

theorem Edited.kickLane (t : State) (r : Bay) : Edited r (t.kickLane r) := by
  unfold State.kickLane
  split
  · split
    · exact Edited.refl r
    · exact Edited.of_lane r _
  · exact Edited.refl r

/-- The lamp of an edited record shows the same code. -/
theorem Edited.indicator {r r' : Bay} (h : Edited r r') (s : State) (bs : List Bay) :
    State.indicatorOf { s with bays := bs } r' = s.indicatorOf r ∧ r'.indicator = r.indicator := by
  obtain ⟨x, l, e, rfl, hx⟩ := h
  refine ⟨?_, rfl⟩
  show s.indicatorOf { r with sess := x, lane := l, events := e } = s.indicatorOf r
  unfold State.indicatorOf State.showsReady
  dsimp only
  rw [hx]
  rfl

/-- Bays edited all at once leave lamps and limits right. -/
theorem lampsRight_edited (h : s.lampsRight = true) {f : Bay → Bay} (hf : ∀ r ∈ s.bays, Edited r (f r)) :
    State.lampsRight { s with bays := s.bays.map f } = true := by
  unfold State.lampsRight at *
  rw [List.all_map, List.all_eq_true] at *
  intro r hr
  obtain ⟨h1, h2⟩ := (hf r hr).indicator s (s.bays.map f)
  have := h r hr
  simp only [Function.comp, beq_iff_eq] at this ⊢
  rw [h1, h2]
  exact this

theorem limitsRight_edited (h : s.limitsRight = true) {f : Bay → Bay} (hf : ∀ r ∈ s.bays, Edited r (f r)) :
    State.limitsRight { s with bays := s.bays.map f } = true := by
  unfold State.limitsRight at *
  rw [List.all_map, List.all_eq_true] at *
  intro r hr
  obtain ⟨x, l, e, hrf, _⟩ := hf r hr
  simp only [Function.comp, hrf]
  exact h r hr

/-! ## Kicks (R29) -/

theorem kickLane_busy (t : State) {r : Bay} (h : r.lane.free = false) : t.kickLane r = r := by
  unfold State.kickLane
  rw [h]
  rfl

/-- A lane that has nothing to start is left alone, whatever stands elsewhere. -/
theorem kickLane_still (s t : State) {r : Bay} (h : (!(r.lane.free && (s.laneNext r.num r.sess.state r.lane).isSome)) = true) :
    t.kickLane r = r := by
  unfold State.kickLane
  split
  · rename_i hf
    rw [hf, laneNext_isSome s t r.num r.num] at h
    cases hn : t.laneNext r.num r.sess.state r.lane with
    | none => rfl
    | some l => rw [hn] at h; simp at h
  · rfl

theorem updBay_updBay (s : State) (b : Nat) (f g : Bay → Bay) (hf : ∀ r, (f r).num = r.num) :
    (s.updBay b f).updBay b g = s.updBay b fun r => g (f r) := by
  unfold State.updBay
  dsimp only
  rw [List.map_map]
  congr 1
  refine List.map_congr_left fun r _ => ?_
  simp only [Function.comp]
  by_cases hb : r.num = b
  · rw [if_pos hb, if_pos hb, if_pos ((hf r).trans hb)]
  · rw [if_neg hb, if_neg hb, if_neg hb]

theorem updBay_congr (s : State) (b : Nat) {f g : Bay → Bay} (h : ∀ r ∈ s.bays, r.num = b → f r = g r) :
    s.updBay b f = s.updBay b g := by
  unfold State.updBay
  congr 1
  refine List.map_congr_left fun r hr => ?_
  split
  exacts [h r hr ‹_›, rfl]

/-- Only the edited bay's lane may act. -/
theorem kickLanes_updBay (h : s.lanesQuiet = true) {b : Nat} {f : Bay → Bay} (hf : ∀ r, (f r).num = r.num) :
    (s.updBay b f).kickLanes = s.updBay b fun r => (s.updBay b f).kickLane (f r) := by
  rw [← updBay_updBay s b f _ hf]
  unfold State.kickLanes
  show { s.updBay b f with bays := (s.updBay b f).bays.map (s.updBay b f).kickLane } = State.updBay _ b _
  unfold State.updBay
  dsimp only
  congr 1
  refine List.map_congr_left fun r hr => ?_
  obtain ⟨q, hq, rfl⟩ := List.mem_map.1 hr
  by_cases hb : q.num = b
  · rw [if_pos hb, if_pos ((hf q).trans hb)]
  · rw [if_neg hb, if_neg hb]
    exact kickLane_still s _ ((List.all_eq_true.1 h) q hq)

/-- The end of an event that edited bay `b` in a quiet state. -/
theorem settle_updBay (hi : inner s) {b : Nat} {f : Bay → Bay} (hf : ∀ r, Edited r (f r)) :
    (s.updBay b f).settle = s.updBay b fun r => (s.updBay b f).kickLane (f r) := by
  obtain ⟨hw, hd, hl, hi, hm⟩ := hi
  have he : ∀ r, Edited r ((s.updBay b f).kickLane (f r)) := fun r => (hf r).trans (Edited.kickLane _ _)
  have hmap : ∀ r ∈ s.bays, Edited r (if r.num = b then (s.updBay b f).kickLane (f r) else r) := fun r _ => by
    split
    exacts [he r, Edited.refl r]
  unfold State.settle
  rw [payWork_of_none (s := s.updBay b f) hw, driversTake_of_quiet (s := s.updBay b f) hd,
    kickLanes_updBay hl fun r => (hf r).num,
    lightLamps_of_right (s := s.updBay b fun r => (s.updBay b f).kickLane (f r)) (lampsRight_edited hi hmap),
    sendLimits_of_right (s := s.updBay b fun r => (s.updBay b f).kickLane (f r)) (limitsRight_edited hm hmap)]
  show State.updBay { s with work := Work.none } b _ = _
  rw [← hw]

/-- The end of an event that edited bay `b` in a quiet state so that its line is not free. -/
theorem settle_updBay_busy (hi : inner s) {b : Nat} {f : Bay → Bay} (hf : ∀ r, Edited r (f r))
    (hb : ∀ r, (f r).lane.free = false) : (s.updBay b f).settle = s.updBay b f :=
  (settle_updBay hi hf).trans (updBay_congr s b fun r _ _ => kickLane_busy _ (hb r))

/-- A quiet state stays one while time passes. -/
theorem inner_reach (hi : inner s) (n : Nat) : inner (s.reach n) := by
  obtain ⟨hw, hd, hl, hi, hm⟩ := hi
  refine ⟨hw, hd, ?_, hi, hm⟩
  unfold State.lanesQuiet at *
  rw [List.all_eq_true] at *
  intro r hr
  have := hl r hr
  rwa [laneNext_isSome s (s.reach n) r.num r.num] at this

theorem free_of_act {l : Lane} (h : l.act ≠ .idle) : l.free = false := by
  unfold Lane.free
  simp [h]

/-! ## Events on a lane (R19) -/

theorem laneIs_iff (s : State) (b : Nat) (act : LaneAct) : s.laneIs b act = true ↔
    s.resetN = true ∧ s.hasBay b = true ∧ (s.bay b).lane.up = true ∧ (s.bay b).lane.act = act := by
  unfold State.laneIs
  simp only [Bool.and_eq_true, beq_iff_eq]
  tauto

theorem laneEvent_is {b : Nat} {act : LaneAct} (h : s.laneIs b act = true) (f : State → State) :
    laneEvent s b act f = .next (f s).conclude :=
  have ⟨hr, _, hu, ha⟩ := (laneIs_iff s b act).1 h
  laneEvent_live hr hu ha f

theorem laneEvent_not {b : Nat} {act : LaneAct} (h : s.laneIs b act = false) (f : State → State) :
    laneEvent s b act f = .next s := by
  unfold laneEvent event
  split
  · rename_i hc
    obtain ⟨hu, ha⟩ := Bool.and_eq_true_iff.1 hc
    have hb : s.hasBay b = true := by
      unfold State.hasBay
      rcases bay_eq s b with ⟨hs, _⟩ | ⟨_, hf⟩
      · rw [hs]; rfl
      · rw [hf] at hu; cases hu
    unfold State.laneIs at h
    rw [hb, hu, ha] at h
    exact whenLive_held (by simpa using h) _
  · rfl

end Sys2Proof.Dock
end

