-- ==== Sys2Proof/Proofs/LaneSteps.lean ====
section
/-! PROOF. The steps of a lane (R24 to R31): each changes its own lane, and the line that it leaves free takes the next call. -/

namespace Sys2Proof.Dock

open Machine Laws

variable {s : State}

/-- An event that changes a lane in a quiet state so that its line is busy. -/
theorem leaves_busy {c : Instr} {b : Nat} {f : Lane → Lane} (hi : inner s) {s₀ : State}
    (hc : exec c s₀ = .next (s.updLane b f).conclude) (hb : ∀ l, (f l).free = false) : Leaves c s₀ (s.updLane b f) :=
  leaves_of_settle hc (settle_updBay_busy hi (fun r => Edited.of_lane r (f r.lane)) fun r => hb r.lane)

/-! ## Call end and byte faults (R24, R19) -/

theorem callSent_leaves (hq : s.quiet = true) {b : Nat} (h : s.laneIs b .sending = true) :
    Leaves (.callSent b) s (s.updLane b fun l => { l with act := .listening, callEnd := s.now }) :=
  leaves_busy (quiet_inner hq) (laneEvent_is h _) fun _ => free_of_act (by simp)

/-! ## The next attempt (R26) -/

/-- The call that the next attempt of call `f` sends: a POLL is built afresh. -/
theorem rebuild_call (s : State) (b : Nat) (f : Flight) : s.rebuild b f = ⟨match f.call with
    | .poll _ _ _ => s.buildPoll b
    | c => c, f.plan⟩ := by
  obtain ⟨c, p⟩ := f
  cases c <;> rfl

theorem nextAttempt_eq {b : Nat} {f : Flight} (h : (s.bay b).lane.flight = some f) :
    s.nextAttempt b = s.updLane b fun l => { l with act := .sending, flight := some (s.rebuild b f) } := by
  unfold State.nextAttempt
  rw [h]
  rfl

theorem onWakePlan_eq {l : Lane} {f : Flight} (h : l.flight = some f) : l.onWakePlan = (f.plan == .wake) := by
  unfold Lane.onWakePlan
  rw [h]

/-- An event that starts the next attempt of a call. -/
theorem leaves_nextAttempt {c : Instr} {s₀ : State} {b : Nat} {f : Flight} (hi : inner s)
    (hc : exec c s₀ = .next (s.nextAttempt b).conclude) (hf : (s.bay b).lane.flight = some f) :
    Leaves c s₀ (s.updLane b fun l => { l with act := .sending, flight := some (s.rebuild b f) }) := by
  rw [nextAttempt_eq hf] at hc
  exact leaves_busy hi hc fun _ => free_of_act (by simp)

theorem retry_leaves (hq : s.quiet = true) {b : Nat} {f : Flight} (h : s.laneIs b .spacing = true)
    (hf : (s.bay b).lane.flight = some f) (hp : f.plan ≠ .wake) :
    Leaves (.retry b) s ((s.reach (s.bay b).lane.dueAt).updLane b fun l => { l with
      act := .sending, flight := some (s.rebuild b f) }) := by
  refine leaves_nextAttempt (inner_reach (quiet_inner hq) _) ?_ hf
  show execRetry b s = _
  unfold execRetry
  rw [onWakePlan_eq hf, if_neg (by simpa using hp)]
  exact laneEvent_is h _

theorem windowOver_eq {l : Lane} {w : Nat} (h : l.wakeAt = some w) (n : Nat) : l.windowOver n = decide (w + 2000 ≤ n) := by
  unfold Lane.windowOver
  rw [h]
  rfl

theorem wakeAttemptDue_leaves (hq : s.quiet = true) {b w : Nat} {f : Flight} (h : s.laneIs b .spacing = true)
    (hf : (s.bay b).lane.flight = some f) (hp : f.plan = .wake) (hw : (s.bay b).lane.wakeAt = some w) :
    let at_ := s.reach (s.bay b).lane.dueAt
    if at_.now < w + 2000 then Leaves (.wakeAttemptDue b) s (at_.updLane b fun l => { l with
      act := .sending, flight := some (s.rebuild b f) })
    else Leaves (.wakeAttemptDue b) s at_ := by
  have hc : exec (.wakeAttemptDue b) s = .next ((s.reach (s.bay b).lane.dueAt).wakeAttempt b).conclude := by
    show execWakeAttemptDue b s = _
    unfold execWakeAttemptDue
    rw [onWakePlan_eq hf, hp, if_pos (by rfl)]
    exact laneEvent_is h _
  have hi := inner_reach (quiet_inner hq) (s.bay b).lane.dueAt
  unfold State.wakeAttempt at hc
  rw [show ((s.reach (s.bay b).lane.dueAt).bay b).lane.windowOver (s.reach (s.bay b).lane.dueAt).now = _ from
    windowOver_eq hw _] at hc
  dsimp only
  split
  · rw [if_neg (by simp; omega)] at hc
    exact leaves_nextAttempt hi hc hf
  · rw [if_pos (by simp; omega)] at hc
    exact leaves_of_settle hc (settle_of_inner hi)

/-! ## The WAKE pattern (R31) -/

theorem wakePulseEnd_leaves (hq : s.quiet = true) {b : Nat} (h : s.laneIs b .wakePulse = true) :
    Leaves (.wakePulseEnd b) s ((s.reach (s.bay b).lane.dueAt).updLane b fun l => { l with
      wakeAt := some (s.reach (s.bay b).lane.dueAt).now, attempts := 0, act := .sending
      flight := some ⟨s.buildPoll b, .wake⟩ }) :=
  leaves_busy (inner_reach (quiet_inner hq) _) (laneEvent_is h _) fun _ => free_of_act (by simp)

/-! ## The line is free (R29) -/

/-- What the line of bay `b` does next when it comes free, its session in state `st`: nothing while OFF or ASLEEP, the WAKE pattern
alone while WAKING, the first call in R29's order otherwise. -/
def nextOf (s : State) (b : Nat) (st : SessState) (l : Lane) : Lane :=
  if l.free then (s.laneNext b st l).getD l else l

theorem kickLane_eq (s : State) (r : Bay) : s.kickLane r = { r with lane := nextOf s r.num r.sess.state r.lane } := by
  unfold State.kickLane nextOf
  split
  · split
    · rename_i h
      rw [h]
      rfl
    · rename_i l h
      rw [h]
      rfl
  · rfl

/-- A POLL reads of the bay its session's ask, its lane's flags and its stage's grant, and of the scheduler its job. -/
theorem buildPoll_updLane (s : State) (b : Nat) {f : Lane → Lane} (hb : s.hasBay b = true)
    (hf : (f (s.bay b).lane).hubRefuse = (s.bay b).lane.hubRefuse ∧ (f (s.bay b).lane).hubDefer = (s.bay b).lane.hubDefer
      ∧ (f (s.bay b).lane).autoDefer = (s.bay b).lane.autoDefer) : (s.updLane b f).buildPoll b = s.buildPoll b := by
  unfold State.buildPoll
  rw [show (s.updLane b f).bay b = _ from bay_updBay_eq s b _ (fun _ => rfl) hb]
  obtain ⟨h1, h2, h3⟩ := hf
  dsimp only
  rw [h1, h2, h3]
  rfl

/-- The first non-empty slot in R29's order, and what its call leaves of the lane. -/
theorem chooseCall_getD (s : State) (b : Nat) (l : Lane) : (s.chooseCall b l).getD l =
    match l.greeting, l.stop, l.job, l.pollDue, l.ident, l.serve with
    | some f, _, _, _, _, _ => { l with greeting := none }.startCall f.call f.plan
    | none, some c, _, _, _, _ => { l with stop := none }.startCall c .ordinary
    | none, none, some c, _, _, _ => { l with job := none }.startCall c .ordinary
    | none, none, none, true, _, _ => { l with pollDue := false }.startCall (s.buildPoll b) .ordinary
    | none, none, none, false, some c, _ => { l with ident := none }.startCall c .ordinary
    | none, none, none, false, none, some c => { l with serve := none }.startCall c .ordinary
    | none, none, none, false, none, none => l := by
  obtain ⟨_, _, _, _, _, _, _, _, _, greeting, stop, job, due, ident, serve, _, _, _⟩ := l
  cases greeting with
  | some => rfl
  | none => cases stop with
    | some => rfl
    | none => cases job with
      | some => rfl
      | none => cases due with
        | true => rfl
        | false => cases ident with
          | some => rfl
          | none => cases serve <;> rfl

/-- What a session that lets calls start does with a free line. -/
theorem laneNext_calls (s : State) (b : Nat) {st : SessState} (h : st ≠ .off ∧ st ≠ .asleep ∧ st ≠ .waking) (l : Lane) :
    s.laneNext b st l = s.chooseCall b l := by
  obtain ⟨h1, h2, h3⟩ := h
  cases st with
  | off => exact absurd rfl h1
  | asleep => exact absurd rfl h2
  | waking => exact absurd rfl h3
  | _ => rfl

/-- The event that frees a lane in a quiet state: the line takes what comes next. -/
theorem settle_freed (hi : inner s) (hn : (s.bays.map (·.num)).Nodup) (b : Nat) (f : Lane → Lane) :
    (s.updLane b f).settle
      = s.updLane b fun _ => nextOf (s.updLane b f) b (s.bay b).sess.state (f (s.bay b).lane) := by
  refine (settle_updBay hi fun r => Edited.of_lane r (f r.lane)).trans (updBay_congr s b fun r hr he => ?_)
  have hrb : s.bay b = r := he ▸ bay_of_mem hn hr
  rw [kickLane_eq, hrb, ← he]
  rfl

theorem quietEnd_leaves (hq : s.quiet = true) {b : Nat} (h : s.laneIs b .quiet = true)
    (hn : (s.bays.map (·.num)).Nodup) : Leaves (.quietEnd b) s ((s.reach (s.bay b).lane.dueAt).updLane b fun _ =>
      nextOf ((s.reach (s.bay b).lane.dueAt).updLane b fun l => { l with act := .idle }) b (s.bay b).sess.state
        { (s.bay b).lane with act := .idle }) :=
  leaves_of_settle (laneEvent_is h _)
    (settle_freed (inner_reach (quiet_inner hq) _) hn b fun l => { l with act := .idle })

/-- Settles O38: each step changes its lane alone, and what R29 starts on the free line is the lane's next. -/
theorem laneStepsFollowLine : Obligations.LaneStepsFollowLine := by
  intro s b hq
  dsimp only
  refine ⟨callSent_leaves hq, fun h => ⟨laneEvent_not h _, laneEvent_not h _⟩, fun h f p =>
    ⟨laneEvent_not h _, laneEvent_not h _, laneEvent_not h _, laneEvent_not h _, laneEvent_not h _⟩, fun f h hf => ?_,
    wakePulseEnd_leaves hq, fun h hfl hn => ?_⟩
  · have hr : s.rebuild b f = _ := rebuild_call s b f
    refine ⟨fun hp => ?_, fun w hp hw => ?_⟩
    · have := retry_leaves hq h hf hp
      rwa [hr] at this
    · have := wakeAttemptDue_leaves hq h hf hp hw
      rwa [hr] at this
  · obtain ⟨_, hb, hu, _⟩ := (laneIs_iff s b _).1 h
    have hl := quietEnd_leaves hq h hn
    have hfree : ({ (s.bay b).lane with act := .idle } : Lane).free = true := by
      unfold Lane.free
      simp [hu, hfl]
    have hpoll : ((s.reach (s.bay b).lane.dueAt).updLane b fun l => { l with act := .idle }).buildPoll b = s.buildPoll b :=
      buildPoll_updLane (s.reach (s.bay b).lane.dueAt) b hb ⟨rfl, rfl, rfl⟩
    unfold nextOf at hl
    rw [if_pos hfree] at hl
    split
    · rename_i hst
      rcases hst with hst | hst <;> rw [hst] at hl <;> exact hl
    · rename_i hst
      rw [not_or] at hst
      split
      · rename_i hw
        rw [hw] at hl
        unfold State.laneNext at hl
        dsimp only at hl
        split
        · rename_i ha
          rw [if_pos ha] at hl
          exact hl
        · rename_i ha
          rw [if_neg ha] at hl
          exact hl
      · rename_i hw
        rw [laneNext_calls _ b ⟨hst.1, hst.2, hw⟩, chooseCall_getD, hpoll] at hl
        exact hl

/-- Settles O39: a POLL is built with R33's reply, and the next attempt of one is built afresh. -/
theorem pollCarriesAskReply : Obligations.PollCarriesAskReply := by
  intro s b
  refine ⟨⟨_, rfl, fun h => by rw [h]; rfl, fun a h => ?_⟩, fun reply applied tag hq h hf => ?_⟩
  · rw [h]
    refine ⟨fun hr => by simp [askReply, hr], fun hr hd => ?_, fun hr hd ha => by simp [askReply, hr, hd, ha]⟩
    rcases hd with hd | hd <;> simp [askReply, hr, hd]
  · exact retry_leaves hq h hf (by simp)

end Sys2Proof.Dock
end

