-- ==== Sys2Proof/Proofs/FailedAttempts.lean ====
section
/-! PROOF. Attempts judged as failed (R24 to R26): which event judges them, and what follows while the call has attempts left. -/

namespace Sys2Proof.Dock

open Machine Laws

variable {s : State}

/-! ## The judgement -/

/-- The state of a judgement: time has come to it, and a CLASH has ended the call. -/
structure JudgedIn (s u : State) (b : Nat) : Prop where
  state : ∃ (n : Nat) (e : Option Nat), u = (s.reach n).updLane b fun l => { l with callEnd := e.getD l.callEnd }
  act : s.laneIs b .sending = true ∨ s.laneIs b .listening = true

theorem reach_now (s : State) : s.reach s.now = s := by
  unfold State.reach
  rw [Nat.max_self]

theorem updLane_id (s : State) (b : Nat) {f : Lane → Lane} (hf : ∀ l, f l = l) : s.updLane b f = s :=
  updBay_same s b _ fun r _ _ => by rw [hf]

theorem JudgedIn.reach {b : Nat} (h : s.laneIs b .listening = true) (n : Nat) : JudgedIn s (s.reach n) b :=
  ⟨⟨n, none, (updLane_id _ b fun _ => rfl).symm⟩, .inr h⟩

theorem JudgedIn.now {b : Nat} (h : s.laneIs b .listening = true) : JudgedIn s s b := by
  have := JudgedIn.reach h s.now
  rwa [reach_now] at this

theorem JudgedIn.clash {b : Nat} (h : s.laneIs b .sending = true) :
    JudgedIn s (s.updLane b fun l => { l with callEnd := s.now }) b :=
  ⟨⟨s.now, some s.now, by rw [reach_now]; rfl⟩, .inl h⟩

/-- A failed attempt: it is judged in `u`, and its event is its failure there. -/
structure Judged (s u : State) (c : Instr) (b : Nat) (k : FailKind) : Prop where
  judged : JudgedIn s u b
  exec : exec c s = .next (u.failAttempt b k).conclude

theorem late_iff {b b' : Nat} {k : FailKind} {u : State} (h : s.late? b' = some (b, k, u)) :
    b' = b ∧ k = .short ∧ u = s ∧ s.laneIs b .listening = true ∧ (s.bay b).lane.answerLate s.now = true := by
  unfold State.late? at h
  split at h
  · rename_i hc
    cases h
    obtain ⟨hl, hh⟩ := Bool.and_eq_true_iff.1 hc
    refine ⟨rfl, rfl, rfl, hl, ?_⟩
    unfold State.hears at hh
    unfold Lane.answerLate Config.answerTime
    simpa [hl] using hh
  · cases h

/-- An answer frame that is complete only after the window fails its attempt as SHORT (R25, point 4). -/
theorem judgeAnswer_late {b : Nat} {f : Flight} (hf : (s.bay b).lane.flight = some f) (ha : (s.bay b).lane.act = .listening)
    (hl : (s.bay b).lane.answerLate s.now = true) (kind : Byte) (p : Bytes) : s.judgeAnswer b kind p = s.failAttempt b .short := by
  unfold State.judgeAnswer
  dsimp only
  rw [hf, ha]
  dsimp only
  rw [if_pos hl]

/-- An answer that comes too late is judged in its own event. -/
theorem judged_late {u : State} {c : Instr} {b b' : Nat} {k : FailKind} {f : Flight} {kind : Byte} {p : Bytes}
    (hc : exec c s = laneEvent s b' .listening fun s => s.judgeAnswer b' kind p) (h : s.late? b' = some (b, k, u))
    (hf : (s.bay b).lane.flight = some f) : Judged s u c b k := by
  obtain ⟨rfl, rfl, rfl, hl, ha⟩ := late_iff h
  refine ⟨JudgedIn.now hl, hc.trans ((laneEvent_is hl _).trans ?_)⟩
  rw [judgeAnswer_late hf ((laneIs_iff _ _ _).1 hl).2.2.2 ha]

theorem hears_iff (s : State) (b : Nat) :
    s.hears b = true ↔ s.laneIs b .listening = true ∧ (s.bay b).lane.answerLate s.now = false := by
  unfold State.hears Lane.answerLate Config.answerTime
  simp

theorem judged_byteFault {u : State} {b b' : Nat} {k : FailKind} {fault : LaneByteFault}
    (h : s.judged? (.answerByteFault b' fault) = some (b, k, u)) : Judged s u (.answerByteFault b' fault) b k := by
  unfold State.judged? at h
  dsimp only at h
  split at h
  · rename_i hh
    cases h
    obtain ⟨hl, ha⟩ := (hears_iff s b).1 hh
    refine ⟨JudgedIn.now hl, (laneEvent_is hl _).trans ?_⟩
    rw [ha]
    cases fault <;> rfl
  · obtain ⟨rfl, rfl, rfl, hl, ha⟩ := late_iff h
    refine ⟨JudgedIn.now hl, (laneEvent_is hl _).trans ?_⟩
    rw [if_pos ha]

/-- A frame in time that fails the check of its kind or of its length (R25, points 6 and 7). -/
theorem judgeAnswer_bad {b : Nat} {f : Flight} (hf : (s.bay b).lane.flight = some f) (ha : (s.bay b).lane.act = .listening)
    (hl : (s.bay b).lane.answerLate s.now = false) {kind : Byte} {p : Bytes} (hbad : kind = f.call.answerKind →
      ¬ ((answerLengths kind).1 ≤ p.length ∧ p.length ≤ (answerLengths kind).2)) :
    s.judgeAnswer b kind p = s.failAttempt b (if kind ≠ f.call.answerKind then .stray else .short) := by
  unfold State.judgeAnswer
  dsimp only
  rw [hf, ha]
  dsimp only
  rw [if_neg (by simp [hl])]
  split
  · rfl
  · rename_i hk
    refine if_pos ?_
    have := hbad (by simpa using hk)
    omega

theorem judged_badAnswer {u : State} {b b' : Nat} {k : FailKind} {f : Flight} {kind : Byte} {p : Bytes} {crc : Byte}
    (h : s.judged? (.badAnswer b' kind p crc) = some (b, k, u)) (hf : (s.bay b).lane.flight = some f) :
    Judged s u (.badAnswer b' kind p crc) b k := by
  unfold State.judged? at h
  dsimp only at h
  split at h
  · cases h
  · rename_i f' hf'
    split at h
    · cases h
    · rename_i hbad
      have hc : exec (.badAnswer b' kind p crc) s = laneEvent s b' .listening fun s =>
          if (s.bay b').lane.answerLate s.now then s.failAttempt b' .short
          else if crc ≠ crc8 (laneBody kind p) then s.failAttempt b' .corrupt
          else s.judgeAnswer b' kind p := by
        refine if_neg fun ⟨h1, h2⟩ => hbad ?_
        unfold State.answersCall at h2
        rw [hf'] at h2
        simp only [Bool.and_eq_true, beq_iff_eq, decide_eq_true_eq] at h2
        exact ⟨h1, h2.1.1, h2.1.2, h2.2⟩
      split at h
      · obtain ⟨rfl, rfl, rfl, hl, ha⟩ := late_iff h
        refine ⟨JudgedIn.now hl, hc.trans ((laneEvent_is hl _).trans ?_)⟩
        rw [if_pos ha]
      · rename_i hh
        cases h
        obtain ⟨hl, ha⟩ := (hears_iff s b).1 (by simpa using hh)
        refine ⟨JudgedIn.now hl, hc.trans ((laneEvent_is hl _).trans ?_)⟩
        rw [if_neg (by simp [ha])]
        by_cases hs : crc = crc8 (laneBody kind p)
        · rw [if_neg (by simpa using hs), if_neg (by simpa using hs),
            judgeAnswer_bad hf' ((laneIs_iff _ _ _).1 hl).2.2.2 ha fun hk hfit => hbad ⟨hs, hk, hfit⟩]
        · rw [if_pos (by simpa using hs), if_pos (by simpa using hs)]

theorem judged_exec {u : State} {c : Instr} {b : Nat} {k : FailKind} {f : Flight} (h : s.judged? c = some (b, k, u))
    (hf : (s.bay b).lane.flight = some f) : Judged s u c b k := by
  cases c with
  | clash b' =>
    unfold State.judged? at h
    dsimp only at h
    split at h
    · rename_i hl
      cases h
      exact ⟨JudgedIn.clash hl, laneEvent_is hl _⟩
    · cases h
  | noAnswer b' =>
    unfold State.judged? at h
    dsimp only at h
    split at h
    · rename_i hl
      cases h
      exact ⟨JudgedIn.reach hl _, laneEvent_is hl _⟩
    · cases h
  | answerIncomplete b' =>
    unfold State.judged? at h
    dsimp only at h
    split at h
    · rename_i hl
      cases h
      exact ⟨JudgedIn.reach hl _, laneEvent_is hl _⟩
    · cases h
  | answerByteFault b' fault => exact judged_byteFault h
  | badAnswer b' kind p crc => exact judged_badAnswer h hf
  | ability b' p => exact judged_late rfl h hf
  | confirmAnswer b' p => exact judged_late rfl h hf
  | status b' p => exact judged_late rfl h hf
  | identityChunk b' p => exact judged_late rfl h hf
  | chunkHandshake b' p => exact judged_late rfl h hf
  | envelopeHandshake b' p => exact judged_late rfl h hf
  | stopHandshake b' call p => exact judged_late rfl h hf
  | receipt b' p => exact judged_late rfl h hf
  | _ => cases h

/-! ## The judgement's state -/

theorem JudgedIn.hasBay {u : State} {b : Nat} (h : JudgedIn s u b) : s.hasBay b = true := by
  rcases h.act with h | h <;> exact ((laneIs_iff _ _ _).1 h).2.1

theorem JudgedIn.lane {u : State} {b : Nat} (h : JudgedIn s u b) :
    ∃ e, (u.bay b).lane = { (s.bay b).lane with callEnd := e } := by
  have hb := h.hasBay
  obtain ⟨n, e, rfl⟩ := h.state
  refine ⟨e.getD (s.bay b).lane.callEnd, ?_⟩
  rw [show (State.updLane (s.reach n) b _).bay b = _ from bay_updBay_eq (s.reach n) b _ (fun _ => rfl) hb]
  rfl

theorem hasBay_updBay (s : State) (b : Nat) {f : Bay → Bay} (hf : ∀ r, (f r).num = r.num) (c : Nat) :
    (s.updBay b f).hasBay c = s.hasBay c := by
  unfold State.hasBay
  rw [bay?_updBay s b f hf]
  split
  · rw [Option.isSome_map]
  · rfl

theorem hasBay_updLane (s : State) (b : Nat) (f : Lane → Lane) (c : Nat) : (s.updLane b f).hasBay c = s.hasBay c :=
  hasBay_updBay s b (f := fun r => { r with lane := f r.lane }) (fun _ => rfl) c

theorem JudgedIn.hasBay' {u : State} {b : Nat} (h : JudgedIn s u b) : u.hasBay b = true := by
  have hb := h.hasBay
  obtain ⟨n, e, rfl⟩ := h.state
  exact (hasBay_updLane (s.reach n) b _ b).trans hb

theorem JudgedIn.rebuild {u : State} {b : Nat} (h : JudgedIn s u b) (f : Flight) : u.rebuild b f = s.rebuild b f := by
  have hb := h.hasBay
  obtain ⟨n, e, rfl⟩ := h.state
  have : (State.updLane (s.reach n) b fun l => { l with callEnd := e.getD l.callEnd }).buildPoll b = s.buildPoll b :=
    buildPoll_updLane (s.reach n) b hb ⟨rfl, rfl, rfl⟩
  rw [rebuild_call, rebuild_call, this]

/-- An event that changes the judged lane further, its line busy. -/
theorem JudgedIn.leaves {u : State} {b : Nat} (h : JudgedIn s u b) (hq : s.quiet = true) {c : Instr} {g : Lane → Lane}
    (hc : exec c s = .next (u.updLane b g).conclude) (hg : ∀ l, (g l).free = false) : Leaves c s (u.updLane b g) := by
  obtain ⟨n, e, rfl⟩ := h.state
  have he : (State.updLane (s.reach n) b fun l => { l with callEnd := e.getD l.callEnd }).updLane b g
      = (s.reach n).updLane b fun l => g { l with callEnd := e.getD l.callEnd } :=
    updBay_updBay (s.reach n) b _ _ fun _ => rfl
  rw [he] at hc ⊢
  exact leaves_busy (inner_reach (quiet_inner hq) n) hc fun l => hg _

/-! ## Attempts that are not the last (R26) -/

theorem updLane_updLane (s : State) (b : Nat) (f g : Lane → Lane) : (s.updLane b f).updLane b g = s.updLane b fun l => g (f l) :=
  updBay_updBay s b _ _ fun _ => rfl

/-- How an attempt of call `f` fails (R26). -/
theorem failAttempt_eq {b : Nat} {f : Flight} (hf : (s.bay b).lane.flight = some f) (k : FailKind) :
    let n := (s.bay b).lane.attempts + 1
    let due := (s.bay b).lane.nextAttempt f.plan s.now n
    let counted := s.updLane b fun l => { l with attempts := n, lastFail := some k }
    s.failAttempt b k =
      if (s.bay b).lane.callOver f.plan s.now n = true then
        (counted.updLane b fun l => { l with flight := none, act := .idle }).callFailed b
      else if f.plan = .wake ∧ due ≤ s.now then counted.nextAttempt b
      else counted.updLane b fun l => { l with act := .spacing, dueAt := due } := by
  unfold State.failAttempt
  dsimp only
  rw [hf]
  rfl

/-- A failed attempt of a call that goes on, its next one spaced. -/
theorem failAttempt_spaced {b : Nat} {f : Flight} (hf : (s.bay b).lane.flight = some f) (k : FailKind)
    (ho : (s.bay b).lane.callOver f.plan s.now ((s.bay b).lane.attempts + 1) = false)
    (hn : ¬ (f.plan = .wake ∧ (s.bay b).lane.nextAttempt f.plan s.now ((s.bay b).lane.attempts + 1) ≤ s.now)) :
    s.failAttempt b k = s.updLane b fun l => { l with
      attempts := (s.bay b).lane.attempts + 1, lastFail := some k, act := .spacing
      dueAt := (s.bay b).lane.nextAttempt f.plan s.now ((s.bay b).lane.attempts + 1) } := by
  rw [failAttempt_eq hf, if_neg (by simp [ho]), if_neg hn, updLane_updLane]

/-- A failed wake attempt of a call that goes on, its next one due at once. -/
theorem failAttempt_again {b : Nat} {f : Flight} (hb : s.hasBay b = true) (hf : (s.bay b).lane.flight = some f) (k : FailKind)
    (ho : (s.bay b).lane.callOver f.plan s.now ((s.bay b).lane.attempts + 1) = false)
    (hn : f.plan = .wake ∧ (s.bay b).lane.nextAttempt f.plan s.now ((s.bay b).lane.attempts + 1) ≤ s.now) :
    s.failAttempt b k = s.updLane b fun l => { l with
      attempts := (s.bay b).lane.attempts + 1, lastFail := some k, act := .sending, flight := some (s.rebuild b f) } := by
  have hf' : ((s.updLane b fun l => { l with attempts := (s.bay b).lane.attempts + 1, lastFail := some k }).bay b).lane.flight
      = some f := by
    rw [show (State.updLane s b _).bay b = _ from bay_updBay_eq s b _ (fun _ => rfl) hb]
    exact hf
  rw [failAttempt_eq hf, if_neg (by simp [ho]), if_pos hn, nextAttempt_eq hf', updLane_updLane, rebuild_call, rebuild_call,
    buildPoll_updLane s b hb ⟨rfl, rfl, rfl⟩]

/-- Settles O40: a failed attempt that is not the last is spaced by its plan. -/
theorem failedAttemptIsSpaced : Obligations.FailedAttemptIsSpaced := by
  intro s u c b k f hq h hf
  have hj := judged_exec h hf
  obtain ⟨e, he⟩ := hj.judged.lane
  have hf' : (u.bay b).lane.flight = some f := by rw [he]; exact hf
  have hn : (u.bay b).lane.attempts = (s.bay b).lane.attempts := by rw [he]
  -- a call that goes on, its next attempt due later
  have hsp (due : Nat) (ho : (u.bay b).lane.callOver f.plan u.now ((s.bay b).lane.attempts + 1) = false)
      (hd : (u.bay b).lane.nextAttempt f.plan u.now ((s.bay b).lane.attempts + 1) = due)
      (hw : ¬ (f.plan = .wake ∧ due ≤ u.now)) :
      Leaves c s (u.updLane b fun l => { l with
        attempts := (s.bay b).lane.attempts + 1, lastFail := some k, act := .spacing, dueAt := due }) := by
    have := failAttempt_spaced hf' k (hn ▸ ho) (by rw [hn, hd]; exact hw)
    rw [hn, hd] at this
    exact hj.judged.leaves hq (this ▸ hj.exec) fun l => free_of_act (by simp)
  dsimp only
  refine ⟨fun hp hlt => ?_, fun hp hlt => ?_, fun w hp hw hlt hwin => ?_⟩
  · exact hsp _ (by rw [hp]; simp [Lane.callOver, Plan.limit]; omega) (by rw [hp]; rfl) (by rw [hp]; simp)
  · exact hsp _ (by rw [hp]; simp [Lane.callOver, Plan.limit]; omega) (by rw [hp]; rfl) (by rw [hp]; simp)
  · have hw' : (u.bay b).lane.wakeAt = some w := by rw [he]; exact hw
    have ho : (u.bay b).lane.callOver f.plan u.now ((s.bay b).lane.attempts + 1) = false := by
      unfold Lane.callOver
      rw [hp, windowOver_eq hw']
      simp [Plan.limit]
      omega
    have hd : (u.bay b).lane.nextAttempt f.plan u.now ((s.bay b).lane.attempts + 1)
        = max u.now (w + 250 * ((s.bay b).lane.attempts + 1)) := by
      rw [hp]
      unfold Lane.nextAttempt
      dsimp only
      rw [hw']
      rfl
    split
    · rename_i hlt'
      have hd' := hd.trans (max_eq_right hlt'.le)
      exact hsp _ ho hd' (by omega)
    · rename_i hge
      have := failAttempt_again hj.judged.hasBay' hf' k (hn ▸ ho) ⟨hp, by rw [hn, hd]; omega⟩
      rw [hn, hj.judged.rebuild] at this
      exact hj.judged.leaves hq (this ▸ hj.exec) fun l => free_of_act (by simp)

end Sys2Proof.Dock
end

