-- ==== Sys2Proof/Proofs/Wakes.lean ====
section
/-! PROOF. Requests that the link listens to and what they leave (R173), and the begin of a wake (R57, R31). -/

namespace Sys2Proof.Dock

open Machine Laws

variable {s : State}

/-! ## Requests the link listens to (R173) -/

/-- What a request leaves that the link listens to: its decision's state, and the reply. -/
theorem decides_request {c : Instr} {k : ReqKind} {tag : Byte} {p : Bytes} {l : Levels} {body : Bytes} {u : State}
    (h : s.listening = true) (hl : p.length ≤ 512) (hc : k.early = true ∨ s.committed = true)
    (he : exec c s = request s k tag p l) (hd : decideKind k p l (taken s) = (u, body)) (hp : u.hub.replyPending = true) :
    ∃ t, exec c s = .next t ∧ t.answers k.byte tag body ∧ t.sameButOutput u := by
  refine ⟨_, he.trans (request_listening h k tag hl l hc), ?_, ?_⟩
  · rw [hd]
    exact announce_answers u _ _ _ hp
  · rw [hd]
    exact sameButOutput_trans (announce_sameButOutput _) rfl

/-- A request that the link listens to and that leaves `v` but for the output. -/
theorem replies_request {c : Instr} {k : ReqKind} {tag : Byte} {p : Bytes} {l : Levels} {body : Bytes} {u v : State}
    (h : s.listening = true) (hl : p.length ≤ 512) (hc : k.early = true ∨ s.committed = true)
    (he : exec c s = request s k tag p l) (hd : decideKind k p l (taken s) = (u, body)) (hp : u.hub.replyPending = true)
    (hu : u.sameButOutput v) : Replies c s k.byte tag body v := by
  obtain ⟨t, ht, ha, hs⟩ := decides_request h hl hc he hd hp
  exact ⟨t, ht, ha, sameButOutput_trans hs hu⟩

theorem taken_sameButOutput (s : State) : (taken s).sameButOutput s := rfl

theorem inner_taken (h : s.quiet = true) : inner (taken s) :=
  inner_sameButLink (s := s) rfl (quiet_inner h)

theorem names_iff (s : State) (b : Nat) : s.names b = true ↔ (1 ≤ b ∧ b ≤ s.nBays) ∧ s.hasBay b = true := by
  unfold State.names
  simp

theorem committed_of_names {b : Nat} (h : s.names b = true) : s.committed = true := by
  obtain ⟨⟨h1, h2⟩, _⟩ := (names_iff s b).1 h
  unfold State.nBays at h2
  unfold State.committed
  split at h2
  · omega
  · rename_i hg
    rw [hg]
    rfl

theorem onBay_named {b : Nat} (h : 1 ≤ b ∧ b ≤ s.nBays) (f : State → Decision) : s.onBay b f = f s := if_pos h

theorem sized_right {right : Bool} (h : right = true) (f : State → Decision) : s.sized right f = f s := if_pos h

/-! ## Wakes (R57, R31) -/

/-- A lane that is asked for the WAKE pattern: a free line begins it at once. -/
def wakeLane (n : Nat) (l : Lane) : Lane :=
  if l.free then { l with wakeAsked := false, act := .wakePulse, dueAt := n + 20 } else { l with wakeAsked := true }

theorem settle_beginWake (hi : inner s) (b : Nat) : (s.beginWake b).settle = s.updBay b fun r => { r with
    sess := { r.sess with state := .waking, refreshAt := none }, lane := wakeLane s.now r.lane } := by
  have he : s.beginWake b = s.updBay b fun r => { r with
      sess := { r.sess with state := .waking, refreshAt := none }, lane := { r.lane with wakeAsked := true } } :=
    updBay_updBay s b _ _ fun _ => rfl
  rw [he]
  refine (settle_updBay hi ?_).trans (updBay_congr s b fun r _ _ => ?_)
  · exact fun r => ⟨_, _, r.events, rfl, rfl⟩
  · rw [kickLane_eq]
    unfold nextOf wakeLane
    cases hf : r.lane.free <;> rw [show Lane.free { r.lane with wakeAsked := true } = r.lane.free from rfl, hf] <;> rfl

theorem refreshExpiry_leaves (hq : s.quiet = true) (hr : s.resetN = true) {b d : Nat}
    (hd : (s.bay b).sess.refreshAt = some d) : Leaves (.refreshExpiry b) s ((s.reach d).updBay b fun r => { r with
      sess := { r.sess with state := .waking, refreshAt := none }, lane := wakeLane (s.reach d).now r.lane }) := by
  refine leaves_of_settle ?_ (settle_beginWake (inner_reach (quiet_inner hq) d) b)
  show timerEvent s (s.bay b).sess.refreshAt (fun s => s.beginWake b) = _
  rw [hd]
  exact timerEvent_live hr d _

theorem decideWakeBay_eq {p : Bytes} (hp : p.length = 1) (hb : 1 ≤ byteAt p 0 ∧ byteAt p 0 ≤ s.nBays) : decideWakeBay p s =
    if (s.bay (byteAt p 0)).enabled = false then s.deny .bayDisabled
    else if (s.bay (byteAt p 0)).sess.state = .asleep then (s.beginWake (byteAt p 0)).accept []
    else if (s.bay (byteAt p 0)).sess.state = .waking then s.report []
    else s.deny .state := by
  unfold decideWakeBay
  rw [sized_right (by rw [hp]; rfl)]
  dsimp only
  rw [onBay_named hb]
  cases (s.bay (byteAt p 0)).enabled with
  | false => rfl
  | true => cases (s.bay (byteAt p 0)).sess.state <;> rfl

/-- Settles O18: a wake begins by the timer and by WAKE_BAY alike. -/
theorem wakeBegins : Obligations.WakeBegins := by
  rintro s b hq
  refine ⟨fun d hr _ hd => refreshExpiry_leaves hq hr hd, ?_⟩
  rintro tag p hl hp rfl hn
  have hdec := decideWakeBay_eq (s := taken s) hp ((names_iff s _).1 hn).1
  have hr {body : Bytes} {u v : State} (hd : decideWakeBay p (taken s) = (u, body))
      (hrp : u.hub.replyPending = true) (hu : u.sameButOutput v) : Replies (.wakeBay tag p) s 0x12#8 tag body v :=
    replies_request (k := .wakeBay) (l := .ofInputs s.pins) hl (by omega) (.inr (committed_of_names hn)) rfl hd hrp hu
  split
  · rename_i he
    exact hr (hdec.trans (if_pos he)) rfl (taken_sameButOutput s)
  · rename_i he
    replace hdec := hdec.trans (if_neg he)
    split
    · rename_i hst
      replace hdec := hdec.trans (if_pos hst)
      unfold State.accept at hdec
      rw [settle_beginWake (inner_taken hq)] at hdec
      exact hr hdec rfl rfl
    · rename_i hna
      replace hdec := hdec.trans (if_neg hna)
      split
      · rename_i hst
        exact hr (hdec.trans (if_pos hst)) rfl (taken_sameButOutput s)
      · rename_i hnw
        exact hr (hdec.trans (if_neg hnw)) rfl (taken_sameButOutput s)

end Sys2Proof.Dock
end

