-- ==== Sys2Proof/Proofs/EndOfEvent.lean ====
section
/-! PROOF. What the passes, the scan and the drivers of the end of an event keep, for any predicate that their operations keep. -/

namespace Sys2Proof.Dock

open Machine Laws

/-- A predicate that the operations of the end of an event keep, but for the turns of a scan. -/
structure Stable (P : State → Prop) : Prop where
  grant : ∀ s g, P s → P (State.writeGrant s g)
  idle : ∀ s b, P s → P (State.writeNoDemand s b)
  alloc : ∀ (s : State) a, P s → P { s with alloc := a }
  work : ∀ (s : State) w, P s → P { s with work := w }
  suspend : ∀ s b, P s → P (State.suspendBay s b)
  units : ∀ (s : State) l, P s → P { s with latch := l }
  post : ∀ s b, P s → P (State.post s b .latch)

section
variable {P : State → Prop}

/-- A predicate of what O35's invariants read is stable where suspensions keep it. -/
theorem Stable.of_view (hv : ∀ {s t : State}, view t = view s → P s → P t) (hb : ∀ s b, P s → P (State.suspendBay s b)) :
    Stable P where
  grant s g := hv (view_writeGrant s g)
  idle s b := hv (view_writeNoDemand s b)
  alloc s a := hv (view_alloc s a)
  work s w := hv (view_work s w)
  suspend := hb
  units s l := hv (view_latch s l)
  post s b := hv (view_post s b .latch)

theorem Stable.askScan (h : Stable P) {s : State} (hs : P s) : P s.askScan := by
  unfold State.askScan
  split
  exacts [h.work s _ hs, hs]

theorem Stable.suspendUnpowered (h : Stable P) {s : State} (hs : P s) : P s.suspendUnpowered :=
  forEach_keeps _ (fun s b hs => by
    split
    exacts [h.suspend s b hs, hs]) _ s hs

theorem Stable.spaceRaised (h : Stable P) {s : State} (hs : P s) : P s.spaceRaised := by
  unfold State.spaceRaised
  split
  · exact hs
  · exact h.alloc { s with work := { s.work with passes := [] } } _ (h.work s _ hs)

theorem Stable.grants (h : Stable P) : ∀ (l : List Grant) {s : State}, P s → P (l.foldl State.writeGrant s)
  | [], _, hs => hs
  | g :: l, s, hs => h.grants l (h.grant s g hs)

theorem Stable.recordPass (h : Stable P) {s : State} (hs : P s) (m : Summary) : P (s.recordPass m) := h.alloc s _ hs

theorem Stable.runPass (h : Stable P) {s : State} (hs : P s) (k : PassKind) : P (s.runPass k) := by
  unfold State.runPass
  split
  · exact hs
  · have h1 := forEach_keeps (P := P) State.writeNoDemand (fun s b hs => h.idle s b hs)
      ((s.bays.map (·.num)).filter fun b => !(s.grants k).flatten.any fun g => g.dem.bay == b) _
      (h.grants (s.grants k).flatten hs)
    have h2 := h.spaceRaised (h.suspendUnpowered (h.recordPass h1 (s.summaryOf k (s.grants k))))
    cases k with
    | normal => exact h.askScan h2
    | urgent => exact h.askScan h2
    | admission => exact h2

theorem Stable.takeNormal (h : Stable P) {s : State} (hs : P s) : P s.takeNormal := by
  rcases takeNormal_cases s with ⟨_, he⟩ | ⟨_, _, he⟩ | ⟨_, _, _, _, he⟩ <;> rw [he]
  exacts [hs, h.runPass hs _, h.alloc s _ hs]

theorem Stable.servePasses (h : Stable P) {s : State} (hs : P s) : P s.servePasses := by
  have hf : ∀ (l : List PassRequest) (s : State), P s → P (l.foldl State.servePass s) := by
    intro l
    induction l with
    | nil => exact fun _ hs => hs
    | cons r l ih =>
      refine fun s hs => ih _ ?_
      cases r with
      | normal => exact h.takeNormal hs
      | urgent => exact h.runPass hs .urgent
  exact hf _ _ (h.work s _ hs)

/-- The turns of a walk, one after another. -/
theorem scanWalk_keeps (hj : ∀ s j, P s → P (State.scanJob s j).1) : ∀ (js : List Job) {s : State}, P s →
    P (State.scanWalk js s)
  | [], _, hs => hs
  | j :: js, s, hs => by
    unfold State.scanWalk
    dsimp only
    split
    · exact hj s j hs
    · exact scanWalk_keeps hj js (hj s j hs)

theorem Stable.payWork (h : Stable P) (hj : ∀ s j, P s → P (State.scanJob s j).1) {s : State} (hs : P s) : P s.payWork := by
  have h1 := h.servePasses hs
  unfold State.payWork
  dsimp only
  split
  · exact h.servePasses (scanWalk_keeps hj _ h1)
  · exact h.servePasses h1

theorem Stable.setUnit (h : Stable P) {s : State} (hs : P s) (u : Nat) (st : UnitState) : P (s.setUnit u st) := by
  unfold State.setUnit
  split
  · exact hs
  · rename_i r _
    split
    · exact hs
    · have h1 : P ((s.updUnit u fun r => r.become st s.now).forEach r.bays fun s b => s.post b .latch) :=
        forEach_keeps _ (fun s b hs => h.post s b hs) _ _ (h.units s _ hs)
      have h2 : P (if r.state = .locked then ((s.updUnit u fun r => r.become st s.now).forEach r.bays
          fun s b => s.post b .latch).suspendUnit u
          else (s.updUnit u fun r => r.become st s.now).forEach r.bays fun s b => s.post b .latch) := by
        split
        exacts [forEach_keeps _ (fun s b hs => h.suspend s b hs) _ _ h1, h1]
      dsimp only
      split
      exacts [h.askScan h2, h2]

theorem Stable.driversTake (h : Stable P) {s : State} (hs : P s) : P s.driversTake := by
  have hd (d : DriverId) {s : State} (hs : P s) : P (s.driverTakes d) := by
    unfold State.driverTakes
    split
    exacts [h.setUnit (h.units _ _ (h.units s _ hs)) _ _, hs, hs]
  exact hd .b (hd .a hs)

/-- A turn of a scan, by what it can do to a job. -/
theorem Stable.scanJob (h : Stable P) {s : State} {j : Job} (he : ∀ r, P s → P (s.endJob j false r false))
    (hw : (s.bay j.bay).sess.state = .asleep → P s →
      P ((s.beginWake j.bay).updJob j.tag fun j => { j with state := .waking }))
    (ht : ∀ (t : State) c, t.freeChannel = some c → P t → P (t.takeChannel j c)) (hs : P s) : P (s.scanJob j).1 := by
  unfold State.scanJob
  dsimp only
  split
  · exact hs
  · split
    · split
      exacts [he _ hs, hw ‹_› hs]
    · split
      · exact he _ hs
      · split
        · exact he _ hs
        · split
          · exact he _ hs
          · split
            · have h1 := h.runPass hs (.admission j.bay)
              show P (s.tryAdmit j)
              unfold State.tryAdmit
              dsimp only
              split
              exacts [ht _ _ ‹_› h1, h1, h1]
            · exact hs
    all_goals exact hs

end

end Sys2Proof.Dock
end

