-- ==== Sys2Proof/Proofs/StillLanes.lean ====
section
/-! PROOF. A bay whose jobs have nothing to tell its tablet: until its line acts, the end of an event takes no more from its lane than
a job call that waits, and asks its session at most to wake (R120, R127). -/

namespace Sys2Proof.Dock

open Machine Laws

variable {s t : State}

/-! ## One bay of a state -/

theorem key_bay (s : State) (b : Nat) :
    Bay.key (s.bay b) = ((s.bays.map Bay.key).find? (·.1 == b)).getD (Bay.key (Bay.fresh b 0 0 .p1 0)) := by
  unfold State.bay State.bay?
  rw [List.find?_map, show ((fun x : Nat × Bool × Bool × Session × Lane => x.1 == b) ∘ Bay.key) = (fun r : Bay => r.num == b) from rfl]
  cases s.bays.find? fun r => r.num == b <;> rfl

/-- What O35's invariants read of the bays, they read of each. -/
theorem bay_of_view (h : view t = view s) (b : Nat) : Bay.key (t.bay b) = Bay.key (s.bay b) := by
  simp only [view, Prod.mk.injEq] at h
  rw [key_bay, key_bay, h.2.1]

theorem jobs_of_view (h : view t = view s) : t.jobs = s.jobs := by
  simp only [view, Prod.mk.injEq] at h
  unfold State.jobs
  rw [h.2.2.1, h.2.2.2.1]

/-- An update of a bay reaches the record that stands for it, or there is none. -/
theorem bay_updBay_cases (s : State) (b : Nat) {f : Bay → Bay} (hf : ∀ r, (f r).num = r.num) (c : Nat) :
    (s.updBay b f).bay c = s.bay c ∨ (c = b ∧ (s.updBay b f).bay c = f (s.bay c)) := by
  unfold State.bay
  rw [bay?_updBay s b f hf]
  split
  · cases s.bay? c with
    | none => exact .inl rfl
    | some r => exact .inr ⟨‹_›, rfl⟩
  · exact .inl rfl

theorem mem_jobs_iff (s : State) (j : Job) : j ∈ s.jobs ↔ j ∈ s.sched.active ∨ j ∈ s.sched.queue := by
  unfold State.jobs
  exact List.mem_append

/-! ## A still lane -/

/-- Of `r`'s lane a job call may have been withdrawn, and the WAKE pattern asked for where the session slept. -/
def LaneStill (r : Bay) (l : Lane) : Prop :=
  ∃ j w, l = { r.lane with job := j, wakeAsked := w } ∧ (j = r.lane.job ∨ j = none)
    ∧ (w = r.lane.wakeAsked ∨ r.sess.state = .asleep)

/-- Bay `b` is still as `r` was, but for what a scan and a suspension without a PAUSE may do. -/
structure Still (b : Nat) (r : Bay) (s : State) : Prop where
  lane : LaneStill r (s.bay b).lane
  sess : SameSession r.sess (s.bay b).sess
  silent : (s.bay b).sess.state.dropsPosts = true ∨ ∀ i ∈ s.jobs, i.bay = b → i.posted = false

theorem LaneStill.refl (r : Bay) : LaneStill r r.lane := ⟨r.lane.job, r.lane.wakeAsked, rfl, .inl rfl, .inl rfl⟩

theorem Still.refl {b : Nat} (h : (s.bay b).sess.state.dropsPosts = true ∨ ∀ i ∈ s.jobs, i.bay = b → i.posted = false) :
    Still b (s.bay b) s := ⟨LaneStill.refl _, .inl rfl, h⟩

variable {b : Nat} {r : Bay}

theorem Still.of_parts (h : Still b r s) (hl : (t.bay b).lane = (s.bay b).lane) (hx : (t.bay b).sess = (s.bay b).sess)
    (hj : ∀ i ∈ t.jobs, i.bay = b → i.posted = true → ∃ k ∈ s.jobs, k.bay = b ∧ k.posted = true) : Still b r t where
  lane := hl ▸ h.lane
  sess := hx ▸ h.sess
  silent := by
    rw [hx]
    refine h.silent.imp_right fun hs i hi hb => ?_
    cases hp : i.posted with
    | false => rfl
    | true =>
      obtain ⟨k, hk, hkb, hkp⟩ := hj i hi hb hp
      rw [hs k hk hkb] at hkp
      cases hkp

theorem Still.of_view (h : Still b r s) (hv : view t = view s) : Still b r t := by
  have hk := bay_of_view hv b
  simp only [Bay.key, Prod.mk.injEq] at hk
  exact h.of_parts hk.2.2.2.2 hk.2.2.2.1 fun i hi hb hp => ⟨i, jobs_of_view hv ▸ hi, hb, hp⟩

theorem LaneStill.withdrawJob {l : Lane} (h : LaneStill r l) (tag : Nat) : LaneStill r (l.withdrawJob tag) := by
  obtain ⟨j, w, rfl, hj, hw⟩ := h
  unfold Lane.withdrawJob
  split
  · exact ⟨j, w, rfl, hj, hw⟩
  · split
    · exact ⟨none, w, rfl, .inr rfl, hw⟩
    · exact ⟨j, w, rfl, hj, hw⟩

theorem Still.withdrawJob (h : Still b r s) (c tag : Nat) : Still b r (s.updLane c fun l => l.withdrawJob tag) := by
  have hj : (s.updLane c fun l => l.withdrawJob tag).jobs = s.jobs := rfl
  rcases bay_updBay_cases s c (f := fun r => { r with lane := r.lane.withdrawJob tag }) (fun _ => rfl) b with hb | ⟨_, hb⟩
  · exact h.of_parts (congrArg Bay.lane hb) (congrArg Bay.sess hb) fun i hi hib hp => ⟨i, hi, hib, hp⟩
  · exact ⟨(congrArg Bay.lane hb).symm ▸ h.lane.withdrawJob tag, (congrArg Bay.sess hb).symm ▸ h.sess,
      (congrArg Bay.sess hb).symm ▸ h.silent⟩

/-- The jobs that leave are no jobs that come. -/
theorem Still.dropJob (h : Still b r s) (tag : Nat) : Still b r (s.dropJob tag) :=
  h.of_parts rfl rfl fun i hi hib hp => ⟨i, mem_jobs_dropJob hi, hib, hp⟩

theorem Still.endJob (h : Still b r s) (j : Job) (reason : JobReason) : Still b r (s.endJob j false reason false) := by
  have h1 := (h.withdrawJob j.bay j.tag).of_view (view_releaseChannel _ j.channel)
  have h2 : Still b r (if j.channel.isSome = true then
      ((s.updLane j.bay fun l => l.withdrawJob j.tag).releaseChannel j.channel).askNormal
      else (s.updLane j.bay fun l => l.withdrawJob j.tag).releaseChannel j.channel) := by
    split
    exacts [h1.of_view (view_askNormal _), h1]
  exact ((h2.dropJob j.tag).of_view (view_updBay _ j.bay
    (fun r => { r with lastJob := some ⟨j.tag, j.image, false, reason⟩ }) fun _ => rfl)).of_view (view_post _ _ .job)

/-- A post to another bay, or to one whose session takes none, changes nothing here. -/
theorem Still.postStop (h : Still b r s) (c tag : Nat) (call : Call)
    (hc : c = b → (s.bay b).sess.state.dropsPosts = true) : Still b r (s.postStop c tag call) := by
  unfold State.postStop State.postLane
  split
  · exact h
  · rename_i hd
    have hne : b ≠ c := fun he => hd (he ▸ hc he.symm)
    have hb : ∀ f : Lane → Lane, (s.updLane c f).bay b = s.bay b := fun f =>
      bay_updBay_ne s c (fun r => { r with lane := f r.lane }) (fun _ => rfl) hne
    exact h.of_parts (congrArg Bay.lane (hb _)) (congrArg Bay.sess (hb _)) fun i hi hib hp => ⟨i, hi, hib, hp⟩

theorem Still.suspendJob (h : Still b r s) {j : Job} (hj : j ∈ s.jobs) : Still b r (s.suspendJob j) := by
  have h1 := h.withdrawJob j.bay j.tag
  have h2 : Still b r (if j.posted = true then
      (s.updLane j.bay fun l => l.withdrawJob j.tag).postStop j.bay j.tag (.pause j.tag)
      else s.updLane j.bay fun l => l.withdrawJob j.tag) := by
    split
    · rename_i hp
      refine h1.postStop _ _ _ fun hb => ?_
      rcases h1.silent with hd | hs
      · exact hd
      · rw [hs j hj hb] at hp
        cases hp
    · exact h1
  have h3 := (h2.of_view (view_releaseChannel _ j.channel)).dropJob j.tag
  unfold State.suspendJob
  dsimp only
  generalize ((if j.posted = true then _ else _ : State).releaseChannel j.channel).dropJob j.tag = u at h3 ⊢
  refine Still.of_view (Still.of_view (h3.of_parts (t := { u with
    sched := { u.sched with queue := insertFront u.work.returned ({ j.stopTimers with
      state := .queued, channel := none, resume := true, posted := false, holds := 0 }) u.sched.queue }
    work := { u.work with returned := j.tag :: u.work.returned } }) rfl rfl fun i hi hib hp => ?_)
    (view_post _ j.bay .job)) (view_askNormal _)
  refine ⟨i, ?_, hib, hp⟩
  rw [mem_jobs_iff] at hi ⊢
  refine hi.imp_right fun hi => ?_
  rcases mem_insertFront hi with rfl | hi
  · cases hp
  · exact hi

theorem Still.suspendBay (h : Still b r s) (c : Nat) : Still b r (s.suspendBay c) := by
  unfold State.suspendBay
  split
  · exact h
  · split
    · exact h.suspendJob (jobOf_mem ‹_›)
    · exact h

theorem stable_still (b : Nat) (r : Bay) : Stable (Still b r) :=
  .of_view (fun hv h => h.of_view hv) fun _ c h => h.suspendBay c

/-- A waiting job of an asleep session asks for a wake (R120). -/
theorem Still.wakeUp (h : Still b r s) {j : Job} (ha : (s.bay j.bay).sess.state = .asleep) :
    Still b r ((s.beginWake j.bay).updJob j.tag fun j => { j with state := .waking }) := by
  have h1 : Still b r (s.beginWake j.bay) := by
    have he : s.beginWake j.bay = s.updBay j.bay fun r => { r with
        sess := { r.sess with state := .waking, refreshAt := none }, lane := { r.lane with wakeAsked := true } } :=
      updBay_updBay s j.bay _ _ fun _ => rfl
    rw [he]
    rcases bay_updBay_cases s j.bay (f := fun r => { r with
        sess := { r.sess with state := .waking, refreshAt := none }, lane := { r.lane with wakeAsked := true } })
        (fun _ => rfl) b with hb | ⟨rfl, hb⟩
    · exact h.of_parts (congrArg Bay.lane hb) (congrArg Bay.sess hb) fun i hi hib hp => ⟨i, hi, hib, hp⟩
    · have hr : r.sess.state = .asleep := by
        rcases h.sess with hx | ⟨hx, _⟩
        · rw [← hx]; exact ha
        · exact hx
      obtain ⟨k, w, hl, hk, _⟩ := h.lane
      refine ⟨?_, ?_, ?_⟩
      · rw [hb]
        refine ⟨k, true, ?_, hk, .inr hr⟩
        dsimp only
        rw [hl]
      · rw [hb]
        exact h.sess.trans (.inr ⟨ha, rfl⟩)
      · refine .inr fun i hi hib => ?_
        rcases h.silent with hd | hs
        · rw [ha] at hd
          cases hd
        · exact hs i hi hib
  refine h1.of_parts rfl rfl fun i hi hib hp => ?_
  unfold State.updJob State.jobs at hi
  rw [← List.map_append] at hi
  obtain ⟨k, hk, rfl⟩ := List.mem_map.1 hi
  refine ⟨k, hk, ?_, ?_⟩ <;> split at hib <;> split at hp <;> assumption

theorem Still.takeChannel (h : Still b r s) (j : Job) (c : Channel) : Still b r (s.takeChannel j c) := by
  unfold State.takeChannel
  dsimp only
  refine Still.of_view (Still.of_view ((h.dropJob j.tag).of_parts (t := { s.dropJob j.tag with
    sched := { (s.dropJob j.tag).sched with active := (s.dropJob j.tag).sched.active ++ [{ j with
      state := .offered, channel := some c.num, posted := false, holds := 0, baseline := none
      settleAt := some ((s.dropJob j.tag).now + Config.settleTime) }] } }) rfl rfl fun i hi hib hp => ?_)
    (view_updChan _ _ _)) (view_post _ j.bay .job)
  refine ⟨i, ?_, hib, hp⟩
  rw [mem_jobs_iff] at hi ⊢
  refine hi.imp_left fun hi => ?_
  rcases List.mem_append.1 hi with hi | hi
  · exact hi
  · rw [List.mem_singleton.1 hi] at hp
    cases hp

theorem Still.payWork (h : Still b r s) : Still b r s.payWork :=
  (stable_still b r).payWork (fun _ _ => (stable_still b r).scanJob (fun _ hs => hs.endJob _ _) (fun ha hs => hs.wakeUp ha)
    fun _ c _ hs => hs.takeChannel _ c) h

theorem Still.driversTake (h : Still b r s) : Still b r s.driversTake := (stable_still b r).driversTake h

end Sys2Proof.Dock
end

