-- ==== Sys2Proof/Proofs/Passes.lean ====
section
/-! PROOF. The passes of an event (R64 to R66): how many have run, the rotation origin that follows from it, and the figures that the
latest one was made from, which nothing else at the end of an event changes. -/

namespace Sys2Proof.Dock

open Machine Laws

variable {s t u : State}

/-! ## What the figures of a pass are made from, and what a pass leaves -/

/-- Which bays are enabled, and which hold a tablet. -/
def presences (s : State) : List (Bool × Bool) := s.bays.map fun r => (r.enabled, r.present)

/-- What a summary is made from (R69 to R71), and the latest pass with its summary and the rotation origin. -/
def figures (s : State) : Nat × Option Geometry × Monitor × (Nat × Nat × Nat × Nat × Policy × Nat × Nat × Nat)
    × List (Bool × Bool) × Option Nat × Option Summary × Nat :=
  (s.now, s.geo, s.monitor, s.settings, presences s, s.alloc.lastPass, s.alloc.summary, s.alloc.origin)

theorem figures_iff (s t : State) : figures t = figures s ↔ t.now = s.now ∧ t.geo = s.geo ∧ t.monitor = s.monitor
    ∧ t.settings = s.settings ∧ presences t = presences s ∧ t.alloc.lastPass = s.alloc.lastPass
    ∧ t.alloc.summary = s.alloc.summary ∧ t.alloc.origin = s.alloc.origin := by
  simp only [figures, Prod.mk.injEq]

theorem presences_of_view (h : view t = view s) : presences t = presences s := by
  simp only [view, Prod.mk.injEq] at h
  have := congrArg (List.map fun k : Nat × Bool × Bool × Session × Lane => (k.2.1, k.2.2.1)) h.2.1
  rw [List.map_map, List.map_map] at this
  exact this

theorem presences_mapBays (s : State) {f : Bay → Bay} (hf : ∀ r, (f r).enabled = r.enabled ∧ (f r).present = r.present) :
    presences { s with bays := s.bays.map f } = presences s := by
  unfold presences
  rw [List.map_map]
  refine List.map_congr_left fun r _ => ?_
  simp only [Function.comp, (hf r).1, (hf r).2]

section
variable (s : State)

theorem figures_mapBays {f : Bay → Bay} (hf : ∀ r, (f r).enabled = r.enabled ∧ (f r).present = r.present) :
    figures { s with bays := s.bays.map f } = figures s :=
  (figures_iff s _).2 ⟨rfl, rfl, rfl, rfl, presences_mapBays s hf, rfl, rfl, rfl⟩

theorem figures_updBay (b : Nat) {f : Bay → Bay} (hf : ∀ r, (f r).enabled = r.enabled ∧ (f r).present = r.present) :
    figures (s.updBay b f) = figures s :=
  figures_mapBays s fun r => by split; exacts [hf r, ⟨rfl, rfl⟩]

@[simp] theorem figures_updLane (b : Nat) (f : Lane → Lane) : figures (s.updLane b f) = figures s :=
  figures_updBay s b fun _ => ⟨rfl, rfl⟩

@[simp] theorem figures_updSess (b : Nat) (f : Session → Session) : figures (s.updSess b f) = figures s :=
  figures_updBay s b fun _ => ⟨rfl, rfl⟩

@[simp] theorem figures_post (b : Nat) (e : BayEvent) : figures (s.post b e) = figures s :=
  figures_updBay s b fun _ => ⟨rfl, rfl⟩

@[simp] theorem figures_askNormal : figures s.askNormal = figures s := by
  unfold State.askNormal
  split <;> rfl

@[simp] theorem figures_askUrgent : figures s.askUrgent = figures s := by
  unfold State.askUrgent
  split <;> rfl

@[simp] theorem figures_askScan : figures s.askScan = figures s := by
  unfold State.askScan
  split <;> rfl

@[simp] theorem figures_postStop (b tag : Nat) (c : Call) : figures (s.postStop b tag c) = figures s := by
  unfold State.postStop State.postLane
  split
  exacts [rfl, figures_updLane s b _]

@[simp] theorem figures_releaseChannel (c : Option Nat) : figures (s.releaseChannel c) = figures s := by
  cases c <;> rfl

@[simp] theorem figures_updJob (tag : Nat) (f : Job → Job) : figures (s.updJob tag f) = figures s := rfl

@[simp] theorem figures_dropJob (tag : Nat) : figures (s.dropJob tag) = figures s := rfl

@[simp] theorem figures_endJob (j : Job) (done : Bool) (why : JobReason) (tell : Bool) :
    figures (s.endJob j done why tell) = figures s := by
  unfold State.endJob
  dsimp only
  rw [figures_post]
  refine (figures_updBay _ _ (f := fun r => { r with lastJob := some ⟨j.tag, j.image, done, why⟩ }) fun _ => ⟨rfl, rfl⟩).trans ?_
  rw [figures_dropJob]
  cases tell <;> cases j.channel <;> simp

@[simp] theorem figures_suspendJob (j : Job) : figures (s.suspendJob j) = figures s := by
  unfold State.suspendJob
  dsimp only
  rw [figures_askNormal, figures_post]
  generalize hv : ((if j.posted = true then _ else _ : State).releaseChannel j.channel).dropJob j.tag = v
  show figures v = figures s
  rw [← hv, figures_dropJob, figures_releaseChannel]
  split <;> simp

@[simp] theorem figures_suspendBay (b : Nat) : figures (s.suspendBay b) = figures s := by
  unfold State.suspendBay
  split
  · rfl
  · split
    exacts [figures_suspendJob s _, rfl]

@[simp] theorem figures_beginWake (b : Nat) : figures (s.beginWake b) = figures s := by
  unfold State.beginWake
  simp

@[simp] theorem figures_takeChannel (j : Job) (c : Channel) : figures (s.takeChannel j c) = figures s := by
  unfold State.takeChannel
  exact figures_post _ _ _

@[simp] theorem figures_forEach (f : State → Nat → State) (hf : ∀ s b, figures (f s b) = figures s) (l : List Nat) :
    figures (s.forEach l f) = figures s :=
  forEach_keeps (P := fun v => figures v = figures s) f (fun v b h => (hf v b).trans h) l s rfl

@[simp] theorem figures_setUnit (n : Nat) (st : UnitState) : figures (s.setUnit n st) = figures s := by
  unfold State.setUnit
  split
  · rfl
  · rename_i r _
    split
    · rfl
    · have h1 : figures ((s.updUnit n fun r => r.become st s.now).forEach r.bays fun s b => s.post b .latch) = figures s :=
        figures_forEach _ _ (fun _ _ => figures_post _ _ _) _
      have h2 : figures (if r.state = .locked then ((s.updUnit n fun r => r.become st s.now).forEach r.bays
          fun s b => s.post b .latch).suspendUnit n
          else (s.updUnit n fun r => r.become st s.now).forEach r.bays fun s b => s.post b .latch) = figures s := by
        split
        exacts [(figures_forEach _ _ (fun _ _ => figures_suspendBay _ _) _).trans h1, h1]
      dsimp only
      split
      exacts [(figures_askScan _).trans h2, h2]

@[simp] theorem figures_driversTake : figures s.driversTake = figures s := by
  have hd (d : DriverId) (v : State) : figures (v.driverTakes d) = figures v := by
    unfold State.driverTakes
    split
    exacts [figures_setUnit _ _ _, rfl, rfl]
  exact (hd .b _).trans (hd .a s)

@[simp] theorem figures_kickLanes : figures s.kickLanes = figures s :=
  figures_mapBays s fun r => by
    rw [kickLane_eq]
    exact ⟨rfl, rfl⟩

@[simp] theorem figures_lightLamps : figures s.lightLamps = figures s := figures_mapBays s fun _ => ⟨rfl, rfl⟩

@[simp] theorem figures_sendLimits : figures s.sendLimits = figures s := figures_mapBays s fun _ => ⟨rfl, rfl⟩

end

/-- After the passes and the scan nothing at the end of an event changes the figures. -/
theorem figures_settle (s : State) : figures s.settle = figures s.payWork := by
  show figures s.payWork.driversTake.kickLanes.lightLamps.sendLimits = _
  simp

theorem presences_runPass (s : State) (k : PassKind) : presences (s.runPass k) = presences s := by
  have hs : Stable fun v => presences v = presences s := .of_view (fun hv h => (presences_of_view hv).trans h)
    fun v b h => ((figures_iff v _).1 (figures_suspendBay v b)).2.2.2.2.1.trans h
  exact hs.runPass rfl k

/-! ## Passes counted (R79) -/

theorem originAfter_succ (n : Nat) : ∀ k o, State.originAfter n (k + 1) o = State.originAfter n k o % n + 1
  | 0, _ => rfl
  | k + 1, o => originAfter_succ n k (o % n + 1)

/-- `k` passes have run in the event that takes `s` to `t`: the origin has gone on once for each, and the latest, if there is one, is
of this event, its summary over the figures of `t`. -/
structure Ran (s : State) (k : Nat) (t : State) : Prop where
  now : t.now = s.now
  geo : t.geo = s.geo
  origin : t.alloc.origin = State.originAfter s.nBays k s.alloc.origin
  none : k = 0 → t.alloc.lastPass = s.alloc.lastPass
  latest : k ≠ 0 → t.alloc.lastPass = some t.now ∧ t.summed

theorem summed_of_figures (h : figures t = figures s) (hs : s.summed) : t.summed := by
  obtain ⟨_, hg, hm, hst, hp, _, hsum, ho⟩ := (figures_iff s t).1 h
  obtain ⟨m, h1, h2, h3, h4, h5, h6, h7, h8, h9, h10⟩ := hs
  simp only [State.settings, Prod.mk.injEq] at hst
  obtain ⟨hc, hov, heta, hsl, _, _, _, htr⟩ := hst
  have hk : t.kT = s.kT := by unfold State.kT; rw [hm]
  have hd : t.derated = s.derated := by unfold State.derated; rw [hk, hc]
  have he : t.etaEff = s.etaEff := by unfold State.etaEff; rw [heta, htr]
  have ha : t.available = s.available := by unfold State.available; rw [hd, he, hov]
  have hem : t.empties = s.empties := by
    have hc (v : State) : v.empties = ((presences v).filter fun p => p.1 && !p.2).length := by
      unfold State.empties presences
      rw [List.filter_map, List.length_map]
      rfl
    rw [hc, hc, hp]
  have hdis : t.distributable = s.distributable := by
    unfold State.distributable State.insertionReserve
    rw [ha, hsl, hem]
  exact ⟨m, hsum.trans h1, by rw [ho, h2, nBays_of_geo hg], hm ▸ h3, hm ▸ h4, h5.trans hk.symm, h6.trans hd.symm,
    h7.trans he.symm, h8.trans ha.symm, h9.trans hem.symm, h10.trans hdis.symm⟩

theorem Ran.refl (s : State) : Ran s 0 s := ⟨rfl, rfl, rfl, fun _ => rfl, fun h => absurd rfl h⟩

theorem Ran.of_figures {k : Nat} (h : Ran s k t) (hf : figures u = figures t) : Ran s k u := by
  have ⟨hn, hg, _, _, _, hl, _, ho⟩ := (figures_iff t u).1 hf
  refine ⟨hn.trans h.now, hg.trans h.geo, ho.trans h.origin, fun hk => hl.trans (h.none hk), fun hk => ?_⟩
  obtain ⟨h1, h2⟩ := h.latest hk
  exact ⟨by rw [hl, hn, h1], summed_of_figures hf h2⟩

theorem summed_runPass (hc : t.committed = true) (k : PassKind) : (t.runPass k).summed := by
  have hk := (kept_runPass t k).cart
  have hr := passRan_runPass hc k
  refine summed_of_figures (s := { t with alloc := (t.runPass k).alloc }) ((figures_iff _ _).2
    ⟨hk.now, hk.geo, hk.monitor, rfl, presences_runPass t k, rfl, rfl, rfl⟩) ⟨_, hr.summary, hr.origin, rfl, rfl, rfl, ?_⟩
  have hst := hk.settings
  simp only [State.settings, Prod.mk.injEq] at hst
  obtain ⟨hc, hov, heta, hsl, _, _, _, htr⟩ := hst
  have hd : State.derated { t with alloc := (t.runPass k).alloc } = t.derated := by
    unfold State.derated
    rw [← hc]
    rfl
  have he : State.etaEff { t with alloc := (t.runPass k).alloc } = t.etaEff := by
    unfold State.etaEff
    rw [← heta, ← htr]
  have ha : State.available { t with alloc := (t.runPass k).alloc } = t.available := by
    unfold State.available
    rw [hd, he, ← hov]
  have hdis : State.distributable { t with alloc := (t.runPass k).alloc } = t.distributable := by
    unfold State.distributable State.insertionReserve
    rw [ha, ← hsl]
    rfl
  exact ⟨hd.symm, he.symm, ha.symm, rfl, hdis.symm⟩

/-- One more pass. -/
theorem Ran.runPass {k : Nat} (h : Ran s k t) (hc : t.committed = true) (kind : PassKind) : Ran s (k + 1) (t.runPass kind) := by
  have hk := (kept_runPass t kind).cart
  have hr := passRan_runPass hc kind
  refine ⟨hk.now.trans h.now, hk.geo.trans h.geo, ?_, (nomatch ·), fun _ => ⟨?_, summed_runPass hc kind⟩⟩
  · rw [hr.origin, h.origin, nBays_of_geo h.geo, originAfter_succ]
  · rw [hr.lastPass, hk.now]

end Sys2Proof.Dock
end

