-- ==== Sys2Proof/Proofs/Requests.lean ====
section
/-! PROOF. The requests for passes that an event makes (R65, R66): merged, scheduled or run, and what the scan that follows a pass
adds. -/

namespace Sys2Proof.Dock

open Machine Laws

variable {s t u : State}

/-! ## What the event still owes -/

/-- Every request that waits is a normal one. -/
def Normals (s : State) : Prop := ∀ r ∈ s.work.passes, r = .normal

theorem normals_askNormal (h : Normals s) : Normals s.askNormal := by
  unfold State.askNormal
  split
  · intro r hr
    rcases List.mem_append.1 hr with hr | hr
    exacts [h r hr, List.mem_singleton.1 hr]
  · exact h

theorem postStop_work (s : State) (b tag : Nat) (c : Call) : (s.postStop b tag c).work = s.work := by
  unfold State.postStop State.postLane
  split <;> rfl

theorem releaseChannel_work (s : State) (c : Option Nat) : (s.releaseChannel c).work = s.work := by
  cases c <;> rfl

theorem askNormal_work (hg : t.geo = s.geo) (hw : t.work = s.work) : t.askNormal.work = s.askNormal.work := by
  unfold State.askNormal State.committed
  rw [hg, hw]
  split
  · rfl
  · exact hw

theorem askNormal_passes (hc : s.committed = true) (hp : s.work.passes = []) :
    s.askNormal.work = { s.work with passes := [.normal] } := by
  unfold State.askNormal
  rw [if_pos ⟨hc, by rw [hp]; simp⟩, hp]
  rfl

theorem postStop_geo (s : State) (b tag : Nat) (c : Call) : (s.postStop b tag c).geo = s.geo := by
  unfold State.postStop State.postLane
  split <;> rfl

/-- The end of a job that holds a channel requests a normal pass (R128). -/
theorem endJob_work (s : State) (j : Job) (done : Bool) (why : JobReason) (tell : Bool) :
    (s.endJob j done why tell).work = if j.channel.isSome then s.askNormal.work else s.work := by
  have hr (v : State) (c : Option Nat) : (v.releaseChannel c).geo = v.geo := by cases c <;> rfl
  have hw : ((if tell then (s.updLane j.bay fun l => l.withdrawJob j.tag).postStop j.bay j.tag (.abort j.tag)
      else s.updLane j.bay fun l => l.withdrawJob j.tag).releaseChannel j.channel).work = s.work := by
    rw [releaseChannel_work]
    split
    exacts [postStop_work _ _ _ _, rfl]
  have hg : ((if tell then (s.updLane j.bay fun l => l.withdrawJob j.tag).postStop j.bay j.tag (.abort j.tag)
      else s.updLane j.bay fun l => l.withdrawJob j.tag).releaseChannel j.channel).geo = s.geo := by
    rw [hr]
    split
    exacts [postStop_geo _ _ _ _, rfl]
  unfold State.endJob
  dsimp only
  generalize (if tell then (s.updLane j.bay fun l => l.withdrawJob j.tag).postStop j.bay j.tag (.abort j.tag)
      else s.updLane j.bay fun l => l.withdrawJob j.tag).releaseChannel j.channel = v at hw hg
  show (if j.channel.isSome then v.askNormal else v).work = _
  split
  exacts [askNormal_work hg hw, hw]

theorem normals_endJob (h : Normals s) (j : Job) (done : Bool) (why : JobReason) (tell : Bool) :
    Normals (s.endJob j done why tell) := by
  unfold Normals
  rw [endJob_work]
  split
  exacts [normals_askNormal h, h]

/-- A pass takes what its own suspensions request (R65). -/
theorem runPass_passes (hc : s.committed = true) (k : PassKind) : (s.runPass k).work.passes = [] := by
  have ha (v : State) : v.askScan.work.passes = v.work.passes := by
    unfold State.askScan
    split <;> rfl
  have hs (v : State) : v.spaceRaised.work.passes = [] := by
    unfold State.spaceRaised
    split
    exacts [‹_›, rfl]
  unfold State.runPass
  rw [if_neg (by simp [hc])]
  cases k with
  | normal => exact (ha _).trans (hs _)
  | urgent => exact (ha _).trans (hs _)
  | admission => exact hs _

theorem takeNormal_passes (hc : s.committed = true) (hp : s.work.passes = []) : s.takeNormal.work.passes = [] := by
  rcases takeNormal_cases s with ⟨_, he⟩ | ⟨_, _, he⟩ | ⟨_, _, _, _, he⟩ <;> rw [he]
  exacts [hp, runPass_passes hc _, hp]

/-! ## Requests served in turn -/

theorem Ran.committed {k : Nat} (h : Ran s k t) (hc : s.committed = true) : t.committed = true := by
  unfold State.committed at *
  rw [h.geo]
  exact hc

/-- After a pass of the event a normal request merges or is scheduled. -/
theorem Ran.takeNormal {k : Nat} (h : Ran s k t) (hk : k ≠ 0) : Ran s k t.takeNormal := by
  have hl := (h.latest hk).1
  rcases takeNormal_cases t with ⟨_, he⟩ | ⟨_, hp, _⟩ | ⟨_, _, _, _, he⟩
  · rwa [he]
  · have := hp _ hl
    unfold Config.passSpacing at this
    omega
  · rw [he]
    exact h.of_figures rfl

/-- A request, of whichever kind, runs one pass or none. -/
theorem Ran.servePass {k : Nat} (h : Ran s k t) (hc : s.committed = true) (r : PassRequest) :
    ∃ k', k ≤ k' ∧ k' ≤ k + 1 ∧ (r = .urgent → k' ≠ 0) ∧ Ran s k' (t.servePass r) := by
  cases r with
  | urgent => exact ⟨k + 1, by omega, by omega, fun _ => by omega, h.runPass (h.committed hc) .urgent⟩
  | normal =>
    show ∃ k', _ ∧ _ ∧ _ ∧ Ran s k' t.takeNormal
    rcases takeNormal_cases t with ⟨_, he⟩ | ⟨_, _, he⟩ | ⟨_, _, _, _, he⟩ <;> rw [he]
    · exact ⟨k, by omega, by omega, (nomatch ·), h⟩
    · exact ⟨k + 1, by omega, by omega, (nomatch ·), h.runPass (h.committed hc) .normal⟩
    · exact ⟨k, by omega, by omega, (nomatch ·), h.of_figures rfl⟩

theorem Ran.foldPasses (hc : s.committed = true) : ∀ (l : List PassRequest) {k : Nat} {t : State}, Ran s k t → t.work.passes = [] →
    ∃ k', k ≤ k' ∧ k' ≤ k + l.length ∧ (.urgent ∈ l → k' ≠ 0) ∧ Ran s k' (l.foldl State.servePass t)
      ∧ (l.foldl State.servePass t).work.passes = []
  | [], k, _, h, hp => ⟨k, by omega, by simp, by simp, h, hp⟩
  | r :: l, k, t, h, hp => by
    obtain ⟨m, h1, h2, h3, hm⟩ := h.servePass hc r
    have hp' : (t.servePass r).work.passes = [] := by
      cases r with
      | normal => exact takeNormal_passes (h.committed hc) hp
      | urgent => exact runPass_passes (h.committed hc) _
    obtain ⟨k', h4, h5, h6, hk', hpk⟩ := Ran.foldPasses hc l hm hp'
    refine ⟨k', by omega, by simp only [List.length_cons]; omega, fun hu => ?_, hk', hpk⟩
    rcases List.mem_cons.1 hu with hu | hu
    · have := h3 hu.symm
      omega
    · exact h6 hu

/-- After a pass of the event no normal request runs one. -/
theorem Ran.serveNormals {k : Nat} (h : Ran s k t) (hk : k ≠ 0) (hn : Normals t) : Ran s k t.servePasses := by
  have hf : ∀ (l : List PassRequest), (∀ r ∈ l, r = .normal) → ∀ v, Ran s k v → Ran s k (l.foldl State.servePass v) := by
    intro l
    induction l with
    | nil => exact fun _ _ hv => hv
    | cons r l ih =>
      intro hl v hv
      obtain rfl := hl r (List.mem_cons_self ..)
      exact ih (fun r hr => hl r (List.mem_cons_of_mem _ hr)) _ (hv.takeNormal hk)
  exact hf _ hn _ (h.of_figures rfl)

/-! ## The scan after a pass -/

/-- A turn of the walk runs no pass, or it is the admission that ends it (R120, R122). -/
theorem scanJob_cases (hn : Normals s) (j : Job) : (figures (s.scanJob j).1 = figures s ∧ Normals (s.scanJob j).1)
    ∨ s.scanJob j = (s.tryAdmit j, true) := by
  unfold State.scanJob
  dsimp only
  split
  · exact .inl ⟨rfl, hn⟩
  · split
    · split
      exacts [.inl ⟨figures_endJob .., normals_endJob hn _ _ _ _⟩, .inl ⟨figures_beginWake s j.bay, hn⟩]
    · split
      · exact .inl ⟨figures_endJob .., normals_endJob hn _ _ _ _⟩
      · split
        · exact .inl ⟨figures_endJob .., normals_endJob hn _ _ _ _⟩
        · split
          · exact .inl ⟨figures_endJob .., normals_endJob hn _ _ _ _⟩
          · split
            exacts [.inr rfl, .inl ⟨rfl, hn⟩]
    all_goals exact .inl ⟨rfl, hn⟩

/-- An admission runs one pass. -/
theorem Ran.tryAdmit {k : Nat} (h : Ran s k t) (hc : s.committed = true) (j : Job) :
    Ran s (k + 1) (t.tryAdmit j) ∧ Normals (t.tryAdmit j) := by
  have hr := h.runPass (h.committed hc) (.admission j.bay)
  have hn : Normals (t.runPass (.admission j.bay)) := fun r hr => by
    rw [runPass_passes (h.committed hc)] at hr
    cases hr
  unfold State.tryAdmit
  dsimp only
  split
  exacts [⟨hr.of_figures (figures_takeChannel ..), hn⟩, ⟨hr, hn⟩, ⟨hr, hn⟩]

theorem Ran.scanWalk {k : Nat} (hc : s.committed = true) : ∀ (js : List Job) {t : State}, Ran s k t → Normals t →
    ∃ k', k ≤ k' ∧ k' ≤ k + 1 ∧ Ran s k' (State.scanWalk js t) ∧ Normals (State.scanWalk js t)
  | [], _, h, hn => ⟨k, by omega, by omega, h, hn⟩
  | j :: js, t, h, hn => by
    unfold State.scanWalk
    rcases scanJob_cases hn j with ⟨hf, hn'⟩ | he
    · have h' := h.of_figures hf
      dsimp only
      split
      · exact ⟨k, by omega, by omega, h', hn'⟩
      · exact Ran.scanWalk hc js h' hn'
    · rw [he]
      exact ⟨k + 1, by omega, by omega, h.tryAdmit hc j⟩

/-- What follows the event's own passes: the scan and its request. -/
theorem Ran.scanned {k : Nat} (h : Ran s k t) (hc : s.committed = true) (hk : k ≠ 0) (hn : Normals t) :
    ∃ k', k ≤ k' ∧ k' ≤ k + 1 ∧ Ran s k' (if t.work.scan then t.runScan else t).servePasses := by
  split
  · obtain ⟨k', h1, h2, hr, hn'⟩ := Ran.scanWalk hc t.sched.queue h hn
    exact ⟨k', h1, h2, hr.serveNormals (by omega) hn'⟩
  · exact ⟨k, by omega, by omega, h.serveNormals hk hn⟩

theorem Ran.passedTo {k : Nat} (h : Ran s k t) (hk : k ≠ 0) (hl : k < 12) : s.passedTo t :=
  ⟨(h.latest hk).1, (h.latest hk).2, k, by omega, hl, h.origin⟩

theorem Ran.settle {k : Nat} (h : Ran s k t.payWork) : Ran s k t.settle := h.of_figures (figures_settle t)

/-- Urgent requests run (R66). -/
theorem passedTo_of_urgent (hc : s.committed = true) (hu : .urgent ∈ s.work.passes) (hl : s.work.passes.length < 11) :
    s.passedTo s.settle := by
  obtain ⟨k, _, h2, h3, hr, hp⟩ := Ran.foldPasses hc s.work.passes (t := { s with work := { s.work with passes := [] } })
    ((Ran.refl s).of_figures rfl) rfl
  obtain ⟨k', h4, h5, hr'⟩ := hr.scanned hc (h3 hu) fun r hr => by rw [hp] at hr; cases hr
  have := h3 hu
  exact Ran.passedTo (k := k') (Ran.settle hr') (by omega) (by omega)

/-! ## One normal request (R65) -/

/-- The state with its request for a pass taken off. -/
def unasked (s : State) : State := { s with work := { s.work with passes := [] } }

theorem servePasses_normal (hp : s.work.passes = [.normal]) : s.servePasses = (unasked s).takeNormal := by
  unfold State.servePasses
  rw [hp]
  rfl

/-- A state that owes neither passes nor a scan. -/
theorem servePasses_nil (hp : s.work.passes = []) : s.servePasses = s := by
  unfold State.servePasses
  rw [hp]
  show unasked s = s
  unfold unasked
  rw [← hp]

/-- Of one request that merges or is scheduled no pass or scan comes. -/
theorem payWork_unasked (hp : s.work.passes = [.normal]) (hs : s.work.scan = false) {a : Alloc}
    (h : (unasked s).takeNormal = { unasked s with alloc := a }) : s.payWork = { unasked s with alloc := a } := by
  unfold State.payWork
  rw [servePasses_normal hp, h]
  show (if s.work.scan = true then _ else { unasked s with alloc := a }).servePasses = _
  rw [hs]
  exact servePasses_nil rfl

theorem payWork_merged (hp : s.work.passes = [.normal]) (hs : s.work.scan = false) (hd : s.alloc.scheduled.isSome = true) :
    s.payWork = unasked s := by
  obtain ⟨d, hd⟩ := Option.isSome_iff_exists.1 hd
  refine payWork_unasked hp hs ?_
  unfold State.takeNormal
  rw [show (unasked s).alloc.scheduled = some d from hd]
  rfl

theorem alloc_settle (s : State) : s.settle.alloc = s.payWork.alloc := by
  have hd (d : DriverId) (v : State) : (v.driverTakes d).alloc = v.alloc := by
    have hu (v : State) (n : Nat) (st : UnitState) : (v.setUnit n st).alloc = v.alloc := by
      unfold State.setUnit
      split
      · rfl
      · rename_i r _
        split
        · rfl
        · have h1 : ((v.updUnit n fun r => r.become st v.now).forEach r.bays fun s b => s.post b .latch).alloc = v.alloc :=
            forEach_alloc (fun s b => s.post b .latch) (fun _ _ => rfl) _ _
          have h2 : (if r.state = .locked then ((v.updUnit n fun r => r.become st v.now).forEach r.bays
              fun s b => s.post b .latch).suspendUnit n
              else (v.updUnit n fun r => r.become st v.now).forEach r.bays fun s b => s.post b .latch).alloc = v.alloc := by
            split
            exacts [(forEach_alloc _ suspendBay_alloc _ _).trans h1, h1]
          dsimp only
          split
          exacts [(askScan_alloc _).trans h2, h2]
    unfold State.driverTakes
    split
    exacts [hu _ _ _, rfl, rfl]
  have hl (v : State) : State.alloc { v.kickLanes.lightLamps.sendLimits with work := Work.none } = v.alloc := rfl
  unfold State.settle
  rw [hl]
  unfold State.driversTake
  rw [hd, hd]

/-- One normal request of an event is taken at its end. -/
theorem normalTaken_settle (hc : s.committed = true) (hp : s.work.passes = [.normal]) (hs : s.work.scan = false) :
    s.normalTaken s.settle := by
  have hnow : s.settle.now = s.now := (kept_settle s).cart.now
  unfold State.normalTaken
  split
  · rename_i d p hd
    rw [alloc_settle, payWork_merged hp hs (by rw [hd]; rfl)]
    exact ⟨hd, rfl⟩
  · rename_i p hd hl
    split
    · rename_i hlt
      have ht : (unasked s).takeNormal = { unasked s with alloc := { s.alloc with scheduled := some (p + 100) } } := by
        unfold State.takeNormal
        rw [show (unasked s).alloc.scheduled = none from hd, show (unasked s).alloc.lastPass = some p from hl]
        exact if_neg (by rw [hnow] at hlt; exact Nat.not_le.2 hlt)
      rw [alloc_settle, payWork_unasked hp hs ht]
      exact ⟨rfl, hl⟩
    · rename_i hge
      refine ran ?_
      unfold State.takeNormal
      rw [show (unasked s).alloc.scheduled = none from hd, show (unasked s).alloc.lastPass = some p from hl]
      exact if_pos (by rw [hnow] at hge; exact Nat.not_lt.1 hge)
  · rename_i hd hl
    refine ran ?_
    unfold State.takeNormal
    rw [show (unasked s).alloc.scheduled = none from hd, show (unasked s).alloc.lastPass = none from hl]
where
  ran (ht : (unasked s).takeNormal = (unasked s).runPass .normal) : s.passedTo s.settle := by
    have hr : Ran s 1 s.servePasses := by
      rw [servePasses_normal hp, ht]
      exact ((Ran.refl s).of_figures (u := unasked s) rfl).runPass hc .normal
    have hn : Normals s.servePasses := by
      unfold Normals
      rw [servePasses_normal hp, ht, runPass_passes (s := unasked s) hc]
      simp
    obtain ⟨k, h1, h2, hk⟩ := hr.scanned hc (by omega) hn
    exact Ran.passedTo (k := k) (Ran.settle hk) (by omega) (by omega)

end Sys2Proof.Dock
end

