-- ==== Sys2Proof/Proofs/Departures.lean ====
section
/-! PROOF. Jobs that leave the scheduler or a channel (R127, R128): the state each leaves in one expression, and the lane of their bay
until the end of the event. -/

namespace Sys2Proof.Dock

open Machine Laws

variable {s t u : State}

/-! ## The calls of a job that leaves (R28) -/

/-- An ENVELOPE or RECEIPT_READ of job `tag` withdrawn, and call `c`, if there is one, in the Stop slot. -/
def tellLane (tag : Nat) (c : Option Call) (l : Lane) : Lane :=
  { l with job := if l.job.any (·.isJobCall tag) then none else l.job, stop := c.or l.stop }

theorem withdrawJob_eq (l : Lane) (tag : Nat) : l.withdrawJob tag = tellLane tag none l := by
  unfold Lane.withdrawJob tellLane
  cases h : l.job with
  | none => exact congrArg (fun j => { l with job := j }) h
  | some c =>
    dsimp only [Option.any]
    split
    exacts [rfl, congrArg (fun j => { l with job := j }) h]

theorem tellLane_tellLane (tag : Nat) (c : Option Call) (l : Lane) : tellLane tag c (tellLane tag none l) = tellLane tag c l := by
  unfold tellLane
  dsimp only
  cases h : l.job with
  | none => simp
  | some d => cases hd : d.isJobCall tag <;> simp [hd]

/-- Call `c` as it is posted: dropped where the session takes no posts. -/
def postedCall (s : State) (b : Nat) (c : Option Call) : Option Call := if (s.bay b).sess.state.dropsPosts then none else c

theorem postStop_eq (s : State) (b tag : Nat) (c : Call) :
    s.postStop b tag c = s.updLane b fun l => if (s.bay b).sess.state.dropsPosts then l else tellLane tag (some c) l := by
  unfold State.postStop State.postLane
  split
  · exact (updLane_id s b fun _ => rfl).symm
  · congr 1
    funext l
    rw [withdrawJob_eq]
    rfl

theorem bay_updLane_sess (s : State) (b : Nat) (f : Lane → Lane) (c : Nat) : ((s.updLane b f).bay c).sess = (s.bay c).sess := by
  rcases bay_updBay_cases s b (f := fun r => { r with lane := f r.lane }) (fun _ => rfl) c with h | ⟨_, h⟩
  exacts [congrArg Bay.sess h, (congrArg Bay.sess h :)]

/-- The calls of a job that leaves, all in one. -/
theorem calls_eq (s : State) (b tag : Nat) (tell : Bool) (c : Call) :
    (if tell then (s.updLane b fun l => l.withdrawJob tag).postStop b tag c else s.updLane b fun l => l.withdrawJob tag)
      = s.updLane b (tellLane tag (postedCall s b (if tell then some c else none))) := by
  cases tell with
  | false =>
    unfold postedCall
    simp only [Bool.false_eq_true, if_false, ite_self]
    congr 1
    exact funext fun l => withdrawJob_eq l tag
  | true =>
    simp only [if_true]
    rw [postStop_eq, bay_updLane_sess, updLane_updLane]
    congr 1
    funext l
    unfold postedCall
    rw [withdrawJob_eq]
    split
    exacts [rfl, tellLane_tellLane tag (some c) l]

/-! ## Channels (R117) -/

/-- The channels with the one that `c` names DRAINING. -/
def drainedFrom (s : State) (c : Option Nat) : List Channel :=
  s.sched.channels.map fun r => if c = some r.num then { r with state := .draining (s.now + 50) } else r

theorem releaseChannel_eq (s : State) (c : Option Nat) :
    s.releaseChannel c = { s with sched := { s.sched with channels := drainedFrom s c } } := by
  cases c with
  | none =>
    unfold drainedFrom
    simp [State.releaseChannel]
  | some n =>
    unfold State.releaseChannel State.updChan drainedFrom
    dsimp only
    congr 2
    refine List.map_congr_left fun r _ => ?_
    simp only [Option.some.injEq, eq_comm (a := n)]
    rfl

theorem askNormal_eq (s : State) : s.askNormal = { s with work := s.askNormal.work } := by
  unfold State.askNormal
  split <;> rfl

/-! ## A job ends (R128) -/

/-- The record of the bay whose job ends. -/
def endedBay (j : Job) (done : Bool) (why : JobReason) (c : Option Call) (r : Bay) : Bay :=
  { r with lastJob := some ⟨j.tag, j.image, done, why⟩, events := r.events ||| 0x40#10, lane := tellLane j.tag c r.lane }

theorem endJob_eq (s : State) (j : Job) (done : Bool) (why : JobReason) (tell : Bool) :
    s.endJob j done why tell = { s with
      sched := { s.sched with
        queue := s.sched.queue.filter (·.tag != j.tag), active := s.sched.active.filter (·.tag != j.tag)
        channels := drainedFrom s j.channel }
      bays := (s.updBay j.bay (endedBay j done why (postedCall s j.bay (if tell then some (.abort j.tag) else none)))).bays
      work := if j.channel.isSome then s.askNormal.work else s.work } := by
  have hw := endJob_work s j done why tell
  unfold State.endJob at hw ⊢
  dsimp only at hw ⊢
  rw [calls_eq, releaseChannel_eq] at hw ⊢
  generalize hf : tellLane j.tag (postedCall s j.bay (if tell then some (.abort j.tag) else none)) = f at hw ⊢
  have hb : ∀ r, endedBay j done why (postedCall s j.bay (if tell then some (.abort j.tag) else none)) r
      = { r with lastJob := some ⟨j.tag, j.image, done, why⟩, events := r.events ||| 0x40#10, lane := f r.lane } := by
    rw [← hf]
    exact fun _ => rfl
  have hbays : (s.updBay j.bay (endedBay j done why (postedCall s j.bay (if tell then some (.abort j.tag) else none)))).bays
      = (((s.updLane j.bay f).updBay j.bay fun r => { r with lastJob := some ⟨j.tag, j.image, done, why⟩ }).post j.bay .job).bays := by
    rw [funext hb]
    unfold State.updLane State.post
    rw [updBay_updBay, updBay_updBay]
    · rfl
    all_goals exact fun _ => rfl
  rw [hbays, ← hw]
  split
  · rw [askNormal_eq]
    rfl
  · rfl

theorem map_updBay (s : State) (b : Nat) {f : Bay → Bay} {α : Type} (g : Bay → α) (h : ∀ r, g (f r) = g r) :
    (s.updBay b f).bays.map g = s.bays.map g := by
  unfold State.updBay
  rw [List.map_map]
  refine List.map_congr_left fun r _ => ?_
  simp only [Function.comp]
  split
  exacts [h r, rfl]

/-- Channels that only drain keep their numbers and their flags. -/
theorem channelFlags_drainedFrom (s : State) (c : Option Nat) :
    (drainedFrom s c).map (fun r => (r.num, r.enabled)) = s.channelFlags := by
  unfold drainedFrom State.channelFlags
  rw [List.map_map]
  refine List.map_congr_left fun r _ => ?_
  simp only [Function.comp]
  split <;> rfl

/-- The record of R128's steps is the one the bay has, wherever the bay's number stands. -/
theorem jobGone_bay (s : State) (j : Job) (done : Bool) (why : JobReason) (tell : Bool) (b : Nat) :
    (s.jobGone j done why tell).bay b = (s.endJob j done why tell).bay b := by
  have hg : (s.jobGone j done why tell).bay? b = (s.bay? b).map fun r => if r.num = j.bay then
      endedBay j done why (if r.sess.state.dropsPosts then none else if tell then some (.abort j.tag) else none) r else r := by
    unfold State.jobGone
    refine (bay?_mapBays s _ (fun r => ?_) b).trans (congrArg (fun g => (s.bay? b).map g) (funext fun r => ?_))
    · dsimp only
      split <;> rfl
    · split
      · unfold endedBay tellLane
        cases tell <;> cases r.sess.state.dropsPosts <;> rfl
      · rfl
  have he : (s.endJob j done why tell).bay? b
      = (s.updBay j.bay (endedBay j done why (postedCall s j.bay (if tell then some (.abort j.tag) else none)))).bay? b := by
    rw [endJob_eq]
    rfl
  generalize (if tell then some (Call.abort j.tag) else none) = c at hg he
  rw [bay?_updBay s j.bay (endedBay j done why _) fun _ => rfl] at he
  unfold State.bay
  rw [hg, he]
  by_cases hbj : b = j.bay
  · subst hbj
    rw [if_pos rfl]
    unfold postedCall State.bay
    cases hb : s.bay? j.bay with
    | none => rfl
    | some r => exact if_pos (bay?_num hb)
  · rw [if_neg hbj]
    cases hb : s.bay? b with
    | none => rfl
    | some r => exact if_neg fun h => hbj ((bay?_num hb).symm.trans h)

/-- What leaves the scheduler leaves R128's state. -/
theorem kept_jobGone (s : State) (j : Job) (done : Bool) (why : JobReason) (tell : Bool) :
    Kept (s.jobGone j done why tell) (s.endJob j done why tell) where
  cart := by
    have hn : (s.jobGone j done why tell).bays.map (·.num) = s.bays.map (·.num) := by
      unfold State.jobGone
      dsimp only
      rw [List.map_map]
      refine List.map_congr_left fun r _ => ?_
      simp only [Function.comp]
      split <;> rfl
    have hc : (s.jobGone j done why tell).channelFlags = s.channelFlags := channelFlags_drainedFrom s j.channel
    rw [endJob_eq]
    exact { SameCart.refl s with
      channels := (channelFlags_drainedFrom s j.channel).trans hc.symm
      nums := (map_updBay s j.bay (f := endedBay j done why _) _ fun _ => rfl).trans hn.symm }
  bays b := by
    rw [jobGone_bay]
    exact SameBay.refl _
  jobless b hb := by
    refine ⟨?_, by rw [jobGone_bay]⟩
    rw [endJob_eq]
    exact hb
  hub := by
    rw [endJob_eq]
    rfl

end Sys2Proof.Dock
end

