-- ==== Sys2Proof/Proofs/StopCalls.lean ====
section
/-! PROOF. The Stop slot of a bay whose job leaves in a quiet state (R28, R29): an ABORT or PAUSE starts on a free line or waits. -/

namespace Sys2Proof.Dock

open Machine Laws

variable {s t u : State}

/-! ## A lane at the end of an event -/

/-- A part of each record that a change of all of them keeps. -/
theorem bay_mapBays (s : State) {g : Bay → Bay} (hg : ∀ r, (g r).num = r.num) {α : Type} (p : Bay → α) (hp : ∀ r, p (g r) = p r)
    (b : Nat) : p (State.bay { s with bays := s.bays.map g } b) = p (s.bay b) := by
  unfold State.bay
  rw [bay?_mapBays s g hg b]
  cases s.bay? b with
  | none => rfl
  | some r => exact hp r

theorem bay_kickLanes (s : State) (b : Nat) : s.kickLanes.bay b = s.kickLane (s.bay b) := by
  have h := bay?_mapBays s s.kickLane (fun r => by rw [kickLane_eq]) b
  rcases bay_eq s b with ⟨hb, _⟩ | ⟨hb, hf⟩
  · rw [hb] at h
    unfold State.bay State.kickLanes at *
    rw [h]
    rfl
  · rw [hb] at h
    rw [hf, kickLane_busy _ rfl]
    unfold State.bay State.kickLanes at *
    rw [h]
    rfl

/-- Of a bay's session and lane the end of an event changes the lane alone, after the passes, the scan and the drivers: a free line takes
what comes next. -/
theorem settle_bay (s : State) (b : Nat) :
    let w := s.payWork.driversTake
    (s.settle.bay b).sess = (w.bay b).sess
      ∧ (s.settle.bay b).lane = nextOf w (w.bay b).num (w.bay b).sess.state (w.bay b).lane := by
  intro w
  have h {α : Type} (p : Bay → α) (h1 : ∀ v : State, ∀ r, p { r with indicator := v.indicatorOf r } = p r)
      (h2 : ∀ r : Bay, p { r with stage := r.stage.sendLimit } = p r) : p (s.settle.bay b) = p (w.kickLanes.bay b) := by
    show p (w.kickLanes.lightLamps.sendLimits.bay b) = _
    refine (bay_mapBays w.kickLanes.lightLamps (g := fun r => { r with stage := r.stage.sendLimit }) (fun _ => rfl) p h2 b).trans ?_
    exact bay_mapBays w.kickLanes (g := fun r => { r with indicator := w.kickLanes.indicatorOf r }) (fun _ => rfl) p
      (h1 w.kickLanes) b
  refine ⟨(h Bay.sess (fun _ _ => rfl) fun _ => rfl).trans ?_, (h Bay.lane (fun _ _ => rfl) fun _ => rfl).trans ?_⟩
  all_goals rw [bay_kickLanes, kickLane_eq]

/-! ## A lane that had nothing to start -/

theorem slots_of_chooseCall {b : Nat} {l : Lane} (h : s.chooseCall b l = none) :
    l.greeting = none ∧ l.stop = none ∧ l.job = none ∧ l.pollDue = false ∧ l.ident = none ∧ l.serve = none := by
  unfold State.chooseCall at h
  split at h
  all_goals try cases h
  rename_i hg hs hj
  split at h
  · cases h
  · rename_i hp
    split at h
    all_goals try cases h
    exact ⟨hg, hs, hj, by simpa using hp, ‹_›, ‹_›⟩

/-- What a free line did not start, in a quiet state. -/
theorem laneNext_of_quiet (hq : s.lanesQuiet = true) (b : Nat) (hf : (s.bay b).lane.free = true) :
    s.laneNext b (s.bay b).sess.state (s.bay b).lane = none := by
  rcases bay_eq s b with ⟨_, hm⟩ | ⟨_, he⟩
  · have h := List.all_eq_true.1 hq _ hm
    rw [hf, laneNext_isSome s s _ b] at h
    simpa using h
  · rw [he] at hf
    cases hf

/-- Call `c` in the Stop slot of a lane: it goes out where calls may go out (R29), else the lane keeps it. -/
def StopGoesOut (r : Bay) (c : Option Call) (m x : Lane) : Prop :=
  (x.stop = m.stop ∧ x.job = m.job ∧ x.flight = m.flight ∧ (c.isSome = true → r.sendsStop = false))
    ∨ (r.sendsStop = true ∧ r.lane.stop = none ∧ ∃ call, c = some call ∧ x.stop = none ∧ x.job = m.job
        ∧ x.flight = some ⟨call, .ordinary⟩)

theorem sendsStop_of_busy {r : Bay} (h : r.lane.free = false) : r.sendsStop = false := by
  unfold Bay.sendsStop
  rw [h]
  rfl

/-- The call that follows in a lane that had nothing to start before call `c` was posted to it. -/
theorem nextOf_stop {r : Bay} (hq : r.lane.free = true → s.laneNext r.num r.sess.state r.lane = none) {tag : Nat} {c : Option Call}
    {st : SessState} (hst : st = r.sess.state ∨ r.sess.state = .asleep ∧ st = .waking) {m : Lane}
    (hm : LaneStill { r with lane := tellLane tag c r.lane } m) (w : State) (n : Nat) : StopGoesOut r c m (nextOf w n st m) := by
  obtain ⟨j, wa, rfl, hj, -⟩ := hm
  have hfree : Lane.free { tellLane tag c r.lane with job := j, wakeAsked := wa } = r.lane.free := rfl
  unfold nextOf
  rw [hfree]
  cases hf : r.lane.free with
  | false => exact .inl ⟨rfl, rfl, rfl, fun _ => sendsStop_of_busy hf⟩
  | true =>
    specialize hq hf
    rw [if_pos rfl]
    by_cases hs : r.sess.state = .off ∨ r.sess.state = .asleep ∨ r.sess.state = .waking
    · have hno : r.sendsStop = false := by
        unfold Bay.sendsStop
        rcases hs with h | h | h <;> simp [h]
      refine .inl ?_
      have hst' : st = .off ∨ st = .asleep ∨ st = .waking := by
        rcases hst with rfl | ⟨_, rfl⟩
        exacts [hs, .inr (.inr rfl)]
      rcases hst' with rfl | rfl | rfl
      · exact ⟨rfl, rfl, rfl, fun _ => hno⟩
      · exact ⟨rfl, rfl, rfl, fun _ => hno⟩
      · unfold State.laneNext
        dsimp only
        split <;> exact ⟨rfl, rfl, rfl, fun _ => hno⟩
    · simp only [not_or] at hs
      obtain rfl : st = r.sess.state := hst.resolve_right fun h => hs.2.1 h.1
      rw [laneNext_calls _ _ hs] at hq ⊢
      obtain ⟨hg, hstop, hjob, hp, hi, hv⟩ := slots_of_chooseCall hq
      obtain rfl : j = none := by
        rcases hj with rfl | rfl
        · show (if r.lane.job.any _ then none else r.lane.job) = none
          rw [hjob]
          rfl
        · rfl
      have hsend : r.sendsStop = true := by
        unfold Bay.sendsStop
        simp [hf, hg, hs]
      rw [chooseCall_getD]
      unfold tellLane
      dsimp only
      rw [hg, hstop, hp, hi, hv]
      cases c with
      | none => exact .inl ⟨rfl, rfl, rfl, (nomatch ·)⟩
      | some call => exact .inr ⟨hsend, hstop, call, rfl, rfl, rfl, rfl⟩

/-! ## The calls of a job that has left -/

/-- The call posted for a job that left, and the job's own calls, at the end of the event (R28). -/
theorem stopPosted_of_lane {j : Job} {c c' : Option Call} (hc : ∀ call, c = some call → call.isJobCall j.tag = false)
    (hc' : c' = postedCall s j.bay c ∨ (s.hasBay j.bay = false ∧ c' = none)) {m : Lane}
    (hm : LaneStill { s.bay j.bay with lane := tellLane j.tag c' (s.bay j.bay).lane } m)
    (ht : StopGoesOut (s.bay j.bay) c' m (t.bay j.bay).lane) : StopPosted s t j c := by
  obtain ⟨job, wa, rfl, hj, -⟩ := hm
  have hsub : ∀ call, c' = some call → c = some call := by
    rintro call rfl
    rcases hc' with h | ⟨_, h⟩
    · unfold postedCall at h
      split at h
      exacts [(nomatch h), h.symm]
    · cases h
  have hjob : ∀ call : Call, call.isJobCall j.tag = true → job ≠ some call := by
    rintro call hcall rfl
    rcases hj with h | h
    · replace h : some call = if (s.bay j.bay).lane.job.any (·.isJobCall j.tag) then none else (s.bay j.bay).lane.job := h
      split at h
      · cases h
      · rename_i hn
        rw [← h] at hn
        exact hn hcall
    · cases h
  constructor
  · rintro call rfl hb hd
    obtain rfl : c' = some call := by
      rcases hc' with h | ⟨h, _⟩
      · unfold postedCall at h
        rw [if_neg (by simp [hd])] at h
        exact h
      · rw [hb] at h
        cases h
    rcases ht with ⟨h1, _, _, h4⟩ | ⟨h1, _, call', h3, h4, _, h6⟩
    · rw [if_neg (by simp [h4 rfl]), h1]
      rfl
    · cases h3
      rw [if_pos h1]
      exact ⟨h4, h6⟩
  · rintro rfl
    have hn : c' = none := by
      cases h : c' with
      | none => rfl
      | some call => exact nomatch hsub call h
    subst hn
    rcases ht with ⟨h1, _⟩ | ⟨_, _, _, h3, _⟩
    exacts [.inl h1, nomatch h3]
  · intro call hcall
    rcases ht with ⟨_, h2, h3, _⟩ | ⟨_, _, call', h3, _, h5, h6⟩
    · exact ⟨h2 ▸ hjob call hcall, fun hf => h3 ▸ hf⟩
    · refine ⟨h5 ▸ hjob call hcall, fun hf => ?_⟩
      rw [h6] at hf
      cases hf
      rw [hc _ (hsub _ h3)] at hcall
      cases hcall

/-- A bay from which a job has left, at the end of the event in which it left. -/
theorem stopPosted_settle {j : Job} {c c' : Option Call} (hq : s.lanesQuiet = true)
    (hc : ∀ call, c = some call → call.isJobCall j.tag = false)
    (hc' : c' = postedCall s j.bay c ∨ (s.hasBay j.bay = false ∧ c' = none))
    (hu : Still j.bay { s.bay j.bay with lane := tellLane j.tag c' (s.bay j.bay).lane } u) : StopPosted s u.settle j c := by
  have hw := hu.payWork.driversTake
  obtain ⟨_, hl⟩ := settle_bay u j.bay
  refine stopPosted_of_lane hc hc' hw.lane ?_
  rw [hl]
  refine nextOf_stop (s := s) (fun hf => ?_) ?_ hw.lane _ _
  · have := laneNext_of_quiet hq j.bay hf
    cases hn : s.laneNext (s.bay j.bay).num (s.bay j.bay).sess.state (s.bay j.bay).lane with
    | none => rfl
    | some l =>
      have hs := laneNext_isSome s s (s.bay j.bay).num j.bay (s.bay j.bay).sess.state (s.bay j.bay).lane
      rw [this, hn] at hs
      cases hs
  · rcases hw.sess with h | ⟨h1, h2⟩
    · exact .inl (by rw [h])
    · exact .inr ⟨h1, by rw [h2]⟩

end Sys2Proof.Dock
end

