-- ==== Sys2Proof/Proofs/JobEnds.lean ====
section
/-! PROOF. A job that ends in a quiet state (R128), to the end of the event. -/

namespace Sys2Proof.Dock

open Machine Laws

variable {s t u : State} {j : Job} {done tell : Bool} {why : JobReason}

/-! ## States that differ in the hub's output alone -/

theorem exists_output (h : t.sameButOutput u) : ∃ replyPending outstanding sending reply busy notice, u = { t with
    hub := { t.hub with
      replyPending := replyPending, noticeOutstanding := outstanding, sending := sending, reply := reply, busy := busy
      notice := notice } } := ⟨_, _, _, _, _, _, h.symm⟩

theorem sameBut_output (h : t.sameButOutput u) : SameBut u t := by
  obtain ⟨_, _, _, _, _, _, rfl⟩ := exists_output h
  exact { cart := { SameCart.refl t with }, bays := fun _ => SameBay.refl _, jobless := fun _ hb => ⟨hb, rfl⟩ }

theorem normalTaken_output (h : t.sameButOutput u) (hn : s.normalTaken u) : s.normalTaken t := by
  obtain ⟨_, _, _, _, _, _, rfl⟩ := exists_output h
  exact hn

theorem passedTo_output (h : t.sameButOutput u) (hp : s.passedTo u) : s.passedTo t := by
  obtain ⟨_, _, _, _, _, _, rfl⟩ := exists_output h
  exact hp

theorem bay_output (h : t.sameButOutput u) (b : Nat) : t.bay b = u.bay b := by
  obtain ⟨_, _, _, _, _, _, rfl⟩ := exists_output h
  rfl

theorem jobOf_output (h : t.sameButOutput u) (b : Nat) : t.jobOf b = u.jobOf b := by
  obtain ⟨_, _, _, _, _, _, rfl⟩ := exists_output h
  rfl

theorem stopPosted_output {c : Option Call} (h : t.sameButOutput u) (hs : StopPosted s u j c) : StopPosted s t j c := by
  obtain ⟨_, _, _, _, _, _, rfl⟩ := exists_output h
  exact ⟨hs.stop, hs.silent, hs.withdrawn⟩

theorem jobEnded_output (h : t.sameButOutput u) (hj : JobEnded s u j done why tell) : JobEnded s t j done why tell := by
  refine ⟨hj.rest.trans (sameBut_output h), fun ho => (jobOf_output h _).trans (hj.gone ho),
    fun ho => stopPosted_output h (hj.calls ho), fun hc => normalTaken_output h (hj.pass hc), fun hc => ?_⟩
  have := hj.sched hc
  obtain ⟨_, _, _, _, _, _, rfl⟩ := exists_output h
  exact this

theorem jobEnded_base (h : u.sameButOutput s) (hj : JobEnded u t j done why tell) : JobEnded s t j done why tell := by
  have hg : SameBut (s.jobGone j done why tell) (u.jobGone j done why tell) :=
    sameBut_output (congrArg (fun v : State => v.jobGone j done why tell) h)
  obtain ⟨_, _, _, _, _, _, rfl⟩ := exists_output h
  refine ⟨hg.trans hj.rest, hj.gone, fun ho => ?_, hj.pass, hj.sched⟩
  have hs := hj.calls ho
  exact ⟨hs.stop, hs.silent, hs.withdrawn⟩

theorem normalTaken_of_alloc (ha : s.alloc = u.alloc) (hg : s.geo = u.geo) (h : u.normalTaken t) : s.normalTaken t := by
  unfold State.normalTaken State.passedTo at *
  rw [nBays_of_geo hg, ha]
  exact h

/-! ## The end of the event -/

theorem Still.start {b : Nat} {r : Bay} (hl : (u.bay b).lane = r.lane) (hs : (u.bay b).sess = r.sess)
    (h : (u.bay b).sess.state.dropsPosts = true ∨ ∀ i ∈ u.jobs, i.bay = b → i.posted = false) : Still b r u where
  lane := hl ▸ LaneStill.refl r
  sess := .inl hs
  silent := h

theorem jobOf_ne_none (hj : j ∈ s.jobs) : s.jobOf j.bay ≠ none := fun h => (jobOf_none_iff s j.bay).1 h j hj rfl

theorem endJob_jobs (s : State) (j : Job) (done : Bool) (why : JobReason) (tell : Bool) :
    (s.endJob j done why tell).jobs = s.jobs.filter (·.tag != j.tag) := by
  rw [endJob_eq]
  unfold State.jobs
  rw [List.filter_append]

/-- The bay's only job gone, the bay has none. -/
theorem jobless_of_onlyJob (ho : s.onlyJob j) : ∀ i ∈ s.jobs.filter (·.tag != j.tag), i.bay ≠ j.bay := by
  intro i hi hb
  obtain ⟨him, hit⟩ := List.mem_filter.1 hi
  rw [ho.2 i him (.inl hb)] at hit
  simp at hit

/-- The lane of the bay whose job leaves, and its session. -/
theorem bay_tell {b tag : Nat} {f : Bay → Bay} {c : Option Call} (hf : ∀ r, (f r).num = r.num)
    (hl : ∀ r, (f r).lane = tellLane tag c r.lane) (hs : ∀ r, (f r).sess = r.sess) :
    ∃ c', (c' = c ∨ s.hasBay b = false ∧ c' = none) ∧ ((s.updBay b f).bay b).lane = tellLane tag c' (s.bay b).lane
      ∧ ((s.updBay b f).bay b).sess = (s.bay b).sess := by
  cases hb : s.hasBay b with
  | true =>
    rw [bay_updBay_eq s b f hf hb]
    exact ⟨c, .inl rfl, hl _, hs _⟩
  | false =>
    have hn : s.bay? b = none := by
      unfold State.hasBay at hb
      simpa using hb
    have he : (s.updBay b f).bay b = s.bay b := by
      unfold State.bay
      rw [bay?_updBay s b f hf, hn]
      split <;> rfl
    rw [he]
    refine ⟨none, .inr ⟨rfl, rfl⟩, ?_, rfl⟩
    unfold State.bay
    rw [hn]
    rfl

theorem stopPosted_endJob (hq : s.lanesQuiet = true) (ho : s.onlyJob j) :
    StopPosted s (s.endJob j done why tell).settle j (if tell then some (.abort j.tag) else none) := by
  obtain ⟨c', hc', hl, hs⟩ := bay_tell (s := s) (b := j.bay) (tag := j.tag)
    (f := endedBay j done why (postedCall s j.bay (if tell then some (.abort j.tag) else none))) (fun _ => rfl) (fun _ => rfl)
    fun _ => rfl
  have hb : (s.endJob j done why tell).bay j.bay = (s.updBay j.bay
      (endedBay j done why (postedCall s j.bay (if tell then some (.abort j.tag) else none)))).bay j.bay := by
    rw [endJob_eq]
    rfl
  refine stopPosted_settle hq (fun call hcall => ?_) hc' (Still.start (by rw [hb, hl]) (by rw [hb, hs]) (.inr fun i hi hib => ?_))
  · split at hcall
    · cases hcall
      rfl
    · cases hcall
  · rw [endJob_jobs] at hi
    exact absurd hib (jobless_of_onlyJob ho i hi)

theorem endJob_latch (s : State) (j : Job) (done : Bool) (why : JobReason) (tell : Bool) :
    (s.endJob j done why tell).latch = s.latch := by
  rw [endJob_eq]

theorem endJob_alloc (s : State) (j : Job) (done : Bool) (why : JobReason) (tell : Bool) :
    (s.endJob j done why tell).alloc = s.alloc := by
  rw [endJob_eq]

theorem endJob_geo (s : State) (j : Job) (done : Bool) (why : JobReason) (tell : Bool) :
    (s.endJob j done why tell).geo = s.geo := by
  rw [endJob_eq]

/-- Where no pass runs and the drivers have no move, the scheduler stays as it is. -/
theorem sched_settle (hp : u.payWork.sched = u.sched) (hd : u.payWork.driversQuiet = true) : u.settle.sched = u.sched := by
  have hl (v : State) : State.sched { v.kickLanes.lightLamps.sendLimits with work := Work.none } = v.sched := rfl
  unfold State.settle
  rw [hl, driversTake_of_quiet hd]
  exact hp

theorem sched_endJob (hi : inner s) (hc : s.committed = true) (h : j.channel = none ∨ s.alloc.scheduled.isSome = true) :
    (s.endJob j done why tell).settle.sched = (s.jobGone j done why tell).sched := by
  obtain ⟨hw, hd, -⟩ := hi
  have he : (s.endJob j done why tell).sched = (s.jobGone j done why tell).sched := by
    rw [endJob_eq]
    rfl
  have hd' : (s.endJob j done why tell).driversQuiet = true := by
    unfold State.driversQuiet
    rw [endJob_latch]
    exact hd
  have hp : (s.endJob j done why tell).payWork = s.endJob j done why tell
      ∨ (s.endJob j done why tell).payWork = unasked (s.endJob j done why tell) := by
    have hwe := endJob_work s j done why tell
    cases hch : j.channel.isSome with
    | false =>
      rw [hch, if_neg (by simp), hw] at hwe
      exact .inl (payWork_of_none hwe)
    | true =>
      rw [hch, if_pos rfl, askNormal_passes hc (by rw [hw]; rfl), hw] at hwe
      refine .inr (payWork_merged (by rw [hwe]) (by rw [hwe]; rfl) ?_)
      rw [endJob_alloc]
      exact h.resolve_left fun hn => by rw [hn] at hch; cases hch
  rw [← he]
  rcases hp with hp | hp
  · exact sched_settle (by rw [hp]) (by rw [hp]; exact hd')
  · exact sched_settle (by rw [hp]; rfl) (by rw [hp]; exact hd')

/-- R128's table for a job that ends in a quiet state. -/
theorem jobEnded_settle (hi : inner s) (hc : s.committed = true) :
    JobEnded s (s.endJob j done why tell).settle j done why tell where
  rest := ((kept_jobGone s j done why tell).trans (kept_settle _)).same
  gone ho := by
    refine (((kept_jobGone s j done why tell).trans (kept_settle _)).jobless j.bay ?_).1
    rw [jobOf_none_iff]
    intro i hi
    refine jobless_of_onlyJob ho i ?_
    unfold State.jobs
    rw [List.filter_append]
    exact hi
  calls ho := stopPosted_endJob hi.2.2.1 ho
  pass hch := by
    have hw := endJob_work s j done why tell
    rw [if_pos hch, askNormal_passes hc (by rw [hi.1]; rfl), hi.1] at hw
    refine normalTaken_of_alloc (endJob_alloc ..).symm (endJob_geo ..).symm (normalTaken_settle ?_ (by rw [hw]) (by rw [hw]; rfl))
    unfold State.committed
    rw [endJob_geo]
    exact hc
  sched h := sched_endJob hi hc h

/-- An event in which a job ends. -/
theorem jobEnded_of_exec {c : Instr} {s₀ : State} (hi : inner s) (hc : s.committed = true)
    (he : exec c s₀ = .next (s.endJob j done why tell).conclude) : ∃ t, exec c s₀ = .next t ∧ JobEnded s t j done why tell :=
  ⟨_, he, jobEnded_output (announce_sameButOutput _) (jobEnded_settle hi hc)⟩

/-! ## CANCEL_JOB and the job's timers -/

theorem jobTimer_expires {b d : Nat} {due : Job → Option Nat} {f : State → Job → State} (hr : s.resetN = true)
    (hj : s.jobOf b = some j) (hd : due j = some d) : jobTimer s b due f = .next (f (s.reach d) j).conclude := by
  unfold jobTimer
  rw [hj]
  dsimp only
  rw [hd]
  exact timerEvent_live hr d _

theorem decideCancelJob_none {p : Bytes} (hp : p.length = 2) (h : s.jobTagged (wordAt p 0) = none) :
    decideCancelJob p s = s.deny .notFound := by
  unfold decideCancelJob
  rw [sized_right (by rw [hp]; rfl)]
  simp only [h]

theorem decideCancelJob_some {p : Bytes} (hp : p.length = 2) (h : s.jobTagged (wordAt p 0) = some j) :
    decideCancelJob p s = (s.endJob j false .cancelled j.channel.isSome).accept [] := by
  unfold decideCancelJob
  rw [sized_right (by rw [hp]; rfl)]
  simp only [h]

/-- Settles O27: R128's steps for CANCEL_JOB, the stall timer and the time limit. -/
theorem endedJobsLeaveScheduler : Obligations.EndedJobsLeaveScheduler := by
  intro s hq hc
  refine ⟨fun tag p hl hp => ?_, fun b d j hr hj => ⟨fun hd => ?_, fun hd => ?_⟩⟩
  · have hlen : p.length ≤ 512 := by omega
    split
    · rename_i hn
      exact replies_request (k := .cancelJob) (l := .ofInputs s.pins) hl hlen (.inr hc) rfl
        (decideCancelJob_none (s := taken s) hp hn) rfl (taken_sameButOutput s)
    · rename_i j hj
      obtain ⟨t, ht, ha, hs⟩ := decides_request (c := .cancelJob tag p) (k := .cancelJob) (l := .ofInputs s.pins) hl hlen
        (.inr hc) rfl (decideCancelJob_some (s := taken s) hp hj) (by rw [settle_hub, endJob_eq]; rfl)
      exact ⟨t, ht, ha, jobEnded_output hs (jobEnded_base (taken_sameButOutput s) (jobEnded_settle (inner_taken hq) hc))⟩
  · exact jobEnded_of_exec (s := s.reach d) (inner_reach (quiet_inner hq) d) hc (jobTimer_expires hr hj hd)
  · exact jobEnded_of_exec (s := s.reach d) (inner_reach (quiet_inner hq) d) hc (jobTimer_expires hr hj hd)

end Sys2Proof.Dock
end

