-- ==== Sys2Proof/Proofs/Handshakes.lean ====
section
/-! PROOF. ENVELOPE, PAUSE, ABORT and RECEIPT_READ answered (R22, R124, R126): the call leaves flight, and its answer moves the job. -/

namespace Sys2Proof.Dock

open Machine Laws

variable {s t u : State} {b : Nat} {j : Job}

/-! ## Changes that leave every lane as quiet as it was -/

theorem lanesQuiet_of_bays (hb : t.bays = s.bays) (h : s.lanesQuiet = true) : t.lanesQuiet = true := by
  unfold State.lanesQuiet at *
  rw [hb]
  rw [List.all_eq_true] at *
  intro r hr
  rw [laneNext_isSome t s r.num r.num]
  exact h r hr

theorem lanesQuiet_updBay (h : s.lanesQuiet = true) (b : Nat) {f : Bay → Bay} (hb : ∀ r, (f r).lane.free = false) :
    (s.updBay b f).lanesQuiet = true := by
  unfold State.lanesQuiet at *
  rw [List.all_eq_true] at *
  intro r hr
  obtain ⟨q, hq, rfl⟩ := List.mem_map.1 hr
  split
  · rw [hb q]
    rfl
  · rw [laneNext_isSome _ s q.num q.num]
    exact h q hq

theorem inner_updBay (hi : inner s) (b : Nat) {f : Bay → Bay} (hf : ∀ r, Edited r (f r)) (hb : ∀ r, (f r).lane.free = false) :
    inner (s.updBay b f) := by
  obtain ⟨hw, hd, hl, hi, hm⟩ := hi
  have hmap : ∀ r ∈ s.bays, Edited r (if r.num = b then f r else r) := fun r _ => by
    split
    exacts [hf r, Edited.refl r]
  exact ⟨hw, hd, lanesQuiet_updBay hl b hb, lampsRight_edited hi hmap, limitsRight_edited hm hmap⟩

theorem kickLanes_of_quiet (h : s.lanesQuiet = true) : s.kickLanes = s := by
  have : s.bays.map s.kickLane = s.bays := by
    conv => rhs; rw [← List.map_id s.bays]
    exact List.map_congr_left fun r hr => kickLane_still s s ((List.all_eq_true.1 h) r hr)
  unfold State.kickLanes
  rw [this]

theorem limitsRight_lightLamps (h : s.limitsRight = true) : s.lightLamps.limitsRight = true := by
  unfold State.limitsRight State.lightLamps at *
  rw [List.all_map]
  exact h

/-- Where only the lamps may have to change, they do. -/
theorem settle_lamps (hw : s.work = Work.none) (hd : s.driversQuiet = true) (hl : s.lanesQuiet = true) (hm : s.limitsRight = true) :
    s.settle = s.lightLamps := by
  unfold State.settle
  rw [payWork_of_none hw, driversTake_of_quiet hd, kickLanes_of_quiet hl, sendLimits_of_right (limitsRight_lightLamps hm), ← hw]
  rfl

/-- A job that stays as active or as inactive as it was changes no lamp. -/
theorem lampsRight_updJob (h : s.lampsRight = true) (tag : Nat) {f : Job → Job}
    (hf : ∀ i, (f i).bay = i.bay ∧ (f i).state = i.state) : (s.updJob tag f).lampsRight = true := by
  have hj (b : Nat) : (s.updJob tag f).hasActiveJob b = s.hasActiveJob b := by
    have hp : ((s.updJob tag f).jobOf b) = (s.jobOf b).map fun i => if i.tag = tag then f i else i := by
      unfold State.jobOf State.jobs State.updJob
      rw [← List.map_append, List.find?_map]
      congr 2
      funext i
      simp only [Function.comp]
      split
      exacts [by rw [(hf i).1], rfl]
    unfold State.hasActiveJob
    rw [hp]
    cases s.jobOf b with
    | none => rfl
    | some i =>
      dsimp only [Option.map]
      split
      exacts [by rw [(hf i).2], rfl]
  unfold State.lampsRight at *
  rw [List.all_eq_true] at *
  intro r hr
  rw [← h r hr]
  unfold State.indicatorOf
  rw [hj]
  rfl

/-! ## The answered call -/

/-- A lane whose call has been answered at `n` (R23). -/
def doneLane (n : Nat) (l : Lane) : Lane := { l with flight := none, attempts := 0, lastFail := none, act := .quiet, dueAt := n + 1 }

theorem callDone_eq (s : State) (b : Nat) : s.callDone b = s.updLane b (doneLane s.now) := rfl

theorem callDone_busy (n : Nat) (l : Lane) : (doneLane n l).free = false := free_of_act (by simp [doneLane])

theorem inner_callDone (hq : s.quiet = true) (b : Nat) : inner (s.callDone b) :=
  inner_updBay (quiet_inner hq) b (fun r => Edited.of_lane r _) fun r => callDone_busy s.now r.lane

/-- A judged answer is handed to the owner of its call (R23). -/
theorem answer_delivered {c : Instr} {kind : Byte} {p : Bytes} {f : Flight} (hh : s.hears b = true)
    (hf : (s.bay b).lane.flight = some f) (hc : exec c s = laneEvent s b .listening fun s => s.judgeAnswer b kind p)
    (hk : kind = f.call.answerKind) (hl : (answerLengths kind).1 ≤ p.length ∧ p.length ≤ (answerLengths kind).2) :
    exec c s = .next ((s.callDone b).deliver b f.call p).conclude := by
  obtain ⟨hl', ha⟩ := (hears_iff s b).1 hh
  refine hc.trans ((laneEvent_is hl' _).trans ?_)
  unfold State.judgeAnswer
  dsimp only
  rw [hf, ((laneIs_iff _ _ _).1 hl').2.2.2]
  dsimp only
  rw [if_neg (by simp [ha]), if_neg (by simpa using hk), if_neg (by omega)]
  rfl

theorem leaves_callDone {c : Instr} (hq : s.quiet = true) (hc : exec c s = .next (s.callDone b).conclude) :
    Leaves c s (s.callDone b) := leaves_busy (quiet_inner hq) hc (callDone_busy s.now)

/-! ## ENVELOPE (R124) -/

theorem handshakeOf_refuse {n : Nat} (h1 : n ≠ 1) (h2 : n ≠ 2) : handshakeOf n = .refuse := by
  unfold handshakeOf
  split <;> first | rfl | contradiction

theorem envelopeAnswer_other {tag : Nat} (h : ∀ j, s.jobOf b = some j → j.tag ≠ tag ∨ j.state ≠ .offered) (r : Reply) :
    s.envelopeAnswer b tag r = s := by
  unfold State.envelopeAnswer
  split
  · rfl
  · rename_i j hj
    refine if_neg fun hn => ?_
    rcases h j hj with h | h
    exacts [h hn.1, h hn.2]

/-- An envelope handshake for the bay's job while it is OFFERED. -/
theorem envelopeAnswer_eq (hj : s.jobOf b = some j) (ho : j.state = .offered) (r : Reply) : s.envelopeAnswer b j.tag r =
    match r with
    | .accept => (s.updJob j.tag fun j' => { j' with
        state := .running, baseline := none, stallAt := some (s.now + 30000), settleAt := none, resendAt := none
        limitAt := some (s.now + (((s.image? j.image).map (·.minutes)).getD 0) * 60000) }).updLane b fun l => l.withdrawJob j.tag
    | .hold => if 5 ≤ j.holds + 1 then s.endJob j false .tabletBusy true
      else s.updJob j.tag fun j' => { j' with holds := j'.holds + 1, resendAt := some (s.now + 2000) }
    | .refuse => s.endJob j false .refused false := by
  unfold State.envelopeAnswer
  rw [hj]
  dsimp only
  rw [if_pos ⟨rfl, ho⟩]
  cases r <;> rfl

theorem hold_leaves {c : Instr} (hq : s.quiet = true) (tag : Nat) {f : Job → Job}
    (hf : ∀ i, (f i).bay = i.bay ∧ (f i).state = i.state)
    (hc : exec c s = .next ((s.callDone b).updJob tag f).conclude) : Leaves c s ((s.callDone b).updJob tag f) := by
  obtain ⟨hw, hd, hl, hi, hm⟩ := inner_callDone hq b
  exact leaves_of_settle hc (settle_of_inner ⟨hw, hd, lanesQuiet_of_bays (s := s.callDone b) rfl hl, lampsRight_updJob hi tag hf, hm⟩)

/-- A job that becomes RUNNING lights its bay's lamp. -/
theorem running_leaves {c : Instr} (hq : s.quiet = true) (tag : Nat) {f : Job → Job}
    (hc : exec c s = .next (((s.callDone b).updJob tag f).updLane b fun l => l.withdrawJob tag).conclude) :
    Leaves c s (((s.callDone b).updJob tag f).updLane b fun l => l.withdrawJob tag).lightLamps := by
  obtain ⟨hw, hd, hl, hi, hm⟩ := quiet_inner hq
  refine leaves_of_settle hc (settle_lamps hw hd ?_ ?_)
  · have hb := congrArg State.bays (updLane_updLane s b (doneLane s.now) fun l => l.withdrawJob tag)
    refine lanesQuiet_of_bays (s := s.updLane b fun l => (doneLane s.now l).withdrawJob tag) hb
      (lanesQuiet_updBay hl b fun r => ?_)
    dsimp only
    rw [withdrawJob_eq]
    exact callDone_busy s.now r.lane
  · refine (limitsRight_edited (s := s.callDone b) (inner_callDone hq b).2.2.2.2 fun r _ => ?_ :)
    split
    exacts [Edited.of_lane r _, Edited.refl r]

/-! ## RECEIPT_READ (R126) -/

theorem receiptAnswer_other {tag : Nat} (h : ∀ j, s.jobOf b = some j → j.tag ≠ tag ∨ j.state ≠ .receipt) (n result version : Nat) :
    s.receiptAnswer b tag n result version = s := by
  unfold State.receiptAnswer
  split
  · rfl
  · rename_i j hj
    refine if_neg fun hn => ?_
    rcases h j hj with h | h
    exacts [h hn.1, h hn.2]

/-- A receipt for the bay's job while it is in RECEIPT. -/
theorem receiptAnswer_eq (hj : s.jobOf b = some j) (ho : j.state = .receipt) (n result version : Nat) :
    s.receiptAnswer b j.tag n result version =
      if n ≠ j.tag then s.endJob j false .rejected false
      else if result = 1 then (s.endJob j true .ok false).installVersion b version
      else if result = 2 then s.endJob j false .corrupt false
      else if result = 3 then s.endJob j false .noSpace false
      else s.endJob j false .rejected false := by
  unfold State.receiptAnswer
  rw [hj]
  dsimp only
  rw [if_pos ⟨rfl, ho⟩]
  split
  · rfl
  · split <;> first | rfl | simp_all

/-- The installed version in the bay's identity, if it has one (R50). -/
def installedBay (version : Nat) (seen : Bool) (r : Bay) : Bay :=
  { r with
    sess := { r.sess with identity := r.sess.identity.map fun i => { i with version := version } }
    events := if seen then r.events ||| 0x04#10 else r.events }

theorem endJob_sess (s : State) (j : Job) (done : Bool) (why : JobReason) (tell : Bool) (b : Nat) :
    ((s.endJob j done why tell).bay b).sess = (s.bay b).sess := by
  rw [endJob_eq]
  rcases bay_updBay_cases s j.bay (f := endedBay j done why (postedCall s j.bay (if tell then some (.abort j.tag) else none)))
    (fun _ => rfl) b with h | ⟨_, h⟩
  exacts [(congrArg Bay.sess h :), (congrArg Bay.sess h :)]

/-- The version is installed before or after the job's end alike. -/
theorem installVersion_endJob {done : Bool} {why : JobReason} {i : Identity} (hi : (s.bay j.bay).sess.identity = some i)
    (version : Nat) : (s.endJob j done why false).installVersion j.bay version
      = (s.updBay j.bay (installedBay version true)).endJob j done why false := by
  have hid := endJob_sess s j done why false j.bay
  unfold State.installVersion
  rw [hid, hi, endJob_eq, endJob_eq, askNormal_work (s := s) (t := s.updBay j.bay (installedBay version true)) rfl rfl]
  unfold postedCall
  simp only [Bool.false_eq_true, if_false, ite_self]
  have hb : ∀ r, { (endedBay j done why none r) with
      sess := { r.sess with identity := r.sess.identity.map fun i => { i with version := version } }
      events := setBit (endedBay j done why none r).events BayEvent.identity.bit }
      = endedBay j done why none (installedBay version true r) := fun r => by
    unfold endedBay installedBay
    dsimp only
    congr 1
    show (r.events ||| 0x40#10) ||| 0x04#10 = (r.events ||| 0x04#10) ||| 0x40#10
    rw [BitVec.or_assoc, BitVec.or_assoc, BitVec.or_comm 0x40#10]
  have hbays : (((s.updBay j.bay (endedBay j done why none)).updSess j.bay fun x => { x with
      identity := x.identity.map fun i => { i with version := version } }).post j.bay .identity)
      = (s.updBay j.bay (installedBay version true)).updBay j.bay (endedBay j done why none) := by
    unfold State.post
    rw [updSess_eq, updBay_updBay, updBay_updBay, updBay_updBay]
    · exact congrArg _ (funext hb)
    all_goals exact fun _ => rfl
  exact congrArg (fun v : State => { s with
    sched := { s.sched with
      queue := s.sched.queue.filter (·.tag != j.tag), active := s.sched.active.filter (·.tag != j.tag)
      channels := drainedFrom s j.channel }
    bays := v.bays
    work := if j.channel.isSome then s.askNormal.work else s.work }) hbays

/-- The frame of a job's end reads no more of the state than the record that stands for each bay. -/
theorem jobEnded_of_bay? {bs : List Bay} {done tell : Bool} {why : JobReason}
    (hb : ∀ c, State.bay? { s with bays := bs } c = s.bay? c) (hn : bs.map (·.num) = s.bays.map (·.num))
    (h : JobEnded s t j done why tell) : JobEnded { s with bays := bs } t j done why tell := by
  have hbay : ∀ c, State.bay { s with bays := bs } c = s.bay c := fun c => by
    unfold State.bay
    rw [hb]
  have hgone : ∀ c, (State.jobGone { s with bays := bs } j done why tell).bay c = (s.jobGone j done why tell).bay c := fun c => by
    have hnum (v : State) (r : Bay) : (if r.num = j.bay then { r with
        lastJob := some ⟨j.tag, j.image, done, why⟩
        events := r.events ||| 0x40#10
        lane := { r.lane with
          job := if r.lane.job.any (·.isJobCall j.tag) then none else r.lane.job
          stop := if tell && !r.sess.state.dropsPosts then some (.abort j.tag) else r.lane.stop } } else r).num = r.num := by
      split <;> rfl
    unfold State.bay
    rw [show (State.jobGone { s with bays := bs } j done why tell).bay? c = _ from bay?_mapBays { s with bays := bs } _ (hnum s) c, hb,
      show (s.jobGone j done why tell).bay? c = _ from bay?_mapBays s _ (hnum s) c]
  have hnums (v : State) : (v.jobGone j done why tell).bays.map (·.num) = v.bays.map (·.num) := by
    unfold State.jobGone
    dsimp only
    rw [List.map_map]
    refine List.map_congr_left fun r _ => ?_
    simp only [Function.comp]
    split <;> rfl
  have hg : SameBut (State.jobGone { s with bays := bs } j done why tell) (s.jobGone j done why tell) :=
    { cart := { SameCart.refl (s.jobGone j done why tell) with
        nums := (hnums s).trans (hn.symm.trans (hnums { s with bays := bs }).symm) }
      bays := fun c => by rw [hgone]; exact SameBay.refl _
      jobless := fun c hc => ⟨hc, by rw [hgone]⟩ }
  refine ⟨hg.trans h.rest, h.gone, fun ho => ?_, h.pass, h.sched⟩
  have hs := h.calls ho
  constructor
  · rw [hbay, show State.hasBay { s with bays := bs } j.bay = s.hasBay j.bay by unfold State.hasBay; rw [hb]]
    exact hs.stop
  · rw [hbay]
    exact hs.silent
  · rw [hbay]
    exact hs.withdrawn

end Sys2Proof.Dock
end

