-- ==== Sys2Proof/Proofs/Receipts.lean ====
section
/-! PROOF. The end of a job by its receipt (R126), and every answer of a job's calls together. -/

namespace Sys2Proof.Dock

open Machine Laws

variable {s t u : State} {b : Nat} {j : Job}

/-! ## The installed version (R50) -/

/-- A job done whose version goes into the identity of its bay. -/
theorem installed_ends {c : Instr} {version : Nat} (hq : s.quiet = true) (hc : s.committed = true)
    (he : exec c s = .next (((s.callDone j.bay).endJob j true .ok false).installVersion j.bay version).conclude) :
    ∃ t, exec c s = .next t ∧ JobEnded ((s.callDone j.bay).updBay j.bay
      (installedBay version (s.bay j.bay).sess.identity.isSome)) t j true .ok false := by
  have hs : ((s.callDone j.bay).bay j.bay).sess = (s.bay j.bay).sess := bay_updLane_sess s j.bay (doneLane s.now) j.bay
  cases hi : (s.bay j.bay).sess.identity with
  | some i =>
    rw [installVersion_endJob (i := i) (by rw [hs, hi])] at he
    have hcomp := updBay_updBay s j.bay (fun r => { r with lane := doneLane s.now r.lane }) (installedBay version true) fun _ => rfl
    have hin : inner ((s.callDone j.bay).updBay j.bay (installedBay version true)) := by
      rw [callDone_eq, updLane_eq, hcomp]
      exact inner_updBay (quiet_inner hq) j.bay (fun r => ⟨_, _, _, rfl, rfl⟩) fun r => callDone_busy s.now r.lane
    exact jobEnded_of_exec hin hc he
  | none =>
    have hnone : ((s.callDone j.bay).endJob j true .ok false).installVersion j.bay version
        = (s.callDone j.bay).endJob j true .ok false := by
      unfold State.installVersion
      rw [endJob_sess, hs, hi]
    rw [hnone] at he
    obtain ⟨t, ht, hj⟩ := jobEnded_of_exec (inner_callDone hq j.bay) hc he
    refine ⟨t, ht, jobEnded_of_bay? (fun b => ?_) (map_updBay _ _ _ fun _ => rfl) hj⟩
    refine (bay?_updBay (s.callDone j.bay) j.bay (installedBay version false) (fun _ => rfl) b).trans ?_
    split
    · rename_i hb
      subst hb
      cases hr : (s.callDone j.bay).bay? j.bay with
      | none => rfl
      | some r =>
        have hri : r.sess.identity = none := by
          rw [← hi, ← hs]
          unfold State.bay
          rw [hr]
          rfl
        show some _ = some r
        unfold installedBay
        rw [hri]
        exact congrArg some (congrArg (fun i => ({ r with sess := { r.sess with identity := i } } : Bay)) hri.symm)
    · rfl

/-- Settles O46: an answer for the bay's job in the state it is for moves it, and no other does. -/
theorem jobFollowsHandshakes : Obligations.JobFollowsHandshakes := by
  intro s b p f hq hcom hh hf
  have hi := inner_callDone hq b
  -- a job that ends with the call of its answer
  have hends {c : Instr} {j : Job} {why : JobReason} {tell : Bool}
      (he : exec c s = .next ((s.callDone b).endJob j false why tell).conclude) :
      ∃ t, exec c s = .next t ∧ JobEnded (s.callDone b) t j false why tell := jobEnded_of_exec hi hcom he
  refine ⟨fun tag image version size channel resume hcall hp => ?_, fun tag hp => ⟨fun hcall => ?_, fun hcall => ?_⟩,
    fun tag hcall hp => ?_⟩
  · have he := answer_delivered (c := .envelopeHandshake b p) (kind := 0x86#8) (p := p) hh hf rfl
      (by rw [hcall]; exact (by decide : 0x86#8 = 0x06#8 ||| 0x80#8)) (by rw [hp]; decide)
    rw [hcall] at he
    change exec _ s = .next ((s.callDone b).envelopeAnswer b tag (handshakeOf (byteAt p 0))).conclude at he
    refine ⟨fun hn => ?_, ?_⟩
    · rw [envelopeAnswer_other (s := s.callDone b) hn] at he
      exact leaves_callDone hq he
    · rintro j hj rfl ho
      rw [envelopeAnswer_eq (s := s.callDone b) hj ho] at he
      refine ⟨fun h => ?_, fun h hlt => ?_, fun h hge => ?_, fun h1 h2 => ?_⟩
      · rw [h] at he
        have hr := running_leaves hq j.tag he
        rw [funext fun l => withdrawJob_eq l j.tag] at hr
        exact hr
      · rw [h] at he
        refine hold_leaves hq j.tag (f := fun j' => { j' with holds := j'.holds + 1, resendAt := some (s.now + 2000) })
          (fun _ => ⟨rfl, rfl⟩) (he.trans ?_)
        rw [show handshakeOf 2 = .hold from rfl]
        dsimp only
        rw [if_neg (by omega)]
        rfl
      · rw [h, show handshakeOf 2 = .hold from rfl] at he
        dsimp only at he
        rw [if_pos hge] at he
        exact hends he
      · rw [handshakeOf_refuse h1 h2] at he
        exact hends he
  · have he := answer_delivered (c := .stopHandshake b .pause p) (kind := 0x87#8) (p := p) hh hf rfl
      (by rw [hcall]; exact (by decide : 0x87#8 = 0x07#8 ||| 0x80#8)) (by rw [hp]; decide)
    rw [hcall] at he
    exact leaves_callDone hq he
  · have he := answer_delivered (c := .stopHandshake b .abort p) (kind := 0x88#8) (p := p) hh hf rfl
      (by rw [hcall]; exact (by decide : 0x88#8 = 0x08#8 ||| 0x80#8)) (by rw [hp]; decide)
    rw [hcall] at he
    exact leaves_callDone hq he
  · have he := answer_delivered (c := .receipt b p) (kind := 0x89#8) (p := p) hh hf rfl
      (by rw [hcall]; exact (by decide : 0x89#8 = 0x09#8 ||| 0x80#8)) (by rw [hp]; decide)
    rw [hcall] at he
    change exec _ s = .next ((s.callDone b).receiptAnswer b tag (wordAt p 0) (byteAt p 2) (longAt p 3)).conclude at he
    refine ⟨fun hn => ?_, ?_⟩
    · rw [receiptAnswer_other (s := s.callDone b) hn] at he
      exact leaves_callDone hq he
    · rintro j hj rfl ho
      rw [receiptAnswer_eq (s := s.callDone b) hj ho] at he
      have hb := jobOf_bay hj
      dsimp only
      split
      · rename_i h
        rw [if_pos h] at he
        exact hends he
      · rename_i h
        rw [if_neg h] at he
        split
        · rename_i h1
          rw [if_pos h1] at he
          subst hb
          exact installed_ends hq hcom he
        · rename_i h1
          rw [if_neg h1] at he
          split
          · rename_i h2
            rw [if_pos h2] at he
            exact hends he
          · rename_i h2
            rw [if_neg h2] at he
            split
            · rename_i h3
              rw [if_pos h3] at he
              exact hends he
            · rename_i h3
              rw [if_neg h3] at he
              exact hends he

end Sys2Proof.Dock
end

