-- ==== Sys2Proof/Proofs/OneBay.lean ====
section
/-! PROOF. Operations of the session engine that touch one bay, its job, its slot of the profile store and the requests for passes. -/

namespace Sys2Proof.Dock

open Machine Laws

variable {s t u : State} {b : Nat}

/-- Of the bays only `b` differs, no event of it is lost, and of the cart the store, the jobs and the requests alone. -/
structure Touched (b : Nat) (s t : State) : Prop where
  here : t.hasBay b = s.hasBay b
  others : ∀ c, c ≠ b → t.bay c = s.bay c
  cart : SameCart { s with store := t.store } t
  alloc : t.alloc = s.alloc
  events : ∀ i, (s.bay b).events.getLsbD i = true → (t.bay b).events.getLsbD i = true
  jobless : s.jobOf b = none → t.jobOf b = none ∧ (t.bay b).lastJob = (s.bay b).lastJob

theorem Touched.refl (b : Nat) (s : State) : Touched b s s :=
  ⟨rfl, fun _ _ => rfl, SameCart.refl s, rfl, fun _ h => h, fun h => ⟨h, rfl⟩⟩

theorem Touched.trans (h : Touched b s t) (k : Touched b t u) : Touched b s u where
  here := k.here.trans h.here
  others c hc := (k.others c hc).trans (h.others c hc)
  cart := SameCart.trans (t := { t with store := u.store }) { h.cart with store := rfl } k.cart
  alloc := k.alloc.trans h.alloc
  events i hi := k.events i (h.events i hi)
  jobless hj := by
    obtain ⟨ht, hl⟩ := h.jobless hj
    obtain ⟨hu, hl'⟩ := k.jobless ht
    exact ⟨hu, hl'.trans hl⟩

theorem Touched.updBay (s : State) (b : Nat) {f : Bay → Bay} (hn : ∀ r, (f r).num = r.num)
    (he : ∀ r i, r.events.getLsbD i = true → (f r).events.getLsbD i = true) (hl : ∀ r, (f r).lastJob = r.lastJob) :
    Touched b s (s.updBay b f) where
  here := hasBay_updBay s b hn b
  others c hc := bay_updBay_ne s b f hn hc
  cart := { SameCart.refl s with nums := map_updBay s b _ hn }
  alloc := rfl
  events i hi := by
    rcases bay_updBay_cases s b hn b with h | ⟨_, h⟩ <;> rw [h]
    exacts [hi, he _ i hi]
  jobless hj := by
    refine ⟨hj, ?_⟩
    rcases bay_updBay_cases s b hn b with h | ⟨_, h⟩ <;> rw [h]
    exact hl _

/-- An update of a record that keeps its events and its last job. -/
theorem Touched.updBay' (s : State) (b : Nat) {f : Bay → Bay} (hn : ∀ r, (f r).num = r.num) (he : ∀ r, (f r).events = r.events)
    (hl : ∀ r, (f r).lastJob = r.lastJob) : Touched b s (s.updBay b f) :=
  Touched.updBay s b hn (fun r i hi => by rw [he]; exact hi) hl

theorem getLsbD_setBit {w : Nat} {v : BitVec w} {i : Nat} (k : Nat) (h : v.getLsbD i = true) : (setBit v k).getLsbD i = true := by
  unfold setBit
  rw [BitVec.getLsbD_or, h]
  rfl

theorem Touched.post (s : State) (b : Nat) (e : BayEvent) : Touched b s (s.post b e) :=
  Touched.updBay s b (fun _ => rfl) (fun _ _ h => getLsbD_setBit e.bit h) fun _ => rfl

theorem Touched.updSess (s : State) (b : Nat) (f : Session → Session) : Touched b s (s.updSess b f) :=
  Touched.updBay' s b (fun _ => rfl) (fun _ => rfl) fun _ => rfl

theorem Touched.updLane (s : State) (b : Nat) (f : Lane → Lane) : Touched b s (s.updLane b f) :=
  Touched.updBay' s b (fun _ => rfl) (fun _ => rfl) fun _ => rfl

theorem Touched.updStage (s : State) (b : Nat) (f : Stage → Stage) : Touched b s (s.updStage b f) :=
  Touched.updBay' s b (fun _ => rfl) (fun _ => rfl) fun _ => rfl

theorem Touched.updCust (s : State) (b : Nat) (f : Cust → Cust) : Touched b s (s.updCust b f) :=
  Touched.updBay' s b (fun _ => rfl) (fun _ => rfl) fun _ => rfl

/-- A change of nothing but requests and of the store's slots. -/
theorem Touched.frame (s : State) (b : Nat) (l : List Slot) (w : Work) : Touched b s { s with store := l, work := w } :=
  ⟨rfl, fun _ _ => rfl, { SameCart.refl s with store := rfl }, rfl, fun _ h => h, fun h => ⟨h, rfl⟩⟩

theorem Touched.askNormal (s : State) (b : Nat) : Touched b s s.askNormal := by
  rw [askNormal_eq]
  exact Touched.frame s b s.store _

theorem Touched.askUrgent (s : State) (b : Nat) : Touched b s s.askUrgent := by
  unfold State.askUrgent
  split
  exacts [Touched.frame s b s.store _, Touched.refl b s]

theorem Touched.updJob (s : State) (b tag : Nat) {f : Job → Job} (hf : ∀ j, (f j).bay = j.bay) : Touched b s (s.updJob tag f) :=
  have hk := Kept.updJob s tag f hf
  ⟨rfl, fun _ _ => rfl, hk.cart, rfl, fun _ h => h, fun h => hk.jobless b h⟩

theorem Touched.wakeOver (s : State) (b : Nat) : Touched b s (s.wakeOver b) := by
  unfold State.wakeOver
  split
  · exact Touched.refl b s
  · split
    exacts [Touched.updJob s b _ fun _ => rfl, Touched.refl b s]

/-- The bay's job ends (R128). -/
theorem Touched.endJob {j : Job} (hj : s.jobOf b = some j) (done : Bool) (why : JobReason) (tell : Bool) :
    Touched b s (s.endJob j done why tell) := by
  obtain rfl := jobOf_bay hj
  have hk := kept_endJob (Kept.refl s) j (by rw [hj]; simp) done why tell
  have he := endJob_eq s j done why tell
  have hn : ∀ r, (endedBay j done why (postedCall s j.bay (if tell then some (.abort j.tag) else none)) r).num = r.num := fun _ => rfl
  refine ⟨?_, fun c hc => ?_, { hk.cart with store := rfl }, endJob_alloc s j done why tell, fun i hi => ?_, fun hn => ?_⟩
  · rw [he]
    exact hasBay_updBay s j.bay hn j.bay
  · rw [he]
    exact bay_updBay_ne s j.bay _ hn hc
  · have := congrArg (fun v => v.getLsbD i) (hk.bays j.bay).events
    simp only [BitVec.getLsbD_and, hi, Bool.true_and] at this
    exact this
  · rw [hj] at hn
    cases hn

theorem Touched.abortBay (s : State) (b : Nat) (why : JobReason) (tell : Bool) : Touched b s (s.abortBay b why tell) := by
  unfold State.abortBay
  split
  · exact Touched.refl b s
  · exact Touched.endJob ‹_› _ _ _

/-! ## Serves (R106, R107) -/

/-- The record of a bay whose serve of slot `k` ends. -/
def serveOverBay (k : Slot) (v : Serve) (o : ServeEnd) (r : Bay) : Bay :=
  { r with
    serve := none, lastServe := some ⟨k.id, k.version, o, v.offset⟩, events := r.events ||| 0x20#10
    lane := { r.lane with serve := none } }

theorem serveOver_none {o : ServeEnd} (h : (s.bay b).serve = none) : s.serveOver b o = s := by
  unfold State.serveOver
  rw [h]

theorem serveOver_some {o : ServeEnd} {v : Serve} (h : (s.bay b).serve = some v) : s.serveOver b o =
    (s.updSlot v.slot fun q => { q with serves := q.serves - 1 }).updBay b
      (serveOverBay ((s.slot? v.slot).getD (Slot.reset v.slot)) v o) := by
  unfold State.serveOver
  rw [h]
  rfl

theorem updBay_thrice (s : State) (b : Nat) (f g h : Bay → Bay) (hf : ∀ r, (f r).num = r.num) (hg : ∀ r, (g r).num = r.num) :
    ((s.updBay b f).updBay b g).updBay b h = s.updBay b fun r => h (g (f r)) := by
  rw [updBay_updBay _ b f g hf, updBay_updBay s b _ h fun r => (hg _).trans (hf r)]

theorem abandonServe_eq (s : State) (b : Nat) : s.abandonServe b = s.serveOver b .abandoned := by
  unfold State.abandonServe State.endServe
  cases h : (s.bay b).serve with
  | none => exact (serveOver_none h).symm
  | some v =>
    rw [serveOver_some h]
    exact updBay_thrice (s.updSlot v.slot fun q => { q with serves := q.serves - 1 }) b
      (fun r => { r with lane := { r.lane with serve := none } })
      (fun r => { r with
        serve := none
        lastServe := some ⟨((s.slot? v.slot).getD (Slot.reset v.slot)).id, ((s.slot? v.slot).getD (Slot.reset v.slot)).version,
          .abandoned, v.offset⟩ })
      (fun r => { r with events := setBit r.events BayEvent.profile.bit }) (fun _ => rfl) fun _ => rfl

/-- What becomes of the store and of the last serve reads the store, the serve and the last serve alone. -/
theorem serveOver_congr {o : ServeEnd} (hs : t.hasBay b = true) (hu : u.hasBay b = true) (hst : t.store = u.store)
    (hv : (t.bay b).serve = (u.bay b).serve) (hl : (t.bay b).lastServe = (u.bay b).lastServe) :
    (t.serveOver b o).store = (u.serveOver b o).store
      ∧ ((t.serveOver b o).bay b).lastServe = ((u.serveOver b o).bay b).lastServe := by
  cases h : (u.bay b).serve with
  | none => rw [serveOver_none h, serveOver_none (hv.trans h)]; exact ⟨hst, hl⟩
  | some v =>
    have hslot : t.slot? v.slot = u.slot? v.slot := by unfold State.slot?; rw [hst]
    rw [serveOver_some h, serveOver_some (hv.trans h), hslot]
    rw [bay_updBay_eq (t.updSlot v.slot _) b (serveOverBay _ v o) (fun _ => rfl) hs,
      bay_updBay_eq (u.updSlot v.slot _) b (serveOverBay _ v o) (fun _ => rfl) hu]
    refine ⟨?_, rfl⟩
    show t.store.map _ = u.store.map _
    rw [hst]

theorem Touched.serveOver (s : State) (b : Nat) (o : ServeEnd) : Touched b s (s.serveOver b o) := by
  cases h : (s.bay b).serve with
  | none => rw [serveOver_none h]; exact Touched.refl b s
  | some v =>
    rw [serveOver_some h]
    exact (Touched.frame s b _ s.work).trans (Touched.updBay _ b (fun _ => rfl)
      (fun r i hi => by unfold serveOverBay; dsimp only; rw [BitVec.getLsbD_or, hi]; rfl) fun _ => rfl)

/-- The record of bay `b` after its serve has ended. -/
theorem serveOver_bay {o : ServeEnd} (hb : s.hasBay b = true) :
    ((s.serveOver b o).bay b).serve = none ∧ ((s.serveOver b o).bay b).sess = (s.bay b).sess
      ∧ ((s.serveOver b o).bay b).stage = (s.bay b).stage ∧ ((s.serveOver b o).bay b).cust = (s.bay b).cust
      ∧ (∃ c, ((s.serveOver b o).bay b).lane = { (s.bay b).lane with serve := c })
      ∧ ((s.bay b).serve.isSome = true → ((s.serveOver b o).bay b).events.getLsbD 5 = true) := by
  cases h : (s.bay b).serve with
  | none =>
    rw [serveOver_none h]
    exact ⟨h, rfl, rfl, rfl, ⟨_, rfl⟩, fun hn => by cases hn⟩
  | some v =>
    rw [serveOver_some h, bay_updBay_eq (s.updSlot v.slot _) b (serveOverBay _ v o) (fun _ => rfl) hb]
    refine ⟨rfl, rfl, rfl, rfl, ⟨none, rfl⟩, fun _ => ?_⟩
    unfold serveOverBay
    dsimp only
    rw [BitVec.getLsbD_or]
    simp

theorem serveOver_work (s : State) (b : Nat) (o : ServeEnd) : (s.serveOver b o).work = s.work := by
  unfold State.serveOver
  split <;> rfl

end Sys2Proof.Dock
end

