-- ==== Sys2Proof/Proofs/SessionEntries.lean ====
section
/-! PROOF. Entries to BREAK and FALLBACK (R45, R46): the session, the lane emptied, the serve abandoned, the stage and the passes. -/

namespace Sys2Proof.Dock

open Machine Laws

variable {s t u : State} {b : Nat}

/-! ## What follows a session's change (R39 to R41, R87, R94) -/

/-- Requests for passes added to an event's own. -/
def asking (s : State) (l : List PassRequest) : State := { s with work := { s.work with passes := s.work.passes ++ l } }

theorem asking_nil (s : State) : asking s [] = s := by
  unfold asking
  rw [List.append_nil]

theorem asking_asking (s : State) (l m : List PassRequest) : asking (asking s l) m = asking s (l ++ m) := by
  unfold asking
  simp only [List.append_assoc]

theorem askNormal_asking (s : State) : ∃ l, l.length ≤ 1 ∧ s.askNormal = asking s l := by
  unfold State.askNormal
  split
  · exact ⟨[.normal], by simp, rfl⟩
  · exact ⟨[], by simp, (asking_nil s).symm⟩

theorem passFor_asking (s : State) (m n : Nat) :
    ∃ l, l.length ≤ 1 ∧ s.passFor m n = asking s l ∧ (n < m → s.committed = true → .urgent ∈ l) := by
  unfold State.passFor
  split
  · unfold State.askUrgent
    split
    · exact ⟨[.urgent], by simp, rfl, fun _ _ => by simp⟩
    · rename_i hc
      exact ⟨[], by simp, (asking_nil s).symm, fun _ h => absurd h hc⟩
  · rename_i hn
    split
    · obtain ⟨l, hl, he⟩ := askNormal_asking s
      exact ⟨l, hl, he, fun h => absurd h hn⟩
    · exact ⟨[], by simp, (asking_nil s).symm, fun h => absurd h hn⟩

theorem setVolts_volts (st : Stage) (v : Nat) : (st.setVolts v).volts = v := by
  unfold Stage.setVolts
  split
  · assumption
  · split <;> rfl

theorem updStage_updStage (s : State) (b : Nat) (f g : Stage → Stage) :
    (s.updStage b f).updStage b g = s.updStage b fun st => g (f st) :=
  updBay_updBay s b _ _ fun _ => rfl

theorem updStage_stage (hb : s.hasBay b = true) (f : Stage → Stage) : ((s.updStage b f).bay b).stage = f (s.bay b).stage := by
  have := bay_updBay_eq s b (fun r => { r with stage := f r.stage }) (fun _ => rfl) hb
  exact congrArg Bay.stage this

/-- The contract gone or replaced, the demand cap is absent (R94). -/
theorem contractChanged_asking (hb : s.hasBay b = true) : ∃ f l, l.length ≤ 1
    ∧ s.contractChanged b = asking (s.updStage b f) l ∧ (f (s.bay b).stage).volts = (s.bay b).stage.volts
    ∧ (f (s.bay b).stage).cap = none := by
  unfold State.contractChanged State.clearCap
  have hst := updStage_stage hb fun st => { st with window := [] }
  cases hc : (s.bay b).stage.cap with
  | none =>
    rw [hst]
    dsimp only
    rw [hc]
    exact ⟨_, [], by simp, (asking_nil _).symm, rfl, hc⟩
  | some c =>
    rw [hst]
    dsimp only
    rw [hc]
    dsimp only
    rw [updStage_updStage]
    obtain ⟨l, hl, he⟩ := askNormal_asking (s.updStage b fun st => Stage.dropCap { st with window := [] })
    exact ⟨_, l, hl, he, rfl, rfl⟩

/-- A session's change moves the stage and requests passes. -/
theorem sessionMoved_asking (hb : s.hasBay b = true) (before : Session) : ∃ f l, l.length ≤ 3
    ∧ s.sessionMoved b before false = asking (s.updStage b f) l
    ∧ (f (s.bay b).stage).volts = (s.bay b).sess.volts
    ∧ (contractReplaced before.contract (s.bay b).sess.contract = true → (f (s.bay b).stage).cap = none)
    ∧ ((s.bay b).sess.ceiling < before.ceiling → s.committed = true → .urgent ∈ l) := by
  unfold State.sessionMoved
  dsimp only
  rw [if_neg (by simp)]
  have hv : ∃ f l, l.length ≤ 1
      ∧ (if contractReplaced before.contract (s.bay b).sess.contract then
          (s.updStage b fun st => st.setVolts (s.bay b).sess.volts).contractChanged b
          else s.updStage b fun st => st.setVolts (s.bay b).sess.volts) = asking (s.updStage b f) l
      ∧ (f (s.bay b).stage).volts = (s.bay b).sess.volts
      ∧ (contractReplaced before.contract (s.bay b).sess.contract = true → (f (s.bay b).stage).cap = none) := by
    have hst := updStage_stage hb fun st => st.setVolts (s.bay b).sess.volts
    split
    · obtain ⟨f, l, hl, he, h1, h2⟩ := contractChanged_asking
        (s := s.updStage b fun st => st.setVolts (s.bay b).sess.volts) (((Touched.updStage s b _).here).trans hb)
      rw [hst] at h1 h2
      refine ⟨fun st => f (st.setVolts (s.bay b).sess.volts), l, hl, ?_, h1.trans (setVolts_volts _ _), fun _ => h2⟩
      rw [he, updStage_updStage]
    · rename_i hn
      exact ⟨_, [], by simp, (asking_nil _).symm, setVolts_volts _ _, fun h => absurd h hn⟩
  obtain ⟨f, l, hl, he, h1, h2⟩ := hv
  rw [he]
  obtain ⟨l1, hl1, he1, h3⟩ := passFor_asking (asking (s.updStage b f) l) before.ceiling (s.bay b).sess.ceiling
  rw [he1, asking_asking]
  obtain ⟨l2, hl2, he2, -⟩ := passFor_asking (asking (s.updStage b f) (l ++ l1)) (heatLimit before.status)
    (heatLimit (s.bay b).sess.status)
  rw [he2, asking_asking]
  refine ⟨f, (l ++ l1) ++ l2, by simp only [List.length_append]; omega, rfl, h1, h2, fun hlt hc => ?_⟩
  simp [h3 hlt hc]

/-! ## A lane emptied (R27, R28) -/

theorem laneEmptied_abandon (l : Lane) (n : Nat) : LaneEmptied n l (({ l with autoDefer := false } : Lane).abandon n).emptySlots := by
  obtain ⟨up, act, flight, _, _, callEnd, dueAt, _, _, _, _, _, _, _, _, _, _, _⟩ := l
  unfold Lane.abandon Lane.emptySlots
  cases flight with
  | none => cases act <;> exact ⟨rfl, rfl, ⟨rfl, rfl, rfl, rfl, rfl, rfl⟩, ⟨rfl, rfl⟩, ⟨rfl, rfl, rfl⟩, fun h => by cases h⟩
  | some f =>
    cases act with
    | sending => exact ⟨rfl, rfl, ⟨rfl, rfl, rfl, rfl, rfl, rfl⟩, ⟨rfl, rfl⟩, ⟨rfl, rfl, rfl⟩, fun _ _ => ⟨rfl, rfl⟩⟩
    | _ =>
      dsimp only
      split <;> exact ⟨rfl, rfl, ⟨rfl, rfl, rfl, rfl, rfl, rfl⟩, ⟨rfl, rfl⟩, ⟨rfl, rfl, rfl⟩, fun _ h => by cases h⟩

/-- Of the lane before, a lane emptied reads its power, its call and its flags. -/
theorem laneEmptied_of_same {n : Nat} {l m l' : Lane} (h : LaneEmptied n m l') (hu : m.up = l.up) (hf : m.flight = l.flight)
    (ha : m.act = l.act) (hd : m.hubDefer = l.hubDefer) (hr : m.hubRefuse = l.hubRefuse) : LaneEmptied n l l' where
  up := h.up.trans hu
  flight := h.flight
  slots := h.slots
  wake := h.wake
  flags := ⟨h.flags.1.trans hd, h.flags.2.1.trans hr, h.flags.2.2⟩
  stopped h1 h2 := h.stopped (by rw [hf]; exact h1) (ha.trans h2)

/-- The record of a bay whose session is left for BREAK or FALLBACK: the ask gone, the lane emptied. -/
def leftBay (n : Nat) (f : Session → Session) (r : Bay) : Bay :=
  { r with
    sess := { f r.sess with ask := none }
    lane := (({ r.lane with autoDefer := false } : Lane).abandon n).emptySlots }

theorem leftBay_eq (s : State) (b : Nat) (f : Session → Session) :
    ((s.updSess b f).clearAsk b).updLane b (fun l => (l.abandon s.now).emptySlots) = s.updBay b (leftBay s.now f) := by
  have h := updBay_thrice s b (fun r => { r with sess := f r.sess }) (fun r => { r with sess := { r.sess with ask := none } })
    (fun r => { r with lane := { r.lane with autoDefer := false } }) (fun _ => rfl) fun _ => rfl
  have h2 := updBay_updBay s b (fun r => { r with
      sess := { f r.sess with ask := none }, lane := { r.lane with autoDefer := false } })
    (fun r => { r with lane := (r.lane.abandon s.now).emptySlots }) fun _ => rfl
  rw [← h] at h2
  exact h2

/-! ## The entries -/

/-- What an entry to BREAK or FALLBACK does to the bay of `s`, its session then being `x`: all that O41 reads of it but for custody and the
events of its own. -/
structure Entered (b : Nat) (s t : State) (x : Session) : Prop where
  touched : Touched b s t
  sess : (t.bay b).sess = x
  lane : LaneEmptied s.now (s.bay b).lane (t.bay b).lane
  volts : (t.bay b).stage.volts = x.volts
  cap : contractReplaced (s.bay b).sess.contract x.contract = true → (t.bay b).stage.cap = none
  serve : ServeAbandoned s t b
  store : t.store = (s.serveOver b .abandoned).store
  profile : (s.bay b).serve.isSome = true → (t.bay b).events.getLsbD 5 = true
  urgent : x.ceiling < (s.bay b).sess.ceiling → s.committed = true → .urgent ∈ t.work.passes
  few : t.work.passes.length < 11

/-- The state in which an entry leaves its session: the job's wake given up, the serve abandoned, the session left. -/
def left (s : State) (b : Nat) (f : Session → Session) : State := ((s.wakeOver b).serveOver b .abandoned).updBay b (leftBay s.now f)

theorem wakeOver_same (s : State) (b : Nat) : (s.wakeOver b).bays = s.bays ∧ (s.wakeOver b).store = s.store
    ∧ (s.wakeOver b).now = s.now ∧ (s.wakeOver b).work = s.work := by
  unfold State.wakeOver
  split
  · exact ⟨rfl, rfl, rfl, rfl⟩
  · split <;> exact ⟨rfl, rfl, rfl, rfl⟩

theorem serveOver_now (s : State) (b : Nat) (o : ServeEnd) : (s.serveOver b o).now = s.now := by
  unfold State.serveOver
  split <;> rfl

/-- The record that an entry leaves, before what follows from it. -/
theorem left_bay (hb : s.hasBay b = true) (f : Session → Session) :
    Touched b s (left s b f) ∧ ((left s b f).bay b).sess = { f (s.bay b).sess with ask := none }
      ∧ LaneEmptied s.now (s.bay b).lane ((left s b f).bay b).lane ∧ ((left s b f).bay b).stage = (s.bay b).stage
      ∧ ((left s b f).bay b).cust = (s.bay b).cust ∧ ServeAbandoned s (left s b f) b
      ∧ (left s b f).store = (s.serveOver b .abandoned).store
      ∧ ((s.bay b).serve.isSome = true → ((left s b f).bay b).events.getLsbD 5 = true) ∧ (left s b f).work = s.work := by
  obtain ⟨hbays, hstore, _, hwork⟩ := wakeOver_same s b
  have hw := bay_of_bays hbays b
  have ht := (Touched.wakeOver s b).trans (Touched.serveOver (s.wakeOver b) b .abandoned)
  have hbw : (s.wakeOver b).hasBay b = true := (Touched.wakeOver s b).here.trans hb
  have hbo : ((s.wakeOver b).serveOver b .abandoned).hasBay b = true := ht.here.trans hb
  obtain ⟨h1, h2, h3, h4, ⟨c, h5⟩, h6⟩ := serveOver_bay (o := .abandoned) hbw
  obtain ⟨hst, hls⟩ := serveOver_congr (o := .abandoned) hbw hb hstore (by rw [hw]) (by rw [hw])
  have he : (left s b f).bay b = leftBay s.now f (((s.wakeOver b).serveOver b .abandoned).bay b) :=
    bay_updBay_eq _ b (leftBay s.now f) (fun _ => rfl) hbo
  rw [hw] at h2 h3 h4 h5 h6
  rw [he]
  unfold leftBay
  dsimp only
  refine ⟨ht.trans (Touched.updBay' _ b (fun _ => rfl) (fun _ => rfl) fun _ => rfl), by rw [h2], ?_, h3, h4,
    ⟨by rw [he]; exact h1, by rw [he]; exact hls⟩, hst, h6, (serveOver_work _ _ _).trans hwork⟩
  rw [h5]
  exact laneEmptied_of_same (laneEmptied_abandon _ s.now) rfl rfl rfl rfl rfl

theorem Touched.asking (s : State) (b : Nat) (l : List PassRequest) : Touched b s (asking s l) := Touched.frame s b s.store _

/-- An entry, its session and stage moved. -/
theorem entered_moved (hb : s.hasBay b = true) (hfew : s.work.passes.length ≤ 7) {f : Session → Session} {v : State}
    (hv : Touched b (left s b f) v)
    (hsess : (v.bay b).sess = ((left s b f).bay b).sess) (hlane : (v.bay b).lane = ((left s b f).bay b).lane)
    (hserve : (v.bay b).serve = ((left s b f).bay b).serve ∧ (v.bay b).lastServe = ((left s b f).bay b).lastServe)
    (hstore : v.store = (left s b f).store) (hwork : v.work = (left s b f).work) :
    Entered b s (v.sessionMoved b (s.bay b).sess false) { f (s.bay b).sess with ask := none } := by
  obtain ⟨ht, hx, hl, -, -, ⟨hs1, hs2⟩, hst, hp, hw⟩ := left_bay hb f
  have hbv : v.hasBay b = true := hv.here.trans (ht.here.trans hb)
  have htv := ht.trans hv
  obtain ⟨g, l, hlen, he, h1, h2, h3⟩ := sessionMoved_asking hbv (s.bay b).sess
  rw [hsess, hx] at h1 h2 h3
  rw [he]
  have hbay : (asking (v.updStage b g) l).bay b = { v.bay b with stage := g (v.bay b).stage } :=
    bay_updBay_eq v b (fun r => { r with stage := g r.stage }) (fun _ => rfl) hbv
  refine ⟨(htv.trans (Touched.updStage v b g)).trans (Touched.asking _ b l), ?_, ?_, ?_, ?_, ⟨?_, ?_⟩, hstore.trans hst, ?_, ?_, ?_⟩
  · rw [hbay]
    exact hsess.trans hx
  · rw [hbay, show Bay.lane _ = ((left s b f).bay b).lane from hlane]
    exact hl
  · rw [hbay]
    exact h1
  · rw [hbay]
    exact h2
  · rw [hbay]
    exact hserve.1.trans hs1
  · rw [hbay]
    exact hserve.2.trans hs2
  · rw [hbay]
    exact fun h => hv.events 5 (hp h)
  · intro hlt hc
    refine List.mem_append_right _ (h3 hlt ?_)
    unfold State.committed at hc ⊢
    rw [htv.cart.geo]
    exact hc
  · show (v.work.passes ++ l).length < 11
    rw [hwork, hw, List.length_append]
    omega

/-- The session of a bay in BREAK (R45). -/
def breakSess (n : Nat) (x : Session) : Session :=
  { x with
    state := .breakWait, contract := none, proposal := none, readBuf := none, holds := 0, hubRestart := false
    greetAt := none, fallAt := none, pollAt := none, refreshAt := none, breakAt := some (n + 800) }

theorem enterBreak_eq (s : State) (b : Nat) :
    s.enterBreak b false = (left s b (breakSess s.now)).sessionMoved b (s.bay b).sess false := by
  have hn : ((s.wakeOver b).serveOver b .abandoned).now = s.now := (serveOver_now _ _ _).trans (wakeOver_same s b).2.2.1
  unfold State.enterBreak left
  rw [abandonServe_eq, ← hn, ← leftBay_eq]
  rfl

theorem entered_break (hb : s.hasBay b = true) (hfew : s.work.passes.length ≤ 7) :
    Entered b s (s.enterBreak b false) { breakSess s.now (s.bay b).sess with ask := none } := by
  rw [enterBreak_eq]
  exact entered_moved hb hfew (Touched.refl b _) rfl rfl ⟨rfl, rfl⟩ rfl rfl

end Sys2Proof.Dock
end

