-- ==== Sys2Proof/Proofs/Fallback.lean ====
section
/-! PROOF. The entry to FALLBACK (R46) with its report to custody (R147), and an entry's bay to the end of the event. -/

namespace Sys2Proof.Dock

open Machine Laws

variable {s t u : State} {b : Nat}

/-! ## The report that no tablet is known (R147) -/

/-- The custody of a bay after the outcome "none" (R146, R147). -/
def unseen (x : Cust) : Cust :=
  if x.state = .reconciling then { x with
    seen := .absent, state := .stocked, unattended := false, note := some ⟨.unverified, x.borrower, none, none, x.unattended⟩
    borrower := none, expected := none }
  else { x with seen := .absent }

/-- The report to custody that an entry to FALLBACK makes where the identity is absent. -/
def reportedLoss (v : State) (b : Nat) : State := if (v.bay b).sess.identity = none then v.identityReport b .absent else v

/-- What the report leaves: the bay's custody, its CUSTODY flag where it was reconciled, and nothing else of it. -/
structure Reported (b : Nat) (s t : State) : Prop where
  touched : Touched b s t
  cust : (t.bay b).cust = if (s.bay b).sess.identity = none then unseen (s.bay b).cust else (s.bay b).cust
  told : (s.bay b).sess.identity = none → (s.bay b).cust.state = .reconciling → (t.bay b).events.getLsbD 7 = true
  sess : (t.bay b).sess = (s.bay b).sess
  lane : (t.bay b).lane = (s.bay b).lane
  serve : (t.bay b).serve = (s.bay b).serve ∧ (t.bay b).lastServe = (s.bay b).lastServe
  store : t.store = s.store
  work : t.work = s.work

theorem updCust_bay (hb : s.hasBay b = true) (f : Cust → Cust) :
    (s.updCust b f).bay b = { s.bay b with cust := f (s.bay b).cust } :=
  bay_updBay_eq s b (fun r => { r with cust := f r.cust }) (fun _ => rfl) hb

/-- The record of a RECONCILING bay after the outcome "none". -/
def unverifiedBay (r : Bay) : Bay :=
  { r with
    cust := { r.cust with
      seen := .absent, state := .stocked, unattended := false, borrower := none, expected := none
      note := some ⟨.unverified, r.cust.borrower, none, none, r.cust.unattended⟩ }
    events := setBit r.events BayEvent.custody.bit }

theorem identityReport_still (hb : s.hasBay b = true) (h : (s.bay b).cust.state ≠ .reconciling) :
    s.identityReport b .absent = s.updCust b fun c => { c with seen := .absent } := by
  have hc := updCust_bay hb fun c => { c with seen := .absent }
  unfold State.identityReport
  dsimp only
  rw [hc]
  dsimp only
  cases hs : (s.bay b).cust.state with
  | vacant => rfl
  | stocked => rfl
  | reconciling => exact absurd hs h

/-- A report for a RECONCILING bay, of a state in which its number stands once. -/
theorem identityReport_reconciling (hb : s.hasBay b = true) (h : (s.bay b).cust.state = .reconciling) :
    (s.identityReport b .absent).bay b = unverifiedBay (s.bay b)
      ∧ Touched b s (s.identityReport b .absent) ∧ (s.identityReport b .absent).store = s.store
      ∧ (s.identityReport b .absent).work = s.work := by
  have hc := updCust_bay hb fun c => { c with seen := .absent }
  have he : s.identityReport b .absent = (s.updCust b fun c => { c with seen := .absent }).stock b false .unverified
      (s.bay b).cust.borrower none none := by
    unfold State.identityReport
    dsimp only
    rw [hc]
    dsimp only
    rw [h]
    unfold State.reconcile
    rw [hc]
  have hb' : (s.updCust b fun c => { c with seen := .absent }).hasBay b = true := (Touched.updCust s b _).here.trans hb
  rw [he]
  unfold State.stock
  refine ⟨?_, ((Touched.updCust s b _).trans (Touched.updCust _ b _)).trans (Touched.post _ b _), rfl, rfl⟩
  rw [post_eq, bay_updBay_eq _ b (fun r => { r with events := setBit r.events BayEvent.custody.bit }) (fun _ => rfl)
    ((Touched.updCust _ b _).here.trans hb'), updCust_bay hb', hc]
  rfl

theorem reported_loss (hb : s.hasBay b = true) : Reported b s (reportedLoss s b) := by
  unfold reportedLoss
  by_cases hi : (s.bay b).sess.identity = none
  · rw [if_pos hi]
    by_cases h : (s.bay b).cust.state = .reconciling
    · obtain ⟨he, ht, hst, hw⟩ := identityReport_reconciling hb h
      refine ⟨ht, ?_, fun _ _ => ?_, ?_, ?_, ?_, hst, hw⟩ <;> rw [he]
      · unfold unseen
        rw [if_pos hi, if_pos h]
        rfl
      · unfold unverifiedBay setBit
        dsimp only
        rw [BitVec.getLsbD_or]
        simp [BayEvent.bit]
      · rfl
      · rfl
      · exact ⟨rfl, rfl⟩
    · rw [identityReport_still hb h]
      refine ⟨Touched.updCust s b _, ?_, fun _ hr => absurd hr h, ?_, ?_, ?_, rfl, rfl⟩ <;> rw [updCust_bay hb]
      · unfold unseen
        rw [if_pos hi, if_neg h]
      · exact ⟨rfl, rfl⟩
  · rw [if_neg hi]
    exact ⟨Touched.refl b s, (if_neg hi).symm, fun h => absurd h hi, rfl, rfl, ⟨rfl, rfl⟩, rfl, rfl⟩

/-! ## FALLBACK (R46) -/

/-- The session of a bay in FALLBACK (R46). -/
def fallbackSess (n : Nat) (x : Session) : Session :=
  { x with
    state := .fallback, proposal := none, readBuf := none, status := none
    contract := some (match x.forced with
      | none => ⟨.p1, .base, 0#4, none⟩
      | some l => ⟨l, .forced, 0#4, none⟩)
    greetAt := none, breakAt := none, pollAt := none, refreshAt := none, fallAt := some (n + 30000) }

theorem enterFallback_eq (s : State) (b : Nat) : s.enterFallback b
    = ((reportedLoss (left s b (fallbackSess s.now)) b).post b .session).sessionMoved b (s.bay b).sess false := by
  have hn : ((s.wakeOver b).serveOver b .abandoned).now = s.now := (serveOver_now _ _ _).trans (wakeOver_same s b).2.2.1
  unfold State.enterFallback left
  rw [abandonServe_eq, ← hn, ← leftBay_eq]
  unfold reportedLoss
  simp only [← Option.isNone_iff_eq_none]
  rfl

/-- An entry to FALLBACK: its SESSION flag, and custody where no identity is held. -/
structure FellBack (b : Nat) (s t : State) : Prop where
  entered : Entered b s t { fallbackSess s.now (s.bay b).sess with ask := none }
  event : (t.bay b).events.getLsbD 0 = true
  cust : (t.bay b).cust = if (s.bay b).sess.identity = none then unseen (s.bay b).cust else (s.bay b).cust
  told : (s.bay b).sess.identity = none → (s.bay b).cust.state = .reconciling → (t.bay b).events.getLsbD 7 = true

theorem sessionMoved_same (hb : s.hasBay b = true) (before : Session) : Touched b s (s.sessionMoved b before false)
    ∧ ((s.sessionMoved b before false).bay b).cust = (s.bay b).cust := by
  obtain ⟨f, l, -, he, -⟩ := sessionMoved_asking hb before
  rw [he]
  refine ⟨(Touched.updStage s b f).trans (Touched.asking _ b l), ?_⟩
  rw [show (asking (s.updStage b f) l).bay b = _ from bay_updBay_eq s b (fun r => { r with stage := f r.stage }) (fun _ => rfl) hb]

theorem post_bay (hb : s.hasBay b = true) (e : BayEvent) :
    (s.post b e).bay b = { s.bay b with events := setBit (s.bay b).events e.bit } :=
  bay_updBay_eq s b (fun r => { r with events := setBit r.events e.bit }) (fun _ => rfl) hb

theorem fellBack (hb : s.hasBay b = true) (hfew : s.work.passes.length ≤ 7) : FellBack b s (s.enterFallback b) := by
  obtain ⟨ht, hx, -, -, hcu, -⟩ := left_bay hb (fallbackSess s.now)
  have hbl : (left s b (fallbackSess s.now)).hasBay b = true := ht.here.trans hb
  have hr := reported_loss hbl
  have hid : ((left s b (fallbackSess s.now)).bay b).sess.identity = (s.bay b).sess.identity := by rw [hx]; rfl
  have hrc := hr.cust
  have hrto := hr.told
  rw [hid, hcu] at hrc hrto
  have hbR := hr.touched.here.trans hbl
  have hp := post_bay hbR .session
  have hpt := hr.touched.trans (Touched.post _ b .session)
  obtain ⟨hmt, hmc⟩ := sessionMoved_same (hpt.here.trans hbl) (s.bay b).sess
  rw [enterFallback_eq]
  refine ⟨entered_moved hb hfew hpt ?_ ?_ ?_ hr.store hr.work, hmt.events 0 ?_, hmc.trans ?_, fun h1 h2 => hmt.events 7 ?_⟩
  · rw [hp]; exact hr.sess
  · rw [hp]; exact hr.lane
  · rw [hp]; exact hr.serve
  · rw [hp]
    unfold setBit
    dsimp only
    rw [BitVec.getLsbD_or]
    simp [BayEvent.bit]
  · rw [hp]; exact hrc
  · exact (Touched.post _ b .session).events 7 (hrto h1 h2)

end Sys2Proof.Dock
end

