-- ==== Sys2Proof/Proofs/EntriesSettled.lean ====
section
/-! PROOF. BREAK and FALLBACK entered, to the end of the event: the emptied lane starts nothing, and what passes and scans do elsewhere
leaves the entry as it is. -/

namespace Sys2Proof.Dock

open Machine Laws

variable {s t u : State} {b : Nat} {x : Session}

/-! ## The end of the event -/

/-- A line with nothing pending stays as it is, whatever calls the session lets start. -/
theorem nextOf_empty {st : SessState} (hst : st ≠ .off ∧ st ≠ .asleep ∧ st ≠ .waking) {l : Lane}
    (hl : l.greeting = none ∧ l.stop = none ∧ l.job = none ∧ l.pollDue = false ∧ l.ident = none ∧ l.serve = none)
    (w : State) (n : Nat) :
    nextOf w n st l = l := by
  obtain ⟨h1, h2, h3, h4, h5, h6⟩ := hl
  unfold nextOf
  split
  · rw [laneNext_calls _ _ hst, chooseCall_getD, h1, h2, h3, h4, h5, h6]
  · rfl

/-- A session of the states that take no posts, its lane emptied: neither changes until the end of the event. -/
theorem settle_emptied (hx : (s.bay b).sess.state = .breakWait ∨ (s.bay b).sess.state = .fallback)
    (hl : (s.bay b).lane.greeting = none ∧ (s.bay b).lane.stop = none ∧ (s.bay b).lane.job = none ∧ (s.bay b).lane.pollDue = false
      ∧ (s.bay b).lane.ident = none ∧ (s.bay b).lane.serve = none) :
    (s.settle.bay b).sess = (s.bay b).sess ∧ (s.settle.bay b).lane = (s.bay b).lane := by
  have hna : (s.bay b).sess.state ≠ .asleep := by rcases hx with h | h <;> rw [h] <;> decide
  have hw := (Still.refl (s := s) (b := b) (.inl (by rcases hx with h | h <;> rw [h] <;> rfl))).payWork.driversTake
  obtain ⟨hs, hn⟩ := settle_bay s b
  have hsess : (s.payWork.driversTake.bay b).sess = (s.bay b).sess := hw.sess.resolve_right fun h => hna h.1
  have hlane : (s.payWork.driversTake.bay b).lane = (s.bay b).lane := by
    obtain ⟨j, w, he, hj, hwa⟩ := hw.lane
    obtain rfl := hwa.resolve_right hna
    obtain rfl : j = (s.bay b).lane.job := by
      rcases hj with rfl | rfl
      exacts [rfl, hl.2.2.1.symm]
    exact he
  refine ⟨hs.trans hsess, hn.trans ?_⟩
  rw [hlane, hsess]
  exact nextOf_empty (by rcases hx with h | h <;> rw [h] <;> decide) hl _ _

theorem passedTo_of_alloc (ha : s.alloc = u.alloc) (hg : s.geo = u.geo) (h : u.passedTo t) : s.passedTo t := by
  unfold State.passedTo at *
  rw [nBays_of_geo hg, ha]
  exact h

theorem events_of_sameBay {r r' : Bay} (h : SameBay r r') {i : Nat} (hi : r.events.getLsbD i = true) :
    r'.events.getLsbD i = true := by
  have := congrArg (fun v => v.getLsbD i) h.events
  simpa only [BitVec.getLsbD_and, hi, Bool.true_and] using this

/-- What an entry leaves at the end of its event. -/
structure Settled (b : Nat) (s t : State) (x : Session) : Prop where
  sess : (t.bay b).sess = x
  lane : LaneEmptied s.now (s.bay b).lane (t.bay b).lane
  volts : (t.bay b).stage.volts = x.volts
  cap : contractReplaced (s.bay b).sess.contract x.contract = true → (t.bay b).stage.cap = none
  serve : ServeAbandoned s t b
  store : t.store = (s.serveOver b .abandoned).store
  profile : (s.bay b).serve.isSome = true → (t.bay b).events.getLsbD 5 = true
  pass : x.ceiling < (s.bay b).sess.ceiling → s.passedTo t
  others : ∀ c, c ≠ b → SameBay (s.bay c) (t.bay c)
  cart : SameCart { s with store := t.store } t

theorem Entered.settled (h : Entered b s u x) (hx : x.state = .breakWait ∨ x.state = .fallback) (hc : s.committed = true)
    (ht : t.sameButOutput u.settle) : Settled b s t x := by
  have hs := (settle_same u).trans (sameBut_output ht)
  have hb := hs.bays b
  have hl := h.lane.slots
  obtain ⟨h1, h2⟩ := settle_emptied (by rw [h.sess]; exact hx) hl
  rw [← bay_output ht] at h1 h2
  refine ⟨h1.trans h.sess, by rw [h2]; exact h.lane, hb.stage.volts.trans h.volts, fun hr => hb.stage.cap.trans (h.cap hr),
    ⟨hb.serve.trans h.serve.gone, hb.lastServe.trans h.serve.last⟩, hs.cart.store.trans h.store,
    fun hv => events_of_sameBay hb (h.profile hv), fun hlt => ?_, fun c hcb => ?_, ?_⟩
  · have hg : u.geo = s.geo := h.touched.cart.geo
    refine passedTo_output ht (passedTo_of_alloc h.touched.alloc.symm hg.symm (passedTo_of_urgent ?_ (h.urgent hlt hc) h.few))
    unfold State.committed at hc ⊢
    rw [hg]
    exact hc
  · rw [← h.touched.others c hcb]
    exact hs.bays c
  · refine SameCart.trans (t := { u with store := t.store }) { h.touched.cart with store := rfl } ?_
    rw [hs.cart.store]
    exact hs.cart

/-- Custody after an outcome "none" for bay `b` (R146, R147). -/
theorem custodyFollows_unseen (h : (t.bay b).cust = unseen (s.bay b).cust)
    (ht : (s.bay b).cust.state = .reconciling → (t.bay b).events.getLsbD 7 = true)
    (ho : ∀ c, c ≠ b → (t.bay c).cust = (s.bay c).cust) : CustodyFollows s t b none := by
  unfold CustodyFollows
  intro _
  unfold unseen at h
  dsimp only
  cases hst : (s.bay b).cust.state with
  | vacant =>
    rw [hst, if_neg (by decide)] at h
    exact ⟨h.trans (by rw [← hst]), ho⟩
  | stocked =>
    rw [hst, if_neg (by decide)] at h
    exact ⟨h.trans (by rw [← hst]), ho⟩
  | reconciling =>
    rw [hst, if_pos rfl] at h
    exact ⟨⟨h, ht hst⟩, ho⟩

theorem fallbackEntered_of (h : FellBack b s u) (hc : s.committed = true) (ht : t.sameButOutput u.settle) : FallbackEntered s t b := by
  have hset := h.entered.settled (.inr rfl) hc ht
  have hs := (settle_same u).trans (sameBut_output ht)
  have hb := hs.bays b
  refine ⟨hset.sess, hset.lane, hset.volts, hset.serve, hset.store, fun hv _ => hset.profile hv, events_of_sameBay hb h.event, ?_,
    fun hlt => hset.pass (by rw [hset.sess] at hlt; exact hlt), hset.others, hset.cart⟩
  have hcu := hb.cust.trans h.cust
  split
  · rename_i hi
    rw [if_pos hi] at hcu
    exact custodyFollows_unseen hcu (fun hst => events_of_sameBay hb (h.told hi hst)) fun c hcb => (hset.others c hcb).cust
  · rename_i hi
    rw [if_neg hi] at hcu
    exact hcu

theorem breakEntered_of (h : Entered b s u { breakSess s.now (s.bay b).sess with ask := none }) (hc : s.committed = true)
    (ht : t.sameButOutput u.settle) : BreakEntered s t b := by
  have hset := h.settled (.inl rfl) hc ht
  refine ⟨hset.sess, hset.lane, hset.volts, fun hcon => hset.cap ?_, hset.serve, hset.store, fun hv _ => hset.profile hv,
    fun hlt => hset.pass hlt, hset.others, hset.cart⟩
  obtain ⟨k, hk⟩ := Option.isSome_iff_exists.1 hcon
  rw [hk]
  rfl

end Sys2Proof.Dock
end

