-- ==== Sys2Proof/Proofs/LostSessions.lean ====
section
/-! PROOF. A session LOST (R55): its job aborted, its serve abandoned, and the counted restart (R45). -/

namespace Sys2Proof.Dock

open Machine Laws

variable {s t u : State} {b : Nat}

/-! ## Entries read little of the state before -/

/-- `s` prepared for an entry in `t`: of bay `b` what the entry reads stands as in `s`, or its serve has already been abandoned. -/
structure Prepared (b : Nat) (s t : State) : Prop where
  touched : Touched b s t
  sess : (t.bay b).sess = (s.bay b).sess
  cust : (t.bay b).cust = (s.bay b).cust
  lane : ∃ j c, (t.bay b).lane = { (s.bay b).lane with job := j, serve := c }
  store : (t.serveOver b .abandoned).store = (s.serveOver b .abandoned).store
  last : ((t.serveOver b .abandoned).bay b).lastServe = ((s.serveOver b .abandoned).bay b).lastServe
  profile : (s.bay b).serve.isSome = true → (t.bay b).events.getLsbD 5 = true

theorem Entered.prepared {x : Session} (hp : Prepared b s t) (h : Entered b t u x) : Entered b s u x := by
  obtain ⟨j, c, hl⟩ := hp.lane
  have hlane := h.lane
  rw [hl, show t.now = s.now from hp.touched.cart.now] at hlane
  refine ⟨hp.touched.trans h.touched, h.sess, laneEmptied_of_same hlane rfl rfl rfl rfl rfl, h.volts, ?_,
    ⟨h.serve.gone, h.serve.last.trans hp.last⟩, h.store.trans hp.store, fun hv => h.touched.events 5 (hp.profile hv), ?_, h.few⟩
  · rw [← hp.sess]
    exact h.cap
  · rw [← hp.sess]
    intro hlt hc
    refine h.urgent hlt ?_
    unfold State.committed at hc ⊢
    rw [show t.geo = s.geo from hp.touched.cart.geo]
    exact hc

theorem FellBack.prepared (hp : Prepared b s t) (h : FellBack b t u) : FellBack b s u := by
  have he := h.entered.prepared hp
  have hc := h.cust
  have ht := h.told
  rw [hp.sess, show t.now = s.now from hp.touched.cart.now] at he
  rw [hp.sess, hp.cust] at hc ht
  exact ⟨he, h.event, hc, ht⟩

/-! ## LOST (R55) -/

/-- The state after R55's steps before the restart: LOST posted, the job aborted, the serve abandoned. -/
def lost (s : State) (b : Nat) : State := ((s.post b .lost).abortBay b .laneLost false).serveOver b .abandoned

/-- The restart count goes up (R45). -/
def restarted (s : State) (b n : Nat) : State := s.updSess b fun x => { x with restarts := n }

theorem updSess_bay (hb : s.hasBay b = true) (f : Session → Session) :
    (s.updSess b f).bay b = { s.bay b with sess := f (s.bay b).sess } :=
  bay_updBay_eq s b (fun r => { r with sess := f r.sess }) (fun _ => rfl) hb

theorem abortBay_some {j : Job} (hj : s.jobOf b = some j) (why : JobReason) :
    s.abortBay b why false = s.endJob j false why false := by
  unfold State.abortBay
  rw [hj]
  rfl

/-- The bay whose job is aborted without a word to the tablet. -/
theorem abortBay_bay (hb : s.hasBay b = true) (why : JobReason) :
    ((s.abortBay b why false).bay b).sess = (s.bay b).sess ∧ ((s.abortBay b why false).bay b).cust = (s.bay b).cust
      ∧ (∃ j, ((s.abortBay b why false).bay b).lane = { (s.bay b).lane with job := j })
      ∧ ((s.abortBay b why false).bay b).serve = (s.bay b).serve
      ∧ ((s.abortBay b why false).bay b).lastServe = (s.bay b).lastServe ∧ (s.abortBay b why false).store = s.store
      ∧ (s.work.passes = [] → (s.abortBay b why false).work.passes.length ≤ 1) := by
  cases hj : s.jobOf b with
  | none =>
    have he : s.abortBay b why false = s := by
      unfold State.abortBay
      rw [hj]
    rw [he]
    exact ⟨rfl, rfl, ⟨_, rfl⟩, rfl, rfl, rfl, fun h => by rw [h]; simp⟩
  | some j =>
    rw [abortBay_some hj]
    obtain rfl := jobOf_bay hj
    have he : (s.endJob j false why false).bay j.bay = endedBay j false why none (s.bay j.bay) := by
      rw [endJob_eq]
      unfold postedCall
      simp only [Bool.false_eq_true, if_false, ite_self]
      exact bay_updBay_eq s j.bay (endedBay j false why none) (fun _ => rfl) hb
    have hw := endJob_work s j false why false
    rw [he]
    refine ⟨rfl, rfl, ⟨_, rfl⟩, rfl, rfl, by rw [endJob_eq], fun h => ?_⟩
    rw [hw]
    split
    · obtain ⟨l, hl, ha⟩ := askNormal_asking s
      rw [ha]
      show (s.work.passes ++ l).length ≤ 1
      rw [h]
      exact hl
    · rw [h]
      simp

/-- The only job of a bay, aborted. -/
theorem abortBay_job {j : Job} (hb : s.hasBay j.bay = true) (ho : s.onlyJob j) (why : JobReason) :
    (s.abortBay j.bay why false).jobOf j.bay = none
      ∧ ((s.abortBay j.bay why false).bay j.bay).lastJob = some ⟨j.tag, j.image, false, why⟩ := by
  obtain ⟨i, hi⟩ := Option.ne_none_iff_exists'.1 (jobOf_ne_none ho.1)
  obtain rfl : i = j := ho.2 i (jobOf_mem hi) (.inl (jobOf_bay hi))
  rw [abortBay_some hi]
  constructor
  · rw [jobOf_none_iff, endJob_jobs]
    exact jobless_of_onlyJob ho
  · rw [endJob_eq]
    exact congrArg Bay.lastJob (bay_updBay_eq s i.bay (endedBay i false why _) (fun _ => rfl) hb)

theorem touched_lost (s : State) (b : Nat) : Touched b s (lost s b) :=
  ((Touched.post s b .lost).trans (Touched.abortBay _ b .laneLost false)).trans (Touched.serveOver _ b .abandoned)

/-- A LOST session is prepared for its restart. -/
theorem prepared_lost (hb : s.hasBay b = true) (hw : s.work.passes = []) (n : Nat) :
    Prepared b (restarted s b n) (restarted (lost s b) b n) ∧ ((lost s b).bay b).sess = (s.bay b).sess
      ∧ (lost s b).work.passes.length ≤ 1 := by
  have htp := (Touched.post s b .lost)
  have hbp := htp.here.trans hb
  have hta := Touched.abortBay (s.post b .lost) b .laneLost false
  have hba := hta.here.trans hbp
  obtain ⟨a1, a2, ⟨j, a3⟩, a4, a5, a6, a7⟩ := abortBay_bay hbp .laneLost
  rw [post_bay hb] at a1 a2 a3 a4 a5
  obtain ⟨o1, o2, -, o4, ⟨c, o5⟩, o6⟩ := serveOver_bay (o := .abandoned) hba
  have hbl := (touched_lost s b).here.trans hb
  have hbr : (restarted s b n).hasBay b = true := (Touched.updSess s b _).here.trans hb
  have hr := updSess_bay hb fun x => { x with restarts := n }
  have hrl := updSess_bay hbl fun x => { x with restarts := n }
  have hs := serveOver_congr (o := .abandoned) hba hbr (a6.trans rfl) (by rw [show (restarted s b n).bay b = _ from hr]; exact a4)
    (by rw [show (restarted s b n).bay b = _ from hr]; exact a5)
  have hnone : ((restarted (lost s b) b n).bay b).serve = none := by
    rw [show (restarted (lost s b) b n).bay b = _ from hrl]
    exact o1
  refine ⟨⟨?_, ?_, ?_, ⟨j, c, ?_⟩, ?_, ?_, ?_⟩, o2.trans a1, ?_⟩
  · -- the count goes up before or after
    have h1 := (touched_lost s b).trans (Touched.updSess (lost s b) b fun x => { x with restarts := n })
    refine ⟨?_, fun c hc => ?_, { h1.cart with nums := ?_ }, h1.alloc, ?_, ?_⟩
    · exact h1.here.trans (Touched.updSess s b fun x => { x with restarts := n }).here.symm
    · exact (h1.others c hc).trans ((Touched.updSess s b fun x => { x with restarts := n }).others c hc).symm
    · exact h1.cart.nums.trans (Touched.updSess s b fun x => { x with restarts := n }).cart.nums.symm
    · rw [show (restarted s b n).bay b = _ from hr]
      exact h1.events
    · rw [show (restarted s b n).bay b = _ from hr]
      exact h1.jobless
  · rw [show (restarted (lost s b) b n).bay b = _ from hrl, show (restarted s b n).bay b = _ from hr]
    show { ((lost s b).bay b).sess with restarts := n } = _
    rw [show ((lost s b).bay b).sess = _ from o2.trans a1]
  · rw [show (restarted (lost s b) b n).bay b = _ from hrl, show (restarted s b n).bay b = _ from hr]
    exact o4.trans a2
  · rw [show (restarted (lost s b) b n).bay b = _ from hrl, show (restarted s b n).bay b = _ from hr]
    exact o5.trans (by rw [a3])
  · rw [serveOver_none hnone]
    exact hs.1
  · rw [serveOver_none hnone, show (restarted (lost s b) b n).bay b = _ from hrl]
    exact hs.2
  · rw [show (restarted (lost s b) b n).bay b = _ from hrl, show (restarted s b n).bay b = _ from hr]
    intro hv
    refine o6 ?_
    rw [a4]
    exact hv
  · show ((State.serveOver _ b .abandoned).work.passes.length) ≤ 1
    rw [serveOver_work]
    exact a7 hw

theorem lostSession_eq (s : State) (b : Nat) : s.lostSession b = (lost s b).countedRestart b := by
  unfold State.lostSession lost
  rw [abandonServe_eq]

/-- What a lost session's event leaves of its job and its flag, whatever the restart. -/
theorem lost_facts (hb : s.hasBay b = true) (h : Touched b (lost s b) u) (ht : t.sameButOutput u.settle) :
    (t.bay b).events.getLsbD 1 = true ∧ ∀ j, s.onlyJob j → j.bay = b →
      t.jobOf b = none ∧ (t.bay b).lastJob = some ⟨j.tag, j.image, false, .laneLost⟩ := by
  have hs := (settle_same u).trans (sameBut_output ht)
  constructor
  · have hp : ((s.post b .lost).bay b).events.getLsbD 1 = true := by
      rw [post_bay hb]
      unfold setBit
      dsimp only
      rw [BitVec.getLsbD_or]
      simp [BayEvent.bit]
    have ha := (Touched.abortBay (s.post b .lost) b .laneLost false).trans (Touched.serveOver _ b .abandoned)
    exact events_of_sameBay (hs.bays b) (h.events 1 (ha.events 1 hp))
  · rintro j ho rfl
    have hbp := (Touched.post s j.bay .lost).here.trans hb
    obtain ⟨h1, h2⟩ := abortBay_job (s := s.post j.bay .lost) hbp ho .laneLost
    obtain ⟨h3, h4⟩ := ((Touched.serveOver _ j.bay .abandoned).trans h).jobless h1
    obtain ⟨h5, h6⟩ := hs.jobless j.bay h3
    exact ⟨h5, h6.trans (h4.trans h2)⟩

/-- R55 and R45 for a bay of a state that owes no pass. -/
theorem lostSession_settles (hb : s.hasBay b = true) (hw : s.work.passes = []) (hc : s.committed = true)
    (ht : t.sameButOutput (s.lostSession b).settle) :
    let m := min 3 ((s.bay b).sess.restarts + 1)
    (t.bay b).events.getLsbD 1 = true
      ∧ (m = 3 → FallbackEntered (restarted s b m) t b) ∧ (m ≠ 3 → BreakEntered (restarted s b m) t b)
      ∧ ∀ j, s.onlyJob j → j.bay = b → t.jobOf b = none ∧ (t.bay b).lastJob = some ⟨j.tag, j.image, false, .laneLost⟩ := by
  intro m
  obtain ⟨hp, hx, hlen⟩ := prepared_lost hb hw m
  have hbl := (touched_lost s b).here.trans hb
  have hbr : (restarted (lost s b) b m).hasBay b = true := (Touched.updSess (lost s b) b _).here.trans hbl
  have htr : Touched b (lost s b) (restarted (lost s b) b m) := Touched.updSess _ b _
  have hcr : (restarted s b m).committed = true := hc
  rw [lostSession_eq] at ht
  unfold State.countedRestart at ht
  rw [hx] at ht
  dsimp only at ht
  by_cases hm : m = 3
  · have hf := fellBack hbr (le_trans hlen (by omega))
    replace ht : t.sameButOutput ((restarted (lost s b) b m).enterFallback b).settle := by
      rw [show min 3 ((s.bay b).sess.restarts + 1) = m from rfl, if_pos hm] at ht
      exact ht
    obtain ⟨h1, h2⟩ := lost_facts hb (htr.trans hf.entered.touched) ht
    exact ⟨h1, fun _ => fallbackEntered_of (hf.prepared hp) hcr ht, fun h => absurd hm h, h2⟩
  · have he := entered_break hbr (le_trans hlen (by omega))
    replace ht : t.sameButOutput ((restarted (lost s b) b m).enterBreak b false).settle := by
      rw [show min 3 ((s.bay b).sess.restarts + 1) = m from rfl, if_neg hm] at ht
      exact ht
    obtain ⟨h1, h2⟩ := lost_facts hb (htr.trans he.touched) ht
    have hep := he.prepared hp
    rw [hp.sess, show (restarted (lost s b) b m).now = (restarted s b m).now from hp.touched.cart.now] at hep
    exact ⟨h1, fun h => absurd h hm, fun _ => breakEntered_of hep hcr ht, h2⟩

end Sys2Proof.Dock
end

