-- ==== Sys2Proof/Proofs/FailedCalls.lean ====
section
/-! PROOF. Calls that have failed, and wakes (R26, R46, R55, R58): what each does to the session whose call it was. -/

namespace Sys2Proof.Dock

open Machine Laws

variable {s t u v : State} {b : Nat} {c : Instr}

/-! ## Failed wakes (R58) -/

/-- The record of a bay whose wake has failed, `m` the new count, `n` the time. -/
def wakeLostBay (m n : Nat) (r : Bay) : Bay :=
  { r with
    sess := { r.sess with
      state := .asleep, failedWakes := m, wakeFailed := r.sess.wakeFailed || m == 3
      refreshAt := if m = 3 then none else some (n + 300000) }
    lane := { r.lane with wakeAsked := false, wakeAt := none }
    events := if m = 3 then r.events ||| 0x01#10 else r.events }

theorem wakeLost_eq (s : State) (b : Nat) :
    s.wakeLost b = s.updBay b (wakeLostBay (min 3 ((s.bay b).sess.failedWakes + 1)) s.now) := rfl

theorem postIf_eq (p : Prop) [Decidable p] (s : State) (b : Nat) (e : BayEvent) : (if p then s.post b e else s)
    = s.updBay b fun r => { r with events := if p then setBit r.events e.bit else r.events } := by
  split
  · rfl
  · exact (updBay_same s b _ fun _ _ _ => rfl).symm

theorem wakeFails_eq (s : State) (b : Nat) : s.wakeFails b = (s.wakeLost b).wakeFailedJob b := by
  unfold State.wakeFails
  dsimp only
  rw [postIf_eq, wakeLost_eq]
  generalize min 3 ((s.bay b).sess.failedWakes + 1) = m
  congr 1
  refine (updBay_thrice s b (fun r => { r with lane := { r.lane with wakeAsked := false, wakeAt := none } })
    (fun r => { r with sess := { r.sess with
      state := .asleep, failedWakes := m, wakeFailed := r.sess.wakeFailed || m == 3
      refreshAt := if m = 3 then none else some (s.now + 300000) } })
    (fun r => { r with events := if m = 3 then setBit r.events BayEvent.session.bit else r.events }) (fun _ => rfl)
    fun _ => rfl).trans ?_
  rfl

theorem inner_asleep (hi : inner s) {f : Bay → Bay} (hf : ∀ r, Edited r (f r)) (hs : ∀ r, (f r).sess.state = .asleep) :
    inner (s.updBay b f) := by
  obtain ⟨hw, hd, hl, hi, hm⟩ := hi
  have hmap : ∀ r ∈ s.bays, Edited r (if r.num = b then f r else r) := fun r _ => by
    split
    exacts [hf r, Edited.refl r]
  refine ⟨hw, hd, ?_, lampsRight_edited hi hmap, limitsRight_edited hm hmap⟩
  unfold State.lanesQuiet at *
  rw [List.all_eq_true] at *
  intro r hr
  obtain ⟨q, hq, rfl⟩ := List.mem_map.1 hr
  split
  · rw [hs q]
    simp [State.laneNext]
  · rw [laneNext_isSome _ s q.num q.num]
    exact hl q hq

/-- A wake that fails in a quiet state whose lane alone has changed. -/
theorem wakeLost_of {h : Lane → Lane} (hi : inner v) (hc : v.committed = true) (hu : u = v.updLane b h) (hj : u.jobOf b = s.jobOf b)
    (he : exec c s = .next (u.wakeFails b).conclude) : WakeLost c s u b := by
  have hin : inner (u.wakeLost b) := by
    rw [wakeLost_eq]
    generalize min 3 ((u.bay b).sess.failedWakes + 1) = m
    have hcomp : (v.updLane b h).updBay b (wakeLostBay m (v.updLane b h).now) = _ :=
      updBay_updBay v b (fun r => { r with lane := h r.lane }) (wakeLostBay m v.now) fun _ => rfl
    rw [hu, hcomp]
    exact inner_asleep hi (fun r => ⟨_, _, _, rfl, rfl⟩) fun _ => rfl
  have hcu : (u.wakeLost b).committed = true := by
    rw [hu]
    exact hc
  have hjw : (u.wakeLost b).jobOf b = s.jobOf b := hj
  rw [wakeFails_eq] at he
  unfold State.wakeFailedJob at he
  rw [hjw] at he
  refine ⟨fun hn => ?_, fun j hs hw => ?_⟩
  · refine leaves_of_settle (v := u.wakeLost b) (he.trans ?_) (settle_of_inner hin)
    cases hs : s.jobOf b with
    | none => rfl
    | some j =>
      dsimp only
      rw [if_neg (hn j hs)]
  · rw [hs] at he
    dsimp only at he
    rw [if_pos hw] at he
    exact jobEnded_of_exec hin hcu he

/-! ## The line free again after a call that failed -/

theorem settle_freed_still (hi : inner s) (hn : (s.bays.map (·.num)).Nodup) {f : Lane → Lane}
    (h : nextOf (s.updLane b f) b (s.bay b).sess.state (f (s.bay b).lane) = f (s.bay b).lane) :
    (s.updLane b f).settle = s.updLane b f := by
  refine (settle_freed hi hn b f).trans (updBay_congr s b fun r hr hb => ?_)
  rw [h, ← hb, bay_of_mem hn hr]

theorem nextOf_waking {l : Lane} (hl : l.wakeAsked = false) (w : State) (n : Nat) : nextOf w n .waking l = l := by
  unfold nextOf State.laneNext
  dsimp only
  rw [hl]
  split <;> rfl

/-! ## The call over (R26) -/

/-- The lane of a call that has failed with its `n`-th attempt. -/
def goneLane (n : Nat) (k : FailKind) (l : Lane) : Lane := { l with flight := none, attempts := n, lastFail := some k, act := .idle }

theorem callGone_eq (s : State) (b n : Nat) (k : FailKind) : s.callGone b n k = s.updLane b (goneLane n k) := rfl

theorem failAttempt_over {f : Flight} (hf : (s.bay b).lane.flight = some f) (k : FailKind)
    (ho : (s.bay b).lane.callOver f.plan s.now ((s.bay b).lane.attempts + 1) = true) :
    s.failAttempt b k = (s.callGone b ((s.bay b).lane.attempts + 1) k).callFailed b := by
  rw [failAttempt_eq hf, if_pos ho, updLane_updLane]
  rfl

theorem windowOver_iff (l : Lane) (n : Nat) : l.windowOver n = true ↔ ∀ w, l.wakeAt = some w → w + 2000 ≤ n := by
  unfold Lane.windowOver
  cases l.wakeAt with
  | none => simp
  | some w =>
    simp only [decide_eq_true_eq, Option.some.injEq, forall_eq']
    rfl

/-- A call that is over, in the state where it has left flight. -/
structure CallOver (s g v : State) (c : Instr) (b : Nat) (h : Lane → Lane) : Prop where
  state : g = v.updLane b h
  exec : exec c s = .next (g.callFailed b).conclude
  inner : inner v
  committed : v.committed = true
  bays : v.bays = s.bays
  jobs : g.jobs = s.jobs
  here : g.hasBay b = true
  work : g.work.passes = []

theorem CallOver.sess {g : State} {h : Lane → Lane} (H : CallOver s g v c b h) : (g.bay b).sess = (s.bay b).sess := by
  rw [H.state, bay_updLane_sess, bay_of_bays H.bays]

theorem CallOver.lane {g : State} {h : Lane → Lane} (H : CallOver s g v c b h) : (g.bay b).lane = h (s.bay b).lane := by
  have hb : v.hasBay b = true := by
    have := H.here
    rw [H.state, hasBay_updLane] at this
    exact this
  rw [H.state, ← bay_of_bays H.bays b]
  exact congrArg Bay.lane (bay_updBay_eq v b (fun r => { r with lane := h r.lane }) (fun _ => rfl) hb)

theorem callOver_of_judged {k : FailKind} {f : Flight} (hq : s.quiet = true) (hc : s.committed = true)
    (h : s.judged? c = some (b, k, u)) (hf : (s.bay b).lane.flight = some f)
    (ho : (s.bay b).lane.callOver f.plan u.now ((s.bay b).lane.attempts + 1) = true) :
    ∃ (v : State) (e : Nat → Nat), CallOver s (u.callGone b ((s.bay b).lane.attempts + 1) k) v c b fun l =>
      goneLane ((s.bay b).lane.attempts + 1) k { l with callEnd := e l.callEnd } := by
  have hj := judged_exec h hf
  obtain ⟨e', he⟩ := hj.judged.lane
  have hov : (u.bay b).lane.callOver f.plan u.now ((u.bay b).lane.attempts + 1) = true := by
    rw [he]
    exact ho
  have hx := hj.exec
  rw [failAttempt_over (by rw [he]; exact hf) k hov, show (u.bay b).lane.attempts = (s.bay b).lane.attempts by rw [he]] at hx
  have hb' := hj.judged.hasBay'
  obtain ⟨n, e, hu⟩ := hj.judged.state
  refine ⟨s.reach n, fun n => e.getD n, ⟨?_, hx, inner_reach (quiet_inner hq) n, hc, rfl, ?_, ?_, ?_⟩⟩
  · rw [callGone_eq, hu, updLane_updLane]
  · rw [hu]
    rfl
  · rw [callGone_eq, hasBay_updLane]
    exact hb'
  · rw [hu]
    show s.work.passes = []
    rw [(quiet_inner hq).1]
    rfl

theorem callFailed_loses (h : (s.bay b).sess.state = .confirming ∨ (s.bay b).sess.state = .identifying
    ∨ (s.bay b).sess.state = .contracted) : s.callFailed b = s.lostSession b := by
  unfold State.callFailed
  rcases h with h | h | h <;> rw [h]

/-- A failed call's event ends with the state that its operation settles to, but for the output. -/
theorem conclude_output (s : State) : s.conclude.sameButOutput s.settle := announce_sameButOutput _

theorem wakeWindowEnd_exec {w : Nat} (hr : s.resetN = true) (hx : (s.bay b).sess.state = .waking)
    (hw : (s.bay b).lane.wakeAt = some w) :
    exec (.wakeWindowEnd b) s = .next ((s.reach (w + 2000)).closeWindow b).conclude := by
  show timerEvent s (s.wakeEnd b) (fun s => s.closeWindow b) = _
  have he : s.wakeEnd b = some (w + 2000) := by
    unfold State.wakeEnd
    rw [if_pos hx, hw]
    rfl
  rw [he]
  exact timerEvent_live hr _ _

theorem wakeWindowEnd_lost {w : Nat} {f : Lane → Lane} (hq : s.quiet = true) (hc : s.committed = true)
    (he : exec (.wakeWindowEnd b) s = .next (((s.reach (w + 2000)).updLane b f).wakeFails b).conclude) :
    WakeLost (.wakeWindowEnd b) s ((s.reach (w + 2000)).updLane b f) b :=
  wakeLost_of (inner_reach (quiet_inner hq) (w + 2000)) hc rfl rfl he

/-- Settles O41: a failed call by the session's state, and the end of a wake's window. -/
theorem failedCallMovesSession : Obligations.FailedCallMovesSession := by
  intro s b hq hc hn
  refine ⟨fun u c k f h hf => ?_, fun w hr hx hw => ?_⟩
  · dsimp only
    intro hend
    have ho : (s.bay b).lane.callOver f.plan u.now ((s.bay b).lane.attempts + 1) = true := by
      unfold Lane.callOver Plan.limit
      cases hp : f.plan <;> rw [hp] at hend
      · simpa using hend
      · simpa using hend
      · simp
      · rcases hend with h8 | hwin
        · simp only [Bool.or_eq_true, decide_eq_true_eq]
          exact .inl h8
        · rw [(windowOver_iff _ _).2 hwin]
          simp
    obtain ⟨v, e, H⟩ := callOver_of_judged hq hc h hf ho
    have hsess := H.sess
    have hlane := H.lane
    have hjobs := H.jobs
    have hexec := H.exec
    have hnow : (u.callGone b ((s.bay b).lane.attempts + 1) k).now = u.now := rfl
    generalize hg : u.callGone b ((s.bay b).lane.attempts + 1) k = g at H hsess hlane hjobs hexec hnow
    have hcg : g.committed = true := by
      rw [H.state]
      exact H.committed
    have hnv : (v.bays.map (·.num)).Nodup := by rw [H.bays]; exact hn
    have hvb : v.bay b = s.bay b := bay_of_bays H.bays b
    refine ⟨fun hx => ?_, fun hx => ?_, fun hx hbare => ?_, fun hx ha hwin => ?_, fun hx hwin => ?_⟩
    · have hcf : g.callFailed b = g.enterFallback b := by
        unfold State.callFailed
        rw [hsess, hx]
      rw [hcf] at hexec
      exact ⟨_, hexec, fallbackEntered_of (fellBack H.here (by rw [H.work]; simp)) hcg (conclude_output _)⟩
    · rw [callFailed_loses (by rw [hsess]; exact hx)] at hexec
      obtain ⟨h1, h2, h3, h4⟩ := lostSession_settles H.here H.work hcg (conclude_output _)
      rw [hsess] at h2 h3
      refine ⟨_, hexec, h1, h2, h3, fun j ho hb => h4 j ?_ hb⟩
      unfold State.onlyJob at ho ⊢
      rwa [hjobs]
    · have hcf : g.callFailed b = g := by
        unfold State.callFailed
        rw [hsess, hx]
      rw [hcf] at hexec
      refine leaves_of_settle hexec ?_
      rw [H.state]
      refine settle_freed_still H.inner hnv ?_
      rw [hvb, hx]
      exact nextOf_empty (st := .fallback) (by decide) (l := goneLane _ k { (s.bay b).lane with callEnd := _ }) hbare _ _
    · have hcf : g.callFailed b = g := by
        unfold State.callFailed
        rw [hsess, hx]
        dsimp only
        rw [if_neg]
        rw [windowOver_iff, hlane, hnow]
        exact hwin
      rw [hcf] at hexec
      refine leaves_of_settle hexec ?_
      rw [H.state]
      refine settle_freed_still H.inner hnv ?_
      rw [hvb, hx]
      exact nextOf_waking (l := goneLane _ k { (s.bay b).lane with callEnd := _ }) ha _ _
    · have hcf : g.callFailed b = g.wakeFails b := by
        unfold State.callFailed
        rw [hsess, hx]
        dsimp only
        rw [if_pos]
        rw [windowOver_iff, hlane, hnow]
        exact hwin
      rw [hcf] at hexec
      refine wakeLost_of H.inner H.committed H.state ?_ hexec
      unfold State.jobOf
      rw [hjobs]
  · have he := wakeWindowEnd_exec hr hx hw
    dsimp only
    unfold State.closeWindow at he
    refine ⟨fun hfl => ?_, fun hfl hact => ?_, fun hfl hact => ?_⟩
    · rw [show ((s.reach (w + 2000)).bay b).lane.flight = none from hfl] at he
      have := wakeWindowEnd_lost (f := fun l => l) hq hc (he.trans (by rw [updLane_id _ b fun _ => rfl]))
      rwa [updLane_id _ b fun _ => rfl] at this
    · obtain ⟨fl, hfl⟩ := Option.isSome_iff_exists.1 hfl
      rw [show ((s.reach (w + 2000)).bay b).lane.flight = some fl from hfl] at he
      refine leaves_of_settle (v := s.reach (w + 2000)) ?_ (settle_of_inner (inner_reach (quiet_inner hq) _))
      rcases hact with hact | hact <;> rw [show ((s.reach (w + 2000)).bay b).lane.act = _ from hact] at he <;> exact he
    · obtain ⟨fl, hfl⟩ := Option.isSome_iff_exists.1 hfl
      rw [show ((s.reach (w + 2000)).bay b).lane.flight = some fl from hfl,
        show ((s.reach (w + 2000)).bay b).lane.act = _ from hact] at he
      exact wakeWindowEnd_lost hq hc he

end Sys2Proof.Dock
end

