-- ==== Sys2Proof/Proofs/Suspensions.lean ====
section
/-! PROOF. A job suspended from its channel (R127), in one expression, and what the end of the event leaves of it: it waits in the queue
where the scan has nothing for it, and its channel drains. -/

namespace Sys2Proof.Dock

open Machine Laws

variable {s t u : State} {b : Nat} {j : Job}

/-! ## The suspension (R127) -/

/-- The record of the bay whose job is suspended. -/
def suspendedBay (j : Job) (c : Option Call) (r : Bay) : Bay :=
  { r with events := r.events ||| 0x40#10, lane := tellLane j.tag c r.lane }

/-- The call to the tablet whose job is suspended. -/
def pauseCall (j : Job) : Option Call := if j.posted then some (.pause j.tag) else none

theorem suspendJob_eq (s : State) (j : Job) : s.suspendJob j = { s with
    sched := { s.sched with
      queue := insertFront s.work.returned j.suspended (s.sched.queue.filter (·.tag != j.tag))
      active := s.sched.active.filter (·.tag != j.tag), channels := drainedFrom s j.channel }
    bays := (s.updBay j.bay (suspendedBay j (postedCall s j.bay (pauseCall j)))).bays
    work := (State.askNormal { s with work := { s.work with returned := j.tag :: s.work.returned } }).work } := by
  unfold State.suspendJob
  dsimp only
  rw [calls_eq, releaseChannel_eq, askNormal_eq]
  have hb : (s.updBay j.bay (suspendedBay j (postedCall s j.bay (pauseCall j)))).bays
      = ((s.updLane j.bay (tellLane j.tag (postedCall s j.bay (pauseCall j)))).post j.bay .job).bays := by
    rw [updLane_eq, post_eq, updBay_updBay]
    · rfl
    · exact fun _ => rfl
  rw [hb]
  congr 1
  exact askNormal_work rfl rfl

theorem suspendBay_some (hj : s.jobOf b = some j) (ha : j.state.onChannel = true) : s.suspendBay b = s.suspendJob j := by
  unfold State.suspendBay
  rw [hj]
  exact if_pos ha

theorem suspendJob_bay_ne {c : Nat} (h : c ≠ j.bay) : (s.suspendJob j).bay c = s.bay c := by
  rw [suspendJob_eq]
  exact bay_updBay_ne s j.bay (suspendedBay j _) (fun _ => rfl) h

/-! ## A job that waits in the queue -/

/-- Job `k` waits in the queue, the only job of its bay and of its tag. -/
structure Waiting (k : Job) (t : State) : Prop where
  queued : k ∈ t.sched.queue
  only : ∀ i ∈ t.jobs, i.bay = k.bay ∨ i.tag = k.tag → i = k
  idle : k.state.onChannel = false

variable {k : Job}

theorem Waiting.jobOf (h : Waiting k t) : t.jobOf k.bay = some k := by
  obtain ⟨i, hi⟩ := Option.ne_none_iff_exists'.1 (jobOf_ne_none (j := k) (List.mem_append_right _ h.queued))
  rw [hi, h.only i (jobOf_mem hi) (.inl (jobOf_bay hi))]

theorem Waiting.of_view (hv : view u = view t) (h : Waiting k t) : Waiting k u := by
  have hj := jobs_of_view hv
  simp only [view, Prod.mk.injEq] at hv
  exact ⟨hv.2.2.1 ▸ h.queued, hj ▸ h.only, h.idle⟩

/-- Jobs of other bays and tags come, go and change. -/
theorem Waiting.of_lists (h : Waiting k t) (hq : k ∈ u.sched.queue)
    (hu : ∀ i ∈ u.jobs, i ∈ t.jobs ∨ (i.bay ≠ k.bay ∧ i.tag ≠ k.tag)) : Waiting k u := by
  refine ⟨hq, fun i hi hk => ?_, h.idle⟩
  rcases hu i hi with hi | ⟨hb, ht⟩
  · exact h.only i hi hk
  · rcases hk with hk | hk
    exacts [absurd hk hb, absurd hk ht]

theorem mem_filter_tag {l : List Job} {i : Job} (h : i ∈ l) {tag : Nat} (ht : i.tag ≠ tag) : i ∈ l.filter (·.tag != tag) :=
  List.mem_filter.2 ⟨h, by simpa using ht⟩

theorem Waiting.suspendJob (h : Waiting k t) {i : Job} (hb : i.bay ≠ k.bay) (ht : i.tag ≠ k.tag) : Waiting k (t.suspendJob i) := by
  rw [suspendJob_eq]
  refine h.of_lists ?_ fun x hx => ?_
  · exact (insertFront_perm _ _ _).mem_iff.2 (List.mem_cons_of_mem _ (mem_filter_tag h.queued ht.symm))
  · rcases List.mem_append.1 hx with hx | hx
    · exact .inl (List.mem_append_left _ (List.mem_filter.1 hx).1)
    · rcases mem_insertFront hx with rfl | hx
      · exact .inr ⟨hb, ht⟩
      · exact .inl (List.mem_append_right _ (List.mem_filter.1 hx).1)

theorem Waiting.other (h : Waiting k t) {i : Job} (hi : i ∈ t.jobs) (hne : i ≠ k) : i.bay ≠ k.bay ∧ i.tag ≠ k.tag :=
  ⟨fun he => hne (h.only i hi (.inl he)), fun he => hne (h.only i hi (.inr he))⟩

theorem Waiting.suspendBay (h : Waiting k t) (c : Nat) : Waiting k (t.suspendBay c) := by
  unfold State.suspendBay
  split
  · exact h
  · rename_i i hi
    split
    · rename_i ha
      have hne : i ≠ k := fun he => by rw [he, h.idle] at ha; cases ha
      obtain ⟨hb, ht⟩ := h.other (jobOf_mem hi) hne
      exact h.suspendJob hb ht
    · exact h

theorem Waiting.endJob (h : Waiting k t) {i : Job} (ht : i.tag ≠ k.tag) (done : Bool) (why : JobReason) (tell : Bool) :
    Waiting k (t.endJob i done why tell) := by
  refine h.of_lists ?_ fun x hx => ?_
  · rw [endJob_eq]
    exact mem_filter_tag h.queued ht.symm
  · rw [endJob_jobs] at hx
    exact .inl (List.mem_filter.1 hx).1

theorem Waiting.updJob (h : Waiting k t) {tag : Nat} (ht : tag ≠ k.tag) {f : Job → Job}
    (hf : ∀ i, (f i).bay = i.bay ∧ (f i).tag = i.tag) : Waiting k (t.updJob tag f) := by
  refine ⟨?_, fun x hx hk => ?_, h.idle⟩
  · exact List.mem_map.2 ⟨k, h.queued, if_neg ht.symm⟩
  · unfold State.updJob State.jobs at hx
    rw [← List.map_append] at hx
    obtain ⟨i, hi, rfl⟩ := List.mem_map.1 hx
    split at hk
    · rename_i hit
      rw [(hf i).1, (hf i).2] at hk
      obtain rfl := h.only i hi hk
      exact absurd hit ht.symm
    · rename_i hit
      rw [if_neg hit]
      exact h.only i hi hk

theorem Waiting.takeChannel (h : Waiting k t) {i : Job} (hb : i.bay ≠ k.bay) (ht : i.tag ≠ k.tag) (c : Channel) :
    Waiting k (t.takeChannel i c) := by
  refine h.of_lists (mem_filter_tag h.queued ht.symm) fun x hx => ?_
  rcases List.mem_append.1 hx with hx | hx
  · rcases List.mem_append.1 hx with hx | hx
    · exact .inl (List.mem_append_left _ (List.mem_filter.1 hx).1)
    · rw [List.mem_singleton.1 hx]
      exact .inr ⟨hb, ht⟩
  · exact .inl (List.mem_append_right _ (List.mem_filter.1 hx).1)

theorem stable_waiting (k : Job) : Stable (Waiting k) := .of_view (fun hv h => h.of_view hv) fun _ c h => h.suspendBay c

/-! ## What a scan reads for a waiting job (R120, R121) -/

/-- `t` shows a scan of bay `b` the cart mode, the catalog and the session of `s`, or the session asked to wake. -/
structure Shows (b : Nat) (s t : State) : Prop where
  mode : t.mode = s.mode
  catalog : t.sched.catalog = s.sched.catalog
  sess : SameSession (s.bay b).sess (t.bay b).sess

theorem Shows.kept (h : Shows b s t) (k : Kept t u) : Shows b s u :=
  ⟨k.cart.mode.trans h.mode, k.cart.catalog.trans h.catalog, h.sess.trans (k.bays b).sess⟩

theorem stable_shows (b : Nat) (s : State) : Stable (Shows b s) where
  grant t g h := h.kept (kept_writeGrant t g)
  idle t c h := h.kept (kept_writeNoDemand t c)
  alloc _ _ h := ⟨h.mode, h.catalog, h.sess⟩
  work _ _ h := ⟨h.mode, h.catalog, h.sess⟩
  suspend t c h := h.kept (kept_suspendBay t c)
  units _ _ h := ⟨h.mode, h.catalog, h.sess⟩
  post t c h := h.kept (Kept.post t c .latch)

/-- No channel is enabled and IDLE (R121). -/
def Taken (t : State) : Prop := ∀ q ∈ t.sched.channels, q.enabled = true → q.state ≠ .idle

theorem Taken.freeChannel (h : Taken t) : t.freeChannel = none := by
  unfold State.freeChannel
  rw [List.find?_eq_none]
  intro q hq
  simp only [Bool.and_eq_true, beq_iff_eq, not_and]
  exact h q hq

/-- A channel only drains. -/
theorem Taken.of_drained (h : Taken t) {n : Option Nat} (hu : u.sched.channels = drainedFrom t n) : Taken u := by
  intro q hq he
  rw [hu] at hq
  obtain ⟨p, hp, rfl⟩ := List.mem_map.1 hq
  split
  · simp
  · rename_i hn
    rw [if_neg hn] at he
    exact h p hp he

theorem Taken.of_channels (h : Taken t) (hu : u.sched.channels = t.sched.channels) : Taken u := by
  unfold Taken
  rw [hu]
  exact h

theorem writeGrant_sched (t : State) (g : Grant) : (t.writeGrant g).sched = t.sched := by
  unfold State.writeGrant State.handTarget
  dsimp only
  repeat' split
  all_goals rfl

theorem writeNoDemand_sched (t : State) (c : Nat) : (t.writeNoDemand c).sched = t.sched := by
  unfold State.writeNoDemand State.handTarget
  dsimp only
  repeat' split
  all_goals rfl

theorem Taken.suspendBay (h : Taken t) (c : Nat) : Taken (t.suspendBay c) := by
  unfold State.suspendBay
  split
  · exact h
  · split
    · exact h.of_drained (by rw [suspendJob_eq])
    · exact h

theorem stable_taken : Stable Taken where
  grant t g h := h.of_channels (by rw [writeGrant_sched])
  idle t c h := h.of_channels (by rw [writeNoDemand_sched])
  alloc _ _ h := h
  work _ _ h := h
  suspend _ c h := h.suspendBay c
  units _ _ h := h
  post _ _ h := h

/-- A job that the scan leaves alone (R120). -/
theorem scanJob_passes {inel : Prop} (hp : s.scanPasses j inel) (h : Shows j.bay s t) (hk : k.bay = j.bay ∧ k.image = j.image
    ∧ k.priority = j.priority ∧ k.state = .queued) (hf : inel → Taken t) : t.scanJob k = (t, false) := by
  obtain ⟨hb, hi, hpr, hst⟩ := hk
  unfold State.scanJob
  dsimp only
  rw [hb, hpr, h.mode]
  rcases hp with hperm | hsess | ⟨hc, hid, hmod, hfe, hin⟩
  · rw [if_pos]
    refine .inr ?_
    unfold Mode.permits
    rcases hperm with hm | ⟨hm, hp⟩ <;> rw [hm]
    · rfl
    · simpa using hp
  · have hx := h.sess.resolve_right fun hx => hsess.2 hx.1
    rw [hx]
    split
    · rfl
    · cases hstate : (s.bay j.bay).sess.state with
      | asleep => exact absurd hstate hsess.2
      | contracted => exact absurd hstate hsess.1
      | _ => rfl
  · have hx := h.sess.resolve_right fun hx => by rw [hc] at hx; cases hx.1
    split
    · rfl
    · rw [hx, hc]
      dsimp only
      have h1 : t.jobWrongModel k = false := by
        unfold State.jobWrongModel State.image?
        rw [hi, h.catalog]
        cases he : s.sched.catalog.find? (·.id == j.image) with
        | none => rfl
        | some e =>
          dsimp only
          unfold State.wrongModel
          rw [hb, hx]
          cases hi : (s.bay j.bay).sess.identity with
          | none => rfl
          | some i =>
            dsimp only
            have := hmod e i he hi
            simpa using this
      have h2 : t.hasJobFeature j.bay = true := by
        unfold State.hasJobFeature
        rw [hx]
        cases ha : (s.bay j.bay).sess.ability with
        | none => rw [ha] at hfe; cases hfe
        | some a => rw [ha] at hfe; exact hfe
      have h3 : t.eligible (t.bay j.bay) = false := by
        unfold State.eligible
        rw [(hf hin).freeChannel]
        rfl
      rw [h1, h2, h3]
      obtain ⟨i, hi⟩ := Option.isSome_iff_exists.1 hid
      rw [hi]
      rfl

end Sys2Proof.Dock
end

