-- ==== Sys2Proof/Proofs/Returns.lean ====
section
/-! PROOF. A suspended job (R127) from its suspension to the end of the event: no turn of a scan takes it, its channel drains, and PAUSE
goes out or waits. -/

namespace Sys2Proof.Dock

open Machine Laws

variable {s t u : State} {b n : Nat} {j k : Job}

/-! ## What several predicates keep together -/

theorem Stable.and {P Q : State → Prop} (h : Stable P) (k : Stable Q) : Stable fun s => P s ∧ Q s where
  grant s g hs := ⟨h.grant s g hs.1, k.grant s g hs.2⟩
  idle s b hs := ⟨h.idle s b hs.1, k.idle s b hs.2⟩
  alloc s a hs := ⟨h.alloc s a hs.1, k.alloc s a hs.2⟩
  work s w hs := ⟨h.work s w hs.1, k.work s w hs.2⟩
  suspend s b hs := ⟨h.suspend s b hs.1, k.suspend s b hs.2⟩
  units s l hs := ⟨h.units s l hs.1, k.units s l hs.2⟩
  post s b hs := ⟨h.post s b hs.1, k.post s b hs.2⟩

theorem Stable.imp {P : State → Prop} (p : Prop) (h : Stable P) : Stable fun s => p → P s where
  grant s g hs hp := h.grant s g (hs hp)
  idle s b hs hp := h.idle s b (hs hp)
  alloc s a hs hp := h.alloc s a (hs hp)
  work s w hs hp := h.work s w (hs hp)
  suspend s b hs hp := h.suspend s b (hs hp)
  units s l hs hp := h.units s l (hs hp)
  post s b hs hp := h.post s b (hs hp)

/-- A walk gives turns to the jobs of its queue alone. -/
theorem scanWalk_keeps_of {P : State → Prop} {Q : Job → Prop} (hj : ∀ s j, Q j → P s → P (State.scanJob s j).1) :
    ∀ (js : List Job), (∀ j ∈ js, Q j) → ∀ {s : State}, P s → P (State.scanWalk js s)
  | [], _, _, hs => hs
  | j :: js, hq, s, hs => by
    have h1 := hj s j (hq j (List.mem_cons_self ..)) hs
    unfold State.scanWalk
    dsimp only
    split
    exacts [h1, scanWalk_keeps_of hj js (fun i hi => hq i (List.mem_cons_of_mem _ hi)) h1]

theorem Stable.payWork_of {P : State → Prop} {Q : Job → Prop} (h : Stable P) (hq : ∀ s, P s → ∀ j ∈ s.sched.queue, Q j)
    (hj : ∀ s j, Q j → P s → P (State.scanJob s j).1) (hs : P s) : P s.payWork := by
  have h1 := h.servePasses hs
  unfold State.payWork
  dsimp only
  split
  · exact h.servePasses (scanWalk_keeps_of hj _ (hq _ h1) h1)
  · exact h.servePasses h1

/-! ## The job stands in the queue -/

/-- In an event begun in `s`, job `k` waits and shows the scan what `s` showed it. -/
def Passed (s : State) (k : Job) (inel : Prop) (t : State) : Prop := Waiting k t ∧ Shows k.bay s t ∧ (inel → Taken t)

theorem stable_passed (s : State) (k : Job) (inel : Prop) : Stable (Passed s k inel) :=
  (stable_waiting k).and ((stable_shows k.bay s).and (stable_taken.imp inel))

theorem Shows.of_bay (h : Shows b s t) (hm : u.mode = t.mode) (hc : u.sched.catalog = t.sched.catalog)
    (hx : (u.bay b).sess = (t.bay b).sess) : Shows b s u := ⟨hm.trans h.mode, hc.trans h.catalog, hx ▸ h.sess⟩

theorem bay_endJob_ne {c : Nat} (h : c ≠ j.bay) (done : Bool) (why : JobReason) (tell : Bool) :
    (t.endJob j done why tell).bay c = t.bay c := by
  rw [endJob_eq]
  exact bay_updBay_ne t j.bay (endedBay j done why _) (fun _ => rfl) h

theorem bay_updLane_ne {c : Nat} (h : c ≠ b) (f : Lane → Lane) : (t.updLane b f).bay c = t.bay c :=
  bay_updBay_ne t b (fun r => { r with lane := f r.lane }) (fun _ => rfl) h

theorem bay_updSess_ne {c : Nat} (h : c ≠ b) (f : Session → Session) : (t.updSess b f).bay c = t.bay c :=
  bay_updBay_ne t b (fun r => { r with sess := f r.sess }) (fun _ => rfl) h

theorem bay_beginWake_ne {c : Nat} (h : c ≠ b) : (t.beginWake b).bay c = t.bay c := (bay_updLane_ne h _).trans (bay_updSess_ne h _)

/-- A turn of another job. -/
theorem passed_scanJob_other {inel : Prop} (h : Passed s k inel t) {i : Job} (hi : i.bay ≠ k.bay ∧ i.tag ≠ k.tag) :
    Passed s k inel (t.scanJob i).1 := by
  obtain ⟨hb, ht⟩ := hi
  refine (stable_passed s k inel).scanJob (fun why h => ?_) (fun _ h => ?_) (fun v c hf h => ?_) h
  · refine ⟨h.1.endJob ht _ _ _, ?_, fun hin => (h.2.2 hin).of_drained (by rw [endJob_eq])⟩
    refine h.2.1.of_bay ?_ ?_ (by rw [bay_endJob_ne hb.symm])
    all_goals rw [endJob_eq]
  · have hw : Waiting k (t.beginWake i.bay) := ⟨h.1.queued, h.1.only, h.1.idle⟩
    exact ⟨hw.updJob ht fun _ => ⟨rfl, rfl⟩, h.2.1.of_bay rfl rfl (congrArg Bay.sess (bay_beginWake_ne hb.symm)), h.2.2⟩
  · refine ⟨h.1.takeChannel hb ht c, h.2.1.of_bay rfl rfl ?_, fun hin => ?_⟩
    · exact congrArg Bay.sess (bay_updBay_ne v i.bay (fun r => { r with events := setBit r.events BayEvent.job.bit })
        (fun _ => rfl) hb.symm)
    · rw [(h.2.2 hin).freeChannel] at hf
      cases hf

theorem sched_of_settle (u : State) : u.settle.sched = u.payWork.driversTake.sched := by
  have h (v : State) : State.sched { v.kickLanes.lightLamps.sendLimits with work := Work.none } = v.sched := rfl
  exact h _

theorem passed_settle {inel : Prop} (hp : s.scanPasses j inel) (hk : k.bay = j.bay ∧ k.image = j.image ∧ k.priority = j.priority
    ∧ k.state = .queued) (h : Passed s k inel u) : u.settle.jobOf k.bay = some k := by
  have hw : Passed s k inel u.payWork :=
    (stable_passed s k inel).payWork_of (Q := fun i => i = k ∨ i.bay ≠ k.bay ∧ i.tag ≠ k.tag)
      (fun v hv i hi => by
        by_cases he : i = k
        exacts [.inl he, .inr (hv.1.other (List.mem_append_right _ hi) he)])
      (fun v i hi hv => by
        rcases hi with rfl | hi
        · rw [scanJob_passes hp (hk.1 ▸ hv.2.1) hk hv.2.2]
          exact hv
        · exact passed_scanJob_other hv hi) h
  have hd := ((stable_passed s k inel).driversTake hw).1.jobOf
  unfold State.jobOf State.jobs at hd ⊢
  rw [sched_of_settle]
  exact hd

/-! ## Its channel drains (R117) -/

/-- Every channel numbered `n` is disabled, and the first of them drains from `now`. -/
structure Drains (n now : Nat) (t : State) : Prop where
  off : ∀ q ∈ t.sched.channels, q.num = n → q.enabled = false
  state : (t.chan? n).map (·.state) = some (.draining (now + 50))
  now : t.now = now

theorem Drains.of_channels {now : Nat} (h : Drains n now t) (hc : u.sched.channels = t.sched.channels) (hn : u.now = t.now) :
    Drains n now u where
  off := hc ▸ h.off
  state := by
    unfold State.chan?
    rw [hc]
    exact h.state
  now := hn.trans h.now

theorem off_drainedFrom (h : ∀ q ∈ t.sched.channels, q.num = n → q.enabled = false) (c : Option Nat) :
    ∀ q ∈ drainedFrom t c, q.num = n → q.enabled = false := by
  intro q hq hn
  obtain ⟨p, hp, rfl⟩ := List.mem_map.1 hq
  split at hn <;> split
  all_goals exact h p hp hn

theorem find_drainedFrom (t : State) (c : Option Nat) (n : Nat) : (drainedFrom t c).find? (·.num == n)
    = (t.chan? n).map fun r => if c = some r.num then { r with state := .draining (t.now + 50) } else r := by
  unfold drainedFrom State.chan?
  rw [List.find?_map]
  congr 2
  funext r
  simp only [Function.comp]
  split <;> rfl

theorem Drains.of_drained {now : Nat} (h : Drains n now t) {c : Option Nat} (hc : u.sched.channels = drainedFrom t c)
    (hn : u.now = t.now) : Drains n now u where
  off := hc ▸ off_drainedFrom h.off c
  state := by
    unfold State.chan?
    rw [hc, find_drainedFrom]
    have hs := h.state
    cases hf : t.chan? n with
    | none => rw [hf] at hs; cases hs
    | some r =>
      rw [hf] at hs
      simp only [Option.map_some, Option.some.injEq] at hs ⊢
      split
      · rw [h.now]
      · exact hs
  now := hn.trans h.now

theorem Drains.suspendBay {now : Nat} (h : Drains n now t) (c : Nat) : Drains n now (t.suspendBay c) := by
  unfold State.suspendBay
  split
  · exact h
  · split
    · exact h.of_drained (by rw [suspendJob_eq]) (by rw [suspendJob_eq])
    · exact h

theorem stable_drains (n now : Nat) : Stable (Drains n now) where
  grant t g h := h.of_channels (by rw [writeGrant_sched]) (kept_writeGrant t g).cart.now
  idle t c h := h.of_channels (by rw [writeNoDemand_sched]) (kept_writeNoDemand t c).cart.now
  alloc _ _ h := h.of_channels rfl rfl
  work _ _ h := h.of_channels rfl rfl
  suspend _ c h := h.suspendBay c
  units _ _ h := h.of_channels rfl rfl
  post _ _ h := h.of_channels rfl rfl

/-- An admission takes an enabled channel, so none numbered `n`. -/
theorem Drains.takeChannel {now : Nat} (h : Drains n now t) {c : Channel} (hf : t.freeChannel = some c) (i : Job) :
    Drains n now (t.takeChannel i c) := by
  have hc : c.num ≠ n := by
    intro he
    have ho := h.off c (List.mem_of_find?_eq_some hf) he
    have hs := List.find?_some hf
    rw [ho] at hs
    cases hs
  have hl : (t.takeChannel i c).sched.channels
      = t.sched.channels.map fun r => if r.num = c.num then { r with state := .assigned i.bay i.tag } else r := rfl
  refine ⟨?_, ?_, h.now⟩
  · intro q hq hn
    rw [hl] at hq
    obtain ⟨p, hp, rfl⟩ := List.mem_map.1 hq
    split at hn <;> split
    all_goals exact h.off p hp hn
  · unfold State.chan?
    rw [hl, List.find?_map, ← h.state]
    have hp : ((·.num == n) ∘ fun r : Channel => if r.num = c.num then { r with state := .assigned i.bay i.tag } else r)
        = (·.num == n) := by
      funext r
      simp only [Function.comp]
      split <;> rfl
    rw [hp]
    show ((t.chan? n).map _).map _ = _
    cases hr : t.chan? n with
    | none => rfl
    | some r =>
      have hn : r.num = n := by simpa using List.find?_some hr
      simp only [Option.map_some]
      rw [if_neg (by rw [hn]; exact hc.symm)]

theorem Drains.settle {now : Nat} (h : Drains n now u) : (u.settle.chan? n).map (·.state) = some (.draining (u.settle.now + 50)) := by
  have hd := stable_drains n now
  have hw : Drains n now u.payWork := hd.payWork (fun t i => hd.scanJob (fun why h => h.of_drained (by rw [endJob_eq])
    (by rw [endJob_eq])) (fun _ h => h.of_channels rfl rfl) fun t c hf h => h.takeChannel hf i) h
  have hs := hd.driversTake hw
  rw [(kept_settle u).cart.now, h.now, ← hs.state]
  unfold State.chan?
  rw [sched_of_settle]

/-! ## The suspension as a whole -/

/-- In an event begun in `s`, job `j` has been suspended. -/
structure Suspended (s : State) (j : Job) (inel : Prop) (u : State) : Prop where
  passed : Passed s j.suspended inel u
  still : ∃ c, (c = postedCall s j.bay (pauseCall j) ∨ (s.hasBay j.bay = false ∧ c = none))
    ∧ Still j.bay { s.bay j.bay with lane := tellLane j.tag c (s.bay j.bay).lane } u
  drains : ∀ n, j.channel = some n → (s.chan? n).isSome = true → Drains n s.now u
  event : s.hasBay j.bay = true → (u.bay j.bay).events.getLsbD 6 = true

variable {inel : Prop}

theorem stable_suspended (s : State) (j : Job) (inel : Prop) : Stable (Suspended s j inel) := by
  have hp := stable_passed s j.suspended inel
  have he {t u : State} (h : Suspended s j inel t) (k : Kept t u) (hb : s.hasBay j.bay = true) :
      (u.bay j.bay).events.getLsbD 6 = true := events_of_sameBay (k.bays _) (h.event hb)
  have hst {t u : State} (h : Suspended s j inel t)
      (f : ∀ r, Still j.bay r t → Still j.bay r u) : ∃ c, (c = postedCall s j.bay (pauseCall j) ∨ (s.hasBay j.bay = false ∧ c = none))
        ∧ Still j.bay { s.bay j.bay with lane := tellLane j.tag c (s.bay j.bay).lane } u :=
    h.still.imp fun c hc => ⟨hc.1, f _ hc.2⟩
  have hd {t u : State} (h : Suspended s j inel t) (f : ∀ n, Drains n s.now t → Drains n s.now u) (n : Nat) (hn : j.channel = some n)
      (hc : (s.chan? n).isSome = true) : Drains n s.now u := f n (h.drains n hn hc)
  exact {
    grant := fun t g h => ⟨hp.grant t g h.passed, hst h fun r => (stable_still _ r).grant t g,
      hd h fun n => (stable_drains n _).grant t g, he h (kept_writeGrant t g)⟩
    idle := fun t c h => ⟨hp.idle t c h.passed, hst h fun r => (stable_still _ r).idle t c,
      hd h fun n => (stable_drains n _).idle t c, he h (kept_writeNoDemand t c)⟩
    alloc := fun t a h => ⟨hp.alloc t a h.passed, hst h fun r => (stable_still _ r).alloc t a,
      hd h fun n => (stable_drains n _).alloc t a, h.event⟩
    work := fun t w h => ⟨hp.work t w h.passed, hst h fun r => (stable_still _ r).work t w,
      hd h fun n => (stable_drains n _).work t w, h.event⟩
    suspend := fun t c h => ⟨hp.suspend t c h.passed, hst h fun r => (stable_still _ r).suspend t c,
      hd h fun n => (stable_drains n _).suspend t c, he h (kept_suspendBay t c)⟩
    units := fun t l h => ⟨hp.units t l h.passed, hst h fun r => (stable_still _ r).units t l,
      hd h fun n => (stable_drains n _).units t l, h.event⟩
    post := fun t c h => ⟨hp.post t c h.passed, hst h fun r => (stable_still _ r).post t c,
      hd h fun n => (stable_drains n _).post t c, he h (Kept.post t c .latch)⟩ }

theorem jobSuspended_settle (hq : s.lanesQuiet = true) (h : Suspended s j inel u) : JobSuspended s u.settle j inel where
  back hp := passed_settle (k := j.suspended) hp ⟨rfl, rfl, rfl, rfl⟩ h.passed
  calls := by
    obtain ⟨c, hc, hs⟩ := h.still
    refine stopPosted_settle hq (fun call hcall => ?_) hc hs
    split at hcall
    · cases hcall
      rfl
    · cases hcall
  drains n c hn hc := (h.drains n hn (by rw [hc]; rfl)).settle
  event hb := events_of_sameBay ((kept_settle u).bays _) (h.event hb)

/-! ## The suspension itself -/

/-- In an event begun in `s`, job `j` is still on its channel, which is disabled. -/
structure Assigned (s : State) (j : Job) (inel : Prop) (u : State) : Prop where
  job : u.jobOf j.bay = some j
  only : u.onlyJob j
  bay : u.bay j.bay = s.bay j.bay
  named : u.hasBay j.bay = s.hasBay j.bay
  shows : Shows j.bay s u
  taken : inel → Taken u
  off : ∀ n, j.channel = some n → ∀ q ∈ u.sched.channels, q.num = n → q.enabled = false
  there : ∀ n, j.channel = some n → (s.chan? n).isSome = true → (u.chan? n).isSome = true
  now : u.now = s.now

/-- The jobs after a suspension: the suspended one and those that had not its tag. -/
theorem mem_jobs_suspendJob {i : Job} (hi : i ∈ (u.suspendJob j).jobs) : i = j.suspended ∨ (i ∈ u.jobs ∧ i.tag ≠ j.tag) := by
  have hf {l : List Job} (h : i ∈ l.filter (·.tag != j.tag)) : i ∈ l ∧ i.tag ≠ j.tag := by simpa using h
  rw [suspendJob_eq] at hi
  rcases List.mem_append.1 hi with hi | hi
  · exact .inr ⟨List.mem_append_left _ (hf hi).1, (hf hi).2⟩
  · rcases mem_insertFront hi with rfl | hi
    exacts [.inl rfl, .inr ⟨List.mem_append_right _ (hf hi).1, (hf hi).2⟩]

theorem Assigned.suspended (h : Assigned s j inel u) : Suspended s j inel (u.suspendJob j) := by
  obtain ⟨c, hc, hl, hx⟩ := bay_tell (s := u) (b := j.bay) (tag := j.tag)
    (f := suspendedBay j (postedCall u j.bay (pauseCall j))) (fun _ => rfl) (fun _ => rfl) fun _ => rfl
  have hb : (u.suspendJob j).bay j.bay = (u.updBay j.bay (suspendedBay j (postedCall u j.bay (pauseCall j)))).bay j.bay := by
    rw [suspendJob_eq]
    rfl
  have hpost : postedCall u j.bay (pauseCall j) = postedCall s j.bay (pauseCall j) := by
    unfold postedCall
    rw [h.bay]
  have honly (i : Job) (hi : i ∈ (u.suspendJob j).jobs) (hk : i.bay = j.bay ∨ i.tag = j.tag) : i = j.suspended :=
    (mem_jobs_suspendJob hi).resolve_right fun hi' => hi'.2 (by rw [h.only.2 i hi'.1 hk])
  refine ⟨⟨⟨?_, honly, rfl⟩, ?_, ?_⟩, ⟨c, ?_, Still.start ?_ ?_ (.inr fun i hi hk => ?_)⟩, ?_, ?_⟩
  · rw [suspendJob_eq]
    exact (insertFront_perm _ _ _).mem_iff.2 (List.mem_cons_self ..)
  · refine h.shows.of_bay ?_ ?_ (by show ((u.suspendJob j).bay j.bay).sess = (u.bay j.bay).sess; rw [hb, hx])
    all_goals rw [suspendJob_eq]
  · exact fun hin => (h.taken hin).of_drained (by rw [suspendJob_eq])
  · rw [← hpost, ← h.named]
    exact hc
  · rw [hb, hl, h.bay]
  · rw [hb, hx, h.bay]
  · rw [honly i hi (.inl hk)]
    rfl
  · intro n hn hs
    have hch : (u.suspendJob j).sched.channels = drainedFrom u j.channel := by rw [suspendJob_eq]
    refine ⟨hch ▸ off_drainedFrom (h.off n hn) _, ?_, by rw [suspendJob_eq]; exact h.now⟩
    unfold State.chan?
    rw [hch, find_drainedFrom, hn]
    obtain ⟨r, hr⟩ := Option.isSome_iff_exists.1 (h.there n hn hs)
    have hrn : r.num = n := by simpa using List.find?_some hr
    rw [hr, Option.map_some, if_pos (by rw [hrn]), h.now]
    rfl
  · intro hs
    rw [hb, bay_updBay_eq u j.bay (suspendedBay j _) (fun _ => rfl) (h.named.trans hs)]
    show ((u.bay j.bay).events ||| 0x40#10).getLsbD 6 = true
    rw [BitVec.getLsbD_or]
    simp

/-- Another job's suspension. -/
theorem Assigned.suspendOther (h : Assigned s j inel u) {i : Job} (hi : i ∈ u.jobs) (hb : i.bay ≠ j.bay) :
    Assigned s j inel (u.suspendJob i) := by
  have ht : i.tag ≠ j.tag := fun he => hb (by rw [h.only.2 i hi (.inr he)])
  have hbay : (u.suspendJob i).bay j.bay = u.bay j.bay := suspendJob_bay_ne hb.symm
  have hj : j ∈ (u.suspendJob i).jobs := by
    rw [suspendJob_eq]
    rcases List.mem_append.1 h.only.1 with hm | hm
    · exact List.mem_append_left _ (mem_filter_tag hm ht.symm)
    · exact List.mem_append_right _ ((insertFront_perm _ _ _).mem_iff.2 (List.mem_cons_of_mem _ (mem_filter_tag hm ht.symm)))
  have honly (x : Job) (hx : x ∈ (u.suspendJob i).jobs) (hk : x.bay = j.bay ∨ x.tag = j.tag) : x = j := by
    rcases mem_jobs_suspendJob hx with rfl | ⟨hx, _⟩
    · rcases hk with hk | hk
      exacts [absurd hk hb, absurd hk ht]
    · exact h.only.2 x hx hk
  have hch : (u.suspendJob i).sched.channels = drainedFrom u i.channel := by rw [suspendJob_eq]
  refine ⟨?_, ⟨hj, honly⟩, hbay.trans h.bay, ?_, h.shows.of_bay ?_ ?_ (by rw [hbay]), ?_, ?_, ?_, ?_⟩
  · obtain ⟨x, hx⟩ := Option.ne_none_iff_exists'.1 (jobOf_ne_none hj)
    rw [hx, honly x (jobOf_mem hx) (.inl (jobOf_bay hx))]
  · rw [← h.named, suspendJob_eq]
    exact hasBay_updBay u i.bay (f := suspendedBay i _) (fun _ => rfl) j.bay
  · rw [suspendJob_eq]
  · rw [suspendJob_eq]
  · exact fun hin => (h.taken hin).of_drained hch
  · exact fun n hn => hch ▸ off_drainedFrom (h.off n hn) _
  · intro n hn hs
    unfold State.chan?
    rw [hch, find_drainedFrom, Option.isSome_map]
    exact h.there n hn hs
  · rw [suspendJob_eq]
    exact h.now

theorem Assigned.askScan (h : Assigned s j inel u) : Assigned s j inel u.askScan := by
  unfold State.askScan
  split
  · exact ⟨h.job, h.only, h.bay, h.named, ⟨h.shows.mode, h.shows.catalog, h.shows.sess⟩, h.taken, h.off, h.there, h.now⟩
  · exact h

/-- A suspension that reaches a bay: the job of `j`'s bay is `j`. -/
theorem Assigned.suspendBay (h : Assigned s j inel u) (ha : j.state.onChannel = true) (c : Nat) :
    (c ≠ j.bay ∧ Assigned s j inel (u.suspendBay c))
      ∨ (c = j.bay ∧ u.suspendBay c = u.suspendJob j ∧ Suspended s j inel (u.suspendBay c)) := by
  by_cases hc : c = j.bay
  · rw [hc, suspendBay_some h.job ha]
    exact .inr ⟨rfl, rfl, h.suspended⟩
  · refine .inl ⟨hc, ?_⟩
    unfold State.suspendBay
    split
    · exact h
    · rename_i i hi
      split
      · exact h.suspendOther (jobOf_mem hi) fun hb => hc ((jobOf_bay hi).symm.trans hb)
      · exact h

end Sys2Proof.Dock
end

