-- ==== Sys2Proof/Proofs/AsksAndChannels.lean ====
section
/-! PROOF. DECLINE_ASK and SET_CHANNELS (R116, R118, R127). -/

namespace Sys2Proof.Dock

open Machine Laws

variable {s t u : State} {b n : Nat} {j : Job} {inel : Prop}

/-! ## Flags and asks start no call (R29) -/

/-- `r'` differs from `r` in its session, but for the state and the status, in its event set and in the flags of its lane. -/
def Reflagged (r r' : Bay) : Prop :=
  Edited r r' ∧ r'.sess.state = r.sess.state
    ∧ ∃ d f a, r'.lane = { r.lane with hubDefer := d, hubRefuse := f, autoDefer := a }

theorem Reflagged.refl (r : Bay) : Reflagged r r := ⟨Edited.refl r, rfl, _, _, _, rfl⟩

theorem chooseCall_flags (s : State) (b : Nat) (l : Lane) (d f a : Bool) :
    (s.chooseCall b { l with hubDefer := d, hubRefuse := f, autoDefer := a }).isSome = (s.chooseCall b l).isSome := by
  unfold State.chooseCall
  dsimp only
  split <;> try rfl
  split
  · rfl
  · split <;> rfl

theorem laneNext_flags (s : State) (b : Nat) (st : SessState) (l : Lane) (d f a : Bool) :
    (s.laneNext b st { l with hubDefer := d, hubRefuse := f, autoDefer := a }).isSome = (s.laneNext b st l).isSome := by
  by_cases h : st ≠ .off ∧ st ≠ .asleep ∧ st ≠ .waking
  · rw [laneNext_calls _ _ h, laneNext_calls _ _ h]
    exact chooseCall_flags s b l d f a
  · rcases (by tauto : st = .off ∨ st = .asleep ∨ st = .waking) with rfl | rfl | rfl
    · rfl
    · rfl
    · unfold State.laneNext
      dsimp only
      split <;> rfl

/-- Such a change leaves nothing for the end of the event. -/
theorem inner_reflagged (hi : inner s) {f : Bay → Bay} (hf : ∀ r, Reflagged r (f r)) :
    inner { s with bays := s.bays.map f } := by
  obtain ⟨hw, hd, hl, hi, hm⟩ := hi
  refine ⟨hw, hd, ?_, lampsRight_edited hi fun r _ => (hf r).1, limitsRight_edited hm fun r _ => (hf r).1⟩
  unfold State.lanesQuiet at *
  rw [List.all_eq_true] at *
  intro r' hr'
  obtain ⟨r, hr, rfl⟩ := List.mem_map.1 hr'
  obtain ⟨hed, hst, d, f, a, hla⟩ := hf r
  have := hl r hr
  rw [hst, hla, laneNext_flags, laneNext_isSome _ s _ r.num]
  exact this

theorem settle_reflagged (hi : inner s) {f : Bay → Bay} (hf : ∀ r, Reflagged r (f r)) : (s.updBay b f).settle = s.updBay b f :=
  settle_of_inner (inner_reflagged hi (f := fun r => if r.num = b then f r else r) fun r => by
    split
    exacts [hf r, Reflagged.refl r])

/-! ## DECLINE_ASK (R116) -/

/-- The JOB ask of the bay refused by the hub. -/
def declined (r : Bay) : Bay :=
  { r with
    sess := { r.sess with ask := r.sess.ask.map fun a => { a with reply := .refuse, decided := true } }
    lane := { r.lane with autoDefer := false } }

theorem hubReply_refuse {a : Ask} (h : (s.bay b).sess.ask = some a) (hk : a.kind = .job) :
    s.hubReply b .refuse = s.updBay b declined := by
  unfold State.hubReply
  simp only [h, hk]
  exact updBay_updBay s b _ _ fun _ => rfl

theorem decideDeclineAsk_none {p : Bytes} (hp : p.length = 1) (hb : s.names (byteAt p 0) = true)
    (h : (s.bay (byteAt p 0)).sess.ask = none) : decideDeclineAsk p s = s.deny .state := by
  unfold decideDeclineAsk
  rw [sized_right (by rw [hp]; rfl)]
  dsimp only
  rw [onBay_named ((names_iff s _).1 hb).1]
  simp only [h]

theorem decideDeclineAsk_some {p : Bytes} (hp : p.length = 1) (hb : s.names (byteAt p 0) = true) {a : Ask}
    (h : (s.bay (byteAt p 0)).sess.ask = some a) : decideDeclineAsk p s
      = if a.kind = .job then (s.updBay (byteAt p 0) declined).accept [] else s.deny .state := by
  unfold decideDeclineAsk
  rw [sized_right (by rw [hp]; rfl)]
  dsimp only
  rw [onBay_named ((names_iff s _).1 hb).1]
  simp only [h]
  cases hk : a.kind with
  | profile => rfl
  | job =>
    rw [if_pos rfl, ← hubReply_refuse h hk]

theorem declineAsk_replies {tag : Byte} {p : Bytes} (hq : s.quiet = true) (hl : s.listening = true) (hc : s.committed = true)
    (hp : p.length = 1) (hb : s.names (byteAt p 0) = true) :
    match (s.bay (byteAt p 0)).sess.ask with
    | none => Replies (.declineAsk tag p) s 0x44#8 tag [0x0C#8] s
    | some a =>
      if a.kind = .job then Replies (.declineAsk tag p) s 0x44#8 tag [0x00#8] (s.updBay (byteAt p 0) declined)
      else Replies (.declineAsk tag p) s 0x44#8 tag [0x0C#8] s := by
  have hlen : p.length ≤ 512 := by omega
  split
  · rename_i ha
    exact replies_request (k := .declineAsk) (l := .ofInputs s.pins) hl hlen (.inr hc) rfl
      (decideDeclineAsk_none (s := taken s) hp hb ha) rfl (taken_sameButOutput s)
  · rename_i a ha
    have hd := decideDeclineAsk_some (s := taken s) hp hb ha
    split
    · rename_i hk
      rw [if_pos hk] at hd
      refine replies_request (k := .declineAsk) (l := .ofInputs s.pins) hl hlen (.inr hc) rfl hd ?_ ?_
      · rw [settle_hub]
        rfl
      · rw [settle_reflagged (f := declined) (inner_taken hq) fun r => ⟨⟨_, _, _, rfl, rfl⟩, rfl, _, _, _, rfl⟩]
        rfl
    · rename_i hk
      rw [if_neg hk] at hd
      exact replies_request (k := .declineAsk) (l := .ofInputs s.pins) hl hlen (.inr hc) rfl hd rfl (taken_sameButOutput s)

/-! ## SET_CHANNELS (R118) -/

/-- The channels with their flags as `on` has them. -/
def flagged (s : State) (on : Channel → Bool) : State :=
  { s with sched := { s.sched with channels := s.sched.channels.map fun (c : Channel) => { c with enabled := on c } } }

/-- The channels of the list, switched one after another. -/
def switched (on : Channel → Bool) (l : List Channel) (s : State) : State := l.foldl (fun s c => s.channelSwitched c (on c)) s

theorem channelSwitched_cases (s : State) (c : Channel) (on : Bool) :
    s.channelSwitched c on = s ∨ (c.enabled ≠ on ∧ on = true ∧ s.channelSwitched c on = s.askScan)
      ∨ ∃ b, s.channelSwitched c on = s.suspendBay b := by
  unfold State.channelSwitched
  split
  · exact .inl rfl
  · split
    · split
      exacts [.inr (.inl ⟨‹_›, ‹_›, rfl⟩), .inl rfl]
    · split
      exacts [.inl rfl, .inr (.inr ⟨_, rfl⟩)]
    · exact .inl rfl

theorem channelSwitched_off {c : Channel} (he : c.enabled = true) {tag : Nat} (hc : c.state = .assigned b tag) :
    s.channelSwitched c false = s.suspendBay b := by
  unfold State.channelSwitched
  rw [if_neg (by rw [he]; simp), hc]
  rfl

/-- A predicate through a fold. -/
theorem foldl_keeps {α : Type} {P : State → Prop} {f : State → α → State} (h : ∀ s x, P s → P (f s x)) :
    ∀ (l : List α) (s : State), P s → P (l.foldl f s)
  | [], _, hs => hs
  | x :: l, s, hs => foldl_keeps h l _ (h s x hs)

/-- A fold that turns `A` to `B` at `x`, if it has not done so before. -/
theorem foldl_turns {α : Type} {A B : State → Prop} {f : State → α → State} (ha : ∀ s x, A s → A (f s x) ∨ B (f s x))
    (hb : ∀ s x, B s → B (f s x)) {x : α} (hx : ∀ s, A s → B (f s x)) :
    ∀ (l : List α), x ∈ l → ∀ {s : State}, A s → B (l.foldl f s)
  | y :: l, hl, s, hs => by
    rcases List.mem_cons.1 hl with rfl | hl
    · exact foldl_keeps hb l _ (hx s hs)
    · rcases ha s y hs with h | h
      exacts [foldl_turns ha hb hx l hl h, foldl_keeps hb l _ h]

theorem kept_switched (on : Channel → Bool) (l : List Channel) (s : State) : Kept s (switched on l s) :=
  foldl_keeps (P := Kept s) (fun t c h => by
    rcases channelSwitched_cases t c (on c) with he | ⟨_, _, he⟩ | ⟨b, he⟩ <;> rw [he]
    exacts [h, h.trans (Kept.askScan t), h.trans (kept_suspendBay t b)]) l s (Kept.refl s)

theorem switched_alloc (on : Channel → Bool) (l : List Channel) (s : State) : (switched on l s).alloc = s.alloc :=
  foldl_keeps (P := fun t => t.alloc = s.alloc) (fun t c h => by
    rcases channelSwitched_cases t c (on c) with he | ⟨_, _, he⟩ | ⟨b, he⟩ <;> rw [he]
    exacts [h, (askScan_alloc t).trans h, (suspendBay_alloc t b).trans h]) l s rfl

theorem suspendBay_scan (s : State) (b : Nat) : (s.suspendBay b).work.scan = s.work.scan := by
  unfold State.suspendBay
  split
  · rfl
  · split
    · rw [suspendJob_eq]
      dsimp only
      unfold State.askNormal
      split <;> rfl
    · rfl

/-- No channel newly enabled, no scan (R119). -/
theorem switched_scan {on : Channel → Bool} : ∀ (l : List Channel), (∀ q ∈ l, on q = true → q.enabled = true) → ∀ (s : State),
    (switched on l s).work.scan = s.work.scan
  | [], _, _ => rfl
  | c :: l, h, s => by
    refine (switched_scan l (fun q hq => h q (List.mem_cons_of_mem _ hq)) (s.channelSwitched c (on c))).trans ?_
    rcases channelSwitched_cases s c (on c) with he | ⟨hne, hon, _⟩ | ⟨b, he⟩
    · rw [he]
    · exact absurd ((h c (List.mem_cons_self ..) hon).trans hon.symm) hne
    · rw [he]
      exact suspendBay_scan s b

/-- Every flag as it was: nothing happens. -/
theorem switched_same {on : Channel → Bool} : ∀ (l : List Channel), (∀ q ∈ l, q.enabled = on q) → ∀ (s : State),
    switched on l s = s
  | [], _, _ => rfl
  | c :: l, h, s => by
    have hc : s.channelSwitched c (on c) = s := if_pos (h c (List.mem_cons_self ..))
    unfold switched
    rw [List.foldl_cons, hc]
    exact switched_same l (fun q hq => h q (List.mem_cons_of_mem _ hq)) s

/-! ## The job of a channel that is switched off -/

/-- The event owes at most one normal pass. -/
def OneNormal (t : State) : Prop := t.work.passes = [] ∨ t.work.passes = [.normal]

theorem suspendJob_passes (hc : t.committed = true) (h : OneNormal t) (i : Job) : (t.suspendJob i).work.passes = [.normal] := by
  rw [suspendJob_eq]
  dsimp only
  rcases h with h | h
  · exact congrArg Work.passes (askNormal_passes (s := { t with work := { t.work with returned := i.tag :: t.work.returned } }) hc h)
  · unfold State.askNormal
    rw [if_neg (by rw [h]; simp)]
    exact h

theorem askScan_passes (t : State) : t.askScan.work.passes = t.work.passes := by
  unfold State.askScan
  split <;> rfl

theorem suspendBay_passes (hc : t.committed = true) (h : OneNormal t) (c : Nat) :
    (t.suspendBay c).work.passes = t.work.passes ∨ (t.suspendBay c).work.passes = [.normal] := by
  unfold State.suspendBay
  split
  · exact .inl rfl
  · split
    exacts [.inr (suspendJob_passes hc h _), .inl rfl]

theorem committed_of_geo (h : t.geo = s.geo) (hc : s.committed = true) : t.committed = true := by
  unfold State.committed at *
  rwa [h]

/-- In an event begun in `s`, the switches leave job `j` on its channel so far. -/
def Unswitched (s : State) (j : Job) (inel : Prop) (t : State) : Prop := Assigned s j inel t ∧ t.geo = s.geo ∧ OneNormal t

/-- They have suspended it. -/
def SwitchedOff (s : State) (j : Job) (inel : Prop) (t : State) : Prop :=
  Suspended s j inel t ∧ t.geo = s.geo ∧ t.work.passes = [.normal]

theorem SwitchedOff.step (hc : s.committed = true) (h : SwitchedOff s j inel t) (c : Channel) (on : Bool) :
    SwitchedOff s j inel (t.channelSwitched c on) := by
  obtain ⟨h, hg, hp⟩ := h
  have hs := stable_suspended s j inel
  rcases channelSwitched_cases t c on with he | ⟨_, _, he⟩ | ⟨b, he⟩ <;> rw [he]
  · exact ⟨h, hg, hp⟩
  · exact ⟨hs.askScan h, (Kept.askScan t).cart.geo.trans hg, (askScan_passes t).trans hp⟩
  · refine ⟨hs.suspend t b h, (kept_suspendBay t b).cart.geo.trans hg, ?_⟩
    rcases suspendBay_passes (committed_of_geo hg hc) (.inr hp) b with h' | h'
    exacts [h'.trans hp, h']

theorem Unswitched.suspendBay (hc : s.committed = true) (ha : j.state.onChannel = true) (h : Unswitched s j inel t) (b : Nat) :
    (b ≠ j.bay ∧ Unswitched s j inel (t.suspendBay b)) ∨ (b = j.bay ∧ SwitchedOff s j inel (t.suspendBay b)) := by
  obtain ⟨h, hg, hp⟩ := h
  have hg' := (kept_suspendBay t b).cart.geo.trans hg
  have hc' := committed_of_geo hg hc
  rcases h.suspendBay ha b with ⟨hb, h'⟩ | ⟨hb, he, h'⟩
  · refine .inl ⟨hb, h', hg', ?_⟩
    rcases suspendBay_passes hc' hp b with hw | hw
    · rcases hp with hp | hp
      exacts [.inl (hw.trans hp), .inr (hw.trans hp)]
    · exact .inr hw
  · exact .inr ⟨hb, h', hg', he ▸ suspendJob_passes hc' hp j⟩

theorem Unswitched.step (hc : s.committed = true) (ha : j.state.onChannel = true) (h : Unswitched s j inel t) (c : Channel)
    (on : Bool) : Unswitched s j inel (t.channelSwitched c on) ∨ SwitchedOff s j inel (t.channelSwitched c on) := by
  rcases channelSwitched_cases t c on with he | ⟨_, _, he⟩ | ⟨b, he⟩ <;> rw [he]
  · exact .inl h
  · obtain ⟨h, hg, hp⟩ := h
    refine .inl ⟨h.askScan, (Kept.askScan t).cart.geo.trans hg, ?_⟩
    unfold OneNormal
    rw [askScan_passes]
    exact hp
  · rcases h.suspendBay hc ha b with ⟨_, h⟩ | ⟨_, h⟩
    exacts [.inl h, .inr h]

/-- Every job whose channel is switched off is suspended. -/
theorem switchedOff_switched (hc : s.committed = true) (ha : j.state.onChannel = true) {on : Channel → Bool} {c : Channel} {tag : Nat}
    (hs : c.state = .assigned j.bay tag) (he : c.enabled = true) (hon : on c = false) {l : List Channel} (hl : c ∈ l)
    (h : Unswitched s j inel t) : SwitchedOff s j inel (switched on l t) :=
  foldl_turns (fun _ x h => h.step hc ha x (on x)) (fun _ x h => h.step hc x (on x)) (x := c) (fun t h => by
    rw [hon, channelSwitched_off he hs]
    rcases h.suspendBay hc ha j.bay with ⟨hb, _⟩ | ⟨_, h⟩
    exacts [absurd rfl hb, h]) l hl h

theorem SwitchedOff.normalTaken (hc : s.committed = true) (h : SwitchedOff s j inel u) (ha : u.alloc = s.alloc)
    (hs : u.work.scan = false) : s.normalTaken u.settle :=
  normalTaken_of_alloc ha.symm h.2.1.symm (normalTaken_settle (committed_of_geo h.2.1 hc) h.2.2 hs)

theorem unswitched_flagged {on : Channel → Bool} (hn : ∀ q r : Channel, q.num = r.num → on q = on r) {c : Channel}
    (hi : s.work = Work.none) (hon : on c = false) (hj : s.jobOf j.bay = some j) (ho : s.onlyJob j) (hch : j.channel = some c.num) :
    Unswitched s j (∀ q ∈ s.sched.channels, q.state = .idle → on q = false) (flagged (taken s) on) where
  left := {
    job := hj, only := ho, bay := rfl, named := rfl, now := rfl
    shows := ⟨rfl, rfl, .inl rfl⟩
    taken := fun hin q hq he hi => by
      obtain ⟨r, hr, rfl⟩ := List.mem_map.1 hq
      rw [hin r hr hi] at he
      cases he
    off := fun n hjn q hq hqn => by
      obtain ⟨r, hr, rfl⟩ := List.mem_map.1 hq
      rw [hch] at hjn
      cases hjn
      exact (hn r c hqn).trans hon
    there := fun n _ hs => by
      unfold State.chan? flagged at *
      rw [List.find?_map, Option.isSome_map]
      exact hs }
  right := ⟨rfl, .inl (congrArg Work.passes hi)⟩

theorem decideSetChannels_bad {p : Bytes} (hp : p.length = 1) (h : p.headD 0#8 >>> s.sched.channels.length ≠ 0#8) :
    decideSetChannels p s = s.deny .badValue := by
  unfold decideSetChannels
  rw [sized_right (by rw [hp]; rfl)]
  exact if_pos h

theorem decideSetChannels_good {p : Bytes} (hp : p.length = 1) (h : ¬ p.headD 0#8 >>> s.sched.channels.length ≠ 0#8)
    {on : Channel → Bool} (hon : on = fun c => (p.headD 0#8).getLsbD (c.num - 1)) :
    decideSetChannels p s = (switched on s.sched.channels (flagged s on)).accept [] := by
  unfold decideSetChannels
  rw [sized_right (by rw [hp]; rfl), hon]
  exact if_neg h

theorem jobSuspended_output (h : t.sameButOutput u) (hj : JobSuspended s u j inel) : JobSuspended s t j inel := by
  refine ⟨fun hp => (jobOf_output h _).trans (hj.back hp), stopPosted_output h hj.calls, fun n c hn hc => ?_, fun hb => ?_⟩
  · have := hj.drains n c hn hc
    obtain ⟨_, _, _, _, _, _, rfl⟩ := exists_output h
    exact this
  · rw [bay_output h]
    exact hj.event hb

/-- Settles O28: the hub's refusal of a JOB ask, and the channels' flags with the jobs they suspend. -/
theorem asksAndChannelsFollowHub : Obligations.AsksAndChannelsFollowHub := by
  intro s tag p hq hl hc hp
  have hlen : p.length ≤ 512 := by omega
  refine ⟨fun hb => declineAsk_replies hq hl hc hp hb, ?_⟩
  split
  · rename_i hm
    exact replies_request (k := .setChannels) (l := .ofInputs s.pins) hl hlen (.inr hc) rfl
      (decideSetChannels_bad (s := taken s) hp hm) rfl (taken_sameButOutput s)
  · rename_i hm
    intro on flags
    have hfk := kept_switched on s.sched.channels (flagged (taken s) on)
    have hd : decideKind .setChannels p (.ofInputs s.pins) (taken s)
        = (switched on s.sched.channels (flagged (taken s) on)).accept [] := decideSetChannels_good (s := taken s) hp hm rfl
    obtain ⟨t, ht, ha, hs⟩ := decides_request (c := .setChannels tag p) hl hlen (.inr hc) rfl hd (by
      rw [settle_hub, hfk.hub]
      rfl)
    refine ⟨t, ht, ha, ?_, fun hf => ?_, fun c j hch he hon hst hj ho hoc hjc => ?_⟩
    · have h0 : SameBut (flagged s on) (flagged (taken s) on) := sameBut_output rfl
      exact (h0.trans (hfk.trans (kept_settle _)).same).trans (sameBut_output hs)
    · have hen : ∀ q ∈ s.sched.channels, q.enabled = on q := fun q hq => by
        have hid : ∀ q ∈ s.sched.channels, ({ q with enabled := on q } : Channel) = id q :=
          List.map_inj_left.1 (hf.trans (List.map_id _).symm)
        exact (congrArg Channel.enabled (hid q hq)).symm
      have hfl : flagged (taken s) on = taken s := by
        show ({ taken s with sched := { s.sched with channels := flags } } : State) = taken s
        rw [hf]
        rfl
      refine sameButOutput_trans hs ?_
      rw [switched_same _ hen, hfl, settle_of_inner (inner_taken hq)]
      rfl
    · have hnum (q r : Channel) (h : q.num = r.num) : on q = on r := congrArg (fun n => (p.headD 0#8).getLsbD (n - 1)) h
      have hu := switchedOff_switched hc hoc hst he hon (List.mem_of_find?_eq_some hch)
        (unswitched_flagged hnum (quiet_inner hq).1 hon hj ho hjc)
      exact ⟨jobSuspended_output hs (jobSuspended_settle (quiet_inner hq).2.2.1 hu.1), fun hno =>
        normalTaken_output hs (hu.normalTaken hc (switched_alloc on _ _)
          ((switched_scan s.sched.channels hno (flagged (taken s) on)).trans (congrArg Work.scan (quiet_inner hq).1)))⟩

end Sys2Proof.Dock
end

