-- ==== Sys2Proof/Proofs/AskOwners.lean ====
section
/-! PROOF. What the owner of an ask does when it is consulted (R103, R104, R115), an equation per row of its table. -/

namespace Sys2Proof.Dock

open Machine Laws

variable {s t u : State} {b id : Nat} {j : Job} {a : Ask}

/-! ## A new job (R112 to R114) -/

theorem tagAfter_bounds (t : Nat) : 1 ≤ tagAfter t ∧ tagAfter t ≤ 65535 := by
  unfold tagAfter
  split <;> omega

/-- Fewer than 48 used tags leave one free, from whatever the counter holds. -/
theorem pickTag_free_of_lt {used : List Nat} (hn : used.length < 48) (t : Nat) : pickTag used 49 t ∉ used := by
  unfold pickTag
  split
  · obtain ⟨h1, h2⟩ := tagAfter_bounds t
    rcases (pickTag_spec used 48 (tagAfter t) h1 h2).2 with h | h
    · exact h
    · have hnd : ((List.range 48).map (tagsOn (tagAfter t))).Nodup := by
        refine List.Nodup.map_on (fun i hi j hj he => ?_) List.nodup_range
        simp only [List.mem_range] at hi hj
        unfold tagsOn at he
        omega
      have := (hnd.subperm fun x hx => by
        obtain ⟨i, hi, rfl⟩ := List.mem_map.1 hx
        exact h i (List.mem_range.1 hi)).length_le
      simp only [List.length_map, List.length_range] at this
      omega
  · assumption

theorem freshTag_newTag (h : s.jobs.length < 48) : s.freshTag s.newTag := by
  refine ⟨fun i hi he => ?_, fun h1 h2 => (pickTag_spec _ 49 _ h1 h2).1⟩
  have := pickTag_free_of_lt (used := s.jobs.map (·.tag)) (by rwa [List.length_map]) s.sched.nextTag
  exact this (List.mem_map.2 ⟨i, hi, he⟩)

theorem insertBack_eq (j : Job) : ∀ q : List Job, insertBack j q
    = q.takeWhile (fun (x : Job) => decide (j.priority ≤ x.priority)) ++ [j]
    ++ q.dropWhile (fun (x : Job) => decide (j.priority ≤ x.priority))
  | [] => rfl
  | x :: q => by
    unfold insertBack
    by_cases h : j.priority ≤ x.priority
    · rw [if_pos h, insertBack_eq j q, List.takeWhile_cons_of_pos (by simpa using h), List.dropWhile_cons_of_pos (by simpa using h)]
      rfl
    · rw [if_neg h, List.takeWhile_cons_of_neg (by simpa using h), List.dropWhile_cons_of_neg (by simpa using h)]
      rfl

theorem askScan_work (hg : t.geo = s.geo) (hw : t.work = s.work) : t.askScan.work = s.askScan.work := by
  unfold State.askScan State.committed
  rw [hg, hw]
  split
  exacts [rfl, hw]

theorem createJob_eq (s : State) (b image priority : Nat) (origin : Origin) : s.createJob b image priority origin
    = { s.enqueued (newJob s.newTag b image priority origin) with work := s.askScan.work } := by
  unfold State.createJob
  dsimp only
  rw [insertBack_eq]
  unfold State.askScan State.committed
  dsimp only
  split <;> rfl

/-! ## The scheduler (R115) -/

theorem autoQueues_iff : s.autoQueues b id ↔ ∃ e, s.image? id = some e ∧ e.auto = true ∧ s.wrongModel b e = false := by
  unfold State.autoQueues State.wrongModel
  refine exists_congr fun e => and_congr_right fun _ => and_congr_right fun _ => ?_
  cases (s.bay b).sess.identity with
  | none => simp
  | some i => simp

theorem jobsFull_iff : s.jobsFull = true ↔ 48 ≤ s.jobs.length := decide_eq_true_iff

theorem deferAsk_eq (s : State) (b : Nat) : s.deferAsk b = s.heldForHub b :=
  updBay_updBay (s.replied b .hold) b (fun r => { r with lane := { r.lane with autoDefer := true } })
    (fun r => { r with events := setBit r.events BayEvent.ask.bit }) fun _ => rfl

theorem decideJobAsk_stands (hj : s.jobOf b = some j) (hi : j.image = id) : s.decideJobAsk b id = s.replied b .accept := by
  unfold State.decideJobAsk
  simp only [hj]
  exact if_pos hi

theorem decideJobAsk_held (h : (∃ j, s.jobOf b = some j ∧ j.image ≠ id) ∨ (s.jobOf b = none ∧ ¬ s.autoQueues b id)) :
    s.decideJobAsk b id = s.heldForHub b := by
  rw [← deferAsk_eq]
  unfold State.decideJobAsk
  rcases h with ⟨j, hj, hi⟩ | ⟨hj, hn⟩
  · simp only [hj]
    exact if_neg hi
  · rw [autoQueues_iff] at hn
    cases he : s.image? id with
    | none => simp only [hj]
    | some e =>
      simp only [hj]
      refine if_pos ?_
      by_contra hw
      refine hn ⟨e, he, ?_⟩
      simpa using hw

theorem decideJobAsk_auto (hj : s.jobOf b = none) (h : s.autoQueues b id) : s.decideJobAsk b id
    = if s.jobsFull then (s.deferAsk b).postCart .queueFull else (s.replyAsk b .accept).createJob b id 1 .ask := by
  obtain ⟨e, he, ha, hw⟩ := autoQueues_iff.1 h
  unfold State.decideJobAsk
  simp only [hj, he]
  exact if_neg (by rw [ha, hw]; simp)

theorem decideJobAsk_full (hc : s.committed = true) (hj : s.jobOf b = none) (h : s.autoQueues b id) (hf : 48 ≤ s.jobs.length) :
    s.decideJobAsk b id = { s.heldForHub b with cartEvents := s.cartEvents ||| 4#3 } := by
  rw [decideJobAsk_auto hj h, if_pos (jobsFull_iff.2 hf), deferAsk_eq]
  exact if_pos hc

theorem decideJobAsk_queued (hj : s.jobOf b = none) (h : s.autoQueues b id) (hf : s.jobs.length < 48) : s.decideJobAsk b id
    = { (s.replied b .accept).enqueued (newJob s.newTag b id 1 .ask) with work := s.askScan.work } := by
  rw [decideJobAsk_auto hj h, if_neg fun hj => Nat.not_le.2 hf (jobsFull_iff.1 hj), createJob_eq,
    askScan_work (s := s) (t := s.replyAsk b .accept) rfl rfl]
  rfl

/-! ## The profile store (R103, R104) -/

theorem decideProfileAsk_waits (h : (s.bay b).sess.state ≠ .contracted) : s.decideProfileAsk b id = s := by
  unfold State.decideProfileAsk
  dsimp only
  exact if_pos h

/-- On a CONTRACTED session the ask is accepted where `servable` says so. -/
theorem decideProfileAsk_contracted (h : (s.bay b).sess.state = .contracted) : s.decideProfileAsk b id
    = if s.servable b id then
        match s.readySlot id with
        | none => s.replyAsk b .refuse
        | some k => (s.replyAsk b .accept).startServe b k
      else s.replyAsk b .refuse := by
  have hf : s.hasProfileFeature b = (s.bay b).sess.ability.any fun a => a.features.getLsbD 1 := by
    unfold State.hasProfileFeature
    split <;> rename_i ha <;> rw [ha] <;> rfl
  have hr : (s.store.any fun k => k.state == .ready && k.id == id) = (s.readySlot id).isSome := by
    rw [Bool.eq_iff_iff, List.any_eq_true]
    exact List.find?_isSome.symm
  unfold State.decideProfileAsk State.servable
  dsimp only
  rw [if_neg (fun hn => hn h), hf, hr]
  cases s.readySlot id with
  | none => simp only [ite_self]
  | some k =>
    by_cases hp : (!(s.bay b).enabled || (s.bay b).stage.state == .faulted) = true
    · rw [if_pos hp, if_neg]
      intro h
      simp only [Bool.and_eq_true, bne_iff_ne, ne_eq] at h
      simp [h] at hp
    · simp only [Bool.or_eq_true, Bool.not_eq_true', beq_iff_eq, not_or, Bool.not_eq_false] at hp
      rw [if_neg (by simp [hp])]
      simp only [hp, Bool.and_true, Option.isSome_some, Bool.true_and]
      cases (s.bay b).sess.ability.any fun a => a.features.getLsbD 1 <;> simp [hp]

theorem decideProfileAsk_refused (h : (s.bay b).sess.state = .contracted) (hn : s.servable b id = false) :
    s.decideProfileAsk b id = s.replied b .refuse := by
  rw [decideProfileAsk_contracted h, hn]
  rfl

/-- Where no slot number stands twice, a slot of the store is the one its number finds. -/
theorem slot?_of_mem {k : Slot} (hn : (s.store.map (·.num)).Nodup) (hk : k ∈ s.store) : s.slot? k.num = some k := by
  unfold State.slot?
  revert hn hk
  induction s.store with
  | nil => exact fun _ hk => absurd hk (by simp)
  | cons x l ih =>
    intro hn hk
    obtain ⟨hx, hl⟩ := List.nodup_cons.1 hn
    rcases List.mem_cons.1 hk with rfl | hk
    · exact List.find?_cons_of_pos (by simp)
    · have : x.num ≠ k.num := fun h => hx (List.mem_map.2 ⟨k, hk, h.symm⟩)
      rw [List.find?_cons_of_neg (by simpa using this)]
      exact ih hl hk

theorem slot?_updSlot (s : State) {f : Slot → Slot} (hf : ∀ r, (f r).num = r.num) (n : Nat) :
    (s.updSlot n f).slot? n = (s.slot? n).map f := by
  unfold State.slot? State.updSlot
  rw [List.find?_map]
  have hp : ((·.num == n) ∘ fun r => if r.num = n then f r else r) = (·.num == n) := by
    funext r
    simp only [Function.comp]
    split
    · rw [hf]
    · rfl
  rw [hp]
  cases hk : s.store.find? (·.num == n) with
  | none => rfl
  | some k => exact congrArg some (if_pos (by simpa using List.find?_some hk))

theorem hasBay_of_contracted (h : (s.bay b).sess.state = .contracted) : s.hasBay b = true := by
  unfold State.bay at h
  unfold State.hasBay
  cases hb : s.bay? b with
  | none => rw [hb] at h; cases h
  | some r => rfl

/-- A session whose ask the owner has decided. -/
def asked (reply : Reply) (x : Session) : Session := { x with ask := x.ask.map fun a => { a with reply := reply, decided := true } }

/-- The record of a bay whose serve begins. -/
theorem serveBegun_bay {k : Slot} (hb : s.hasBay b = true) : (s.serveBegun b k).hasBay b = true ∧ (s.serveBegun b k).bay b
    = { s.bay b with sess := asked .accept (s.bay b).sess, serve := some ⟨k.num, 0, k.length, 0, none⟩ } := by
  have hr : (s.replied b .accept).bay b = { s.bay b with sess := (asked .accept (s.bay b).sess) } := updSess_bay hb _
  have hbr : (s.replied b .accept).hasBay b = true :=
    (hasBay_updBay s b (f := fun r => { r with sess := asked .accept r.sess }) (fun _ => rfl) b).trans hb
  have hs : (s.serveBegun b k).bay b = { (s.replied b .accept).bay b with serve := some ⟨k.num, 0, k.length, 0, none⟩ } :=
    bay_updBay_eq (s.replied b .accept) b (fun r => { r with serve := some ⟨k.num, 0, k.length, 0, none⟩ }) (fun _ => rfl) hbr
  refine ⟨?_, by rw [hs, hr]⟩
  exact (hasBay_updBay (s.replied b .accept) b (f := fun r => { r with serve := some ⟨k.num, 0, k.length, 0, none⟩ })
    (fun _ => rfl) b).trans hbr

/-- A serve that starts on a CONTRACTED session posts its first chunk. -/
theorem startServe_eq {k : Slot} (hn : (s.store.map (·.num)).Nodup) (h : (s.bay b).sess.state = .contracted) (hk : k ∈ s.store) :
    (s.replyAsk b .accept).startServe b k = s.serveWaits b k := by
  have hb := hasBay_of_contracted h
  obtain ⟨-, hbay⟩ := serveBegun_bay (k := k) hb
  have hsess : ((s.serveBegun b k).bay b).sess.state = .contracted := by
    rw [hbay]
    exact h
  have hslot : (s.serveBegun b k).slot? k.num = some { k with serves := k.serves + 1 } := by
    refine (slot?_updSlot s (f := fun q => { q with serves := q.serves + 1 }) (fun _ => rfl) k.num).trans ?_
    rw [slot?_of_mem hn hk]
    rfl
  show (s.serveBegun b k).postChunk b = _
  unfold State.postChunk
  simp only [hbay, hslot]
  unfold State.postServe State.postLane
  rw [hsess]
  rfl

theorem decideProfileAsk_serves {k : Slot} (hn : (s.store.map (·.num)).Nodup) (h : (s.bay b).sess.state = .contracted)
    (hs : s.servable b id = true) (hk : s.readySlot id = some k) : s.decideProfileAsk b id = s.serveWaits b k := by
  rw [decideProfileAsk_contracted h, hs, if_pos rfl]
  simp only [hk]
  exact startServe_eq hn h (List.mem_of_find?_eq_some hk)

end Sys2Proof.Dock
end

