-- ==== Sys2Proof/Proofs/FlagOrder.lean ====
section
/-! PROOF. SET_LANE_FLAGS of several bays (R34, R35): all the flags first and then the asks that are opened, bay by bay, is the same as
flags and ask of one bay after another. -/

namespace Sys2Proof.Dock

open Machine Laws

variable {s t : State} {b : Nat} {g : Bay → Bay} {a : Ask}

/-! ## A change of other bays -/

/-- The state with every bay record changed by `g`. -/
def mapped (s : State) (g : Bay → Bay) : State := { s with bays := s.bays.map g }

/-- `g` leaves bay `b` and all numbers alone. -/
structure Away (b : Nat) (g : Bay → Bay) : Prop where
  num : ∀ r, (g r).num = r.num
  same : ∀ r, r.num = b → g r = r

theorem mapped_bay (h : Away b g) (s : State) : (mapped s g).bay b = s.bay b := by
  have hb : (mapped s g).bay? b = (s.bay? b).map g := bay?_mapBays s g h.num b
  unfold State.bay
  rw [hb]
  cases hr : s.bay? b with
  | none => rfl
  | some r => exact h.same r (bay?_num hr)

theorem mapped_updBay (h : Away b g) (s : State) {f : Bay → Bay} (hf : ∀ r, (f r).num = r.num) :
    (mapped s g).updBay b f = mapped (s.updBay b f) g := by
  unfold mapped State.updBay
  dsimp only
  rw [List.map_map, List.map_map]
  congr 1
  refine List.map_congr_left fun r _ => ?_
  simp only [Function.comp, h.num]
  split
  · rename_i hr
    rw [h.same r hr, h.same (f r) ((hf r).trans hr)]
  · rfl

theorem mapped_updSess (h : Away b g) (s : State) (f : Session → Session) : (mapped s g).updSess b f = mapped (s.updSess b f) g :=
  mapped_updBay h s (f := fun r => { r with sess := f r.sess }) fun _ => rfl

theorem mapped_updLane (h : Away b g) (s : State) (f : Lane → Lane) : (mapped s g).updLane b f = mapped (s.updLane b f) g :=
  mapped_updBay h s (f := fun r => { r with lane := f r.lane }) fun _ => rfl

theorem mapped_replyAsk (h : Away b g) (s : State) (r : Reply) : (mapped s g).replyAsk b r = mapped (s.replyAsk b r) g :=
  mapped_updSess h s _

theorem mapped_deferAsk (h : Away b g) (s : State) : (mapped s g).deferAsk b = mapped (s.deferAsk b) g := by
  unfold State.deferAsk
  rw [mapped_replyAsk h, mapped_updLane h]
  exact mapped_updBay h _ (f := fun r => { r with events := setBit r.events BayEvent.ask.bit }) fun _ => rfl

theorem mapped_postCart (s : State) (e : CartEvent) : (mapped s g).postCart e = mapped (s.postCart e) g := by
  have hc : (mapped s g).committed = s.committed := rfl
  unfold State.postCart
  rw [hc]
  split <;> rfl

theorem mapped_createJob (s : State) (image priority : Nat) (origin : Origin) :
    (mapped s g).createJob b image priority origin = mapped (s.createJob b image priority origin) g := by
  rw [createJob_eq, createJob_eq, askScan_work (s := s) (t := mapped s g) rfl rfl]
  rfl

theorem mapped_postChunk (h : Away b g) (s : State) : (mapped s g).postChunk b = mapped (s.postChunk b) g := by
  unfold State.postChunk
  rw [mapped_bay h]
  cases (s.bay b).serve with
  | none => rfl
  | some v =>
    have hs : (mapped s g).slot? v.slot = s.slot? v.slot := rfl
    dsimp only
    rw [hs]
    cases s.slot? v.slot with
    | none => rfl
    | some k =>
      dsimp only
      unfold State.postServe State.postLane
      rw [mapped_bay h, mapped_updLane h]
      exact (apply_ite (mapped · g) _ _ _).symm

theorem mapped_startServe (h : Away b g) (s : State) (k : Slot) : (mapped s g).startServe b k = mapped (s.startServe b k) g := by
  unfold State.startServe
  dsimp only
  rw [mapped_updBay h s (f := fun r => { r with serve := some ⟨k.num, 0, k.length, 0, none⟩ }) fun _ => rfl]
  exact mapped_postChunk h ((s.updBay b fun r => { r with serve := some ⟨k.num, 0, k.length, 0, none⟩ }).updSlot k.num
    fun k => { k with serves := k.serves + 1 })

theorem mapped_decideJobAsk (h : Away b g) (s : State) (id : Nat) :
    (mapped s g).decideJobAsk b id = mapped (s.decideJobAsk b id) g := by
  have hw (e : Image) : (mapped s g).wrongModel b e = s.wrongModel b e := by
    unfold State.wrongModel
    rw [mapped_bay h]
  have hj : (mapped s g).jobOf b = s.jobOf b := rfl
  have hi : (mapped s g).image? id = s.image? id := rfl
  have hf : (mapped s g).jobsFull = s.jobsFull := rfl
  unfold State.decideJobAsk
  rw [hj, hi, mapped_deferAsk h, mapped_replyAsk h]
  cases s.jobOf b with
  | some j => exact (apply_ite (mapped · g) _ _ _).symm
  | none =>
    cases s.image? id with
    | none => rfl
    | some e =>
      dsimp only
      rw [hw, hf, mapped_postCart, mapped_createJob, ← apply_ite (mapped · g), ← apply_ite (mapped · g)]

theorem mapped_decideProfileAsk (h : Away b g) (s : State) (id : Nat) :
    (mapped s g).decideProfileAsk b id = mapped (s.decideProfileAsk b id) g := by
  have hf : (mapped s g).hasProfileFeature b = s.hasProfileFeature b := by
    unfold State.hasProfileFeature
    rw [mapped_bay h]
  have hk : (mapped s g).readySlot id = s.readySlot id := rfl
  unfold State.decideProfileAsk
  dsimp only
  rw [mapped_bay h, hf, hk, mapped_replyAsk h, mapped_replyAsk h]
  cases s.readySlot id with
  | none => simp only [apply_ite (mapped · g)]
  | some k =>
    dsimp only
    rw [mapped_startServe h]
    simp only [apply_ite (mapped · g)]

theorem mapped_consultOwner (h : Away b g) (s : State) (a : Ask) :
    (mapped s g).consultOwner b a = mapped (s.consultOwner b a) g := by
  unfold State.consultOwner
  cases a.kind with
  | profile => exact mapped_decideProfileAsk h s _
  | job => exact mapped_decideJobAsk h s _

/-! ## What a consultation leaves of the other bays -/

theorem bay_consultOwner_ne {c : Nat} (hc : c ≠ b) (s : State) (a : Ask) : (s.consultOwner b a).bay c = s.bay c := by
  have hr (t : State) (r : Reply) : (t.replyAsk b r).bay c = t.bay c := bay_updSess_ne hc _
  have hd (t : State) : (t.deferAsk b).bay c = t.bay c := by
    rw [deferAsk_eq]
    exact (bay_updBay_ne _ b (fun r => { r with lane := { r.lane with autoDefer := true }, events := r.events ||| 0x10#10 })
      (fun _ => rfl) hc).trans (hr t _)
  have hp (t : State) : (t.postChunk b).bay c = t.bay c := by
    unfold State.postChunk
    repeat' split
    all_goals try rfl
    unfold State.postServe State.postLane
    split
    exacts [rfl, bay_updLane_ne hc _]
  have hs (t : State) (k : Slot) : (t.startServe b k).bay c = t.bay c :=
    (hp _).trans (bay_updBay_ne t b (fun r => { r with serve := some ⟨k.num, 0, k.length, 0, none⟩ }) (fun _ => rfl) hc)
  unfold State.consultOwner
  split
  · unfold State.decideProfileAsk
    dsimp only
    repeat' split
    exacts [rfl, hr s _, hr s _, hr s _, (hs _ _).trans (hr s _)]
  · unfold State.decideJobAsk
    split
    · split
      exacts [hr s _, hd s]
    · exact hd s
    · split
      · exact hd s
      · split
        · refine Eq.trans ?_ (hd s)
          unfold State.postCart
          split <;> rfl
        · rw [createJob_eq]
          exact hr s _

/-! ## One bay after another -/

/-- The flags written to a lane. -/
def flagLane (d f : Bool) (l : Lane) : Lane := { l with hubDefer := d, hubRefuse := f }

/-- The flags written to the bays of a list. -/
def flagBay (bs : List Nat) (d f : Bool) (r : Bay) : Bay := if r.num ∈ bs then { r with lane := flagLane d f r.lane } else r

/-- The undecided ask that writing the flags opens at a bay. -/
def opened (s : State) (d f : Bool) (b : Nat) : Option (Nat × Ask) :=
  if !(s.bay b).lane.open_ && (!d && !f) then ((s.bay b).sess.ask.filter fun a => !a.decided).map fun a => (b, a) else none

/-- The owners of the asks of a list consulted, one after another. -/
def consultAll (l : List (Nat × Ask)) (s : State) : State := l.foldl (fun s x => s.consultOwner x.1 x.2) s

theorem consultUndecided_eq (s : State) (b : Nat) : s.consultUndecided b
    = consultAll (if (s.bay b).lane.open_ then ((s.bay b).sess.ask.filter fun a => !a.decided).map (b, ·) else none).toList s := by
  unfold State.consultUndecided
  cases (s.bay b).sess.ask with
  | none => cases (s.bay b).lane.open_ <;> rfl
  | some a => cases hd : a.decided <;> cases (s.bay b).lane.open_ <;> simp [Option.filter, hd, consultAll]

theorem setLaneFlags_eq (s : State) (b : Nat) (d f : Bool) :
    s.setLaneFlags b d f = consultAll (opened s d f b).toList (s.updLane b (flagLane d f)) := by
  have hs : s.setLaneFlags b d f = if (!(s.bay b).lane.open_ && ((s.updLane b (flagLane d f)).bay b).lane.open_) = true
    then (s.updLane b (flagLane d f)).consultUndecided b else s.updLane b (flagLane d f) := rfl
  rw [hs, consultUndecided_eq]
  unfold opened
  cases hb : s.hasBay b with
  | false =>
    have hf : s.bay b = Bay.fresh b 0 0 .p1 0 := by
      unfold State.hasBay at hb
      unfold State.bay
      cases hr : s.bay? b with
      | none => rfl
      | some r => rw [hr] at hb; cases hb
    rw [hf]
    rfl
  | true =>
    have h : (s.updLane b (flagLane d f)).bay b = { s.bay b with lane := flagLane d f (s.bay b).lane } :=
      bay_updBay_eq s b (fun r => { r with lane := flagLane d f r.lane }) (fun _ => rfl) hb
    have ho : (flagLane d f (s.bay b).lane).open_ = (!d && !f) := rfl
    rw [h, ho]
    cases (s.bay b).lane.open_ <;> cases (!d && !f) <;> rfl

theorem bay_setLaneFlags_ne {c : Nat} (hc : c ≠ b) (s : State) (d f : Bool) : (s.setLaneFlags b d f).bay c = s.bay c := by
  have hl : (s.updLane b (flagLane d f)).bay c = s.bay c := bay_updLane_ne hc _
  rw [setLaneFlags_eq]
  unfold opened
  split
  · cases (s.bay b).sess.ask.filter fun a => !a.decided with
    | none => exact hl
    | some a => exact (bay_consultOwner_ne hc _ a).trans hl
  · exact hl

theorem away_flagBay {bs : List Nat} (h : b ∉ bs) (d f : Bool) : Away b (flagBay bs d f) where
  num r := by
    unfold flagBay
    split <;> rfl
  same r hr := if_neg (hr ▸ h)

/-- The flags of the bays of a list, one after another. -/
theorem forEach_setLaneFlags (d f : Bool) : ∀ (bs : List Nat), bs.Nodup → ∀ s : State,
    s.forEach bs (fun s b => s.setLaneFlags b d f) = consultAll (bs.filterMap (opened s d f)) (mapped s (flagBay bs d f))
  | [], _, s => by
    have h : s.bays.map (flagBay [] d f) = s.bays := List.map_id'' (fun r => if_neg (by simp)) _
    show s = mapped s _
    unfold mapped
    rw [h]
  | b :: bs, hn, s => by
    obtain ⟨hb, hn⟩ := List.nodup_cons.1 hn
    have ho : bs.filterMap (opened (s.setLaneFlags b d f) d f) = bs.filterMap (opened s d f) := by
      refine List.filterMap_congr fun c hc => ?_
      have hcb : c ≠ b := fun he => hb (he ▸ hc)
      unfold opened
      rw [bay_setLaneFlags_ne hcb]
    have hs : mapped (s.updLane b (flagLane d f)) (flagBay bs d f) = mapped s (flagBay (b :: bs) d f) := by
      unfold mapped State.updLane State.updBay
      dsimp only
      rw [List.map_map]
      congr 1
      refine List.map_congr_left fun r _ => ?_
      simp only [Function.comp]
      unfold flagBay
      by_cases hr : r.num = b
      · rw [if_pos hr, if_neg (by show r.num ∉ bs; exact hr ▸ hb), if_pos (hr ▸ List.mem_cons_self ..)]
      · rw [if_neg hr]
        simp [hr]
    have hc : mapped (s.setLaneFlags b d f) (flagBay bs d f)
        = consultAll (opened s d f b).toList (mapped s (flagBay (b :: bs) d f)) := by
      rw [setLaneFlags_eq, ← hs]
      unfold opened
      split
      · cases (s.bay b).sess.ask.filter fun a => !a.decided with
        | none => rfl
        | some a => exact (mapped_consultOwner (away_flagBay hb d f) _ a).symm
      · rfl
    show (s.setLaneFlags b d f).forEach bs _ = _
    rw [forEach_setLaneFlags d f bs hn, ho, hc, List.filterMap_cons]
    cases opened s d f b <;> rfl

end Sys2Proof.Dock
end

