-- ==== Sys2Proof/Proofs/AskDecisions.lean ====
section
/-! PROOF. The owners of several asks, consulted one after another in one event, to the end of that event (R34, R103, R104, R115). -/

namespace Sys2Proof.Dock

open Machine Laws

variable {s t u v : State} {b : Nat} {a : Ask} {k : Job} {c : Call}

/-! ## The Serve slot to the end of the event -/

/-- A part of a record that the update of one bay keeps. -/
theorem bay_updBay_part (s : State) (b : Nat) {f : Bay → Bay} (hf : ∀ r, (f r).num = r.num) {α : Type} (p : Bay → α)
    (hp : ∀ r, p (f r) = p r) (c : Nat) : p ((s.updBay b f).bay c) = p (s.bay c) := by
  rcases bay_updBay_cases s b hf c with h | ⟨_, h⟩ <;> rw [h]
  exact hp _

/-- Bay `b`'s Serve slot holds call `c`. -/
def ServeSlot (b : Nat) (c : Call) (t : State) : Prop := (t.bay b).lane.serve = some c

theorem ServeSlot.of_part (h : ServeSlot b c t) (hu : (u.bay b).lane.serve = (t.bay b).lane.serve) : ServeSlot b c u := hu.trans h

theorem ServeSlot.endJob (h : ServeSlot b c t) (j : Job) (done : Bool) (why : JobReason) (tell : Bool) :
    ServeSlot b c (t.endJob j done why tell) := by
  rw [endJob_eq]
  exact h.of_part (bay_updBay_part t j.bay (f := endedBay j done why _) (fun _ => rfl) (fun r => r.lane.serve) (fun _ => rfl) b)

theorem ServeSlot.suspendBay (h : ServeSlot b c t) (n : Nat) : ServeSlot b c (t.suspendBay n) := by
  unfold State.suspendBay
  split
  · exact h
  · split
    · rename_i i _ _
      rw [suspendJob_eq]
      exact h.of_part (bay_updBay_part t i.bay (f := suspendedBay i _) (fun _ => rfl) (fun r => r.lane.serve) (fun _ => rfl) b)
    · exact h

theorem stable_serveSlot (b : Nat) (c : Call) : Stable (ServeSlot b c) := by
  refine .of_view (fun hv h => h.of_part ?_) fun _ n h => h.suspendBay n
  have hk := bay_of_view hv b
  simp only [Bay.key, Prod.mk.injEq] at hk
  rw [hk.2.2.2.2]

theorem ServeSlot.payWork (h : ServeSlot b c t) : ServeSlot b c t.payWork := by
  refine (stable_serveSlot b c).payWork (fun t i => (stable_serveSlot b c).scanJob (fun why h => h.endJob _ _ _ _) (fun _ h => ?_)
    fun t q _ h => ?_) h
  · refine h.of_part ((bay_updBay_part (t.updSess i.bay _) i.bay (f := fun r => { r with lane := { r.lane with wakeAsked := true } })
      (fun _ => rfl) (fun r => r.lane.serve) (fun _ => rfl) b).trans ?_)
    exact bay_updBay_part t i.bay (f := fun r => { r with sess := { r.sess with state := .waking, refreshAt := none } })
      (fun _ => rfl) (fun r => r.lane.serve) (fun _ => rfl) b
  · exact h.of_part (bay_updBay_part t i.bay (f := fun r => { r with events := setBit r.events BayEvent.job.bit })
      (fun _ => rfl) (fun r => r.lane.serve) (fun _ => rfl) b)

/-- What a free line takes leaves the Serve slot, or is what the slot holds. -/
theorem nextOf_serve {l : Lane} (h : l.serve = some c) (w : State) (n : Nat) (st : SessState) :
    (nextOf w n st l).serve = some c ∨ (nextOf w n st l).flight.map (·.call) = some c := by
  unfold nextOf
  split
  · by_cases hs : st ≠ .off ∧ st ≠ .asleep ∧ st ≠ .waking
    · rw [laneNext_calls _ _ hs, chooseCall_getD]
      split
      · exact .inl h
      · exact .inl h
      · exact .inl h
      · exact .inl h
      · exact .inl h
      · rename_i hc
        rw [h] at hc
        cases hc
        exact .inr rfl
      · exact .inl h
    · rcases (by tauto : st = .off ∨ st = .asleep ∨ st = .waking) with rfl | rfl | rfl
      · exact .inl h
      · exact .inl h
      · unfold State.laneNext
        dsimp only
        split <;> exact .inl h
  · exact .inl h

theorem ServeSlot.settle (h : ServeSlot b c t) :
    (t.settle.bay b).lane.serve = some c ∨ (t.settle.bay b).lane.flight.map (·.call) = some c := by
  have hw : ServeSlot b c t.payWork.driversTake := (stable_serveSlot b c).driversTake h.payWork
  rw [(settle_bay t b).2]
  exact nextOf_serve hw _ _ _

/-! ## A job that waits while owners are consulted -/

/-- A consultation makes at most one new job, for a bay that has none. -/
theorem consultOwner_sched (s : State) (b : Nat) (a : Ask) : (s.consultOwner b a).sched = s.sched
    ∨ (s.jobOf b = none ∧ s.jobs.length < 48
      ∧ ∃ id, (s.consultOwner b a).sched = (s.enqueued (newJob s.newTag b id 1 .ask)).sched) := by
  have hp (t : State) : (t.postChunk b).sched = t.sched := by
    unfold State.postChunk
    repeat' split
    all_goals try rfl
    unfold State.postServe State.postLane
    split <;> rfl
  unfold State.consultOwner
  split
  · refine .inl ?_
    unfold State.decideProfileAsk
    dsimp only
    repeat' split
    exacts [rfl, rfl, rfl, rfl, hp _]
  · by_cases h : s.jobOf b = none ∧ s.autoQueues b a.id ∧ s.jobs.length < 48
    · obtain ⟨hj, ha, hl⟩ := h
      refine .inr ⟨hj, hl, a.id, ?_⟩
      rw [decideJobAsk_queued hj ha hl]
      rfl
    · refine .inl ?_
      cases hj : s.jobOf b with
      | some j =>
        by_cases hi : j.image = a.id
        · rw [decideJobAsk_stands hj hi]
          rfl
        · rw [decideJobAsk_held (.inl ⟨j, hj, hi⟩)]
          rfl
      | none =>
        by_cases ha : s.autoQueues b a.id
        · rw [decideJobAsk_auto hj ha, if_pos (jobsFull_iff.2 (by
            by_contra hl
            exact h ⟨hj, ha, by omega⟩)), deferAsk_eq]
          unfold State.postCart
          split <;> rfl
        · rw [decideJobAsk_held (.inr ⟨hj, ha⟩)]
          rfl

theorem consultOwner_outer (s : State) (b : Nat) (a : Ask) : (s.consultOwner b a).geo = s.geo ∧ (s.consultOwner b a).mode = s.mode
    ∧ (s.consultOwner b a).sched.catalog = s.sched.catalog ∧ (s.consultOwner b a).store.map (·.num) = s.store.map (·.num) := by
  have h := outer_consultOwner s b a
  rw [outer_iff] at h
  tauto

/-- The queue with a new job, whichever it is. -/
theorem mem_enqueued (s : State) (j i : Job) : i ∈ (s.enqueued j).sched.queue ↔ i = j ∨ i ∈ s.sched.queue := by
  have h : (s.enqueued j).sched.queue = insertBack j s.sched.queue := (insertBack_eq j _).symm
  rw [h, (insertBack_perm j _).mem_iff, List.mem_cons]

theorem Waiting.of_sched (h : Waiting k t) (hu : u.sched = t.sched) : Waiting k u := by
  refine ⟨hu ▸ h.queued, ?_, h.idle⟩
  unfold State.jobs
  rw [hu]
  exact h.only

theorem Waiting.enqueued (h : Waiting k t) (hb : t.jobOf b = none) (hl : t.jobs.length < 48) (id : Nat) :
    Waiting k (t.enqueued (newJob t.newTag b id 1 .ask)) := by
  have hk : k ∈ t.jobs := List.mem_append_right _ h.queued
  refine h.of_lists ((mem_enqueued ..).2 (.inr h.queued)) fun i hi => ?_
  rcases List.mem_append.1 hi with hi | hi
  · exact .inl (List.mem_append_left _ hi)
  · rcases (mem_enqueued ..).1 hi with rfl | hi
    · exact .inr ⟨fun he => (jobOf_none_iff t b).1 hb k hk he.symm, fun he => (freshTag_newTag hl).1 k hk he.symm⟩
    · exact .inl (List.mem_append_right _ hi)

/-- A consultation at another bay. -/
theorem passed_consultOwner (h : Passed s k False t) (hb : k.bay ≠ b) (a : Ask) : Passed s k False (t.consultOwner b a) := by
  obtain ⟨_, hm, hc, _⟩ := consultOwner_outer t b a
  refine ⟨?_, h.2.1.of_bay hm hc (congrArg Bay.sess (bay_consultOwner_ne hb t a)), False.elim⟩
  rcases consultOwner_sched t b a with he | ⟨hj, hl, id, he⟩
  · exact h.1.of_sched he
  · exact (h.1.enqueued hj hl id).of_sched he

theorem passed_consultAll : ∀ (l : List (Nat × Ask)), k.bay ∉ l.map Prod.fst → ∀ {t}, Passed s k False t →
    Passed s k False (consultAll l t)
  | [], _, _, h => h
  | (b, a) :: l, hk, _, h => by
    simp only [List.map_cons, List.mem_cons, not_or] at hk
    exact passed_consultAll l hk.2 (passed_consultOwner h hk.1 a)

/-- The job that a JOB ask queues. -/
theorem waiting_enqueued (hb : s.jobOf b = none) (hl : s.jobs.length < 48) (id : Nat) :
    Waiting (newJob s.newTag b id 1 .ask) (s.enqueued (newJob s.newTag b id 1 .ask)) where
  queued := (mem_enqueued ..).2 (.inl rfl)
  only i hi hk := by
    have hold : i ∈ s.jobs → i = newJob s.newTag b id 1 .ask := fun hi => by
      rcases hk with hk | hk
      · exact absurd hk ((jobOf_none_iff s b).1 hb i hi)
      · exact absurd hk ((freshTag_newTag hl).1 i hi)
    rcases List.mem_append.1 hi with hi | hi
    · exact hold (List.mem_append_left _ hi)
    · rcases (mem_enqueued ..).1 hi with rfl | hi
      exacts [rfl, hold (List.mem_append_right _ hi)]
  idle := rfl

/-- A scan passes over a job of priority 1, where the mode permits none. -/
theorem scanPasses_of_mode {j : Job} (hp : j.priority = 1) (hm : s.mode ≠ .night) : s.scanPasses j False := by
  refine .inl ?_
  cases h : s.mode with
  | secure => exact .inl rfl
  | classMode => exact .inr ⟨rfl, by rw [hp]; simp⟩
  | night => exact absurd h hm

/-! ## The asks of a list, one after another -/

theorem asksDecided_nil {w : Work} (ht : t.sameButOutput (State.settle { v with work := w })) : AsksDecided [] v t := by
  refine ⟨((Kept.work v w).trans (kept_settle _)).same.trans (sameBut_output ht), fun b c hc => ?_⟩
  rw [bay_output ht]
  exact ServeSlot.settle (t := { v with work := w }) hc

/-- The owners of the asks of a list of bays, consulted from `v` on. -/
theorem asksDecided : ∀ (l : List (Nat × Ask)), (l.map Prod.fst).Nodup → ∀ {v t : State} {w : Work}, v.committed = true →
    (v.store.map (·.num)).Nodup → t.sameButOutput (consultAll l { v with work := w }).settle → AsksDecided l v t
  | [], _, _, _, _, _, _, ht => asksDecided_nil ht
  | (b, a) :: l, hl, v, t, w, hc, hn, ht => by
    obtain ⟨hb, hl⟩ := List.nodup_cons.1 hl
    obtain ⟨hg, _, _, hst⟩ := consultOwner_outer { v with work := w } b a
    have lead {v' : State} {w' : Work} (he : State.consultOwner { v with work := w } b a = { v' with work := w' }) :
        AsksDecided l v' t := by
      refine asksDecided l hl (w := w') ?_ ?_ (he ▸ ht)
      · exact committed_of_geo (s := v) (by rw [← hg, he]) hc
      · rw [he] at hst
        exact hst ▸ hn
    have hprofile (hk : a.kind = .profile) : State.consultOwner { v with work := w } b a
        = State.decideProfileAsk { v with work := w } b a.id := by
      unfold State.consultOwner
      rw [hk]
    have hjob (hk : a.kind = .job) : State.consultOwner { v with work := w } b a
        = State.decideJobAsk { v with work := w } b a.id := by
      unfold State.consultOwner
      rw [hk]
    exact {
      waits := fun hk hs => lead (w' := w) ((hprofile hk).trans (decideProfileAsk_waits (s := { v with work := w }) hs))
      refused := fun hk hs hr => lead (w' := w) ((hprofile hk).trans (decideProfileAsk_refused (s := { v with work := w }) hs hr))
      serves := fun k hk hs hr hf =>
        lead (w' := w) ((hprofile hk).trans (decideProfileAsk_serves (s := { v with work := w }) hn hs hr hf))
      stands := fun j hk hj hi => lead (w' := w) ((hjob hk).trans (decideJobAsk_stands (s := { v with work := w }) hj hi))
      held := fun hk h => lead (w' := w) ((hjob hk).trans (decideJobAsk_held (s := { v with work := w }) h))
      full := fun hk hj ha hf => lead (w' := w) ((hjob hk).trans (decideJobAsk_full (s := { v with work := w }) hc hj ha hf))
      queued := fun hk hj ha hf => by
        have he := (hjob hk).trans (decideJobAsk_queued (s := { v with work := w }) hj ha hf)
        refine ⟨v.newTag, freshTag_newTag hf, lead he, fun hm => ?_⟩
        rw [jobOf_output ht]
        have hw := waiting_enqueued (s := v.replied b .accept) hj hf a.id
        have hp : Passed ((v.replied b .accept).enqueued (newJob v.newTag b a.id 1 .ask)) (newJob v.newTag b a.id 1 .ask) False
            (State.consultOwner { v with work := w } b a) := by
          rw [he]
          exact ⟨hw.of_sched rfl, ⟨rfl, rfl, .inl rfl⟩, False.elim⟩
        exact passed_settle (scanPasses_of_mode (s := (v.replied b .accept).enqueued (newJob v.newTag b a.id 1 .ask))
          (j := newJob v.newTag b a.id 1 .ask) rfl hm) ⟨rfl, rfl, rfl, rfl⟩
          (passed_consultAll l hb hp) }

end Sys2Proof.Dock
end

