-- ==== Sys2Proof/Proofs/LaneFlags.lean ====
section
/-! PROOF. SET_LANE_FLAGS (R34, R35): the flags, and the asks that they open. -/

namespace Sys2Proof.Dock

open Machine Laws

variable {s t u v : State} {b : Nat} {a : Ask} {d f : Bool}

/-! ## The first CHUNK of a serve on a lane that had nothing to start (R29, R104) -/

/-- The lane to which the first chunk of a serve is posted. -/
def chunkLane (c : Call) (l : Lane) : Lane :=
  if l.free then { l with flight := some ⟨c, .ordinary⟩, attempts := 0, act := .sending } else { l with serve := some c }

theorem nextOf_chunk {l : Lane} {c : Call} (h : l.free = true → s.chooseCall b l = none) (w : State) (n : Nat) :
    nextOf w n .contracted { l with serve := some c } = chunkLane c l := by
  unfold nextOf chunkLane
  have hf : Lane.free { l with serve := some c } = l.free := rfl
  rw [hf]
  split
  · obtain ⟨hg, hst, hj, hp, hi, hsv⟩ := slots_of_chooseCall (h ‹_›)
    rw [laneNext_calls _ _ (by simp), chooseCall_getD]
    simp only [hg, hst, hj, hp, hi]
    unfold Lane.startCall
    rw [← hsv]
  · rfl

theorem bay_updLane_eq (hb : s.hasBay b = true) (g : Lane → Lane) :
    (s.updLane b g).bay b = { s.bay b with lane := g (s.bay b).lane } :=
  bay_updBay_eq s b (fun r => { r with lane := g r.lane }) (fun _ => rfl) hb

theorem map_updLane_num (s : State) (b : Nat) (g : Lane → Lane) : (s.updLane b g).bays.map (·.num) = s.bays.map (·.num) :=
  map_updBay s b (f := fun r => { r with lane := g r.lane }) _ fun _ => rfl

/-- The serve's first chunk starts on a free line. -/
theorem sameBut_served {k : Slot} (hi : inner v) (hs : (v.bay b).sess.state = .contracted) :
    SameBut (v.served b k) (v.serveWaits b k).settle := by
  have hb := hasBay_of_contracted hs
  obtain ⟨hb', hbay⟩ := serveBegun_bay (k := k) hb
  have hk := kept_settle (v.serveWaits b k)
  have hW : (v.serveWaits b k).bay b = { (v.serveBegun b k).bay b with
      lane := { (v.bay b).lane with serve := some (State.firstChunk k) } } := by
    refine (bay_updLane_eq hb' _).trans ?_
    rw [hbay]
  have hS : (v.served b k).bay b = { (v.serveBegun b k).bay b with lane := chunkLane (State.firstChunk k) (v.bay b).lane } := by
    refine (bay_updLane_eq hb' _).trans ?_
    rw [hbay]
    rfl
  have hne {c : Nat} (hc : c ≠ b) : (v.served b k).bay c = (v.serveWaits b k).bay c :=
    (bay_updLane_ne hc _).trans (bay_updLane_ne hc _).symm
  have hlane : ((v.serveWaits b k).settle.bay b).lane = chunkLane (State.firstChunk k) (v.bay b).lane := by
    have hq : (v.bay b).lane.free = true → v.chooseCall (v.bay b).num (v.bay b).lane = none := fun hf => by
      have := laneNext_of_quiet hi.2.2.1 b hf
      rw [hs, laneNext_calls _ _ (by simp)] at this
      have hc := chooseCall_isSome v v b (v.bay b).num (v.bay b).lane
      rw [this] at hc
      cases hn : v.chooseCall (v.bay b).num (v.bay b).lane with
      | none => rfl
      | some l => rw [hn] at hc; cases hc
    rw [(settle_bay _ b).2, payWork_of_none (s := v.serveWaits b k) hi.1, driversTake_of_quiet (s := v.serveWaits b k) hi.2.1, hW]
    have hst : ({ (v.serveBegun b k).bay b with
        lane := { (v.bay b).lane with serve := some (State.firstChunk k) } } : Bay).sess.state = .contracted := by
      rw [hbay]
      exact hs
    rw [hst]
    exact nextOf_chunk hq _ _
  refine ⟨{ hk.cart with nums := hk.cart.nums.trans ?_ }, fun c => ?_, fun c hc => ?_⟩
  · exact (map_updLane_num (v.serveBegun b k) b _).trans (map_updLane_num (v.serveBegun b k) b _).symm
  · by_cases hcb : c = b
    · rw [hcb, hS]
      have := hk.bays b
      rw [hW] at this
      exact { this with lane := hlane ▸ SameLane.refl _ }
    · rw [hne hcb]
      exact hk.bays c
  · obtain ⟨hj, hl⟩ := hk.jobless c hc
    refine ⟨hj, hl.trans ?_⟩
    by_cases hcb : c = b
    · rw [hcb, hS, hW]
    · rw [hne hcb]

/-! ## The decided asks, for a state that differs in the hub's output -/

theorem asksDecided_output : ∀ (l : List (Nat × Ask)) {v u : State}, AsksDecided l u t → u.sameButOutput v → AsksDecided l v t
  | [], v, u, h, hv => by
    have h0 : SameBut v u := sameBut_output hv
    obtain ⟨_, _, _, _, _, _, rfl⟩ := exists_output hv
    exact ⟨h0.trans h.1, h.2⟩
  | (b, a) :: l, v, u, h, hv => by
    obtain ⟨_, _, _, _, _, _, rfl⟩ := exists_output hv
    exact {
      waits := fun hk hs => asksDecided_output l (h.waits hk hs) rfl
      refused := fun hk hs hr => asksDecided_output l (h.refused hk hs hr) rfl
      serves := fun k hk hs hr hf => asksDecided_output l (h.serves k hk hs hr hf) rfl
      stands := fun j hk hj hi => asksDecided_output l (h.stands j hk hj hi) rfl
      held := fun hk ho => asksDecided_output l (h.held hk ho) rfl
      full := fun hk hj ha hf => asksDecided_output l (h.full hk hj ha hf) rfl
      queued := fun hk hj ha hf => by
        obtain ⟨tag, hfr, hP, ht⟩ := h.queued hk hj ha hf
        exact ⟨tag, hfr, asksDecided_output l hP rfl, ht⟩ }

theorem askLeads_imp {P Q : State → Prop} (hPQ : ∀ v, P v → Q v) (h : AskLeads P s t b a) : AskLeads Q s t b a where
  waits hk hs := hPQ _ (h.waits hk hs)
  refused hk hs hr := hPQ _ (h.refused hk hs hr)
  serves k hk hs hr hf := hPQ _ (h.serves k hk hs hr hf)
  stands j hk hj hi := hPQ _ (h.stands j hk hj hi)
  held hk ho := hPQ _ (h.held hk ho)
  full hk hj ha hf := hPQ _ (h.full hk hj ha hf)
  queued hk hj ha hf := by
    obtain ⟨tag, hfr, hP, ht⟩ := h.queued hk hj ha hf
    exact ⟨tag, hfr, hPQ _ hP, ht⟩

/-! ## The bays that the request means (R35) -/

/-- The bay records that the number means: its own, or with 0 the enabled ones. -/
def meant (n : Nat) (r : Bay) : Bool := if n = 0 then r.enabled else r.num == n

/-- The bay records whose last set flag is cleared. -/
def opens (n : Nat) (d f : Bool) (r : Bay) : Bool := meant n r && (r.lane.hubDefer || r.lane.hubRefuse) && !d && !f

/-- The undecided asks of those records, each with its bay. -/
def openedAsks (n : Nat) (d f : Bool) (l : List Bay) : List (Nat × Ask) :=
  (l.filter (opens n d f)).filterMap fun r => (r.sess.ask.filter fun a => !a.decided).map fun a => (r.num, a)

theorem openedAsks_eq {n : Nat} : ∀ (l : List Bay), (∀ r ∈ l, s.bay r.num = r) →
    ((l.filter (meant n)).map (·.num)).filterMap (opened s d f) = openedAsks n d f l
  | [], _ => rfl
  | r :: l, h => by
    have ih := openedAsks_eq (n := n) l fun q hq => h q (List.mem_cons_of_mem _ hq)
    have hr := h r (List.mem_cons_self ..)
    unfold openedAsks at ih ⊢
    by_cases hm : meant n r = true
    · rw [List.filter_cons_of_pos hm, List.map_cons, List.filterMap_cons, ih]
      unfold opened
      rw [hr]
      by_cases ho : (!r.lane.open_ && (!d && !f)) = true
      · have : opens n d f r = true := by
          unfold opens
          unfold Lane.open_ at ho
          rw [hm]
          simpa [Bool.and_assoc] using ho
        rw [if_pos ho, List.filter_cons_of_pos this, List.filterMap_cons]
      · have : ¬ opens n d f r = true := by
          unfold opens
          unfold Lane.open_ at ho
          rw [hm]
          simpa [Bool.and_assoc] using ho
        rw [if_neg ho, List.filter_cons_of_neg this]
    · have : ¬ opens n d f r = true := by
        unfold opens
        simp [hm]
      rw [List.filter_cons_of_neg hm, List.filter_cons_of_neg this, ih]

theorem hasBay_iff (s : State) (b : Nat) : s.hasBay b = true ↔ b ∈ s.bays.map (·.num) := by
  unfold State.hasBay State.bay?
  rw [List.find?_isSome, List.mem_map]
  simp

theorem opened_absent (h : b ∉ s.bays.map (·.num)) : opened s d f b = none := by
  have hn : s.bay? b = none := by
    cases hr : s.bay? b with
    | none => rfl
    | some r => exact absurd ((hasBay_iff s b).1 (by unfold State.hasBay; rw [hr]; rfl)) h
  unfold opened State.bay
  rw [hn]
  rfl

/-- The numbers of the records that a number other than 0 means. -/
theorem nums_meant {n : Nat} (h0 : n ≠ 0) (hn : (s.bays.map (·.num)).Nodup) :
    (s.bays.filter (meant n)).map (·.num) = if n ∈ s.bays.map (·.num) then [n] else [] := by
  have hm : meant n = (· == n) ∘ (·.num) := by
    funext r
    exact if_neg h0
  rw [hm, ← List.filter_map, List.filter_beq]
  split
  · rw [List.count_eq_one_of_mem hn ‹_›]
    rfl
  · rw [List.count_eq_zero_of_not_mem ‹_›]
    rfl

theorem flagBays_eq (s : State) (n : Nat) : s.flagBays n = if n = 0 then (s.bays.filter (meant n)).map (·.num) else [n] := by
  unfold State.flagBays meant
  split <;> simp_all

/-- SET_LANE_FLAGS's run: all the flags, and then the owners of the asks that they open. -/
theorem flags_run (hn : (s.bays.map (·.num)).Nodup) (n : Nat) (d f : Bool) :
    s.forEach (s.flagBays n) (fun s b => s.setLaneFlags b d f) = consultAll (openedAsks n d f s.bays)
      (mapped s fun r => if meant n r then { r with lane := flagLane d f r.lane } else r) := by
  have hnd : (s.flagBays n).Nodup := by
    rw [flagBays_eq]
    split
    · exact hn.sublist (List.filter_sublist.map _)
    · simp
  have hasks : (s.flagBays n).filterMap (opened s d f) = openedAsks n d f s.bays := by
    rw [← openedAsks_eq s.bays fun r hr => bay_of_mem hn hr, flagBays_eq]
    split
    · rfl
    · rename_i h0
      rw [nums_meant h0 hn]
      split
      · rfl
      · exact (List.filterMap_cons_none (opened_absent ‹_›)).trans rfl
  have hmap : mapped s (flagBay (s.flagBays n) d f)
      = mapped s fun r => if meant n r then { r with lane := flagLane d f r.lane } else r := by
    unfold mapped
    congr 1
    refine List.map_congr_left fun r hr => ?_
    have hiff : r.num ∈ s.flagBays n ↔ meant n r = true := by
      rw [flagBays_eq]
      split
      · rw [List.mem_map]
        refine ⟨fun ⟨q, hq, he⟩ => ?_, fun hm => ⟨r, List.mem_filter.2 ⟨hr, hm⟩, rfl⟩⟩
        obtain ⟨hq, hm⟩ := List.mem_filter.1 hq
        rwa [← bay_of_mem hn hr, ← he, bay_of_mem hn hq]
      · unfold meant
        rw [if_neg ‹_›]
        simp
    unfold flagBay
    simp only [hiff]
  rw [forEach_setLaneFlags d f _ hnd, hasks, hmap]

theorem openedAsks_bays (n : Nat) (d f : Bool) (l : List Bay) : ((openedAsks n d f l).map Prod.fst).Sublist (l.map (·.num)) := by
  have h : ∀ l : List Bay, List.Sublist
      ((l.filterMap fun r => (r.sess.ask.filter fun a => !a.decided).map fun a => (r.num, a)).map Prod.fst) (l.map (·.num)) := by
    intro l
    induction l with
    | nil => exact List.Sublist.refl _
    | cons r l ih =>
      rw [List.filterMap_cons]
      cases r.sess.ask.filter fun a => !a.decided with
      | none => exact ih.cons _
      | some a => exact ih.cons_cons _
  exact (h _).trans (List.filter_sublist.map _)

/-! ## The request -/

theorem flagAt_eq {p : Bytes} {i : Nat} (h : ¬ 1 < byteAt p i) : flagAt p i = (byteAt p i == 1) := by
  unfold flagAt byteAt at *
  generalize p.getD i 0#8 = v at *
  have : v.toNat = 0 ∨ v.toNat = 1 := by omega
  rcases this with hv | hv
  · have : v = 0#8 := BitVec.eq_of_toNat_eq hv
    subst this
    rfl
  · have : v = 1#8 := BitVec.eq_of_toNat_eq hv
    subst this
    rfl

theorem decideSetLaneFlags_badValue {p : Bytes} (hp : p.length = 3) (h : 1 < byteAt p 1 ∨ 1 < byteAt p 2) :
    decideSetLaneFlags p s = s.deny .badValue := by
  unfold decideSetLaneFlags
  rw [sized_right (by rw [hp]; rfl)]
  exact if_pos h

theorem decideSetLaneFlags_noBay {p : Bytes} (hp : p.length = 3) (h : ¬ (1 < byteAt p 1 ∨ 1 < byteAt p 2))
    (hb : s.nBays < byteAt p 0) : decideSetLaneFlags p s = s.deny .noSuchBay := by
  unfold decideSetLaneFlags
  rw [sized_right (by rw [hp]; rfl)]
  dsimp only
  rw [if_neg h]
  exact if_neg (Nat.not_le.2 hb)

/-- The state with the flags of the meant bays written. -/
def flagsWritten (s : State) (n : Nat) (d f : Bool) : State :=
  mapped s fun r => if meant n r then { r with lane := flagLane d f r.lane } else r

theorem decideSetLaneFlags_good {p : Bytes} (hp : p.length = 3) (h : ¬ (1 < byteAt p 1 ∨ 1 < byteAt p 2))
    (hb : ¬ s.nBays < byteAt p 0) (hn : (s.bays.map (·.num)).Nodup) : decideSetLaneFlags p s
      = (consultAll (openedAsks (byteAt p 0) (byteAt p 1 == 1) (byteAt p 2 == 1) s.bays)
        (flagsWritten s (byteAt p 0) (byteAt p 1 == 1) (byteAt p 2 == 1))).accept [] := by
  unfold decideSetLaneFlags
  rw [sized_right (by rw [hp]; rfl)]
  dsimp only
  rw [if_neg h, flagAt_eq fun h1 => h (.inl h1), flagAt_eq fun h2 => h (.inr h2)]
  refine (if_pos (Nat.not_lt.1 hb)).trans ?_
  dsimp only
  rw [flags_run hn]
  rfl

theorem inner_flagsWritten (hi : inner s) (n : Nat) (d f : Bool) : inner (flagsWritten s n d f) :=
  inner_reflagged hi fun r => by
    split
    exacts [⟨Edited.of_lane r _, rfl, _, _, _, rfl⟩, Reflagged.refl r]

theorem consultAll_hub (l : List (Nat × Ask)) (s : State) : (consultAll l s).hub = s.hub :=
  foldl_keeps (P := fun t => t.hub = s.hub) (fun t x h => by
    have := (outer_iff _ _).1 (outer_consultOwner t x.1 x.2)
    exact this.2.2.1.trans h) l s rfl

/-- One ask is opened: its owner decides it. -/
theorem askDecided_of_asksDecided (hi : inner v) (hv : v.sameButOutput u) (hn : (v.store.map (·.num)).Nodup)
    (hd : AsksDecided [(b, a)] u t) (ht : t.sameButOutput (consultAll [(b, a)] v).settle) : AskDecided u t b a where
  leads := askLeads_imp (fun _ h => h.1) hd
  served k hk hs hr hf := by
    have hserved : (v.served b k).sameButOutput (u.served b k) := by
      obtain ⟨_, _, _, _, _, _, rfl⟩ := exists_output hv
      rfl
    obtain ⟨_, _, _, _, _, _, rfl⟩ := exists_output hv
    have he : consultAll [(b, a)] v = v.serveWaits b k := by
      show v.consultOwner b a = _
      unfold State.consultOwner
      rw [hk]
      exact decideProfileAsk_serves hn hs hr hf
    rw [he] at ht
    exact ((sameBut_output hserved).trans (sameBut_served hi hs)).trans (sameBut_output ht)

/-- Settles O19: the lane flags, and the asks they open, decided by their owners. -/
theorem setLaneFlagsWritesFlags : Obligations.SetLaneFlagsWritesFlags := by
  intro s tag p hq hl hc hp meant'
  have hlen : p.length ≤ 512 := by omega
  split
  · rename_i hv
    exact replies_request (k := .setLaneFlags) (l := .ofInputs s.pins) hl hlen (.inr hc) rfl
      (decideSetLaneFlags_badValue (s := taken s) hp hv) rfl (taken_sameButOutput s)
  · rename_i hv
    split
    · rename_i hb
      exact replies_request (k := .setLaneFlags) (l := .ofInputs s.pins) hl hlen (.inr hc) rfl
        (decideSetLaneFlags_noBay (s := taken s) hp hv hb) rfl (taken_sameButOutput s)
    · rename_i hb
      intro u opens' waiting decides hn
      have hd := decideSetLaneFlags_good (s := taken s) hp hv hb hn
      have hw : waiting = openedAsks (byteAt p 0) (byteAt p 1 == 1) (byteAt p 2 == 1) s.bays := by
        have h0 {i : Nat} (hi : ¬ 1 < byteAt p i) : (byteAt p i == 0) = !(byteAt p i == 1) := by
          rcases (by omega : byteAt p i = 0 ∨ byteAt p i = 1) with h | h <;> rw [h] <;> rfl
        have ho : opens' = opens (byteAt p 0) (byteAt p 1 == 1) (byteAt p 2 == 1) := by
          funext r
          show (meant' r && (r.lane.hubDefer || r.lane.hubRefuse) && byteAt p 1 == 0 && byteAt p 2 == 0) = _
          rw [h0 fun h1 => hv (.inl h1), h0 fun h2 => hv (.inr h2)]
          rfl
        show (s.bays.filter opens').filterMap _ = _
        rw [ho]
        rfl
      have hi := inner_flagsWritten (inner_taken hq) (byteAt p 0) (byteAt p 1 == 1) (byteAt p 2 == 1)
      have hus : (flagsWritten (taken s) (byteAt p 0) (byteAt p 1 == 1) (byteAt p 2 == 1)).sameButOutput u := rfl
      have hrp : (flagsWritten (taken s) (byteAt p 0) (byteAt p 1 == 1) (byteAt p 2 == 1)).hub.replyPending = true := rfl
      have hcu : (flagsWritten (taken s) (byteAt p 0) (byteAt p 1 == 1) (byteAt p 2 == 1)).committed = true := hc
      have hst : (flagsWritten (taken s) (byteAt p 0) (byteAt p 1 == 1) (byteAt p 2 == 1)).store = s.store := rfl
      rw [show (taken s).bays = s.bays from rfl, ← hw] at hd
      generalize flagsWritten (taken s) (byteAt p 0) (byteAt p 1 == 1) (byteAt p 2 == 1) = v at hd hi hus hrp hcu hst
      obtain ⟨t, ht, ha, hs⟩ := decides_request (c := .setLaneFlags tag p) (k := .setLaneFlags) (l := .ofInputs s.pins) hl hlen
        (.inr hc) rfl hd (by rw [settle_hub, consultAll_hub]; exact hrp)
      refine ⟨fun h0 => ⟨t, ht, ha, sameButOutput_trans hs ?_⟩, fun hns => ?_⟩
      · rw [h0]
        show v.settle.sameButOutput u
        rw [settle_of_inner hi]
        exact hus
      · have hnv : (v.store.map (·.num)).Nodup := hst ▸ hns
        have hall : AsksDecided waiting u t := asksDecided_output waiting
          (asksDecided waiting (hw ▸ hn.sublist (openedAsks_bays _ _ _ s.bays)) (w := v.work) hcu hnv hs) hus
        refine ⟨fun b a hba => ⟨t, ht, ha, ?_⟩, t, ht, ha, hall⟩
        rw [hba] at hall hs
        exact askDecided_of_asksDecided hi hus hnv hall hs

end Sys2Proof.Dock
end
